-- ==== Sys2Proof/Word.lean ====
section
/-! DEFINITION. The word types of the block: a byte of a data stage, a 16-bit address word of a setup
packet, the 64-bit setup packet itself (spec 00_scope R10, 30_encoding R100). -/

namespace Sys2Proof

/-- A byte, 8 bits (R10). -/
abbrev Byte := BitVec 8

/-- An address word of a control transfer, `value` or `index` (R70). -/
abbrev Word16 := BitVec 16

/-- The setup packet read as one little-endian number `W` (R100). -/
abbrev Word64 := BitVec 64

end Sys2Proof
end

