-- ==== Sys2Proof/Machine/Units.lean ====
section
/-! DEFINITION. The types of the DSP unit instances U5 to U12 (spec 10_state R21 to R23, R30 to R32) and
of what a USB transfer is answered with (20_memory R76). Plain data only. A real number of the spec is a
`Rat` here (notes/assumptions/10.md). -/

namespace Sys2Proof.Machine

/-- A FIR filter instance (R22, R23): `c` the reversed coefficients, `step` the tap distance, `buf` the
history followed by the current block, `n` the length of the current block. -/
structure Fir where
  c    : List Rat
  step : Nat
  buf  : List Rat
  n    : Nat
  deriving DecidableEq, Repr, Inhabited

/-- A real-stream downsampler (R31, U6): its filter has step 1. -/
structure Downsampler where
  inRate  : Rat
  outRate : Rat
  filter  : Fir
  deriving DecidableEq, Repr, Inhabited

/-- An IQ downsampler (R31, U7): its filter has step 2, over the interleaved stream. -/
structure IqDownsampler where
  inRate  : Rat
  outRate : Rat
  filter  : Fir
  deriving DecidableEq, Repr, Inhabited

/-- An FM demodulator (R21, R26, R32, U8). -/
structure Fm where
  iqds    : IqDownsampler
  gain    : Rat
  prevI   : Rat
  prevQ   : Rat
  carrier : Bool
  deriving DecidableEq, Repr, Inhabited

/-- An AM demodulator (R21, R26, R32, U9). -/
structure Am where
  iqds     : IqDownsampler
  carrier  : Bool
  relPower : Rat
  deriving DecidableEq, Repr, Inhabited

/-- An exponential averager (R21, R32, U10). The register the spec calls `avg.var` is `vari` here. -/
structure Averager where
  w            : Rat
  withVariance : Bool
  avg          : Rat
  vari         : Rat
  deriving DecidableEq, Repr, Inhabited

/-- A stereo pilot separator (R21, R27, R30, R32, U11): `sinTab`, `cosTab` are the tables `SIN`, `COS`;
`sin`, `cos` the oscillator phasor. -/
structure Stereo where
  sampleRate : Rat
  sinTab     : List Rat
  cosTab     : List Rat
  sin        : Rat
  cos        : Rat
  iavg       : Averager
  qavg       : Averager
  cavg       : Averager
  found      : Bool
  deriving DecidableEq, Repr, Inhabited

/-- A de-emphasis filter (R21, R32, U12). -/
structure Deemphasis where
  alpha : Rat
  y     : Rat
  deriving DecidableEq, Repr, Inhabited

/-- A stream of one float sequence with its rate (R13). -/
structure MonoFloat where
  samples : List Rat
  rate    : Rat
  deriving DecidableEq, Repr, Inhabited

/-- A stream of pairs `(I, Q)` with its rate (R13): one list of pairs, so the two sequences have equal
length by construction. -/
structure IqFloat where
  samples : List (Rat × Rat)
  rate    : Rat
  deriving DecidableEq, Repr, Inhabited

/-- How the device answers one USB transfer (R76, R141, R143): the result code of the USB layer (0 is
success) and by how many bytes a data stage towards the block falls short of what was asked. -/
structure Answer where
  code    : Int
  missing : Nat
  deriving DecidableEq, Repr, Inhabited

/-- A transfer that succeeds and is complete. -/
def Answer.success : Answer := { code := 0, missing := 0 }

end Sys2Proof.Machine
end

