-- ==== Sys2Proof/Config.lean ====
section
/-! DEFINITION. Every literal of the spec as a named constant (00_scope R3, R8, 70_reset_and_hazards R353), the
configuration record of R9 and 92_eei_decisions Part 7 with its OPEN tables uninterpreted (`Config.tables`), and the free
values of the model. The record with its defaults, `Config.chip`, stands in Machine/Numerics.lean. -/

namespace Sys2Proof.Config

open Sys2Proof.Machine

/-! ## Constants of R8 -/

/-- XTAL_FREQ, Hz. -/
def xtalFreq : Nat := 28800000
/-- IF_FREQ, Hz. -/
def ifFreq : Nat := 3570000
/-- BYTES_PER_SAMPLE. -/
def bytesPerSample : Nat := 2
/-- SAMPLE_RATE = IN_RATE, samples/s. -/
def inRate : Nat := 1024000
/-- OUT_RATE, samples/s. -/
def outRate : Nat := 48000
/-- BUFS_PER_SEC. -/
def bufsPerSec : Nat := 5
/-- SAMPLES_PER_BUF. -/
def samplesPerBuf : Nat := 204800
/-- USB_VENDOR. -/
def usbVendor : Word16 := 0x0BDA
/-- USB_PRODUCTS. -/
def usbProducts : List Word16 := [0x2832, 0x2838]
/-- USB_INTERFACE. -/
def usbInterface : Byte := 1
/-- USB_BULK_EP, direction in. -/
def usbBulkEp : Byte := 1
/-- USB_REQUEST. -/
def usbRequest : Byte := 0
/-- WRITE_FLAG. -/
def writeFlag : Word16 := 0x10
/-- BLOCK_DEMOD (with page 0). -/
def blockDemod : Word16 := 0x000
/-- The number of DEMOD page 0 (R73). -/
def demodPage0 : Byte := 0
/-- The number of DEMOD page 1 (R73). -/
def demodPage1 : Byte := 1
/-- BLOCK_DEMOD with page 1 (R71, D20). -/
def blockDemod1 : Word16 := blockDemod ||| demodPage1.setWidth 16
/-- BLOCK_USB. -/
def blockUsb : Word16 := 0x100
/-- BLOCK_SYS. -/
def blockSys : Word16 := 0x200
/-- BLOCK_I2C. -/
def blockI2c : Word16 := 0x600
/-- REG_SYSCTL (block USB). -/
def regSysctl : Word16 := 0x2000
/-- REG_EPA_CTL (block USB). -/
def regEpaCtl : Word16 := 0x2148
/-- REG_EPA_MAXPKT (block USB). -/
def regEpaMaxpkt : Word16 := 0x2158
/-- REG_DEMOD_CTL (block SYS). -/
def regDemodCtl : Word16 := 0x3000
/-- REG_DEMOD_CTL_1 (block SYS). -/
def regDemodCtl1 : Word16 := 0x300B
/-- R820T_I2C_ADDR. -/
def r820tI2cAddr : Word16 := 0x34
/-- R820T_ID. -/
def r820tId : Byte := 0x69
/-- SHADOW_BASE. -/
def shadowBase : Nat := 0x05
/-- SHADOW_LEN. -/
abbrev shadowLen : Nat := 27
/-- The number of rows of R820T_MUX. -/
abbrev muxLen : Nat := 15
/-- The number of entries of R820T_POWERDOWN. -/
abbrev powerdownLen : Nat := 11
/-- Number of R820T byte registers, 0x00 to 0x1F (R74). -/
def r820tRegs : Nat := 32
/-- CAL_FREQ, Hz. -/
def calFreq : Nat := 56000000
/-- VCO_CONST, kHz. -/
def vcoConst : Nat := 1770000
/-- NINT_MAX. -/
def nintMax : Int := 63
/-- SDM_MAX. -/
def sdmMax : Int := 65535
/-- The largest gain step of GAIN_STEPS. -/
def gainStepMax : Int := 28
/-- CARRIER_THRESHOLD. -/
def carrierThreshold : Rat := 2 / 1000
/-- PILOT_FREQ, Hz. -/
def pilotFreq : Rat := 19000
/-- PILOT_TABLE_LEN. -/
def pilotTableLen : Nat := 8001
/-- CORR_CLAMP. -/
def corrClamp : Rat := 4
/-- The offset of the byte-to-float conversion, 0.995 (R286, 90_conflicts C1). -/
def iqOffset : Rat := 995 / 1000
/-- The identity string a model may print (R2). -/
def identity : String := "radioreceiver-rxblock/doc-v7"

/-! ## Tags (R118, R119) -/

/-- The tag of the message `process` (R118). -/
def tagProcess : Byte := 0
/-- The tag of the message `set_mode` (R118). -/
def tagSetMode : Byte := 1
/-- The tag of WBFM. DESIGN CHOICE (R119 gives none; notes/assumptions/1.md). -/
def tagWbfm : Byte := 0
/-- The tag of NBFM. DESIGN CHOICE (notes/assumptions/1.md). -/
def tagNbfm : Byte := 1
/-- The tag of AM. DESIGN CHOICE (notes/assumptions/1.md). -/
def tagAm : Byte := 2
/-- The tag of SSB. DESIGN CHOICE (notes/assumptions/1.md). -/
def tagSsb : Byte := 3

/-! ## Widths (R37, R82, R353) -/

/-- The legal widths of a register access (D19). -/
inductive RegLen where
  | one | two | four
  deriving DecidableEq, Repr, Inhabited

/-- The number of bytes of a legal width. -/
def RegLen.bytes : RegLen → Nat
  | .one => 1
  | .two => 2
  | .four => 4

/-- The width of SYSCTL (R37). -/
def sysctlLen : RegLen := .one
/-- The width of EPA_CTL (R37). -/
def epaCtlLen : RegLen := .two
/-- The width of EPA_MAXPKT (R37). -/
def epaMaxpktLen : RegLen := .two
/-- The width of DEMOD_CTL (R37). -/
def demodCtlLen : RegLen := .one
/-- The width of DEMOD_CTL_1 (R37). -/
def demodCtl1Len : RegLen := .one
/-- The width of each named register of DEMOD page 1 (R37). -/
def demodRegLen : RegLen := .one
/-- How many bytes `write_reg_mask` reads and writes (R82, R153). -/
def maskLen : Nat := 1
/-- How many bytes `read_demod_reg` reads (R82, R155). -/
def demodReadLen : Nat := 1
/-- How many bytes `i2c_read_reg` reads (R82, R159). -/
def i2cRegLen : Nat := 1
/-- How many `read_samples` may be in flight at once (R39 (c), R306). -/
abbrev maxReads : Nat := 2

/-! ## Literals of the register writes (R3, R37, R353) -/

/-- The value of SYSCTL at init (R202). -/
def sysctlInit : Nat := 0x09
/-- The value of EPA_MAXPKT at init (R202). -/
def epaMaxpktInit : Nat := 0x0200
/-- The first value of the buffer reset (R210). -/
def epaCtlReset : Nat := 0x0210
/-- The second value of the buffer reset (R210). -/
def epaCtlRun : Nat := 0x0000
/-- The value of DEMOD_CTL at init (R37). -/
def demodCtlInit : Nat := 0xE8
/-- The value of DEMOD_CTL_1 at init (R37). -/
def demodCtl1Init : Nat := 0x22
/-- The DEMOD page that holds the named registers, page 1 (R37). -/
abbrev namedPage : Bool := true
/-- The low byte of the address word of a DEMOD register (R73, R102). -/
def demodTag : Byte := 0x20
/-- The place of a DEMOD register's address in its address word, `(addr << 8) | 0x20` (R73, R102). -/
abbrev demodAddrPos : Nat := 8
/-- DEMOD page 1 register of the bridge and the demodulator reset (R37). -/
def regBridge : Byte := 0x01
/-- DEMOD page 1 register of the IF multiplier's most significant byte (R37). -/
def regIfMultHi : Byte := 0x19
/-- DEMOD page 1 register of the IF multiplier's middle byte (R37). -/
def regIfMultMid : Byte := 0x1A
/-- DEMOD page 1 register of the IF multiplier's low byte (R37). -/
def regIfMultLo : Byte := 0x1B
/-- DEMOD page 1 register of the PPM offset's high byte (R37). -/
def regPpmOffHi : Byte := 0x3E
/-- DEMOD page 1 register of the PPM offset's low byte (R37). -/
def regPpmOffLo : Byte := 0x3F
/-- The value that opens the bridge (R156). -/
def bridgeOpenValue : Nat := 0x18
/-- The value that closes the bridge (R157). -/
def bridgeCloseValue : Nat := 0x10
/-- The first value of the demodulator reset (R208). -/
def demodResetSet : Nat := 0x14
/-- The second value of the demodulator reset (R208). -/
def demodResetClear : Nat := 0x10
/-- `bmRequestType` of a read (R100). -/
def requestIn : Byte := 0xC0
/-- `bmRequestType` of a write (R100). -/
def requestOut : Byte := 0x40
/-- The mask of the resampling ratio (R205). -/
def ratioMask : Nat := 0x0FFFFFFC
/-- The width of the resampling ratio in bits (R111). -/
abbrev ratioBits : Nat := 28
/-- The width of the IF multiplier in bits (R112). -/
abbrev ifMultBits : Nat := 24
/-- The width of the PPM offset in bits (R113). -/
abbrev ppmOffBits : Nat := 16
/-- The scale of the resampling ratio and of the IF multiplier (R111, R112). -/
def ratioScale : Nat := 2 ^ 22
/-- The scale of the PPM offset (R113). -/
def ppmScale : Nat := 2 ^ 24
/-- One million: parts per million, Hz in a MHz, microseconds in a second. -/
def million : Nat := 1000000
/-- One thousand: Hz in a kHz. -/
def thousand : Nat := 1000
/-- The number of addresses of block USB and of block SYS (R72). -/
def blockSize : Nat := 65536
/-- The number of registers of a DEMOD page (R73). -/
def pageSize : Nat := 256

/-! ## Literals of the tuner (R114, R178, R181 to R183) -/

/-- R820T register of the identity byte, the first status register (R172, R203). -/
def regStatus : Byte := 0x00
/-- R820T register whose bits 6:4 choose the VCO. -/
def regVco : Byte := 0x10
/-- R820T register of the charge pump's bump. -/
def regChargePump : Byte := 0x12
/-- R820T register of `ni` and `si`. -/
def regNint : Byte := 0x14
/-- R820T register of the low byte of `sdm`. -/
def regSdmLow : Byte := 0x15
/-- R820T register of the high byte of `sdm`. -/
def regSdmHigh : Byte := 0x16
/-- R820T register of the filter code. -/
def regFilterCap : Byte := 0x0A
/-- The mask of the three top bits, of the divider and of the bump. -/
def topThreeMask : Byte := 0xE0
/-- The mask of a whole register. -/
def wholeMask : Byte := 0xFF
/-- The mask of a low nibble. -/
def lowNibbleMask : Byte := 0x0F
/-- The smallest integer divider of the packing (R114). -/
def nintMin : Int := 13
/-- The largest divider exponent of its 3-bit field. -/
def divNumMax : Int := 7
/-- The largest divider exponent before the fine-tune adjustment (R181). -/
def divNumBaseMax : Int := 6
/-- By how much the fine-tune reading moves the divider exponent (R181). -/
def divNumStep : Int := 1
/-- The scale of `sdm` (R182). -/
def sdmScale : Int := 32768
/-- The number of status bytes U3 reads (R125). -/
def statusLen : Nat := 5
/-- The status register of LOCK, and its bit (R36). -/
def lockReg : Nat := 2
/-- The bit of LOCK. -/
def lockPos : Nat := 6
/-- The status register of VCO_FINE and FIL_CAL (R36). -/
def calReg : Nat := 4
/-- The lowest bit of VCO_FINE. -/
def vcoFinePos : Nat := 4
/-- The width of VCO_FINE. -/
def vcoFineWidth : Nat := 2
/-- The lowest bit of FIL_CAL. -/
def filCalPos : Nat := 0
/-- The width of FIL_CAL, and of the filter code (R36). -/
abbrev filCalWidth : Nat := 4
/-- `1 << 5`: the place of the divider in register 0x10 and of the bump in register 0x12 (R114, R183). -/
def topThreePlace : Nat := 32
/-- The divisor of `nint` that gives `ni` (R114). -/
def nintStep : Int := 4
/-- `1 << 6`: the place of `si` in register 0x14 (R114). -/
def siPlace : Nat := 64
/-- The factor of the reference in the quotient that gives `nint` (R181). -/
def pllRefFactor : Int := 2
/-- What the divider's exponent is increased by in `mixDiv` (R181). -/
def mixDivExtra : Nat := 1
/-- What the gain step is increased by before the LNA's share is taken (R116). -/
def lnaExtra : Nat := 1
/-- The share of the gain step that goes to the LNA and to the mixer, one half (R116). -/
def gainParts : Nat := 2
/-- The filter code that counts as 0 (R178). -/
def filCalNone : BitVec filCalWidth := 0xF

/-! ## Literals of the data path (R221, R256, R272, R274, R286, R289 to R291) -/

/-- The tap distance of a filter over a real stream (R31). -/
def realStep : Nat := 1
/-- The tap distance of a filter over the interleaved stream (R31, R241). -/
abbrev iqStep : Nat := 2
/-- The constant term of the window, 0.42. -/
def windowA0 : Rat := 42 / 100
/-- The first cosine term of the window, 0.5. -/
def windowA1 : Rat := 1 / 2
/-- The second cosine term of the window, 0.08. -/
def windowA2 : Rat := 8 / 100
/-- The gain of the separator's output (R273). -/
def diffGain : Rat := 2
/-- The distance of the pilot table's entries, Hz (R272). -/
def pilotStep : Rat := 1 / 100
/-- The table entry of the nominal pilot (R272). -/
def pilotCentre : Nat := 4000
/-- Table entries per unit of the phase-error ratio (R274). -/
def pilotPerUnit : Rat := 1000
/-- The divisor of the byte-to-float conversion (R286). -/
def iqScale : Rat := 128
/-- The inter rate of the WBFM chain (R289). -/
def wbfmInter : Nat := 336000
/-- The deviation of the WBFM chain, Hz (R289). -/
def wbfmMaxF : Rat := 75000
/-- The channel cutoff of the WBFM chain as a share of the deviation, 0.9 (R289). -/
def wbfmFilterShare : Rat := 9 / 10
/-- The length of the WBFM channel filter (R289). -/
def wbfmKernelLen : Nat := 101
/-- The smallest `multiple` of the NBFM chain (R290). -/
abbrev nbfmLeast : Int := 1
/-- The deviation from which `multiple` counts, Hz; a smaller one is refused (R290, R123). -/
abbrev nbfmMinF : Rat := 1
/-- The factor of the NBFM chain's `multiple` (R290). -/
def nbfmFactor : Rat := 7
/-- The divisor of the NBFM chain's `multiple` (R290). -/
def nbfmDivisor : Rat := 75000
/-- The channel cutoff of the NBFM chain as a share of the deviation, 0.8 (R290). -/
def nbfmFilterShare : Rat := 8 / 10
/-- The audio cutoff of the NBFM chain, Hz (R290). -/
def nbfmAudioCutoff : Rat := 8000
/-- The length of the NBFM audio filter (R290). -/
def nbfmAudioTaps : Nat := 41
/-- The channel cutoff of the AM chain as a share of the bandwidth, one half (R291). -/
def amFilterShare : Rat := 1 / 2
/-- The length of the AM channel filter (R291). -/
def amKernelLen : Nat := 351
/-- The factor of the AM signal level, 3.5 (R291). -/
def amLevelFactor : Rat := 7 / 2

/-! ## The OPEN parameters (R9, 92_eei_decisions Part 7) -/

/-- A TRIPLE of a table (R105). The register is kept as its offset from 0x05, so that a table entry names a
shadowed register by construction. -/
structure TableTriple where
  offset : Fin shadowLen
  value  : Byte
  mask   : Byte
  deriving DecidableEq, Repr, Inhabited

/-- A MUXROW (R106). -/
structure MuxRow where
  thresholdMHz : Nat
  t0 : TableTriple
  t1 : TableTriple
  t2 : TableTriple
  deriving DecidableEq, Repr, Inhabited

/-- A row of `R820T_MUX` as the table holds it: its threshold by the distance from the row before it, less one, so that
the thresholds increase by construction (R106). -/
structure MuxGap where
  gap : Nat
  t0  : TableTriple
  t1  : TableTriple
  t2  : TableTriple
  deriving DecidableEq, Repr, Inhabited

/-- The threshold of row `k`, MHz: the distances up to it, with one between two rows. -/
def muxThreshold (rows : Vector MuxGap muxLen) (k : Nat) : Nat :=
  ((rows.toList.take (k + 1)).map MuxGap.gap).sum + k

/-- `R820T_MUX` with its thresholds (R106, D27). -/
def muxRows (rows : Vector MuxGap muxLen) : Vector MuxRow muxLen :=
  Vector.ofFn fun k => ⟨muxThreshold rows k.val, rows[k].t0, rows[k].t1, rows[k].t2⟩

/-- The register blocks a REG entry of `RTL_INIT` may name: every block of R151, a DEMOD page with it
(notes/assumptions/43.md). -/
inductive InitBlock where
  | usb | sys | i2c | demodPage0 | demodPage1
  deriving DecidableEq, Repr, Inhabited

/-- The block's constant. -/
def InitBlock.word : InitBlock → Word16
  | .usb => blockUsb
  | .sys => blockSys
  | .i2c => blockI2c
  | .demodPage0 => blockDemod
  | .demodPage1 => blockDemod1

/-- An INITENTRY of `RTL_INIT` (R106): a register write, or a DEMOD write to page 0 or 1. -/
inductive InitEntry where
  | reg (block : InitBlock) (reg : Word16) (value : Nat) (len : RegLen)
  | demod (page1 : Bool) (addr : Byte) (value : Nat) (len : RegLen)
  deriving DecidableEq, Repr, Inhabited

/-- A DEMODREG write, as `RATIO_REGS` lists them (D32). -/
structure DemodWrite where
  page1 : Bool
  addr  : Byte
  value : Nat
  len   : RegLen
  deriving DecidableEq, Repr, Inhabited

/-- The index word of a DEMOD page (R102, D20). -/
def pageWord (page1 : Bool) : Word16 := if page1 then blockDemod1 else blockDemod

/-- The width of R37 of a named DEMOD register: all have the same, on one page. -/
def namedDemodWidth (page1 : Bool) (addr : Byte) : Option Nat :=
  if page1 == namedPage && (addr == regBridge || addr == regIfMultHi || addr == regIfMultMid || addr == regIfMultLo
    || addr == regPpmOffHi || addr == regPpmOffLo)
  then some demodRegLen.bytes else none

/-- The width of R37 of a named register, where the register is named. -/
def namedWidth (block reg : Word16) : Option Nat :=
  if block = blockUsb then
    if reg = regSysctl then some sysctlLen.bytes
    else if reg = regEpaCtl then some epaCtlLen.bytes
    else if reg = regEpaMaxpkt then some epaMaxpktLen.bytes
    else none
  else if block = blockSys then
    if reg = regDemodCtl then some demodCtlLen.bytes
    else if reg = regDemodCtl1 then some demodCtl1Len.bytes
    else none
  else if block = pageWord namedPage then namedDemodWidth namedPage (reg.extractLsb' demodAddrPos 8)
  else none

/-- Whether a width agrees with the named width, where there is one (R80, G14). -/
def widthOk : Option Nat → Nat → Bool
  | none, _ => true
  | some w, n => w == n

/-- A table entry accesses a named register with the register's own width (R80). -/
def InitEntry.legal : InitEntry → Bool
  | .reg block r _ len => widthOk (namedWidth block.word r) len.bytes
  | .demod page1 addr _ len => widthOk (namedDemodWidth page1 addr) len.bytes

/-- A DEMOD write accesses a named register with the register's own width (R80). -/
def DemodWrite.legal (w : DemodWrite) : Bool := widthOk (namedDemodWidth w.page1 w.addr) w.len.bytes

/-- `RTL_INIT` (R9): a list of entries that contains the writes of DEMOD_CTL and DEMOD_CTL_1, at positions
and in an order the table fixes. The shape makes the containment hold by construction. -/
structure RtlInit where
  before   : List {e : InitEntry // e.legal = true}
  between  : List {e : InitEntry // e.legal = true}
  after    : List {e : InitEntry // e.legal = true}
  ctl1First : Bool
  deriving DecidableEq, Repr, Inhabited

/-- `REG(0x200, 0x3000, 0xE8, 1)` (R37). -/
def demodCtlEntry : InitEntry := .reg .sys regDemodCtl demodCtlInit demodCtlLen
/-- `REG(0x200, 0x300B, 0x22, 1)` (R37). -/
def demodCtl1Entry : InitEntry := .reg .sys regDemodCtl1 demodCtl1Init demodCtl1Len

/-- The entries of `RTL_INIT` in their order. -/
def RtlInit.entries (t : RtlInit) : List InitEntry :=
  t.before.map Subtype.val ++ [if t.ctl1First then demodCtl1Entry else demodCtlEntry]
    ++ t.between.map Subtype.val ++ [if t.ctl1First then demodCtlEntry else demodCtl1Entry]
    ++ t.after.map Subtype.val

/-- The OPEN parameters: everything the source refers to and does not print. Each field's type carries the
only facts a model may assume of it (92_eei_decisions Part 7). `r820tPllPre` takes no default: R9 and D28 give it the
empty list, G30 none. DESIGN CHOICE (notes/assumptions/47.md). Lengths of kernels are given less one and
the cutoff by its two parts less one, so that they are positive by construction; the signal level is given by its numerator
and its denominator less one, and which demodulator states come of a valid composite (R289) is a field of its own. -/
structure Tables where
  r820tDefaults     : Vector Byte shadowLen
  r820tInitElec     : List TableTriple
  r820tInitPost     : List TableTriple
  r820tCalPre       : List TableTriple
  r820tCalStart     : List TableTriple
  r820tCalStop      : List TableTriple
  r820tPllPre       : List TableTriple
  r820tMuxGaps      : Vector MuxGap muxLen
  r820tPowerdown    : Vector TableTriple powerdownLen
  gainStep          : Rat → Int
  gainRegs          : Nat → Nat → List TableTriple
  autoGainSeq       : List TableTriple
  rtlInit           : RtlInit
  ratioRegs         : BitVec ratioBits → List {w : DemodWrite // w.legal = true}
  wbfmCutoffNumLess1 : Nat
  wbfmCutoffDenLess1 : Nat
  wbfmTapsLess1     : Nat
  nbfmKernelLenLess1 : Nat → Nat
  signalLevelParts  : Fm → Nat × Nat
  validComposite    : Fm → Bool
  deriving Inhabited

/-- The numerics record `Num` (R9, R12, D3): the functions the rules are written over, `sin` and `cos` of an angle in turns,
`exp` of a negated argument. -/
structure Num where
  rnd32    : Rat → Rat
  sinTurns : Rat → Rat
  cosTurns : Rat → Rat
  expNeg   : Rat → Rat
  atan2    : Rat → Rat → Rat
  sqrt     : Rat → Rat
  log2     : Rat → Rat

/-- The configuration record of R9: the OPEN tables, the numerics, and the parameters with a decided value, each with its
default (92_eei_decisions Part 7; the spec's own choices, notes/assumptions/5.md). The two timeouts are informative, in
seconds (D41). -/
structure Params extends Tables where
  num           : Num
  relPowerAm    : Rat → Rat → Rat
  vcoPowerRef   : Nat := 2
  cpBump        : Nat := 3
  ifMultTopMask : Nat := 0xFF
  ppmOffTopMask : Nat := 0xFF
  wProj         : Rat := 9999
  wLock         : Rat := 49999
  lockThres     : Rat := 4
  deemphTau     : Rat := 50
  ctrlTimeout   : Nat := 1
  bulkTimeout   : Nat := 2

/-- R820T_MUX, thresholds increasing. -/
def Tables.r820tMux (c : Tables) : Vector MuxRow muxLen := muxRows c.r820tMuxGaps
/-- WBFM_AUDIO_CUTOFF, Hz, positive. -/
def Tables.wbfmAudioCutoff (c : Tables) : Rat :=
  mkRat (c.wbfmCutoffNumLess1 + 1) (c.wbfmCutoffDenLess1 + 1)
/-- WBFM_AUDIO_TAPS, positive. -/
def Tables.wbfmAudioTaps (c : Tables) : Nat := c.wbfmTapsLess1 + 1
/-- NBFM_KERNEL_LEN, positive. -/
def Tables.nbfmKernelLen (c : Tables) (multiple : Nat) : Nat := c.nbfmKernelLenLess1 multiple + 1
/-- SIGNAL_LEVEL_FM of a demodulator after its block: never negative, and positive where the composite is valid (R289;
notes/assumptions/26.md). -/
def Tables.signalLevelFm (c : Tables) (m : Fm) : Rat :=
  mkRat ((c.signalLevelParts m).1 + (if c.validComposite m then 1 else 0)) ((c.signalLevelParts m).2 + 1)

/-- The OPEN parameters of the chip: uninterpreted, so that whatever is proved holds for every choice of
them (G30, G31; notes/assumptions/4.md). -/
opaque tables : Tables

/-! ## Free values (notes/assumptions/6.md to 18.md say where each is used) -/

/-- The answer to the `n`-th transfer since power-up, where nothing scripts it (R76). -/
opaque answer : Nat → Answer
/-- Byte `k` of the data stage of transfer `n`, where no store and no script gives it (R72, R74, R76). -/
opaque deviceByte : Nat → Nat → Byte
/-- Byte number `pos` of the sample stream after the `epoch`-th buffer reset (R75, R76). -/
opaque sampleByte : Nat → Nat → Byte
/-- The code a USB layer gives a short transfer (R108, D21), its positive values less one. -/
opaque shortCodeFree : Nat → Int
/-- The result code recorded for a short transfer whose own code is zero: any but zero (R108). -/
def shortCode (n : Nat) : Int := if 0 ≤ shortCodeFree n then shortCodeFree n + 1 else shortCodeFree n
/-- The free text of the error record of transfer `n` (R108). -/
opaque errorText : Nat → String
/-- The value stored where a result lies outside the binary32 range: any binary32 value (R12). -/
opaque overflow32 : Rat → BitVec 32
/-- Output sample `k` of an AM block whose mean amplitude is 0, for the `n`-th such draw (R257, G11). -/
opaque amSample : Nat → Nat → BitVec 32
/-- Tap `k` of a filter whose approximated taps sum to zero, though the exact ones do not (R221; notes/assumptions/42.md). -/
opaque lowpassTap : Nat → BitVec 32
/-- How many pairs of sample bytes bulk read `n` uses up where it fails or falls short, not bounded here (R39, R75, R81;
notes/assumptions/44.md). -/
opaque lostPairs : Nat → Nat
/-- The IF multiplier where `xtalFreq` is 0 and the quotient has no value (R204). -/
opaque ifMultNoXtal : Int
/-- `nint` and `sdm` where the PLL reference is 0 and the quotients have no value (R181, R182). -/
opaque pllNoRef : Nat → Int × Int
/-- Byte `k` of a shadow that was never filled, where `rtl.close` writes from it (R317). -/
opaque shadowByte : Nat → Nat → Byte
/-- The I2C read pointer after a pointer write that failed in transfer `n` (R142). -/
opaque pointerAfterFailure : Nat → Byte

end Sys2Proof.Config
end

