-- ==== Sys2Proof/Machine/Numerics.lean ====
section
/-! DEFINITION. The numerics record `Num` of the spec (00_scope R9, R12, 92_eei_decisions D3) over rationals, and the
configuration record `Config.chip` that holds it: `rnd32` is the binary32 rounding to nearest, ties to even;
`sin`, `cos`, `exp`, `atan2`, `sqrt` are
rationals closer than 2^-250 to the exact real function (notes/assumptions/10.md). Every rule of the data path is
computed exactly over these and rounded where the rule stores. -/

namespace Sys2Proof.Machine

/-! ## binary32 storage -/

/-- `n / d` rounded to the nearest integer, ties to even. -/
def roundTiesEven (n d : Nat) : Nat :=
  let q := n / d
  let r := n % d
  if 2 * r < d then q else if d < 2 * r then q + 1 else if q % 2 = 0 then q else q + 1

/-- Whether `n / d ≥ 2^k`. -/
def atLeastPow2 (n d : Nat) : Int → Bool
  | .ofNat m => decide (d * 2 ^ m ≤ n)
  | .negSucc m => decide (d ≤ n * 2 ^ (m + 1))

/-- `floor(log2(n / d))` for positive `n`, `d`. -/
def floorLog2 (n d : Nat) : Int :=
  let k : Int := (Nat.log2 n : Int) - (Nat.log2 d : Int)
  if atLeastPow2 n d k then k else k - 1

/-- The exponent of the last place of binary32 at `n / d`: 23 below the leading bit, never below -149. -/
def ulpExp (n d : Nat) : Int := max (floorLog2 n d) (-126) - 23

/-- `m * 2^t` as a rational. -/
def scale2 (m : Nat) : Int → Rat
  | .ofNat t => ((m * 2 ^ t : Nat) : Rat)
  | .negSucc t => mkRat m (2 ^ (t + 1))

/-- The magnitude `n / d` rounded to 24 significant bits (fewer below 2^-126), ties to even. -/
def roundMagnitude (n d : Nat) : Rat :=
  let t := ulpExp n d
  match t with
  | .ofNat m => scale2 (roundTiesEven n (d * 2 ^ m)) t
  | .negSucc m => scale2 (roundTiesEven (n * 2 ^ (m + 1)) d) t

/-- The value of a binary32 pattern, its exponent field taken modulo 255 so that it is finite. -/
def binary32Value (b : BitVec 32) : Rat :=
  let m : Nat := b.toNat % 2 ^ 23
  let e : Nat := b.toNat / 2 ^ 23 % 256 % 255
  let v : Rat := if e = 0 then scale2 m (-149) else scale2 (m + 2 ^ 23) ((e : Int) - 150)
  if b.toNat / 2 ^ 31 = 0 then v else -v

/-- The magnitude of a binary32 pattern. -/
def binary32Magnitude (b : BitVec 32) : Rat := binary32Value (b &&& 0x7FFFFFFF)

/-- The magnitude `n / d` as binary32 stores it. Outside the binary32 range the spec gives no value: any binary32 magnitude,
`x` being the value stored (notes/assumptions/11.md). -/
def storedMagnitude (x : Rat) : Rat :=
  let r := roundMagnitude x.num.natAbs x.den
  if r < (2 : Rat) ^ 128 then r else binary32Magnitude (Config.overflow32 x)

/-- The IEEE 754 binary32 value nearest to `x`, ties to even (R12), with the sign of `x`. -/
def rnd32Ref (x : Rat) : Rat :=
  if x.num = 0 then 0 else if 0 < x.num then storedMagnitude x else -storedMagnitude x

/-- `round(x) = floor(x + 0.5)` (R11). -/
def roundHalfUp (x : Rat) : Int := (x + 1 / 2).floor

/-- `clamp(x, lo, hi) = max(lo, min(hi, x))` (R11). -/
def clampRat (x lo hi : Rat) : Rat :=
  let m := if x < hi then x else hi
  if lo < m then m else lo

/-! ## Fixed-point series -/

/-- Fraction bits of the fixed-point numbers. -/
def fixBits : Nat := 320
/-- One, in fixed point. -/
def fixOne : Nat := 2 ^ fixBits
/-- `floor(pi * 2^320)`. -/
def piFix : Nat :=
  6710401180212168915155840974220003240804194089427148950727106424351713218671805380099500388914039

/-- A fixed-point number as a rational. -/
def ofFix (n : Nat) : Rat := mkRat n fixOne

/-- The rational within 2^-319 of pi. -/
def piRat : Rat := ofFix piFix

/-- The alternating series `t - t*x2/((k+1)(k+2)) + …`, cut off after `fuel` terms. -/
def trigSeries (x2 : Nat) : Nat → Nat → Nat → Nat
  | 0, _, _ => 0
  | fuel + 1, k, t => t - trigSeries x2 fuel (k + 2) (t * x2 / fixOne / ((k + 1) * (k + 2)))

/-- sine of a fixed-point angle of at most pi/4. -/
def sinFix (x : Nat) : Nat := trigSeries (x * x / fixOne) 45 1 x
/-- cosine of a fixed-point angle of at most pi/4. -/
def cosFix (x : Nat) : Nat := trigSeries (x * x / fixOne) 45 0 fixOne

/-- The fixed-point angle of `t ≥ 0` turns. -/
def angleFix (t : Rat) : Nat := t.num.natAbs * 2 * piFix / t.den

/-- `sin` of `t` turns for `0 ≤ t ≤ 1/8`; below 2^-64 by the first two terms of its series, so that the value is close
relative to its size. -/
def sinFirst (t : Rat) : Rat :=
  if t < mkRat 1 (2 ^ 64) then
    let x := 2 * piRat * t
    x - x * x * x / 6
  else ofFix (sinFix (angleFix t))

/-- `sin(2 * pi * q)`: `q` is reduced exactly to an eighth of a turn, so the value is exact at every half turn. -/
def sinTurnsRef (q : Rat) : Rat :=
  let r := q - q.floor
  match (8 * r).floor.toNat with
  | 0 => sinFirst r
  | 1 => ofFix (cosFix (angleFix (1 / 4 - r)))
  | 2 => ofFix (cosFix (angleFix (r - 1 / 4)))
  | 3 => sinFirst (1 / 2 - r)
  | 4 => -sinFirst (r - 1 / 2)
  | 5 => -ofFix (cosFix (angleFix (3 / 4 - r)))
  | 6 => -ofFix (cosFix (angleFix (r - 3 / 4)))
  | _ => -sinFirst (1 - r)

/-- The series of `exp(-y)` for fixed-point `y ≤ 1`: `t - t*y/(k+1) + …`. -/
def expSeries (y : Nat) : Nat → Nat → Nat → Nat
  | 0, _, _ => 0
  | fuel + 1, k, t => t - expSeries y fuel (k + 1) (t * y / fixOne / (k + 1))

/-- The square of `m / 2^k` for `m` of 320 bits, cut to 320 bits again. -/
def squareNorm (e : Nat × Nat) : Nat × Nat :=
  let p := e.1 * e.1
  if p < 2 ^ 639 then (p / 2 ^ 319, 2 * e.2 - 319) else (p / 2 ^ 320, 2 * e.2 - 320)

/-- The `n`-fold square. -/
def squareNormN : Nat → Nat × Nat → Nat × Nat
  | 0, e => e
  | n + 1, e => squareNormN n (squareNorm e)

/-- `exp(-a)` for `2^-100 ≤ a ≤ 4096`: the series at `a / 4096`, squared twelve times, close relative to its size. -/
def expMiddle (a : Rat) : Rat :=
  let e := expSeries (a.num.natAbs * fixOne / (a.den * 4096)) 75 0 fixOne
  let r := squareNormN 12 (if e < 2 ^ 319 then (2 * e, 321) else (e, 320))
  mkRat r.1 (2 ^ r.2)

/-- `exp(-a)` for `a ≥ 0`, strictly between 0 and 1 for `a > 0`: below 2^-100 by its first three terms, above 4096, where
the value is below 2^-5909, as 2^-5910. -/
def expNegRef (a : Rat) : Rat :=
  if a < mkRat 1 (2 ^ 100) then 1 - a + a * a / 2
  else if 4096 < a then mkRat 1 (2 ^ 5910)
  else expMiddle a

/-- The integer square root, one bit a step from bit `fuel - 1` down. -/
def isqrtBits (n : Nat) : Nat → Nat → Nat
  | 0, r => r
  | fuel + 1, r =>
    let c := r + 2 ^ fuel
    isqrtBits n fuel (if c * c ≤ n then c else r)

/-- `floor(sqrt n)`. -/
def isqrt (n : Nat) : Nat := isqrtBits n (Nat.log2 n / 2 + 1) 0

/-- `sqrt(q)` for `q ≥ 0`: exact where numerator and denominator are squares, else with at least 319 significant
bits. -/
def sqrtRef (q : Rat) : Rat :=
  let n := q.num.natAbs
  let d := q.den
  let a := isqrt n
  let b := isqrt d
  if a * a = n ∧ b * b = d then mkRat a b
  else
    let s := 2 ^ (fixBits + (Nat.log2 d - Nat.log2 n))
    mkRat (isqrt (n * s * s / d)) s

/-- The series of the arctangent of a fixed-point `t ≤ 1/2`: `p/(2k+1) - …`. -/
def atanSeries (t2 : Nat) : Nat → Nat → Nat → Nat
  | 0, _, _ => 0
  | fuel + 1, k, p => p / (2 * k + 1) - atanSeries t2 fuel (k + 1) (p * t2 / fixOne)

/-- arctangent of a fixed-point number of at most 1/2. -/
def atanFix (t : Nat) : Nat := atanSeries (t * t / fixOne) 165 0 t

/-- arctangent of `n / d` for `n ≤ d`. -/
def atanUnit (n d : Nat) : Rat :=
  if 2 * n ≤ d then ofFix (atanFix (n * fixOne / d))
  else piRat / 4 - ofFix (atanFix ((d - n) * fixOne / (d + n)))

/-- The angle of `(x, y)` for `y ≥ 0`, not both zero: in `[0, pi]`. -/
def atanUpper (y x : Rat) : Rat :=
  let n := y.num.natAbs * x.den
  let d := x.num.natAbs * y.den
  let base := if n ≤ d then atanUnit n d else piRat / 2 - atanUnit d n
  if x < 0 then piRat - base else base

/-- `cos(2 * pi * q)`. -/
def cosTurnsRef (q : Rat) : Rat := sinTurnsRef (q + 1 / 4)

/-- The binary digits of `log2(m / 2^320)` after the point, for `2^320 ≤ m < 2^321`: the square of `m`, and one digit where
it reaches 2. -/
def log2Digits : Nat → Nat → Nat
  | 0, _ => 0
  | fuel + 1, m =>
    let p := m * m / fixOne
    if 2 * fixOne ≤ p then 2 ^ fuel + log2Digits fuel (p / 2) else log2Digits fuel p

/-- The digits of the logarithm after the point. -/
def log2Bits : Nat := 256

/-- `n / d * 2^320 / 2^k` for `2^k ≤ n / d < 2^(k + 1)`. -/
def mantissaFix (n d : Nat) : Int → Nat
  | .ofNat m => n * fixOne / (d * 2 ^ m)
  | .negSucc m => n * 2 ^ (m + 1) * fixOne / d

/-- `log2(q)` for `q > 0`: the exponent, exactly, and its digits after the point. -/
def log2Ref (q : Rat) : Rat :=
  let k := floorLog2 q.num.natAbs q.den
  k + mkRat (log2Digits log2Bits (mantissaFix q.num.natAbs q.den k)) (2 ^ log2Bits)

/-- `atan2(y, x)` (R252, R254): 0 at the origin, odd in `y`, `+pi` for `y = 0`, `x < 0`. -/
def atan2Ref (y x : Rat) : Rat :=
  if y = 0 ∧ x = 0 then 0 else if y < 0 then -atanUpper (-y) x else atanUpper y x

/-! ## The record, and the functions the rules use (R9, R12) -/

/-- The reference numerics: binary32 storage and the functions above (D3; notes/assumptions/10.md). -/
def referenceNum : Config.Num :=
  { rnd32 := rnd32Ref, sinTurns := sinTurnsRef, cosTurns := cosTurnsRef, expNeg := expNegRef, atan2 := atan2Ref
    sqrt := sqrtRef, log2 := log2Ref }

/-- The nearest multiple of 2^-200: removes the error of an approximated value where the exact one is a short binary
fraction (notes/assumptions/10.md). -/
def snap (x : Rat) : Rat := mkRat (x * 2 ^ 200 + 1 / 2).floor (2 ^ 200)

/-- The default of REL_POWER_AM: `P / S`, 0 where `S = 0` (R259). -/
def relativePower (p s : Rat) : Rat := if s = 0 then 0 else p / s

end Sys2Proof.Machine

/-- The chip's configuration: its OPEN tables, the reference numerics, and the decided defaults (R9). -/
def Sys2Proof.Config.chip : Sys2Proof.Config.Params :=
  { Sys2Proof.Config.tables with
    num := Sys2Proof.Machine.referenceNum
    relPowerAm := Sys2Proof.Machine.relativePower }

namespace Sys2Proof.Machine

/-- `rnd32` of the configuration's numerics (R12). -/
def rnd32 (c : Config.Params) (x : Rat) : Rat := c.num.rnd32 x

/-- `rnd32` of a value computed from approximated functions. -/
def rndApprox (c : Config.Params) (x : Rat) : Rat := rnd32 c (snap x)

/-- `sin(2 * pi * q)`. -/
def sinTurns (c : Config.Params) (q : Rat) : Rat := c.num.sinTurns q

/-- `cos(2 * pi * q)`. -/
def cosTurns (c : Config.Params) (q : Rat) : Rat := c.num.cosTurns q

/-- `exp(-a)`. -/
def expNeg (c : Config.Params) (a : Rat) : Rat := c.num.expNeg a

/-- `sqrt(q)`. -/
def sqrtRat (c : Config.Params) (q : Rat) : Rat := c.num.sqrt q

/-- `hypot(a, b)` (R12). -/
def hypotRat (c : Config.Params) (a b : Rat) : Rat := sqrtRat c (a * a + b * b)

/-- `atan2(y, x)`. -/
def atan2Rat (c : Config.Params) (y x : Rat) : Rat := c.num.atan2 y x

end Sys2Proof.Machine
end

