-- ==== Sys2Proof/Machine/Operands.lean ====
section
/-! DEFINITION. Byte orders, bit fields and the words assembled from operands (spec 00_scope R10, 30_encoding
R100 to R103, R110 to R116). -/

namespace Sys2Proof.Machine

open Sys2Proof.Config (Params)

/-! ## Byte orders (R10, R110) -/

/-- `LE_n(v)`: the `n` low bytes of `v`, least significant first. -/
def leBytes : Nat → Nat → List Byte
  | 0, _ => []
  | n + 1, v => BitVec.ofNat 8 v :: leBytes n (v / 256)

/-- `BE_n(v)`: the `n` low bytes of `v`, most significant first. -/
def beBytes (n v : Nat) : List Byte := (leBytes n v).reverse

/-- The little-endian value of a data stage: the sum of `bytes[k] << (8k)`. -/
def leValue : List Byte → Nat
  | [] => 0
  | b :: bs => b.toNat + 256 * leValue bs

/-! ## Setup packets (R100 to R103) -/

/-- The setup packet `W` of R100. -/
def setupPacket (requestType : Byte) (value index length : Word16) : Word64 :=
  length ++ index ++ value ++ Config.usbRequest ++ requestType

/-- The setup packet of a read. -/
def setupRead (value index length : Word16) : Word64 := setupPacket Config.requestIn value index length

/-- The setup packet of a write; `index` as transmitted. -/
def setupWrite (value index length : Word16) : Word64 := setupPacket Config.requestOut value index length

/-- The address word of a DEMOD register, `(addr << 8) | 0x20` (R102). -/
def demodValue (addr : Byte) : Word16 :=
  addr.setWidth 16 <<< Config.demodAddrPos ||| Config.demodTag.setWidth 16

/-- The DEMOD register an address word selects, its high byte (R73). -/
def demodAddr (value : Word16) : Byte := value.extractLsb' Config.demodAddrPos 8

/-- The index word of a DEMOD page (R102, D20). -/
def pageIndex (page1 : Bool) : Word16 := Config.pageWord page1

/-- The page that a number of a DEMOD page names, whether it is page 1; none where there is no such page (R73, R123). -/
def pageOf (page : Byte) : Option Bool :=
  if page = Config.demodPage0 then some false else if page = Config.demodPage1 then some true else none

/-! ## Which format a setup packet has (R101 to R103, R37); `index` is given without the write flag -/

/-- The named registers of the table: value, index, number of data bytes. -/
def namedWrites : List (Word16 × Word16 × Nat) :=
  [(Config.regSysctl, Config.blockUsb, Config.sysctlLen.bytes),
   (Config.regEpaMaxpkt, Config.blockUsb, Config.epaMaxpktLen.bytes),
   (Config.regEpaCtl, Config.blockUsb, Config.epaCtlLen.bytes),
   (Config.regDemodCtl, Config.blockSys, Config.demodCtlLen.bytes),
   (Config.regDemodCtl1, Config.blockSys, Config.demodCtl1Len.bytes)] ++
  [Config.regBridge, Config.regIfMultHi, Config.regIfMultMid, Config.regIfMultLo, Config.regPpmOffHi,
   Config.regPpmOffLo].map fun addr => (demodValue addr, pageIndex Config.namedPage, Config.demodRegLen.bytes)

/-- A write of one of the named registers. -/
def isNamedWrite (value index : Word16) (n : Nat) : Bool := namedWrites.contains (value, index, n)

/-- The address words of the R820T (R103). -/
def isI2cForm (value index : Word16) : Bool := value == Config.r820tI2cAddr && index == Config.blockI2c

/-- An index word of a DEMOD page (R71). -/
def isDemodPage (index : Word16) : Bool := index == Config.blockDemod || index == Config.blockDemod1

/-- The address words of a DEMOD register (R102): page 0 or 1, low byte of `value` 0x20. -/
def isDemodForm (value index : Word16) : Bool := isDemodPage index && value.setWidth 8 == Config.demodTag

/-- The legal widths of a register access (R82, D19). -/
def isRegLen (n : Nat) : Bool :=
  n == Config.RegLen.one.bytes || n == Config.RegLen.two.bytes || n == Config.RegLen.four.bytes

/-- How many status registers a read of the tuner may ask for (R172). -/
def isStatusLen (n : Nat) : Bool := decide (1 ≤ n) && decide (n ≤ Config.statusLen)

/-- The address words and width of a register access to block USB or SYS (R101). -/
def isRegForm (index : Word16) (n : Nat) : Bool :=
  (index == Config.blockUsb || index == Config.blockSys) && isRegLen n

/-! ## Bit reversal (R115) -/

/-- `rev4`, the 16-entry nibble reversal table. -/
def rev4 (n : Nat) : Nat :=
  [0x0, 0x8, 0x4, 0xC, 0x2, 0xA, 0x6, 0xE, 0x1, 0x9, 0x5, 0xD, 0x3, 0xB, 0x7, 0xF].getD n 0

/-- `bitrev8(b) = (rev4[b & 0x0F] << 4) | rev4[b >> 4]`. -/
def bitrev8 (b : Byte) : Byte := BitVec.ofNat 8 (rev4 (b.toNat % 16) * 16 + rev4 (b.toNat / 16))

/-! ## Masked bytes (R153, R171) -/

/-- `(old & ~mask) | (value & mask)`. -/
def maskByte (old value mask : Byte) : Byte := (old &&& ~~~mask) ||| (value &&& mask)

/-! ## Demodulator words (R111 to R113) -/

/-- `floor(a / b)` for integers. -/
def floorDiv (a b : Int) : Int := Int.fdiv a b

/-- `xtalFreq = floor(XTAL_FREQ * (1 + ppm / 1e6))` (R202). -/
def correctedXtal (ppm : Int) : Int := floorDiv ((Config.xtalFreq : Int) * (Config.million + ppm)) Config.million

/-- `ratio = floor(XTAL_FREQ * 2^22 / rate) & 0x0FFFFFFC` (R111). -/
def resamplingRatio (rate : Nat) : Nat := (Config.xtalFreq * Config.ratioScale / rate) &&& Config.ratioMask

/-- `actual = floor(XTAL_FREQ * 2^22 / ratio)` (R206). -/
def actualRateOf (ratio : Nat) : Nat := Config.xtalFreq * Config.ratioScale / ratio

/-- `m = -floor(IF_FREQ * 2^22 / xtalFreq)` (R112); a free value where `xtalFreq` is 0. -/
def ifMultiplier (xtal : Int) : Int :=
  if xtal = 0 then Config.ifMultNoXtal else -floorDiv ((Config.ifFreq : Int) * Config.ratioScale) xtal

/-- `M = m mod 2^24` (R112). -/
def ifMultiplierWord (xtal : Int) : Nat := (ifMultiplier xtal % 2 ^ Config.ifMultBits).toNat

/-- `O = -floor(ppm * 2^24 / 1e6) mod 2^16` (R113). -/
def ppmOffsetWord (ppm : Int) : Nat := ((-floorDiv (ppm * Config.ppmScale) Config.million) % 2 ^ Config.ppmOffBits).toNat

/-! ## PLL words (R114, R181, R182) -/

/-- `min(6, floor(log2(1770000 / freqKHz)))` for a positive frequency in Hz. -/
def divNumBase (c : Params) (freq : Nat) : Int :=
  min Config.divNumBaseMax (c.num.log2 (mkRat (Config.vcoConst * Config.thousand) freq)).floor

/-- The divider adjusted by the fine-tune reading `fine` against VCO_POWER_REF (R181, D28). -/
def divNumAdjusted (c : Params) (freq fine : Nat) : Int :=
  if c.vcoPowerRef < fine then divNumBase c freq - Config.divNumStep
  else if fine < c.vcoPowerRef then divNumBase c freq + Config.divNumStep
  else divNumBase c freq

/-- `nint` and `sdm` of R181 and R182 for the output divider exponent `divNum`; free values where the reference
is 0. -/
def pllDividers (freq : Nat) (divNum : Nat) (pllRef : Int) : Int × Int :=
  if pllRef = 0 then Config.pllNoRef freq
  else
    let vcoFreq : Int := (freq : Int) * 2 ^ (divNum + Config.mixDivExtra)
    let nint := floorDiv vcoFreq (Config.pllRefFactor * pllRef)
    let vcoFra := floorDiv (vcoFreq - Config.pllRefFactor * pllRef * nint) Config.thousand
    (nint, min Config.sdmMax (floorDiv (Config.sdmScale * vcoFra * Config.thousand) pllRef))

/-- `divNum << 5`, for register 0x10. -/
def divWord (divNum : Nat) : Byte := BitVec.ofNat 8 (divNum * Config.topThreePlace)

/-- `ni | (si << 6)`, for register 0x14, `nint` at least NINT's least value. -/
def nintWord (nint : Int) : Byte :=
  let ni := floorDiv (nint - Config.nintMin) Config.nintStep
  let si := nint - Config.nintStep * ni - Config.nintMin
  BitVec.ofNat 8 (ni.toNat ||| (si.toNat * Config.siPlace))

/-- `sdm >> 8`, for register 0x16. -/
def sdmHigh (sdm : Int) : Byte := BitVec.ofNat 8 ((sdm % 65536).toNat / 256)

/-- `sdm & 0xFF`, for register 0x15. -/
def sdmLow (sdm : Int) : Byte := BitVec.ofNat 8 ((sdm % 65536).toNat % 256)

/-! ## Gain words (R116) -/

/-- The gain step, clamped to 0..28 (R184). -/
def clampGainStep (step : Int) : Nat := (max 0 (min Config.gainStepMax step)).toNat

/-- `lnaValue = floor((step + 1) / 2)`. -/
def lnaValue (step : Nat) : Nat := (step + Config.lnaExtra) / Config.gainParts

/-- `mixerValue = floor(step / 2)`. -/
def mixerValue (step : Nat) : Nat := step / Config.gainParts

/-! ## Block lengths and read positions of a downsampler (R237, R238, R243) -/

/-- `outLen = floor(n * outRate / inRate)`. -/
def outLen (n : Nat) (inRate outRate : Rat) : Nat := ((n : Rat) * outRate / inRate).floor.toNat

/-- The read position of output `j`, `floor(j * inRate / outRate)`. -/
def readPos (j : Nat) (inRate outRate : Rat) : Nat := ((j : Rat) * inRate / outRate).floor.toNat

end Sys2Proof.Machine
end

