-- ==== Sys2Proof/Syntax.lean ====
section
/-! DEFINITION. The operations of the block as syntax: one constructor for each row of spec/opcode_table.json, in
the table's order, with its typed operands (spec 30_encoding R118 to R120, R100 to R108). -/

namespace Sys2Proof

/-- A TRIPLE `(reg, value, mask)` (R105). -/
structure Triple where
  reg   : Byte
  value : Byte
  mask  : Byte
  deriving DecidableEq, Repr, Inhabited

/-- The gain operand of `rtl.new`: a real in dB, or automatic (R201). -/
inductive Gain where
  | auto
  | manual (dB : Rat)
  deriving DecidableEq, Repr, Inhabited

/-- A mode descriptor (R119). `WBFM` carries the construction operand `tau` of R289: none is the default
(notes/assumptions/27.md). -/
inductive Mode where
  | wbfm (tau : Option Rat)
  | nbfm (maxF : Rat)
  | am (bandwidth : Rat)
  | ssb (bandwidth : Rat) (upper : Bool)
  deriving DecidableEq, Repr, Inhabited

/-- The operations. A `Rat` operand is a real of the spec; an instance operand is the instance's handle, its index in
order of construction (notes/assumptions/33.md). -/
inductive Instr where
  -- U1, transport (R141 to R146)
  | controlRead (value index length : Word16)
  | controlWrite (value index : Word16) (bytes : List Byte)
  | bulkRead (length : Nat)
  | claimInterface (iface : Byte)
  | releaseInterface (iface : Byte)
  | closeDevice
  -- U2, registers and I2C bridge (R151 to R161)
  | writeReg (block reg : Word16) (value len : Nat)
  | readReg (block reg : Word16) (len : Nat)
  | writeRegMask (block reg : Word16) (value mask : Byte)
  | writeDemodReg (page addr : Byte) (value len : Nat)
  | readDemodReg (page addr : Byte)
  | openI2c
  | closeI2c
  | i2cWriteReg (addr : Word16) (reg value : Byte)
  | i2cReadReg (addr : Word16) (reg : Byte)
  | i2cWriteBuf (addr : Word16) (reg : Byte) (bytes : List Byte)
  | i2cReadBuf (addr : Word16) (reg : Byte) (n : Nat)
  -- U3, tuner (R171 to R186)
  | r820tWriteMask (reg value mask : Byte)
  | r820tRead (n : Nat)
  | r820tWriteEach (list : List Triple)
  | r820tInit
  | r820tCalibrateFilter (firstAttempt : Bool)
  | r820tSetMux (freq : Nat)
  | r820tSetFrequency (freq : Nat)
  | r820tSetPll (freq : Nat)
  | r820tGetPllLock (firstTry : Bool)
  | r820tSetManualGain (dB : Rat)
  | r820tSetAutoGain
  | r820tClose
  -- U4, demodulator control (R201 to R212)
  | rtlNew (handle : Nat) (ppm : Int) (gain : Gain)
  | rtlOpen
  | rtlSetSampleRate (rate : Nat)
  | rtlSetCenterFrequency (hz : Nat)
  | rtlResetBuffer
  | rtlReadSamples (n : Nat)
  | rtlClose
  -- U5, FIR (R221 to R225)
  | getLowpassFirCoeffs (rate f : Rat) (n : Nat)
  | firNew (coefs : List Rat) (step : Nat)
  | firLoad (fir : Nat) (samples : List Rat)
  | firGet (fir : Nat) (i : Int)
  -- U6, U7, downsamplers (R236 to R241)
  | dsNew (inRate outRate : Rat) (coefs : List Rat)
  | dsDownsample (ds : Nat) (samples : List Rat) (rate : Rat)
  | iqdsNew (inRate outRate : Rat) (coefs : List Rat)
  | iqdsDownsample (iqds : Nat) (iq : List (Rat × Rat)) (rate : Rat)
  -- U8, U9, demodulators (R251 to R256)
  | fmNew (inRate outRate maxF filterFreq : Rat) (kernelLen : Nat)
  | fmDemodulate (fm : Nat) (iq : List (Rat × Rat)) (rate : Rat)
  | amNew (inRate outRate filterFreq : Rat) (kernelLen : Nat)
  | amDemodulate (am : Nat) (iq : List (Rat × Rat)) (rate : Rat)
  -- U10 to U12 (R266 to R278)
  | avgNew (w : Rat) (withVariance : Bool)
  | avgAdd (avg : Nat) (x : Rat)
  | stNew (sampleRate pilotFreq : Rat)
  | stSeparate (st : Nat) (samples : List Rat)
  | deNew (rate tau : Rat)
  | deRun (de : Nat) (samples : List Rat) (rate : Rat)
  -- the data-path operations (R286, R292, R288)
  | iqConvert (bytes : List Byte)
  | setMode (mode : Mode)
  | process (bytes : List Byte) (inStereo : Bool) (freqOffset : Rat) (echo : List Byte)
  -- the messages of the data-path port (R118)
  | msgProcess (bytes : List Byte) (inStereo : Bool) (freqOffset : Rat) (echo : List Byte)
  | msgSetMode (mode : Mode)
  -- setup packets on the wire (R100 to R103): `index` without the write flag
  | setupControlRead (value index length : Word16)
  | setupControlWrite (value index : Word16) (bytes : List Byte)
  | setupRegRead (block reg : Word16) (length : Word16)
  | setupRegWrite (block reg : Word16) (bytes : List Byte)
  | setupDemodRead (page1 : Bool) (addr : Byte) (length : Word16)
  | setupDemodWrite (page1 : Bool) (addr : Byte) (bytes : List Byte)
  | setupI2cRead (length : Word16)
  | setupI2cWrite (reg : Byte) (bytes : List Byte)
  -- setup packets of the named registers, with their data stage (R37)
  | setupSysctlWrite (data : Byte)
  | setupEpaMaxpktWrite (data0 data1 : Byte)
  | setupEpaCtlWrite (data0 data1 : Byte)
  | setupDemodCtlWrite (data : Byte)
  | setupDemodCtl1Write (data : Byte)
  | setupI2cBridgeWrite (data : Byte)
  | setupIfMultHiWrite (data : Byte)
  | setupIfMultMidWrite (data : Byte)
  | setupIfMultLoWrite (data : Byte)
  | setupPpmOffHiWrite (data : Byte)
  | setupPpmOffLoWrite (data : Byte)
  -- a bulk transfer on the wire (R104)
  | bulkIn (length : Nat)
  deriving DecidableEq, Repr, Inhabited

/-- Where an operation arrives (R118, R120, R121). The host has two ports: `host`, the control path, and `msg`, the data path.
The others are the test bench's (notes/assumptions/41.md): `cmd`, every operation of R120 by its number, and the USB wire,
`setup` and `bulk`. -/
inductive Port where
  | host | msg | cmd | setup | bulk
  deriving DecidableEq, Repr, Inhabited

end Sys2Proof
end

