-- ==== Sys2Proof/WellFormed.lean ====
section
/-! DEFINITION. Well-formed operations. `Instr.encodable`: the operands fit the byte layout of Decode.lean, and a
setup packet is written in the most particular format of the table that fits it. `Instr.legal`: the operands lie in
the ranges of the opcode table's operand column and of the rules. -/

namespace Sys2Proof

open Sys2Proof.Machine

/-- A natural operand fits 8 bytes. -/
def fitsNat (n : Nat) : Bool := n < 2 ^ 64

/-- A signed operand fits 8 bytes. -/
def fitsInt (n : Int) : Bool := -(2 ^ 63) ≤ n && n < 2 ^ 63

/-- A real operand fits 20 bytes of numerator and 20 of denominator. -/
def fitsRat (q : Rat) : Bool := -(2 ^ 159) ≤ q.num && q.num < 2 ^ 159 && decide (q.den ≤ 2 ^ 160)

/-- A sequence's length fits 4 bytes. -/
def fitsLen {α : Type} (l : List α) : Bool := l.length < 2 ^ 32

/-- A sequence of reals fits. -/
def fitsRats (l : List Rat) : Bool := fitsLen l && l.all fitsRat

/-- A sequence of pairs of reals fits. -/
def fitsPairs (l : List (Rat × Rat)) : Bool := fitsLen l && l.all fun p => fitsRat p.1 && fitsRat p.2

/-- A mode descriptor fits. -/
def fitsMode : Mode → Bool
  | .wbfm none => true
  | .wbfm (some tau) => fitsRat tau
  | .nbfm maxF => fitsRat maxF
  | .am bandwidth => fitsRat bandwidth
  | .ssb bandwidth _ => fitsRat bandwidth

/-- A gain operand fits. -/
def fitsGain : Gain → Bool
  | .auto => true
  | .manual dB => fitsRat dB

/-- A data stage's length fits `wLength`. -/
def fitsStage (bytes : List Byte) : Bool := bytes.length < 2 ^ 16

/-- An index word as a caller gives it: the write flag clear. -/
def flagClear (index : Word16) : Bool := index &&& Config.writeFlag == 0

/-- The operands fit the encoding of Decode.lean. -/
def Instr.encodable : Instr → Bool
  | .controlRead _ _ _ => true
  | .controlWrite _ _ bytes => fitsLen bytes
  | .bulkRead length => fitsNat length
  | .claimInterface _ => true
  | .releaseInterface _ => true
  | .closeDevice => true
  | .writeReg _ _ value len => fitsNat value && fitsNat len
  | .readReg _ _ len => fitsNat len
  | .writeRegMask _ _ _ _ => true
  | .writeDemodReg _ _ value len => fitsNat value && fitsNat len
  | .readDemodReg _ _ => true
  | .openI2c => true
  | .closeI2c => true
  | .i2cWriteReg _ _ _ => true
  | .i2cReadReg _ _ => true
  | .i2cWriteBuf _ _ bytes => fitsLen bytes
  | .i2cReadBuf _ _ n => fitsNat n
  | .r820tWriteMask _ _ _ => true
  | .r820tRead n => fitsNat n
  | .r820tWriteEach list => fitsLen list
  | .r820tInit => true
  | .r820tCalibrateFilter _ => true
  | .r820tSetMux freq => fitsNat freq
  | .r820tSetFrequency freq => fitsNat freq
  | .r820tSetPll freq => fitsNat freq
  | .r820tGetPllLock _ => true
  | .r820tSetManualGain dB => fitsRat dB
  | .r820tSetAutoGain => true
  | .r820tClose => true
  | .rtlNew handle ppm gain => fitsNat handle && fitsInt ppm && fitsGain gain
  | .rtlOpen => true
  | .rtlSetSampleRate rate => fitsNat rate
  | .rtlSetCenterFrequency hz => fitsNat hz
  | .rtlResetBuffer => true
  | .rtlReadSamples n => fitsNat n
  | .rtlClose => true
  | .getLowpassFirCoeffs rate f n => fitsRat rate && fitsRat f && fitsNat n
  | .firNew coefs step => fitsRats coefs && fitsNat step
  | .firLoad fir samples => fitsNat fir && fitsRats samples
  | .firGet fir i => fitsNat fir && fitsInt i
  | .dsNew inRate outRate coefs => fitsRat inRate && fitsRat outRate && fitsRats coefs
  | .dsDownsample ds samples rate => fitsNat ds && fitsRats samples && fitsRat rate
  | .iqdsNew inRate outRate coefs => fitsRat inRate && fitsRat outRate && fitsRats coefs
  | .iqdsDownsample iqds iq rate => fitsNat iqds && fitsPairs iq && fitsRat rate
  | .fmNew inRate outRate maxF filterFreq kernelLen =>
      fitsRat inRate && fitsRat outRate && fitsRat maxF && fitsRat filterFreq && fitsNat kernelLen
  | .fmDemodulate fm iq rate => fitsNat fm && fitsPairs iq && fitsRat rate
  | .amNew inRate outRate filterFreq kernelLen =>
      fitsRat inRate && fitsRat outRate && fitsRat filterFreq && fitsNat kernelLen
  | .amDemodulate am iq rate => fitsNat am && fitsPairs iq && fitsRat rate
  | .avgNew w _ => fitsRat w
  | .avgAdd avg x => fitsNat avg && fitsRat x
  | .stNew sampleRate pilotFreq => fitsRat sampleRate && fitsRat pilotFreq
  | .stSeparate st samples => fitsNat st && fitsRats samples
  | .deNew rate tau => fitsRat rate && fitsRat tau
  | .deRun de samples rate => fitsNat de && fitsRats samples && fitsRat rate
  | .iqConvert bytes => fitsLen bytes
  | .setMode mode => fitsMode mode
  | .process bytes _ freqOffset echo => fitsLen bytes && fitsRat freqOffset && fitsLen echo
  | .msgProcess bytes _ freqOffset echo => fitsLen bytes && fitsRat freqOffset && fitsLen echo
  | .msgSetMode mode => fitsMode mode
  | .setupControlRead value index length =>
      flagClear index && !isI2cForm value index && !isDemodForm value index && !isRegForm index length.toNat
  | .setupControlWrite value index bytes =>
      fitsStage bytes && flagClear index && !isNamedWrite value index bytes.length
        && !(isI2cForm value index && decide (0 < bytes.length)) && !isDemodForm value index
        && !isRegForm index bytes.length
  | .setupRegRead block _ length => isRegForm block length.toNat
  | .setupRegWrite block reg bytes => isRegForm block bytes.length && !isNamedWrite reg block bytes.length
  | .setupDemodRead _ _ _ => true
  | .setupDemodWrite page1 addr bytes =>
      fitsStage bytes && !isNamedWrite (demodValue addr) (pageIndex page1) bytes.length
  | .setupI2cRead _ => true
  | .setupI2cWrite _ bytes => bytes.length + 1 < 2 ^ 16
  | .setupSysctlWrite _ => true
  | .setupEpaMaxpktWrite _ _ => true
  | .setupEpaCtlWrite _ _ => true
  | .setupDemodCtlWrite _ => true
  | .setupDemodCtl1Write _ => true
  | .setupI2cBridgeWrite _ => true
  | .setupIfMultHiWrite _ => true
  | .setupIfMultMidWrite _ => true
  | .setupIfMultLoWrite _ => true
  | .setupPpmOffHiWrite _ => true
  | .setupPpmOffLoWrite _ => true
  | .bulkIn length => fitsNat length

/-- A TRIPLE names a shadowed register (R105). -/
def Triple.legal (t : Triple) : Bool := decide (Config.shadowBase ≤ t.reg.toNat) && decide (t.reg.toNat < Config.r820tRegs)

/-- A register block a caller of U2 may name (R151, R123). The DEMOD page 1 is admitted as the page 0 is: R151 names a page
in R154's expansion only, R155 has `write_reg_mask` on DEMOD registers, and R123 refuses no page but others. DESIGN CHOICE
(notes/assumptions/43.md). -/
def legalBlock (block : Word16) : Bool :=
  isDemodPage block || block == Config.blockUsb || block == Config.blockSys || block == Config.blockI2c

/-- A mode descriptor the block accepts (R123, R290, R291, R293). -/
def Mode.legal : Mode → Bool
  | .wbfm none => true
  | .wbfm (some tau) => decide (0 < tau)
  | .nbfm maxF => decide (Config.nbfmMinF ≤ maxF)
  | .am bandwidth => decide (0 < bandwidth)
  | .ssb _ _ => false

/-- The operands lie in the ranges of the table's operand column. -/
def Instr.legal : Instr → Bool
  | .controlRead _ index length => flagClear index && length != 0
  | .controlWrite _ _ bytes => !bytes.isEmpty
  | .bulkRead length => decide (0 < length) && length % Config.bytesPerSample == 0
  | .claimInterface iface => iface == Config.usbInterface
  | .releaseInterface iface => iface == Config.usbInterface
  | .closeDevice => true
  | .writeReg block _ _ len => legalBlock block && isRegLen len
  | .readReg block _ len => legalBlock block && isRegLen len
  | .writeRegMask block _ _ _ => legalBlock block
  | .writeDemodReg page _ _ len => (pageOf page).isSome && isRegLen len
  | .readDemodReg page _ => (pageOf page).isSome
  | .openI2c => true
  | .closeI2c => true
  | .i2cWriteReg addr _ _ => addr == Config.r820tI2cAddr
  | .i2cReadReg addr _ => addr == Config.r820tI2cAddr
  | .i2cWriteBuf addr _ bytes => addr == Config.r820tI2cAddr && !bytes.isEmpty
  | .i2cReadBuf addr _ n => addr == Config.r820tI2cAddr && decide (0 < n)
  | .r820tWriteMask reg value mask => Triple.legal ⟨reg, value, mask⟩
  | .r820tRead n => isStatusLen n
  | .r820tWriteEach list => list.all Triple.legal
  | .r820tInit => true
  | .r820tCalibrateFilter _ => true
  | .r820tSetMux freq => decide (0 < freq)
  | .r820tSetFrequency freq => decide (0 < freq)
  | .r820tSetPll freq => decide (0 < freq)
  | .r820tGetPllLock _ => true
  | .r820tSetManualGain _ => true
  | .r820tSetAutoGain => true
  | .r820tClose => true
  | .rtlNew _ _ _ => true
  | .rtlOpen => true
  | .rtlSetSampleRate rate => decide (0 < rate)
  | .rtlSetCenterFrequency hz => decide (0 < hz)
  | .rtlResetBuffer => true
  | .rtlReadSamples n => decide (0 < n)
  | .rtlClose => true
  | .getLowpassFirCoeffs rate f n => decide (0 < rate) && decide (0 < f) && decide (0 < n)
  | .firNew coefs step => !coefs.isEmpty && decide (0 < step)
  | .firLoad _ _ => true
  | .firGet _ i => decide (0 ≤ i)
  | .dsNew inRate outRate coefs => decide (0 < inRate) && decide (0 < outRate) && !coefs.isEmpty
  | .dsDownsample _ _ _ => true
  | .iqdsNew inRate outRate coefs => decide (0 < inRate) && decide (0 < outRate) && !coefs.isEmpty
  | .iqdsDownsample _ _ _ => true
  | .fmNew inRate outRate maxF filterFreq kernelLen =>
      decide (0 < inRate) && decide (0 < outRate) && decide (0 < maxF) && decide (0 < filterFreq)
        && decide (0 < kernelLen)
  | .fmDemodulate _ _ _ => true
  | .amNew inRate outRate filterFreq kernelLen =>
      decide (0 < inRate) && decide (0 < outRate) && decide (0 < filterFreq) && decide (0 < kernelLen)
  | .amDemodulate _ _ _ => true
  | .avgNew w _ => decide (0 ≤ w)
  | .avgAdd _ _ => true
  | .stNew sampleRate pilotFreq => decide (0 < sampleRate) && decide (0 < pilotFreq)
  | .stSeparate _ _ => true
  | .deNew rate tau => decide (0 < rate) && decide (0 < tau)
  | .deRun _ _ _ => true
  | .iqConvert bytes => bytes.length % Config.bytesPerSample == 0
  | .setMode mode => mode.legal
  | .process bytes _ freqOffset _ => bytes.length % Config.bytesPerSample == 0 && freqOffset == 0
  | .msgProcess bytes _ freqOffset _ => bytes.length % Config.bytesPerSample == 0 && freqOffset == 0
  | .msgSetMode mode => mode.legal
  | .setupControlRead _ _ length => length != 0
  | .setupControlWrite _ _ bytes => !bytes.isEmpty
  | .setupRegRead _ _ _ => true
  | .setupRegWrite _ _ _ => true
  | .setupDemodRead _ _ length => length.toNat == Config.demodReadLen
  | .setupDemodWrite _ _ bytes => isRegLen bytes.length
  | .setupI2cRead length => length != 0
  | .setupI2cWrite _ _ => true
  | .setupSysctlWrite _ => true
  | .setupEpaMaxpktWrite _ _ => true
  | .setupEpaCtlWrite _ _ => true
  | .setupDemodCtlWrite _ => true
  | .setupDemodCtl1Write _ => true
  | .setupI2cBridgeWrite _ => true
  | .setupIfMultHiWrite _ => true
  | .setupIfMultMidWrite _ => true
  | .setupIfMultLoWrite _ => true
  | .setupPpmOffHiWrite _ => true
  | .setupPpmOffLoWrite _ => true
  | .bulkIn length => decide (0 < length) && length % Config.bytesPerSample == 0

/-- A well-formed operation: it can be encoded and its operands are in range. -/
def Instr.wf (i : Instr) : Bool := i.encodable && i.legal

end Sys2Proof
end

