-- ==== Sys2Proof/Decode.lean ====
section
/-! DEFINITION. Decoding a packet that arrives at a port, total on any bytes, rejecting by name; and the encoder.
The operation numbers, message tags and setup packets are the spec's (30_encoding R100 to R104, R118, R120); the byte
layout of the operands after them is the model's (notes/assumptions/1.md): a natural number, and a byte that a rule reduces
from a wider operand, is 8 bytes, an integer 8 bytes two's complement, a real 20 bytes of numerator
(two's complement) and 20 bytes of denominator less one, a
sequence 4 bytes of length and its elements, all little-endian; a byte and an address word stand as they are. -/

namespace Sys2Proof

open Sys2Proof.Machine

/-- Why a packet is no operation of the block (R123, G12). -/
inductive DecodeError where
  /-- An operation number not in R120. -/
  | unknownOp (op : Nat)
  /-- At the control-path port of the host: the number of an internal operation (R121). -/
  | internalOp (op : Nat)
  /-- A message tag other than 0 and 1. -/
  | unknownTag (tag : Nat)
  /-- A mode descriptor tag other than the model's four (R119 gives none; notes/assumptions/1.md). -/
  | unknownMode (tag : Nat)
  /-- A Boolean or an option tag other than 0 and 1. -/
  | badFlag (b : Nat)
  /-- The packet ends before its operands do. -/
  | truncated
  /-- Bytes other than zero after the last operand. -/
  | trailing
  /-- A setup packet that is not vendor, device, request 0, or whose write flag does not fit its direction. -/
  | notVendorRequest
  /-- A bulk transfer on an endpoint other than 1. -/
  | badEndpoint (ep : Nat)
  deriving DecidableEq, Repr, Inhabited

/-- A reader of operands: it consumes bytes and gives a value, or rejects. -/
abbrev Reader := StateT (List Byte) (Except DecodeError)

/-! ## Readers and writers of operands -/

/-- One byte. -/
def getByte : Reader Byte := fun bs =>
  match bs with
  | [] => .error .truncated
  | b :: rest => .ok (b, rest)

/-- `n` bytes as a little-endian number. -/
def getLE : Nat → Reader Nat
  | 0 => fun bs => .ok (0, bs)
  | n + 1 => fun bs =>
    match bs with
    | [] => .error .truncated
    | b :: rest =>
      match getLE n rest with
      | .error e => .error e
      | .ok (v, rest') => .ok (b.toNat + 256 * v, rest')

/-- An address word. -/
def getWord : Reader Word16 := do
  let v ← getLE 2
  pure (BitVec.ofNat 16 v)

/-- A natural operand. -/
def getNat : Reader Nat := getLE 8

/-- The signed value of an `n`-byte two's complement number. -/
def signedOf (n v : Nat) : Int := if v < 2 ^ (8 * n - 1) then v else (v : Int) - 2 ^ (8 * n)

/-- A signed operand. -/
def getInt : Reader Int := do
  let v ← getLE 8
  pure (signedOf 8 v)

/-- A real operand. -/
def getRat : Reader Rat := do
  let n ← getLE 20
  let d ← getLE 20
  pure (mkRat (signedOf 20 n) (d + 1))

/-- A Boolean operand. -/
def getBool : Reader Bool := do
  let b ← getByte
  match b.toNat with
  | 0 => pure false
  | 1 => pure true
  | n => throw (.badFlag n)

/-- `n` elements one after another. -/
def getMany {α : Type} (g : Reader α) : Nat → Reader (List α)
  | 0 => pure []
  | n + 1 => do
    let a ← g
    let as ← getMany g n
    pure (a :: as)

/-- A sequence: its length and its elements. -/
def getList {α : Type} (g : Reader α) : Reader (List α) := do
  let n ← getLE 4
  getMany g n

/-- A `value` or `mask` operand of a byte: a wider one is reduced, never refused (R123). -/
def getWide : Reader Byte := do
  let v ← getNat
  pure (BitVec.ofNat 8 v)

/-- A TRIPLE. -/
def getTriple : Reader Triple := do
  let reg ← getByte
  let value ← getWide
  let mask ← getWide
  pure ⟨reg, value, mask⟩

/-- A pair of reals. -/
def getPair : Reader (Rat × Rat) := do
  let a ← getRat
  let b ← getRat
  pure (a, b)

/-- A gain operand. -/
def getGain : Reader Gain := do
  let manual ← getBool
  if manual then do
    let dB ← getRat
    pure (.manual dB)
  else pure .auto

/-- A mode descriptor (R119). The source gives the four variants no numeric tags: 0 WBFM, 1 NBFM, 2 AM and 3 SSB are the
model's. DESIGN CHOICE (notes/assumptions/1.md). -/
def getMode : Reader Mode := do
  let tag ← getByte
  if tag = Config.tagWbfm then do
    let given ← getBool
    if given then do
      let tau ← getRat
      pure (.wbfm (some tau))
    else pure (.wbfm none)
  else if tag = Config.tagNbfm then do
    let maxF ← getRat
    pure (.nbfm maxF)
  else if tag = Config.tagAm then do
    let bandwidth ← getRat
    pure (.am bandwidth)
  else if tag = Config.tagSsb then do
    let bandwidth ← getRat
    let upper ← getBool
    pure (.ssb bandwidth upper)
  else throw (.unknownMode tag.toNat)

/-- An address word, little-endian. -/
def putWord (w : Word16) : List Byte := leBytes 2 w.toNat
/-- A natural operand. -/
def putNat (n : Nat) : List Byte := leBytes 8 n
/-- An `n`-byte two's complement number. -/
def putSigned (n : Nat) (v : Int) : List Byte := leBytes n (v % 2 ^ (8 * n)).toNat
/-- A signed operand. -/
def putInt (v : Int) : List Byte := putSigned 8 v
/-- A real operand. -/
def putRat (q : Rat) : List Byte := putSigned 20 q.num ++ leBytes 20 (q.den - 1)
/-- A Boolean operand. -/
def putBool (b : Bool) : List Byte := [if b then 1 else 0]
/-- A sequence. -/
def putList {α : Type} (p : α → List Byte) (l : List α) : List Byte := leBytes 4 l.length ++ l.flatMap p
/-- A byte. -/
def putByte (b : Byte) : List Byte := [b]
/-- A `value` or `mask` operand of a byte. -/
def putWide (b : Byte) : List Byte := putNat b.toNat
/-- A TRIPLE. -/
def putTriple (t : Triple) : List Byte := t.reg :: (putWide t.value ++ putWide t.mask)
/-- A pair of reals. -/
def putPair (p : Rat × Rat) : List Byte := putRat p.1 ++ putRat p.2
/-- A gain operand. -/
def putGain : Gain → List Byte
  | .auto => putBool false
  | .manual dB => putBool true ++ putRat dB
/-- A mode descriptor. -/
def putMode : Mode → List Byte
  | .wbfm none => Config.tagWbfm :: putBool false
  | .wbfm (some tau) => Config.tagWbfm :: (putBool true ++ putRat tau)
  | .nbfm maxF => Config.tagNbfm :: putRat maxF
  | .am bandwidth => Config.tagAm :: putRat bandwidth
  | .ssb bandwidth upper => Config.tagSsb :: (putRat bandwidth ++ putBool upper)

/-! ## The command port (R120) -/

/-- The operands of operation numbers 0x00 to 0x1A (U1, U2). -/
def readTransport (op : Nat) : Reader Instr :=
  match op with
  | 0x00 => do
    let value ← getWord
    let index ← getWord
    let length ← getWord
    pure (.controlRead value index length)
  | 0x01 => do
    let value ← getWord
    let index ← getWord
    let bytes ← getList getByte
    pure (.controlWrite value index bytes)
  | 0x02 => do
    let length ← getNat
    pure (.bulkRead length)
  | 0x03 => do
    let iface ← getByte
    pure (.claimInterface iface)
  | 0x04 => do
    let iface ← getByte
    pure (.releaseInterface iface)
  | 0x05 => pure .closeDevice
  | 0x10 => do
    let block ← getWord
    let reg ← getWord
    let value ← getNat
    let len ← getNat
    pure (.writeReg block reg value len)
  | 0x11 => do
    let block ← getWord
    let reg ← getWord
    let len ← getNat
    pure (.readReg block reg len)
  | 0x12 => do
    let block ← getWord
    let reg ← getWord
    let value ← getWide
    let mask ← getWide
    pure (.writeRegMask block reg value mask)
  | 0x13 => do
    let page ← getByte
    let addr ← getByte
    let value ← getNat
    let len ← getNat
    pure (.writeDemodReg page addr value len)
  | 0x14 => do
    let page ← getByte
    let addr ← getByte
    pure (.readDemodReg page addr)
  | 0x15 => pure .openI2c
  | 0x16 => pure .closeI2c
  | 0x17 => do
    let addr ← getWord
    let reg ← getByte
    let value ← getWide
    pure (.i2cWriteReg addr reg value)
  | 0x18 => do
    let addr ← getWord
    let reg ← getByte
    pure (.i2cReadReg addr reg)
  | 0x19 => do
    let addr ← getWord
    let reg ← getByte
    let bytes ← getList getByte
    pure (.i2cWriteBuf addr reg bytes)
  | 0x1A => do
    let addr ← getWord
    let reg ← getByte
    let n ← getNat
    pure (.i2cReadBuf addr reg n)
  | n => throw (.unknownOp n)

/-- The operands of operation numbers 0x20 to 0x36 (U3, U4). -/
def readTuner (op : Nat) : Reader Instr :=
  match op with
  | 0x20 => do
    let t ← getTriple
    pure (.r820tWriteMask t.reg t.value t.mask)
  | 0x21 => do
    let n ← getNat
    pure (.r820tRead n)
  | 0x22 => do
    let list ← getList getTriple
    pure (.r820tWriteEach list)
  | 0x23 => pure .r820tInit
  | 0x24 => do
    let first ← getBool
    pure (.r820tCalibrateFilter first)
  | 0x25 => do
    let freq ← getNat
    pure (.r820tSetMux freq)
  | 0x26 => do
    let freq ← getNat
    pure (.r820tSetFrequency freq)
  | 0x27 => do
    let freq ← getNat
    pure (.r820tSetPll freq)
  | 0x28 => do
    let first ← getBool
    pure (.r820tGetPllLock first)
  | 0x29 => do
    let dB ← getRat
    pure (.r820tSetManualGain dB)
  | 0x2A => pure .r820tSetAutoGain
  | 0x2B => pure .r820tClose
  | 0x30 => do
    let handle ← getNat
    let ppm ← getInt
    let gain ← getGain
    pure (.rtlNew handle ppm gain)
  | 0x31 => pure .rtlOpen
  | 0x32 => do
    let rate ← getNat
    pure (.rtlSetSampleRate rate)
  | 0x33 => do
    let hz ← getNat
    pure (.rtlSetCenterFrequency hz)
  | 0x34 => pure .rtlResetBuffer
  | 0x35 => do
    let n ← getNat
    pure (.rtlReadSamples n)
  | 0x36 => pure .rtlClose
  | n => throw (.unknownOp n)

/-- The operands of operation numbers 0x40 to 0x63 (U5 to U9). -/
def readFilters (op : Nat) : Reader Instr :=
  match op with
  | 0x40 => do
    let rate ← getRat
    let f ← getRat
    let n ← getNat
    pure (.getLowpassFirCoeffs rate f n)
  | 0x41 => do
    let coefs ← getList getRat
    let step ← getNat
    pure (.firNew coefs step)
  | 0x42 => do
    let fir ← getNat
    let samples ← getList getRat
    pure (.firLoad fir samples)
  | 0x43 => do
    let fir ← getNat
    let i ← getInt
    pure (.firGet fir i)
  | 0x50 => do
    let inRate ← getRat
    let outRate ← getRat
    let coefs ← getList getRat
    pure (.dsNew inRate outRate coefs)
  | 0x51 => do
    let ds ← getNat
    let samples ← getList getRat
    let rate ← getRat
    pure (.dsDownsample ds samples rate)
  | 0x52 => do
    let inRate ← getRat
    let outRate ← getRat
    let coefs ← getList getRat
    pure (.iqdsNew inRate outRate coefs)
  | 0x53 => do
    let iqds ← getNat
    let iq ← getList getPair
    let rate ← getRat
    pure (.iqdsDownsample iqds iq rate)
  | 0x60 => do
    let inRate ← getRat
    let outRate ← getRat
    let maxF ← getRat
    let filterFreq ← getRat
    let kernelLen ← getNat
    pure (.fmNew inRate outRate maxF filterFreq kernelLen)
  | 0x61 => do
    let fm ← getNat
    let iq ← getList getPair
    let rate ← getRat
    pure (.fmDemodulate fm iq rate)
  | 0x62 => do
    let inRate ← getRat
    let outRate ← getRat
    let filterFreq ← getRat
    let kernelLen ← getNat
    pure (.amNew inRate outRate filterFreq kernelLen)
  | 0x63 => do
    let am ← getNat
    let iq ← getList getPair
    let rate ← getRat
    pure (.amDemodulate am iq rate)
  | n => throw (.unknownOp n)

/-- The operands of operation numbers 0x70 to 0x82 (U10 to U12 and the data-path operations). -/
def readChain (op : Nat) : Reader Instr :=
  match op with
  | 0x70 => do
    let w ← getRat
    let withVariance ← getBool
    pure (.avgNew w withVariance)
  | 0x71 => do
    let avg ← getNat
    let x ← getRat
    pure (.avgAdd avg x)
  | 0x73 => do
    let sampleRate ← getRat
    let pilotFreq ← getRat
    pure (.stNew sampleRate pilotFreq)
  | 0x74 => do
    let st ← getNat
    let samples ← getList getRat
    pure (.stSeparate st samples)
  | 0x75 => do
    let rate ← getRat
    let tau ← getRat
    pure (.deNew rate tau)
  | 0x76 => do
    let de ← getNat
    let samples ← getList getRat
    let rate ← getRat
    pure (.deRun de samples rate)
  | 0x80 => do
    let bytes ← getList getByte
    pure (.iqConvert bytes)
  | 0x81 => do
    let mode ← getMode
    pure (.setMode mode)
  | 0x82 => do
    let bytes ← getList getByte
    let inStereo ← getBool
    let freqOffset ← getRat
    let echo ← getList getByte
    pure (.process bytes inStereo freqOffset echo)
  | n => throw (.unknownOp n)

/-- A command: the operation number and its operands. -/
def readCmd : Reader Instr := do
  let op ← getByte
  if op.toNat < 0x20 then readTransport op.toNat
  else if op.toNat < 0x40 then readTuner op.toNat
  else if op.toNat < 0x70 then readFilters op.toNat
  else readChain op.toNat

/-! ## The control-path port of the host (R121, R146) -/

/-- The numbers the host may issue: the seven operations of U4, and `close_device`, which R146 and R306 give to the host
(notes/assumptions/41.md). -/
def isHostNumber (op : Nat) : Bool := op == 0x05 || (decide (0x30 ≤ op) && decide (op ≤ 0x36))

/-- A host command: the operation number and its operands. -/
def readHost : Reader Instr := do
  let op ← getByte
  if isHostNumber op.toNat then
    if op.toNat < 0x20 then readTransport op.toNat else readTuner op.toNat
  else throw (.internalOp op.toNat)

/-! ## The message port (R118) -/

/-- A message: the tag and its elements. -/
def readMsg : Reader Instr := do
  let tag ← getByte
  if tag = Config.tagProcess then do
    let bytes ← getList getByte
    let inStereo ← getBool
    let freqOffset ← getRat
    let echo ← getList getByte
    pure (.msgProcess bytes inStereo freqOffset echo)
  else if tag = Config.tagSetMode then do
    let mode ← getMode
    pure (.msgSetMode mode)
  else throw (.unknownTag tag.toNat)

/-! ## The wire (R100 to R103, R125) -/

/-- The first byte of a data stage that has one. -/
def byteAt (bytes : List Byte) (k : Nat) : Byte := bytes.getD k 0

/-- The row of the table for a read setup packet, the most particular that fits. -/
def classifyRead (value index length : Word16) : Instr :=
  if isI2cForm value index then .setupI2cRead length
  else if isDemodForm value index then .setupDemodRead (index == Config.blockDemod1) (demodAddr value) length
  else if isRegForm index length.toNat then .setupRegRead index value length
  else .setupControlRead value index length

/-- The row of the table for a write setup packet with its data stage, the most particular that fits; `index`
without the write flag. -/
def classifyWrite (value index : Word16) (bytes : List Byte) : Instr :=
  if isNamedWrite value index bytes.length then
    if value = Config.regSysctl then .setupSysctlWrite (byteAt bytes 0)
    else if value = Config.regEpaMaxpkt then .setupEpaMaxpktWrite (byteAt bytes 0) (byteAt bytes 1)
    else if value = Config.regEpaCtl then .setupEpaCtlWrite (byteAt bytes 0) (byteAt bytes 1)
    else if value = Config.regDemodCtl then .setupDemodCtlWrite (byteAt bytes 0)
    else if value = Config.regDemodCtl1 then .setupDemodCtl1Write (byteAt bytes 0)
    else if value = demodValue Config.regBridge then .setupI2cBridgeWrite (byteAt bytes 0)
    else if value = demodValue Config.regIfMultHi then .setupIfMultHiWrite (byteAt bytes 0)
    else if value = demodValue Config.regIfMultMid then .setupIfMultMidWrite (byteAt bytes 0)
    else if value = demodValue Config.regIfMultLo then .setupIfMultLoWrite (byteAt bytes 0)
    else if value = demodValue Config.regPpmOffHi then .setupPpmOffHiWrite (byteAt bytes 0)
    else .setupPpmOffLoWrite (byteAt bytes 0)
  else if isI2cForm value index && decide (0 < bytes.length) then
    .setupI2cWrite (byteAt bytes 0) bytes.tail
  else if isDemodForm value index then
    .setupDemodWrite (index == Config.blockDemod1) (demodAddr value) bytes
  else if isRegForm index bytes.length then .setupRegWrite index value bytes
  else .setupControlWrite value index bytes

/-- Skips at most `n` bytes. -/
def skipUpTo (n : Nat) : Reader Unit := fun bs => .ok ((), bs.drop n)

/-- A setup packet and its data stage of `wLength` bytes (R125): the data of a write are an operand; those of a read, where
a trace has them, are the device's answer and are passed over. -/
def readSetup : Reader Instr := do
  let requestType ← getByte
  let request ← getByte
  let value ← getWord
  let index ← getWord
  let length ← getWord
  if request ≠ Config.usbRequest then throw .notVendorRequest
  else if requestType = Config.requestIn ∧ flagClear index then do
    skipUpTo length.toNat
    pure (classifyRead value index length)
  else if requestType = Config.requestOut ∧ !flagClear index then do
    let bytes ← getMany getByte length.toNat
    pure (classifyWrite value (index ^^^ Config.writeFlag) bytes)
  else throw .notVendorRequest

/-- A bulk transfer: the endpoint and the length. -/
def readBulk : Reader Instr := do
  let ep ← getByte
  if ep = Config.usbBulkEp then do
    let length ← getNat
    pure (.bulkIn length)
  else throw (.badEndpoint ep.toNat)

/-! ## Decoding and encoding a packet -/

/-- The reader of a port. -/
def readerOf : Port → Reader Instr
  | .host => readHost
  | .msg => readMsg
  | .cmd => readCmd
  | .setup => readSetup
  | .bulk => readBulk

/-- Decodes one packet: one operation, then nothing but zero bytes. -/
def decode (port : Port) (bytes : List Byte) : Except DecodeError Instr :=
  match readerOf port bytes with
  | .error e => .error e
  | .ok (i, rest) => if rest.all (· == 0) then .ok i else .error .trailing

/-- The port an operation arrives at. -/
def Instr.port : Instr → Port
  | .msgProcess .. | .msgSetMode .. => .msg
  | .setupControlRead .. | .setupControlWrite .. | .setupRegRead .. | .setupRegWrite .. | .setupDemodRead ..
  | .setupDemodWrite .. | .setupI2cRead .. | .setupI2cWrite .. | .setupSysctlWrite .. | .setupEpaMaxpktWrite ..
  | .setupEpaCtlWrite .. | .setupDemodCtlWrite .. | .setupDemodCtl1Write .. | .setupI2cBridgeWrite ..
  | .setupIfMultHiWrite .. | .setupIfMultMidWrite .. | .setupIfMultLoWrite .. | .setupPpmOffHiWrite ..
  | .setupPpmOffLoWrite .. => .setup
  | .bulkIn .. => .bulk
  | _ => .cmd

/-- A read setup packet on the wire. -/
def putSetupRead (value index length : Word16) : List Byte := leBytes 8 (setupRead value index length).toNat

/-- A write setup packet on the wire and its data stage; the write flag is OR-ed here (R142). -/
def putSetupWrite (value index : Word16) (bytes : List Byte) : List Byte :=
  leBytes 8 (setupWrite value (index ||| Config.writeFlag) (BitVec.ofNat 16 bytes.length)).toNat ++ bytes

/-- The bytes of an operation. -/
def encode : Instr → List Byte
  | .controlRead value index length => 0x00 :: (putWord value ++ putWord index ++ putWord length)
  | .controlWrite value index bytes => 0x01 :: (putWord value ++ putWord index ++ putList putByte bytes)
  | .bulkRead length => 0x02 :: putNat length
  | .claimInterface iface => [0x03, iface]
  | .releaseInterface iface => [0x04, iface]
  | .closeDevice => [0x05]
  | .writeReg block reg value len => 0x10 :: (putWord block ++ putWord reg ++ putNat value ++ putNat len)
  | .readReg block reg len => 0x11 :: (putWord block ++ putWord reg ++ putNat len)
  | .writeRegMask block reg value mask => 0x12 :: (putWord block ++ putWord reg ++ putWide value ++ putWide mask)
  | .writeDemodReg page addr value len => 0x13 :: page :: addr :: (putNat value ++ putNat len)
  | .readDemodReg page addr => [0x14, page, addr]
  | .openI2c => [0x15]
  | .closeI2c => [0x16]
  | .i2cWriteReg addr reg value => 0x17 :: (putWord addr ++ reg :: putWide value)
  | .i2cReadReg addr reg => 0x18 :: (putWord addr ++ [reg])
  | .i2cWriteBuf addr reg bytes => 0x19 :: (putWord addr ++ [reg] ++ putList putByte bytes)
  | .i2cReadBuf addr reg n => 0x1A :: (putWord addr ++ [reg] ++ putNat n)
  | .r820tWriteMask reg value mask => 0x20 :: putTriple ⟨reg, value, mask⟩
  | .r820tRead n => 0x21 :: putNat n
  | .r820tWriteEach list => 0x22 :: putList putTriple list
  | .r820tInit => [0x23]
  | .r820tCalibrateFilter first => 0x24 :: putBool first
  | .r820tSetMux freq => 0x25 :: putNat freq
  | .r820tSetFrequency freq => 0x26 :: putNat freq
  | .r820tSetPll freq => 0x27 :: putNat freq
  | .r820tGetPllLock first => 0x28 :: putBool first
  | .r820tSetManualGain dB => 0x29 :: putRat dB
  | .r820tSetAutoGain => [0x2A]
  | .r820tClose => [0x2B]
  | .rtlNew handle ppm gain => 0x30 :: (putNat handle ++ putInt ppm ++ putGain gain)
  | .rtlOpen => [0x31]
  | .rtlSetSampleRate rate => 0x32 :: putNat rate
  | .rtlSetCenterFrequency hz => 0x33 :: putNat hz
  | .rtlResetBuffer => [0x34]
  | .rtlReadSamples n => 0x35 :: putNat n
  | .rtlClose => [0x36]
  | .getLowpassFirCoeffs rate f n => 0x40 :: (putRat rate ++ putRat f ++ putNat n)
  | .firNew coefs step => 0x41 :: (putList putRat coefs ++ putNat step)
  | .firLoad fir samples => 0x42 :: (putNat fir ++ putList putRat samples)
  | .firGet fir i => 0x43 :: (putNat fir ++ putInt i)
  | .dsNew inRate outRate coefs => 0x50 :: (putRat inRate ++ putRat outRate ++ putList putRat coefs)
  | .dsDownsample ds samples rate => 0x51 :: (putNat ds ++ putList putRat samples ++ putRat rate)
  | .iqdsNew inRate outRate coefs => 0x52 :: (putRat inRate ++ putRat outRate ++ putList putRat coefs)
  | .iqdsDownsample iqds iq rate => 0x53 :: (putNat iqds ++ putList putPair iq ++ putRat rate)
  | .fmNew inRate outRate maxF filterFreq kernelLen =>
      0x60 :: (putRat inRate ++ putRat outRate ++ putRat maxF ++ putRat filterFreq ++ putNat kernelLen)
  | .fmDemodulate fm iq rate => 0x61 :: (putNat fm ++ putList putPair iq ++ putRat rate)
  | .amNew inRate outRate filterFreq kernelLen =>
      0x62 :: (putRat inRate ++ putRat outRate ++ putRat filterFreq ++ putNat kernelLen)
  | .amDemodulate am iq rate => 0x63 :: (putNat am ++ putList putPair iq ++ putRat rate)
  | .avgNew w withVariance => 0x70 :: (putRat w ++ putBool withVariance)
  | .avgAdd avg x => 0x71 :: (putNat avg ++ putRat x)
  | .stNew sampleRate pilotFreq => 0x73 :: (putRat sampleRate ++ putRat pilotFreq)
  | .stSeparate st samples => 0x74 :: (putNat st ++ putList putRat samples)
  | .deNew rate tau => 0x75 :: (putRat rate ++ putRat tau)
  | .deRun de samples rate => 0x76 :: (putNat de ++ putList putRat samples ++ putRat rate)
  | .iqConvert bytes => 0x80 :: putList putByte bytes
  | .setMode mode => 0x81 :: putMode mode
  | .process bytes inStereo freqOffset echo =>
      0x82 :: (putList putByte bytes ++ putBool inStereo ++ putRat freqOffset ++ putList putByte echo)
  | .msgProcess bytes inStereo freqOffset echo =>
      Config.tagProcess :: (putList putByte bytes ++ putBool inStereo ++ putRat freqOffset ++ putList putByte echo)
  | .msgSetMode mode => Config.tagSetMode :: putMode mode
  | .setupControlRead value index length => putSetupRead value index length
  | .setupControlWrite value index bytes => putSetupWrite value index bytes
  | .setupRegRead block reg length => putSetupRead reg block length
  | .setupRegWrite block reg bytes => putSetupWrite reg block bytes
  | .setupDemodRead page1 addr length => putSetupRead (demodValue addr) (pageIndex page1) length
  | .setupDemodWrite page1 addr bytes => putSetupWrite (demodValue addr) (pageIndex page1) bytes
  | .setupI2cRead length => putSetupRead Config.r820tI2cAddr Config.blockI2c length
  | .setupI2cWrite reg bytes => putSetupWrite Config.r820tI2cAddr Config.blockI2c (reg :: bytes)
  | .setupSysctlWrite data => putSetupWrite Config.regSysctl Config.blockUsb [data]
  | .setupEpaMaxpktWrite data0 data1 => putSetupWrite Config.regEpaMaxpkt Config.blockUsb [data0, data1]
  | .setupEpaCtlWrite data0 data1 => putSetupWrite Config.regEpaCtl Config.blockUsb [data0, data1]
  | .setupDemodCtlWrite data => putSetupWrite Config.regDemodCtl Config.blockSys [data]
  | .setupDemodCtl1Write data => putSetupWrite Config.regDemodCtl1 Config.blockSys [data]
  | .setupI2cBridgeWrite data => putSetupWrite (demodValue Config.regBridge) (pageIndex Config.namedPage) [data]
  | .setupIfMultHiWrite data => putSetupWrite (demodValue Config.regIfMultHi) (pageIndex Config.namedPage) [data]
  | .setupIfMultMidWrite data => putSetupWrite (demodValue Config.regIfMultMid) (pageIndex Config.namedPage) [data]
  | .setupIfMultLoWrite data => putSetupWrite (demodValue Config.regIfMultLo) (pageIndex Config.namedPage) [data]
  | .setupPpmOffHiWrite data => putSetupWrite (demodValue Config.regPpmOffHi) (pageIndex Config.namedPage) [data]
  | .setupPpmOffLoWrite data => putSetupWrite (demodValue Config.regPpmOffLo) (pageIndex Config.namedPage) [data]
  | .bulkIn length => Config.usbBulkEp :: putNat length

/-! ## A trace of control transfers (R100, R125) -/

/-- One control transfer of a trace: the setup packet and its `wLength` data bytes, in either direction. -/
def readTransferBytes : Reader (Word64 × List Byte) := do
  let setup ← getLE 8
  let bytes ← getMany getByte (setup / 2 ^ 48)
  pure (BitVec.ofNat 64 setup, bytes)

/-- The control transfers of a trace, one after another. -/
def readTrace : Nat → List Byte → Except DecodeError (List (Word64 × List Byte))
  | 0, bs => if bs = [] then .ok [] else .error .trailing
  | n + 1, bs =>
    if bs = [] then .ok []
    else match readTransferBytes bs with
      | .error e => .error e
      | .ok (t, rest) => match readTrace n rest with
        | .error e => .error e
        | .ok ts => .ok (t :: ts)

/-- Decodes a trace of control transfers: each is at least 8 bytes. -/
def decodeTrace (bs : List Byte) : Except DecodeError (List (Word64 × List Byte)) := readTrace (bs.length / 8) bs

/-- The bytes of a trace of control transfers. -/
def encodeTrace (ts : List (Word64 × List Byte)) : List Byte := ts.flatMap fun t => leBytes 8 t.1.toNat ++ t.2

/-! ## The table's numbering of bits -/

/-- The bytes of the longest fixed operand part, rounded up: as many zero bytes follow a table row's own. -/
def operandRoom : Nat := 256

/-- The bytes of an instruction of `nbits` table bits `w`: its own bytes, low byte first, then zeros; a setup
packet is followed by its data stage of zeros. -/
def tableBytes (nbits w : Nat) : List Byte :=
  let n := (nbits + 7) / 8
  leBytes n w ++ List.replicate (if n < 8 then operandRoom else w / 2 ^ 48 % 2 ^ 16) 0

/-- The port of an instruction of `nbits` table bits: 8 bytes are a setup packet, fewer are a command. The table
also gives 8 bits to the two messages and to the bulk transfer; these numbers are read as commands
(notes/assumptions/1.md). -/
def tablePort (nbits : Nat) : Port := if (nbits + 7) / 8 < 8 then .cmd else .setup

/-- The operation the decoder reads from an instruction whose bits are `w`. -/
def decodeTableWord (nbits w : Nat) : Option Instr :=
  match decode (tablePort nbits) (tableBytes nbits w) with
  | .ok i => some i
  | .error _ => none

end Sys2Proof
end

