-- ==== Sys2Proof/Machine/State.lean ====
section
/-! DEFINITION. The state of the block as plain data (spec 10_state R20 to R49), the errors it delivers (60_exceptions),
why a step can stop, and the state at power-up (70_reset_and_hazards R332). INVENTORY.md lists every field with its
rule. -/

namespace Sys2Proof.Machine

/-! ## The control path -/

/-- The names `SEQ` takes (R24). -/
inductive SeqOp where
  | idle | opening | setSampleRate | setCenterFrequency | resetBuffer | readSamples | closing
  deriving DecidableEq, Repr, Inhabited

/-- The sequencer position `(SEQ, STEP)` (R24). -/
structure SeqPos where
  op   : SeqOp
  step : Nat
  deriving DecidableEq, Repr, Inhabited

/-- A `read_samples` in flight (R39 (c), R211): the bytes it asks for and its own sequencer position. -/
structure ReadInFlight where
  length : Nat
  pos    : SeqPos
  deriving DecidableEq, Repr, Inhabited

/-- What the device does with I2C transfers (R39 (a)): the truth on the device's side. -/
inductive Bridge where
  | forwarding | blocked | unspecified
  deriving DecidableEq, Repr, Inhabited

/-! ## Errors (R300 to R308) -/

/-- The seven kinds of R308. -/
inductive ErrKind where
  | permissionDenied | deviceNotFound | unsupportedTuner | pllNotLocked | transportError | invalidState | rateMismatch
  deriving DecidableEq, Repr, Inhabited

/-- The transport operation a `TransportError` names (R108). -/
inductive TransportOp where
  | controlRead | controlWrite | bulkRead | claimInterface | releaseInterface | closeDevice
  deriving DecidableEq, Repr, Inhabited

/-- Which tune a `PllNotLocked` ended (R304). -/
inductive PllPhase where
  | calibration | tune
  deriving DecidableEq, Repr, Inhabited

/-- The host operations that can raise `InvalidState` (R306). -/
inductive HostOp where
  | rtlNew | rtlOpen | rtlSetSampleRate | rtlSetCenterFrequency | rtlResetBuffer | rtlReadSamples | rtlClose
  | closeDevice | process
  deriving DecidableEq, Repr, Inhabited

/-- The `info` of an error (R108, R303, R304, R306, R307). -/
inductive ErrInfo where
  | nothing
  | probe (id : Byte)
  | pll (phase : PllPhase) (freq : Nat)
  | transport (op : TransportOp) (value index : Word16) (code : Int) (message : String)
  | operation (name : HostOp)
  | rates (expected got : Rat)
  deriving DecidableEq, Repr, Inhabited

/-- A raised error (R300). -/
structure Err where
  kind : ErrKind
  info : ErrInfo
  deriving DecidableEq, Repr, Inhabited

/-- The record delivered to the handler (R310, R311): for the kinds that set `FAULT` it carries the position of
the failing step. -/
structure ErrRecord where
  kind : ErrKind
  info : ErrInfo
  pos  : Option SeqPos
  deriving DecidableEq, Repr, Inhabited

/-! ## The wire, the device's premise, the host's events -/

/-- One transfer put on the wire: a control transfer with its setup packet and its data stage, for a read the bytes the
device delivered (R125); a bulk transfer; an operation of the host controller (R100 to R104, R144 to R146). -/
inductive Transfer where
  | control (setup : Word64) (data : List Byte)
  | bulk (length : Nat)
  | claim (iface : Byte)
  | release (iface : Byte)
  | closeDevice
  deriving DecidableEq, Repr, Inhabited

/-- The device's answers where a premise scripts them (R76; notes/assumptions/6.md). `answers`: none leaves every
result code free; a list gives the answers of the transfers it names by number, and every other transfer succeeds.
`status`: the bytes of the next reads of the tuner, as they come over the wire. `samples`: the next bytes of the
sample stream. -/
structure DevicePlan where
  answers : Option (List (Nat × Answer))
  status  : List (List Byte)
  samples : List Byte
  deriving DecidableEq, Repr, Inhabited

/-- What the host does next (R121, R313; notes/assumptions/2.md): `command` puts a packet at a port and waits until the
operation is completed; `issue` puts a packet at the control-path port and goes on without waiting; `progress` lets the
operation in progress make one move before the host goes on; `completion` waits for the next completion of the control path;
`submit` puts a message at the data-path port and goes on without waiting; `response` waits for the next response of the data
path. -/
inductive Event where
  | command (port : Port) (bytes : List Byte)
  | issue (bytes : List Byte)
  | progress
  | completion
  | submit (bytes : List Byte)
  | response
  deriving DecidableEq, Repr, Inhabited

/-- The result of a completed operation (R313, R118). DESIGN CHOICE (notes/assumptions/51.md): `echo` is a byte sequence, and
`stereo` and `signalLevel` stand beside it (R288). -/
inductive Result where
  | nothing
  | bytes (data : List Byte)
  | uint (value : Nat)
  | flag (value : Bool)
  | handle (index : Nat)
  | real (value : Rat)
  | reals (values : List Rat)
  | mono (stream : MonoFloat)
  | demodulated (stream : MonoFloat) (carrier : Bool)
  | iq (stream : IqFloat)
  | separated (diff : MonoFloat) (found : Bool)
  | audio (left right : MonoFloat) (echo : List Byte) (stereo : Bool) (signalLevel : Rat)
  | raw (data : List Byte) (rate : Option Nat)
  deriving DecidableEq, Repr, Inhabited

/-! ## What an operation in progress has still to do (R24, R140) -/

/-- What the block does with the bytes of a status read: the probe (R203), the fine-tune reading of `set_pll` (R181), the
first lock poll and the last one (R183), the filter code (R178). -/
inductive StatusUse where
  | probe
  | fineTune (freq : Nat) (pllRef : Int)
  | lock (firstTry : Bool)
  | code (firstAttempt : Bool)
  deriving DecidableEq, Repr, Inhabited

/-- One thing an operation in progress has to do: a USB transaction, or a step between two transactions that issues none
and may add to what is to be done. -/
inductive Task where
  /-- A `write_reg` (R151). -/
  | reg (block reg : Word16) (value len : Nat)
  /-- A `write_demod_reg` (R154). -/
  | demod (page1 : Bool) (addr : Byte) (value len : Nat)
  /-- `claim_interface` (R144). -/
  | claim
  /-- `open_i2c` (R156). -/
  | openBridge
  /-- `close_i2c` (R157). -/
  | closeBridge
  /-- A masked tuner write (R171). -/
  | mask (t : Triple)
  /-- Masked tuner writes, one after another (R173). -/
  | each (list : List Triple)
  /-- The 27 defaults (R174). -/
  | defaults
  /-- The pointer write of a read of `n` status bytes (R159, R161). -/
  | point (n : Nat)
  /-- The read of `n` status bytes, and what is done with them. -/
  | fetch (n : Nat) (use : StatusUse)
  /-- A masked write of the power-down inside `rtl.close` (R212). -/
  | closingMask (t : Config.TableTriple)
  /-- The end of `r820t.close` inside `rtl.close` (R186). -/
  | unready
  /-- The release inside `rtl.close` (R212). -/
  | release
  /-- `close_device` (R146). -/
  | device
  /-- The corrected crystal frequency (R202 step 5). -/
  | xtal
  /-- The IF offset (R204). -/
  | ifOffset
  /-- `r820t.init` (R174). -/
  | init
  /-- The end of `r820t.init` (R174). -/
  | ready
  /-- The gain (R202 step 10). -/
  | gain
  /-- `r820t.set_pll` (R181). -/
  | pll (freq : Nat)
  /-- The divider words and the lock poll (R182, R183). -/
  | dividers (nint sdm : Int)
  /-- One run of the filter calibration (R178). -/
  | calibrate (firstAttempt : Bool)
  /-- The filter calibration after its PLL setting (R178). -/
  | calibrated (firstAttempt : Bool)
  /-- `rtl.set_sample_rate` (R205). -/
  | ratio (rate : Nat)
  /-- The end of `rtl.set_sample_rate` (R206, R208). -/
  | rated (actual : Nat)
  /-- `rtl.set_center_frequency` (R209). -/
  | tune (hz : Nat)
  /-- `r820t.set_frequency` (R180). -/
  | frequency (freq : Nat)
  /-- The result of `r820t.set_frequency` (R180, R209). -/
  | settled (hz : Nat)
  /-- The end of `rtl.set_center_frequency` (R209, R304). -/
  | tuned (hz : Nat) (locked : Bool)
  /-- The end of a step of `rtl.close`: the next one begins at index `k` (R317). -/
  | mark (k : Nat)
  /-- The end of `rtl.close` (R212). -/
  | closed
  deriving DecidableEq, Repr, Inhabited

/-! ## The pipeline instance (R33) -/

/-- The unit instances a chain owns (R289 to R291). -/
inductive Chain where
  | wbfm (fm : Fm) (mono diff : Downsampler) (st : Stereo) (deL deR : Deemphasis)
  | nbfm (fm : Fm) (mono : Downsampler)
  | am (am : Am)
  deriving DecidableEq, Repr, Inhabited

/-- The installed pipeline (R33). -/
structure Pipeline where
  mode  : Mode
  chain : Chain
  deriving DecidableEq, Repr, Inhabited

/-! ## The state -/

/-- The device's byte store: (address, byte) with addresses strictly rising. An address that is not listed has no value:
reading it is a draw (R72; notes/assumptions/8.md). -/
abbrev Mem := List Host.Cell

/-- The state of the block. -/
structure State where
  opened           : Bool
  claimed          : Bool
  i2cOpen          : Bool
  tunerReady       : Bool
  hasPllLock       : Bool
  fault            : Bool
  seq              : SeqPos
  reads            : List ReadInFlight
  running          : Option Instr
  todo             : List Task
  handle           : Option Nat
  ppm              : Option Int
  gain             : Option Gain
  xtalFreq         : Option Int
  filterCap        : Option (BitVec Config.filCalWidth)
  actualRate       : Option Nat
  shadow           : Option (Vector Byte Config.shadowLen)
  mem              : Mem
  bridge           : Bridge
  i2cPtr           : Byte
  fifoEpoch        : Nat
  streamPos        : Nat
  firs             : List Fir
  dss              : List Downsampler
  iqdss            : List IqDownsampler
  fms              : List Fm
  ams              : List Am
  avgs             : List Averager
  sts              : List Stereo
  des              : List Deemphasis
  pipeline         : Option Pipeline
  messages         : List Instr
  errors           : List ErrRecord
  handlerInstalled : Bool
  ended            : Bool
  result           : Result
  inbox            : List Event
  trace            : List Transfer
  plan             : DevicePlan
  drawNo           : Nat
  deriving DecidableEq, Repr, Inhabited

/-! ## Why a step stops -/

/-- A fault: the machine stops. -/
inductive Fault where
  /-- Raised by `step` when an error was fatal and the host program has ended (R311). Safe: the spec gives no
  further step. -/
  | programEnded
  deriving DecidableEq, Repr, Inhabited

/-- A refusal (R309): the spec gives no successor. All are safe: the model stops where the hardware may go on. -/
inductive Refusal where
  /-- Raised by `exec` for an operation that has no meaning yet; the arms of Dispatch.lean only. -/
  | notModelled (mnemonic : String)
  /-- Raised by `step`: the packet is no operation (R123, G12, G13, G23). -/
  | undecodable (port : Port) (why : DecodeError)
  /-- Raised by transfers and register accesses: a register block, a DEMOD page or index bits that are reserved (R71, R123,
  G13). -/
  | reservedAddress (value index : Word16)
  /-- Raised by register accesses: a width outside 1, 2, 4, or not the named register's own (R80, R123, G14). -/
  | badWidth (len : Nat)
  /-- Raised by the masked tuner write: no shadow byte for the register (R171, G15). -/
  | noShadowByte (reg : Byte)
  /-- Raised by I2C transfers while the bridge is closed (R347, G16). -/
  | bridgeClosed
  /-- Raised by `r820t.set_pll`: the divider falls outside its 3-bit field (R181, G17). -/
  | dividerRange (divNum : Int)
  /-- Raised by `r820t.set_pll`: the integer divider is below the packing's range (R181, G17). -/
  | nintRange (nint : Int)
  /-- Raised by `rtl.set_sample_rate`: the masked ratio is 0 (R205, G18). -/
  | rateTooHigh (rate : Nat)
  /-- Raised by reads of length 0, writes of no bytes, and lengths the operation or `wLength` cannot carry
  (R141 to R143, R172, G19). -/
  | badLength (n : Nat)
  /-- Raised by `claim_interface` when the interface is claimed (R144, G19). -/
  | alreadyClaimed
  /-- Raised by U1 operations when no device is open (R141, R146, G19). -/
  | notOpened
  /-- Raised by `bulk_read` and `release_interface` when the interface is not claimed (R143, R145). -/
  | notClaimed
  /-- Raised by `claim_interface` and `release_interface` for an interface other than 1 (R144, R145). -/
  | badInterface (iface : Byte)
  /-- Raised by a read of a control word that does not exist (R47, G19). -/
  | noControlWord
  /-- Raised by `r820t.set_frequency` before `r820t.init` has completed (R180). -/
  | tunerNotReady
  /-- Raised by masked tuner writes before `r820t.init` has filled the shadow (R349, G25). -/
  | noShadow
  /-- Raised by `iq_convert` and `process`: an odd number of sample bytes (R286, G21). -/
  | oddLength (n : Nat)
  /-- Raised by `step` for an internal operation or a transfer of the test bench while an operation of the host is in
  progress: its transfers cannot come between the operation's own (R83, R87, R140). -/
  | sequencerBusy
  /-- Raised by unit-level operations on an instance that was never constructed. -/
  | noInstance (index : Nat)
  /-- Raised where a filter is designed: the coefficients sum to zero (R221, G10). -/
  | zeroSum
  /-- Raised by `fir.get` outside the block last loaded (R225, G20). -/
  | getOutOfRange (i : Int)
  /-- Raised by `process` for a frequency offset other than 0 (R287, G22). -/
  | freqOffset (hz : Rat)
  /-- Raised by `set_mode` for a mode the block does not have or a parameter out of range (R123, R293, G23). -/
  | badMode (mode : Mode)
  /-- Raised by `avg.new` for a negative weight (R266, G24). -/
  | negativeWeight (w : Rat)
  /-- Raised by unit-level operations and `rtl` operations for operands outside the operand line of their rule: a rate,
  frequency or length that must be positive. -/
  | badOperand
  deriving DecidableEq, Repr, Inhabited

/-! ## Power-up -/

/-- `(idle, 0)`. -/
def SeqPos.rest : SeqPos := { op := .idle, step := 0 }

/-- The block at power-up (R41 to R49, R332): the control path closed, no data-path instance, the device
unspecified. The values the spec does not give are named in notes/assumptions/2.md, 6.md, 9.md, 16.md and 29.md. -/
def State.reset : State :=
  { opened := false
    claimed := false
    i2cOpen := false
    tunerReady := false
    hasPllLock := false
    fault := false
    seq := SeqPos.rest
    reads := []
    running := none
    todo := []
    handle := none
    ppm := none
    gain := none
    xtalFreq := none
    filterCap := none
    actualRate := none
    shadow := none
    mem := []
    bridge := .unspecified
    i2cPtr := 0
    fifoEpoch := 0
    streamPos := 0
    firs := []
    dss := []
    iqdss := []
    fms := []
    ams := []
    avgs := []
    sts := []
    des := []
    pipeline := none
    messages := []
    errors := []
    handlerInstalled := true
    ended := false
    result := .nothing
    inbox := []
    trace := []
    plan := { answers := none, status := [], samples := [] }
    drawNo := 0 }

end Sys2Proof.Machine
end

