-- ==== Sys2Proof/Machine/Flags.lean ====
section
/-! DEFINITION. The flags of the block and the conditions its rules test: carrier, pilot lock, PLL lock, the table of
error kinds, and when a host operation is allowed (spec 10_state R26 to R29, 60_exceptions R306, R308). -/

namespace Sys2Proof.Machine

/-! ## Data-path flags -/

/-- `carrier`: the power `p` of a block of `len` samples exceeds `0.002 * len`, strictly (R253, R258). -/
def carrierFlag (p : Rat) (len : Nat) : Bool := decide (Config.carrierThreshold * len < p)

/-- `found`: the lock average is below LOCK_THRES, strictly (R276). -/
def foundFlag (lockThres lockAverage : Rat) : Bool := decide (lockAverage < lockThres)

/-! ## Fields of the tuner's status bytes, after bit reversal (R36) -/

/-- LOCK, register 0x02 bit 6. -/
def lockBit (status : List Byte) : Bool := (status.getD Config.lockReg 0).getLsbD Config.lockPos

/-- VCO_FINE, register 0x04 bits 5:4. -/
def vcoFine (status : List Byte) : Nat :=
  ((status.getD Config.calReg 0).extractLsb' Config.vcoFinePos Config.vcoFineWidth).toNat

/-- FIL_CAL, register 0x04 bits 3:0. -/
def filCal (status : List Byte) : BitVec Config.filCalWidth :=
  (status.getD Config.calReg 0).extractLsb' Config.filCalPos Config.filCalWidth

/-- The filter code of R178: 0x0F counts as 0. -/
def filterCode (status : List Byte) : BitVec Config.filCalWidth :=
  if filCal status = Config.filCalNone then 0 else filCal status

/-! ## The table of error kinds (R308) -/

/-- The spec's number of a kind. -/
def ErrKind.code : ErrKind → Nat
  | .permissionDenied => 1
  | .deviceNotFound => 2
  | .unsupportedTuner => 3
  | .pllNotLocked => 4
  | .transportError => 5
  | .invalidState => 6
  | .rateMismatch => 7

/-- The kinds that set `FAULT`: codes 3, 4, 5. -/
def ErrKind.setsFault : ErrKind → Bool
  | .unsupportedTuner | .pllNotLocked | .transportError => true
  | .permissionDenied | .deviceNotFound | .invalidState | .rateMismatch => false

/-- Whether the kind ends the host program where no handler is installed (R311); `InvalidState` is "not fatal" (R306;
notes/assumptions/16.md). -/
def ErrKind.fatalUnhandled : ErrKind → Bool
  | .invalidState => false
  | .permissionDenied | .deviceNotFound | .unsupportedTuner | .pllNotLocked | .transportError | .rateMismatch => true

/-! ## When a host operation is allowed (R306) -/

/-- `seq = idle`: no operation in progress, no read in flight. -/
def State.seqIdle (s : State) : Bool := s.seq.op == .idle && s.reads.isEmpty

/-- The table of R306. -/
def HostOp.allowed (op : HostOp) (s : State) : Bool :=
  match op with
  | .rtlNew => !s.opened
  | .rtlOpen => s.opened && !s.claimed && !s.fault && s.seqIdle
  | .rtlSetSampleRate => s.claimed && !s.fault && s.seqIdle
  | .rtlResetBuffer => s.claimed && !s.fault && s.seqIdle
  | .rtlSetCenterFrequency => s.tunerReady && !s.fault && s.seqIdle
  | .rtlReadSamples => s.claimed && !s.fault && s.seq.op == .idle && decide (s.reads.length < Config.maxReads)
  | .rtlClose => s.opened && (s.seqIdle || s.fault)
  | .closeDevice => s.opened && !s.claimed
  | .process => s.pipeline.isSome

/-! ## Which operations are the host's (R121, R306) -/

/-- The host's operation an instruction is, where it is one (R306). -/
def hostOpOf : Instr → Option HostOp
  | .rtlNew .. => some .rtlNew
  | .rtlOpen => some .rtlOpen
  | .rtlSetSampleRate .. => some .rtlSetSampleRate
  | .rtlSetCenterFrequency .. => some .rtlSetCenterFrequency
  | .rtlResetBuffer => some .rtlResetBuffer
  | .rtlReadSamples .. => some .rtlReadSamples
  | .rtlClose => some .rtlClose
  | .closeDevice => some .closeDevice
  | .process .. => some .process
  | .msgProcess .. => some .process
  | _ => none

/-- The operations of the data path: the units U5 to U12, the conversion, `set_mode` and `process` (R121). -/
def isDataPath : Instr → Bool
  | .getLowpassFirCoeffs .. | .firNew .. | .firLoad .. | .firGet .. | .dsNew .. | .dsDownsample .. | .iqdsNew ..
  | .iqdsDownsample .. | .fmNew .. | .fmDemodulate .. | .amNew .. | .amDemodulate .. | .avgNew .. | .avgAdd ..
  | .stNew .. | .stSeparate .. | .deNew .. | .deRun .. | .iqConvert .. | .setMode .. | .process .. | .msgProcess ..
  | .msgSetMode .. => true
  | _ => false

/-- `SEQ` of the operations of the host that issue control transfers or ask the USB layer for something, so that they can be
in progress (R24, R140): the sequences of U4, and `close_device`, to which R24 gives no name. `rtl.read_samples` keeps its
position with the read, and `rtl.new` issues nothing. -/
def sequenceOf : Instr → Option SeqOp
  | .rtlOpen => some .opening
  | .rtlSetSampleRate .. => some .setSampleRate
  | .rtlSetCenterFrequency .. => some .setCenterFrequency
  | .rtlResetBuffer => some .resetBuffer
  | .rtlClose => some .closing
  | .closeDevice => some .idle
  | _ => none

end Sys2Proof.Machine
end

