-- ==== Sys2Proof/Machine/Ops.lean ====
section
/-! DEFINITION. The operations the meanings share: the device's byte store, one USB transfer, raising and delivering
an error, and the sequencer position (spec 20_memory, 40_usb_transport, 60_exceptions R310 to R317). -/

namespace Sys2Proof.Machine

/-! ## The device's byte store (R72 to R74): a canonical list -/

/-- The byte last stored at an address, or none. -/
def Mem.get : Mem → Nat → Option Byte
  | [], _ => none
  | (k, v) :: rest, a => if a = k then some v else Mem.get rest a

/-- Stores one byte. -/
def Mem.put : Mem → Nat → Byte → Mem
  | [], a, b => [(a, b)]
  | (k, v) :: rest, a, b =>
    if a < k then (a, b) :: (k, v) :: rest
    else if a = k then (a, b) :: rest
    else (k, v) :: Mem.put rest a b

/-- Forgets one byte: the address reads as a draw again. -/
def Mem.forget : Mem → Nat → Mem
  | [], _ => []
  | (k, v) :: rest, a => if a = k then rest else (k, v) :: Mem.forget rest a

/-- Stores consecutive bytes. -/
def Mem.putBytes : Mem → Nat → List Byte → Mem
  | m, _, [] => m
  | m, a, b :: bs => Mem.putBytes (m.put a b) (a + 1) bs

/-- Forgets `n` consecutive bytes. -/
def Mem.forgetBytes : Mem → Nat → Nat → Mem
  | m, _, 0 => m
  | m, a, n + 1 => Mem.forgetBytes (m.forget a) (a + 1) n

/-- Every listed address is at least `a`, rising strictly. -/
def Mem.sortedFrom : Nat → Mem → Bool
  | _, [] => true
  | a, (k, _) :: rest => decide (a ≤ k) && Mem.sortedFrom (k + 1) rest

/-- The canonical form: addresses rise strictly. No entry can equal what an unlisted address reads as, since that has no
value. -/
def Mem.wf (m : Mem) : Bool := Mem.sortedFrom 0 m

/-! ## Where a transfer goes (R71 to R74, R85) -/

/-- Why an operation ends without a result. -/
inductive Stop where
  | raised (e : Err)
  | refused (r : Refusal)
  | fault (f : Fault)
  /-- An error was delivered and was fatal: the host program has ended (R311). -/
  | ended
  deriving DecidableEq, Repr, Inhabited

/-- What the address words of a control transfer select: a window of the register store, from the byte `base` on
with `room` bytes to its end; the tuner behind the bridge; or an address behind the bridge where the spec has no device. -/
inductive Target where
  | register (base room : Nat)
  | tuner
  | absent
  deriving DecidableEq, Repr, Inhabited

/-- The store's address of byte `offset` of the space `index` selects. -/
def cellAddr (index : Word16) (offset : Nat) : Nat := index.toNat * Config.blockSize + offset

/-- The store's address of R820T register `reg`. -/
def tunerAddr (reg : Nat) : Nat := cellAddr Config.blockI2c reg

/-- The store's address of the bridge register, DEMOD page 1 register 0x01 (R37). -/
def bridgeAddr : Nat := cellAddr (pageIndex Config.namedPage) Config.regBridge.toNat

/-- The store's address of EPA_CTL (R37). -/
def epaCtlAddr : Nat := cellAddr Config.blockUsb Config.regEpaCtl.toNat

/-- The space and register that address words select; `index` without the write flag. A DEMOD register is selected by the
high byte of `value`, whatever the low byte (R73; notes/assumptions/21.md). -/
def targetOf (value index : Word16) : Except Stop Target :=
  if index = Config.blockUsb ∨ index = Config.blockSys then
    .ok (.register (cellAddr index value.toNat) (Config.blockSize - value.toNat))
  else if index = Config.blockI2c then .ok (if value = Config.r820tI2cAddr then .tuner else .absent)
  else if isDemodPage index then
    .ok (.register (cellAddr index (demodAddr value).toNat) (Config.pageSize - (demodAddr value).toNat))
  else .error (.refused (.reservedAddress value index))

/-! ## What the device does with a transfer that succeeds or fails -/

/-- What a write of `b` to the bridge register does to the bridge (R39 (a); notes/assumptions/28.md). -/
def bridgeAfter (b : Byte) : Bridge :=
  if b = BitVec.ofNat 8 Config.bridgeOpenValue then .forwarding
  else if b = BitVec.ofNat 8 Config.bridgeCloseValue then .blocked
  else .unspecified

/-- Whether the window `base .. base + n - 1` holds address `a`. -/
def covers (base n a : Nat) : Bool := decide (base ≤ a) && decide (a < base + n)

/-- Whether a write of `bytes` at `base` ends a reset of the sample FIFO: EPA_CTL holds 0x0210 and receives 0x0000
(R84, R210). DESIGN CHOICE (notes/assumptions/29.md): a transfer of another width that covers EPA_CTL takes no part in the
reset. -/
def resetsFifo (m : Mem) (base : Nat) (bytes : List Byte) : Bool :=
  base == epaCtlAddr && bytes == leBytes Config.epaCtlLen.bytes Config.epaCtlRun
    && [m.get epaCtlAddr, m.get (epaCtlAddr + 1)] == (leBytes Config.epaCtlLen.bytes Config.epaCtlReset).map some

/-- What a write of `bytes` to a target leaves of the bridge. DESIGN CHOICE (notes/assumptions/53.md): of a longer write over
the bridge register, the byte that falls there acts on the bridge. -/
def bridgeAfterWrite (t : Target) (bytes : List Byte) (b : Bridge) : Bridge :=
  match t with
  | .register base room =>
    if covers base (bytes.take room).length bridgeAddr then bridgeAfter ((bytes.take room).getD (bridgeAddr - base) 0) else b
  | .tuner | .absent => b

/-- The device accepts a write (R72 to R74, R84). Bytes past the end of a window, past register 0x1F, and bytes to an address
without a device are stored nowhere (notes/assumptions/22.md, 23.md). DESIGN CHOICE (notes/assumptions/50.md): byte `k` of a
write of any width lies at the address plus `k`. -/
def deviceStore (t : Target) (bytes : List Byte) (s : State) : State :=
  match t with
  | .register base room =>
    let bs := bytes.take room
    { s with
      mem := s.mem.putBytes base bs
      bridge := bridgeAfterWrite t bytes s.bridge
      fifoEpoch := if resetsFifo s.mem base bs then s.fifoEpoch + 1 else s.fifoEpoch
      streamPos := if resetsFifo s.mem base bs then 0 else s.streamPos }
  | .tuner =>
    match bytes with
    | [] => s
    | reg :: data =>
      { s with mem := s.mem.putBytes (tunerAddr reg.toNat) (data.take (Config.r820tRegs - reg.toNat)), i2cPtr := reg }
  | .absent => s

/-- A write in transfer number `draw` failed: nothing is known of the registers it named (R142, G2;
notes/assumptions/7.md). -/
def deviceForget (t : Target) (bytes : List Byte) (draw : Nat) (s : State) : State :=
  match t with
  | .register base room =>
    let n := min bytes.length room
    { s with
      mem := s.mem.forgetBytes base n
      bridge := if covers base n bridgeAddr then .unspecified else s.bridge }
  | .tuner =>
    match bytes with
    | [] => s
    | reg :: data =>
      { s with
        mem := s.mem.forgetBytes (tunerAddr reg.toNat) (min data.length (Config.r820tRegs - reg.toNat))
        i2cPtr := Config.pointerAfterFailure draw }
  | .absent => s

/-- Byte `k` of a read of the register store: the byte last stored, or a draw (R72). DESIGN CHOICE
(notes/assumptions/50.md): an access of any width sees the store byte by byte. -/
def registerByte (m : Mem) (base room draw k : Nat) : Byte :=
  if k < room then (m.get (base + k)).getD (Config.deviceByte draw k) else Config.deviceByte draw k

/-- Byte `k` of a read of the tuner that starts at register `ptr`, as it comes over the wire: registers 0x00 to 0x04 are
draws, from the script where it has them (R74, R76); another register gives the byte last stored, its bits reversed
(notes/assumptions/36.md). -/
def tunerByte (m : Mem) (script : List Byte) (ptr draw k : Nat) : Byte :=
  let drawn := script.getD k (Config.deviceByte draw k)
  if ptr + k < Config.shadowBase then drawn
  else match m.get (tunerAddr (ptr + k)) with
    | some b => bitrev8 b
    | none => drawn

/-- The data stage of a read that succeeds. -/
def deviceBytes (t : Target) (n draw : Nat) (s : State) : List Byte :=
  match t with
  | .register base room => (List.range n).map (registerByte s.mem base room draw)
  | .tuner => (List.range n).map (tunerByte s.mem (s.plan.status.headD []) s.i2cPtr.toNat draw)
  | .absent => (List.range n).map (Config.deviceByte draw)

/-- What a read that succeeds changes: the premise's script moves on. -/
def deviceAfterRead (t : Target) (s : State) : State :=
  match t with
  | .register _ _ => s
  | .tuner => { s with plan := { s.plan with status := s.plan.status.tail } }
  | .absent => s

/-- Byte `k` of the next bytes of the sample stream (R75, R76). -/
def streamByte (s : State) (k : Nat) : Byte :=
  s.plan.samples.getD k (Config.sampleByte s.fifoEpoch (s.streamPos + k))

/-- The next `n` bytes of the sample stream. -/
def streamBytes (s : State) (n : Nat) : List Byte := (List.range n).map (streamByte s)

/-- Reading consumes (R75). -/
def consumeStream (n : Nat) (s : State) : State :=
  { s with streamPos := s.streamPos + n, plan := { s.plan with samples := s.plan.samples.drop n } }

/-- The answer to transfer number `draw` (R76). -/
def answerOf (p : DevicePlan) (draw : Nat) : Answer :=
  match p.answers with
  | none => Config.answer draw
  | some l => match l.find? (fun e => e.1 == draw) with
    | some e => e.2
    | none => Answer.success

/-! ## Errors (R300, R308, R310, R311) -/

/-- Delivery to the handler, exactly once (R311). -/
def deliver (r : ErrRecord) (s : State) : State :=
  { s with
    errors := s.errors ++ [r]
    ended := s.ended || (!s.handlerInstalled && r.kind.fatalUnhandled) }

/-- TAKING AN ERROR (R310). For the kinds that set `FAULT`: the record is completed with the position of the failing
step, `FAULT` is set, the sequencer returns to `(idle, 0)`, the record is delivered; everything else stays. For the other
kinds only the delivery happens. There is no return (R316). -/
def takeError (e : Err) (s : State) : State :=
  if e.kind.setsFault then
    deliver { kind := e.kind, info := e.info, pos := some s.seq } { s with fault := true, seq := SeqPos.rest }
  else deliver { kind := e.kind, info := e.info, pos := none } s

/-- `InvalidState` of a host operation (R306). -/
def invalidState (op : HostOp) : Err := { kind := .invalidState, info := .operation op }

/-- `RateMismatch` (R307). -/
def rateMismatch (expected got : Rat) : Err := { kind := .rateMismatch, info := .rates expected got }

/-- `TransportError` of transfer number `draw` (R108): the code of the USB layer, or a free value for a short
transfer whose own code is 0 (notes/assumptions/18.md). -/
def transportError (op : TransportOp) (value index : Word16) (draw : Nat) (a : Answer) : Err :=
  { kind := .transportError
    info := .transport op value index (if a.code = 0 then Config.shortCode draw else a.code) (Config.errorText draw) }

/-! ## Control-path programs -/

/-- A program of the control sequencer: it reads and writes the state and ends with a value or a `Stop`; what it
has done to the state stays done when it stops (R310 item 2). -/
abbrev Ctl := EStateM Stop State

/-- Ends with a refusal. -/
def refuse {α : Type} (r : Refusal) : Ctl α := throw (.refused r)

/-- Ends with a fault. -/
def faultWith {α : Type} (f : Fault) : Ctl α := throw (.fault f)

/-- `raise Err(kind, info)`. -/
def raise {α : Type} (e : Err) : Ctl α := throw (.raised e)

/-- A `require` of an internal operation: refused where it fails (R306, R309). -/
def require (b : Bool) (r : Refusal) : Ctl Unit := if b then pure () else refuse r

/-- A control word, refused where it does not exist (R47). -/
def word {α : Type} : Option α → Ctl α
  | some v => pure v
  | none => refuse .noControlWord

/-- The target of address words, or the stop they cause. -/
def target (value index : Word16) : Ctl Target :=
  match targetOf value index with
  | .ok t => pure t
  | .error e => throw e

/-- A completed operation. -/
def complete (r : Result) (s : State) : State := { s with result := r }

/-- Runs a program as one step: a result, a taken error, a refusal or a fault. -/
def runOp (m : Ctl Result) (s : State) : Host.Outcome State Fault Refusal :=
  match m s with
  | .ok r s' => .next (complete r s')
  | .error (.raised e) s' => .next (takeError e s')
  | .error (.refused r) _ => .refused r
  | .error (.fault f) _ => .fault f
  | .error .ended s' => .next s'

/-- A host operation (R306): `InvalidState` where it is not allowed, before anything else; else its program. -/
def runHostOp (op : HostOp) (m : Ctl Result) (s : State) : Host.Outcome State Fault Refusal :=
  if op.allowed s then runOp m s else .next (takeError (invalidState op) s)

/-! ## The sequencer position (R24) -/

/-- `STEP` advances by one when a transaction completes; while no sequence runs it stays 0
(notes/assumptions/19.md). -/
def SeqPos.advance (p : SeqPos) : SeqPos := if p.op = .idle then p else { p with step := p.step + 1 }

/-- `STEP` moves on to index `k`; while no sequence runs it stays 0 (R317). -/
def SeqPos.goto (k : Nat) (p : SeqPos) : SeqPos := if p.op = .idle then p else { p with step := k }

/-- The state with the sequencer one transaction further. -/
def State.advanced (s : State) : State := { s with seq := s.seq.advance }

/-- The state with the sequencer at a position. -/
def State.atPos (p : SeqPos) (s : State) : State := { s with seq := p }

/-- A transaction has completed. -/
def advance : Ctl Unit := modify State.advanced

/-- The sequencer is at index `k` of operation `op`. -/
def seqAt (op : SeqOp) (k : Nat) : Ctl Unit := modify (State.atPos { op := op, step := k })

/-- The operation has completed: `seq = (idle, 0)`. -/
def seqDone : Ctl Unit := modify (State.atPos SeqPos.rest)

/-! ## One transfer (R141 to R145) -/

/-- The state with one transfer more on the wire and its answer taken. -/
def State.issued (t : Transfer) (s : State) : State := { s with trace := s.trace ++ [t], drawNo := s.drawNo + 1 }

/-- The state with the interface claimed or not. -/
def State.setClaimed (b : Bool) (s : State) : State := { s with claimed := b }

/-- Puts a transfer on the wire and takes the device's answer, with the transfer's number. -/
def issue (t : Transfer) : Ctl (Nat × Answer) := fun s =>
  .ok (s.drawNo, answerOf s.plan s.drawNo) (s.issued t)

/-- What a target needs to be reached: the bridge forwards to those behind it (R39 (a), G16). -/
def access : Target → Ctl Unit
  | .register _ _ => pure ()
  | .tuner | .absent => do
    let s ← get
    require (s.bridge == .forwarding) .bridgeClosed

/-- The data stage of a read of `n` bytes as the device delivers it: nothing where the transfer fails, fewer bytes where it
falls short (R76, R141). -/
def delivered (t : Target) (n : Nat) (s : State) : List Byte :=
  if (answerOf s.plan s.drawNo).code ≠ 0 then []
  else (deviceBytes t n s.drawNo s).take (n - (answerOf s.plan s.drawNo).missing)

/-- `control_read(value, index, length)` (R141). -/
def controlRead (value index length : Word16) : Ctl (List Byte) := do
  let s ← get
  require s.opened .notOpened
  require (length != 0) (.badLength 0)
  let t ← target value index
  access t
  let data := delivered t length.toNat s
  let (draw, a) ← issue (.control (setupRead value index length) data)
  if a.code ≠ 0 ∨ a.missing ≠ 0 then raise (transportError .controlRead value index draw a)
  else do
    modify (deviceAfterRead t)
    advance
    pure data

/-- The transaction of a `control_write`: the write flag is OR-ed into `index` here (R142). `accept` is what the device does
where it accepts the bytes. -/
def sendWrite (value index : Word16) (bytes : List Byte) (t : Target) (accept : Nat → State → State) : Ctl Unit := do
  let wire := index ||| Config.writeFlag
  let (draw, a) ← issue (.control (setupWrite value wire (BitVec.ofNat 16 bytes.length)) bytes)
  if a.code ≠ 0 then do
    modify (deviceForget t bytes draw)
    raise (transportError .controlWrite value wire draw a)
  else do
    modify (accept draw)
    advance

/-- `control_write(value, index, bytes)` (R142). -/
def controlWrite (value index : Word16) (bytes : List Byte) : Ctl Unit := do
  let s ← get
  require s.opened .notOpened
  require (decide (0 < bytes.length) && decide (bytes.length < 2 ^ 16)) (.badLength bytes.length)
  let t ← target value (index &&& ~~~Config.writeFlag)
  access t
  sendWrite value index bytes t fun _ => deviceStore t bytes

/-- The `control_write` to the tuner inside `rtl.close`, where the bridge may not forward: then the write counts as sent and
nothing is known of the register (R317; notes/assumptions/13.md). -/
def controlWriteClosing (bytes : List Byte) : Ctl Unit :=
  sendWrite Config.r820tI2cAddr Config.blockI2c bytes .tuner fun draw s =>
    if s.bridge = .forwarding then deviceStore .tuner bytes s else deviceForget .tuner bytes draw s

/-- How much of the stream a bulk read of `length` bytes uses up where it fails or falls short: the spec does not say, and it
is a free number of whole pairs, at most those asked for (R39, R81; notes/assumptions/44.md). -/
def lostBytes (length draw : Nat) : Nat :=
  Config.bytesPerSample * (Config.lostPairs draw % (length / Config.bytesPerSample + 1))

/-- What the device delivers for a bulk read of `length` bytes with answer `a` of transfer `draw` (R143). -/
def bulkAnswer (length draw : Nat) (a : Answer) : Ctl (List Byte) := do
  let s ← get
  if a.code ≠ 0 ∨ a.missing ≠ 0 then do
    modify (consumeStream (lostBytes length draw))
    raise (transportError .bulkRead 0 0 draw a)
  else do
    modify (consumeStream length)
    pure (streamBytes s length)

/-- `bulk_read(length)` (R143). -/
def bulkRead (length : Nat) : Ctl (List Byte) := do
  let s ← get
  require s.opened .notOpened
  require s.claimed .notClaimed
  require (decide (0 < length) && length % Config.bytesPerSample == 0) (.badLength length)
  let (draw, a) ← issue (.bulk length)
  let data ← bulkAnswer length draw a
  advance
  pure data

/-- `claim_interface(1)` (R144). -/
def claimInterface (iface : Byte) : Ctl Unit := do
  let s ← get
  require (iface == Config.usbInterface) (.badInterface iface)
  require s.opened .notOpened
  require (!s.claimed) .alreadyClaimed
  let (draw, a) ← issue (.claim iface)
  if a.code ≠ 0 then raise (transportError .claimInterface 0 0 draw a)
  else do
    modify (State.setClaimed true)
    advance

/-- `release_interface(1)` (R145): `claimed` is cleared whatever the release reports. -/
def releaseInterface (iface : Byte) : Ctl Unit := do
  let s ← get
  require (iface == Config.usbInterface) (.badInterface iface)
  require s.claimed .notClaimed
  let (draw, a) ← issue (.release iface)
  modify (State.setClaimed false)
  if a.code ≠ 0 then raise (transportError .releaseInterface 0 0 draw a)
  else advance

/-! ## Leaving the open state -/

/-- The control-path words of R34 and R35 cease to exist (R47, R146, R212; notes/assumptions/14.md). -/
def destroyWords (s : State) : State :=
  { s with
    ppm := none
    gain := none
    xtalFreq := none
    filterCap := none
    actualRate := none
    shadow := none }

/-! ## The oldest read in flight completes (R88, R211, R313) -/

/-- Completes the oldest read: its bytes with the rate label, or the error of the failed transfer, at the read's own
position. -/
def completeRead (r : ReadInFlight) (rest : List ReadInFlight) (s : State) : State :=
  let a := answerOf s.plan s.drawNo
  let s1 := { s with reads := rest, drawNo := s.drawNo + 1 }
  match bulkAnswer r.length s.drawNo a s1 with
  | .ok data s2 => complete (.raw data s2.actualRate) s2
  | .error (.raised e) s2 => takeError e { s2 with seq := r.pos }
  | .error _ s2 => s2

/-- The oldest read in flight completes; with none in flight nothing changes (R313, R325). -/
def completeOldest (s : State) : State :=
  match s.reads with
  | [] => s
  | r :: rest => completeRead r rest s

/-- Reads in flight complete, in issue order, up to an error that ends the host program (R311; notes/assumptions/46.md). -/
def completeAll : List ReadInFlight → State → State
  | [], s => s
  | r :: rest, s => if (completeRead r rest s).ended then completeRead r rest s else completeAll rest (completeRead r rest s)

/-- Every read in flight completes: bulk reads complete in issue order, so a `bulk_read` issued behind them takes the bytes
after theirs (R88, R143; notes/assumptions/40.md). -/
def drained (s : State) : State := completeAll s.reads s

/-- A `bulk_read` behind the reads in flight; where one of them failed and the error was fatal, nothing follows
(R88, R311). DESIGN CHOICE (notes/assumptions/46.md). -/
def bulkBehind (length : Nat) (s : State) : Host.Outcome State Fault Refusal :=
  if (drained s).ended then .next (drained s)
  else runOp (do
    let data ← bulkRead length
    pure (.bytes data)) (drained s)

end Sys2Proof.Machine
end

