-- ==== Sys2Proof/Machine/Registers.lean ====
section
/-! DEFINITION. Unit U2: the register and I2C-bridge layer (spec 41_register_i2c_layer). The shared operations come
first, one meaning for each operation after them. -/

namespace Sys2Proof.Machine

/-! ## Register accesses -/

/-- The checks of a register access: the block, the width, the named register's own width (R151, R80, R123). -/
def regAccess (block reg : Word16) (len : Nat) : Ctl Unit := do
  require (legalBlock block) (.reservedAddress reg block)
  require (isRegLen len && Config.widthOk (Config.namedWidth block reg) len) (.badWidth len)

/-- `write_reg(block, reg, value, len)` (R151): little-endian. -/
def writeReg (block reg : Word16) (value len : Nat) : Ctl Unit := do
  regAccess block reg len
  controlWrite reg block (leBytes len value)

/-- `read_reg(block, reg, len)` (R152): little-endian, unsigned. -/
def readReg (block reg : Word16) (len : Nat) : Ctl Nat := do
  regAccess block reg len
  let bs ← controlRead reg block (BitVec.ofNat 16 len)
  pure (leValue bs)

/-- `write_reg_mask(block, reg, value, mask)` (R153). -/
def writeRegMask (block reg : Word16) (value mask : Byte) : Ctl Unit :=
  if mask = Config.wholeMask then writeReg block reg value.toNat Config.maskLen
  else do
    let old ← readReg block reg Config.maskLen
    writeReg block reg (maskByte (BitVec.ofNat 8 old) value mask).toNat Config.maskLen

/-- The page operand of a DEMOD access: 0 or 1 (R73, R123). -/
def demodPage (page addr : Byte) : Ctl Bool :=
  match pageOf page with
  | some page1 => pure page1
  | none => refuse (.reservedAddress (demodValue addr) (page.setWidth 16))

/-- `write_demod_reg(page, addr, value, len)` (R154): big-endian. -/
def writeDemodReg (page1 : Bool) (addr : Byte) (value len : Nat) : Ctl Unit := do
  require (isRegLen len && Config.widthOk (Config.namedDemodWidth page1 addr) len) (.badWidth len)
  controlWrite (demodValue addr) (pageIndex page1) (beBytes len value)

/-- `read_demod_reg(page, addr)` (R155). -/
def readDemodReg (page1 : Bool) (addr : Byte) : Ctl Nat := do
  let bs ← controlRead (demodValue addr) (pageIndex page1) (BitVec.ofNat 16 Config.demodReadLen)
  pure (bs.headD 0).toNat

/-! ## The bridge -/

/-- The state with the block's record of the bridge. -/
def State.setI2cOpen (b : Bool) (s : State) : State := { s with i2cOpen := b }

/-- `open_i2c()` (R156). -/
def openI2c : Ctl Unit := do
  writeDemodReg Config.namedPage Config.regBridge Config.bridgeOpenValue Config.demodRegLen.bytes
  modify (State.setI2cOpen true)

/-- `close_i2c()` (R157). -/
def closeI2c : Ctl Unit := do
  writeDemodReg Config.namedPage Config.regBridge Config.bridgeCloseValue Config.demodRegLen.bytes
  modify (State.setI2cOpen false)

/-- `require i2cOpen` (R158 to R161, R347). -/
def requireI2c : Ctl Unit := do
  let s ← get
  require s.i2cOpen .bridgeClosed

/-! ## I2C transfers -/

/-- `[reg] ++ bytes` to the I2C device `addr` (R158, R160). -/
def i2cWrite (addr : Word16) (reg : Byte) (bytes : List Byte) : Ctl Unit := do
  requireI2c
  controlWrite addr Config.blockI2c (reg :: bytes)

/-- `[reg]` to the I2C device `addr`, before a read of `n` bytes (R159, R161). -/
def i2cPoint (addr : Word16) (reg : Byte) (n : Nat) : Ctl Unit := do
  requireI2c
  require (decide (0 < n) && decide (n < 2 ^ 16)) (.badLength n)
  controlWrite addr Config.blockI2c [reg]

/-- `[reg]`, then `n` bytes from the I2C device `addr` (R159, R161). -/
def i2cRead (addr : Word16) (reg : Byte) (n : Nat) : Ctl (List Byte) := do
  i2cPoint addr reg n
  controlRead addr Config.blockI2c (BitVec.ofNat 16 n)

/-- `[reg, value]` to the tuner inside `rtl.close`, whatever the block's record of the bridge: the step that opens it may
have failed (R317; notes/assumptions/13.md). -/
def i2cWriteClosing (reg value : Byte) : Ctl Unit := controlWriteClosing [reg, value]

/-! ## The meanings -/

/-- `write_reg` (R151). -/
def execWriteReg (block reg : Word16) (value len : Nat) (s : State) : Host.Outcome State Fault Refusal :=
  runOp (do
    writeReg block reg value len
    pure .nothing) s

/-- `read_reg` (R152). -/
def execReadReg (block reg : Word16) (len : Nat) (s : State) : Host.Outcome State Fault Refusal :=
  runOp (do
    let v ← readReg block reg len
    pure (.uint v)) s

/-- `write_reg_mask` (R153). -/
def execWriteRegMask (block reg : Word16) (value mask : Byte) (s : State) : Host.Outcome State Fault Refusal :=
  runOp (do
    writeRegMask block reg value mask
    pure .nothing) s

/-- `write_demod_reg` (R154). -/
def execWriteDemodReg (page addr : Byte) (value len : Nat) (s : State) : Host.Outcome State Fault Refusal :=
  runOp (do
    let page1 ← demodPage page addr
    writeDemodReg page1 addr value len
    pure .nothing) s

/-- `read_demod_reg` (R155). -/
def execReadDemodReg (page addr : Byte) (s : State) : Host.Outcome State Fault Refusal :=
  runOp (do
    let page1 ← demodPage page addr
    let v ← readDemodReg page1 addr
    pure (.uint v)) s

/-- `open_i2c` (R156). -/
def execOpenI2c (s : State) : Host.Outcome State Fault Refusal :=
  runOp (do
    openI2c
    pure .nothing) s

/-- `close_i2c` (R157). -/
def execCloseI2c (s : State) : Host.Outcome State Fault Refusal :=
  runOp (do
    closeI2c
    pure .nothing) s

/-- `i2c_write_reg` (R158). -/
def execI2cWriteReg (addr : Word16) (reg value : Byte) (s : State) : Host.Outcome State Fault Refusal :=
  runOp (do
    i2cWrite addr reg [value]
    pure .nothing) s

/-- `i2c_read_reg` (R159): the byte as received, not reversed. -/
def execI2cReadReg (addr : Word16) (reg : Byte) (s : State) : Host.Outcome State Fault Refusal :=
  runOp (do
    let bs ← i2cRead addr reg Config.i2cRegLen
    pure (.uint (bs.headD 0).toNat)) s

/-- `i2c_write_buf` (R160). -/
def execI2cWriteBuf (addr : Word16) (reg : Byte) (bytes : List Byte) (s : State) : Host.Outcome State Fault Refusal :=
  runOp (do
    require (!bytes.isEmpty) (.badLength 0)
    i2cWrite addr reg bytes
    pure .nothing) s

/-- `i2c_read_buf` (R161). -/
def execI2cReadBuf (addr : Word16) (reg : Byte) (n : Nat) (s : State) : Host.Outcome State Fault Refusal :=
  runOp (do
    let bs ← i2cRead addr reg n
    pure (.bytes bs)) s

end Sys2Proof.Machine
end

