-- ==== Sys2Proof/Machine/Tuner.lean ====
section
/-! DEFINITION. Unit U3: the R820T tuner (spec 42_r820t_tuner). Every table is a parameter `c`
(notes/assumptions/4.md); the meanings take the chip's, `Config.chip`. -/

namespace Sys2Proof.Machine

open Sys2Proof.Config (Params TableTriple MuxRow)

/-! ## The shadow (R35, R171) -/

/-- The shadow's index of register `reg`, where it has one. -/
def shadowIndex (reg : Byte) : Option (Fin Config.shadowLen) :=
  if h : Config.shadowBase ≤ reg.toNat ∧ reg.toNat < Config.r820tRegs then
    some ⟨reg.toNat - Config.shadowBase, Nat.sub_lt_left_of_lt_add h.1 h.2⟩
  else none

/-- A table's entry as a TRIPLE. -/
def tripleOf (t : TableTriple) : Triple := ⟨BitVec.ofNat 8 (Config.shadowBase + t.offset.val), t.value, t.mask⟩

/-- The tuner's address on the I2C bus. -/
def tunerBus : Word16 := Config.r820tI2cAddr

/-- The state with a shadow. -/
def State.setShadow (sh : Vector Byte Config.shadowLen) (s : State) : State := { s with shadow := some sh }

/-- The state with the lock flag. -/
def State.setLock (b : Bool) (s : State) : State := { s with hasPllLock := b }

/-- The state with the ready flag. -/
def State.setReady (b : Bool) (s : State) : State := { s with tunerReady := b }

/-- `r820t.write_mask(reg, value, mask)` (R171): the shadow first, then the device. -/
def writeMask (t : Triple) : Ctl Unit := do
  requireI2c
  match shadowIndex t.reg with
  | none => refuse (.noShadowByte t.reg)
  | some k => do
    let s ← get
    match s.shadow with
    | none => refuse .noShadow
    | some sh => do
      let new := maskByte sh[k] t.value t.mask
      modify (State.setShadow (sh.set k new))
      i2cWrite tunerBus t.reg [new]

/-- Masked writes, one after another. -/
def writeMasks : List Triple → Ctl Unit
  | [] => pure ()
  | t :: ts => do
    writeMask t
    writeMasks ts

/-- `r820t.write_each(list)` (R173): in order, up to the first error. -/
def writeEach : List Triple → Ctl Unit
  | [] => requireI2c
  | t :: ts => do
    writeMask t
    writeEach ts

/-- A table, written in order. -/
def writeTable (l : List TableTriple) : Ctl Unit := writeEach (l.map tripleOf)

/-- `r820t.read(n)` (R172): the first `n` registers, the bits of each byte reversed. -/
def tunerRead (n : Nat) : Ctl (List Byte) := do
  requireI2c
  require (isStatusLen n) (.badLength n)
  let bs ← i2cRead tunerBus Config.regStatus n
  pure (bs.map bitrev8)

/-! ## The synthesizer (R181 to R183) -/

/-- `hasPllLock <- b`. -/
def setLock (b : Bool) : Ctl Unit := modify (State.setLock b)

/-- `CP_BUMP << 5`, for register 0x12 (R183). -/
def bumpWord (cpBump : Nat) : Byte := BitVec.ofNat 8 (cpBump * Config.topThreePlace)

/-- The masked write of the charge pump's bump (R183). -/
def bumpTriple (c : Params) : Triple := ⟨Config.regChargePump, bumpWord c.cpBump, Config.topThreeMask⟩

/-- `r820t.get_pll_lock(firstTry)` (R183): one poll, or two with the charge pump bumped between them. -/
def getPllLock (c : Params) (firstTry : Bool) : Ctl Unit := do
  let d ← tunerRead Config.statusLen
  if lockBit d then setLock true
  else if firstTry then do
    writeMask (bumpTriple c)
    let d' ← tunerRead Config.statusLen
    setLock (lockBit d')
  else setLock false

/-- The masked writes of the divider words (R182). -/
def dividerTriples (nint sdm : Int) : List Triple :=
  [⟨Config.regNint, nintWord nint, Config.wholeMask⟩, ⟨Config.regSdmHigh, sdmHigh sdm, Config.wholeMask⟩,
    ⟨Config.regSdmLow, sdmLow sdm, Config.wholeMask⟩]

/-- The divider words and the lock poll, for `nint` from NINT's least value to NINT_MAX (R182, R183). -/
def writeDividers (c : Params) (nint sdm : Int) : Ctl Unit := do
  writeMasks (dividerTriples nint sdm)
  getPllLock c true

/-- What `r820t.set_pll` asks for first, and its reference (R181). -/
def pllReference (freq : Nat) : Ctl Int := do
  requireI2c
  require (decide (0 < freq)) .badOperand
  let s ← get
  word s.xtalFreq

/-- The divider exponent that the status bytes `d` give, in its 3-bit field (R181). -/
def pllExponent (c : Params) (freq : Nat) (d : List Byte) : Ctl Nat := do
  let divNum := divNumAdjusted c freq (vcoFine d)
  require (decide (0 ≤ divNum) && decide (divNum ≤ Config.divNumMax)) (.dividerRange divNum)
  pure divNum.toNat

/-- The masked write of the divider exponent (R181). -/
def vcoTriple (divNum : Nat) : Triple := ⟨Config.regVco, divWord divNum, Config.topThreeMask⟩

/-- No lock where `nint` exceeds NINT_MAX; else the divider words (R181, R182). -/
def setDividers (c : Params) (nint sdm : Int) : Ctl Unit :=
  if Config.nintMax < nint then setLock false
  else do
    require (decide (Config.nintMin ≤ nint)) (.nintRange nint)
    writeDividers c nint sdm

/-- `r820t.set_pll(freq)` (R181). -/
def setPll (c : Params) (freq : Nat) : Ctl Unit := do
  let pllRef ← pllReference freq
  writeTable c.r820tPllPre
  let d ← tunerRead Config.statusLen
  let divNum ← pllExponent c freq d
  writeMask (vcoTriple divNum)
  setDividers c (pllDividers freq divNum pllRef).1 (pllDividers freq divNum pllRef).2

/-! ## Calibration, mux, tuning (R178 to R180) -/

/-- The calibration goes on where the PLL is locked (R178, R304). -/
def calibrationLocked : Ctl Unit := do
  let s ← get
  if s.hasPllLock then pure () else raise { kind := .pllNotLocked, info := .pll .calibration Config.calFreq }

/-- One run of the filter calibration: the code read, 0x0F counting as 0 (R178). -/
def calibrateOnce (c : Params) : Ctl (BitVec Config.filCalWidth) := do
  writeTable c.r820tCalPre
  setPll c Config.calFreq
  calibrationLocked
  writeTable c.r820tCalStart
  writeTable c.r820tCalStop
  let d ← tunerRead Config.statusLen
  pure (filterCode d)

/-- The state with a filter code. -/
def State.setFilterCap (cap : BitVec Config.filCalWidth) (s : State) : State := { s with filterCap := some cap }

/-- The masked write of a filter code: OR'd into the shadow's low nibble of register 0x0A (R178). -/
def filterTriple (sh : Vector Byte Config.shadowLen) (cap : BitVec Config.filCalWidth) : Triple :=
  ⟨Config.regFilterCap, (sh[Config.regFilterCap.toNat - Config.shadowBase]'(by decide)
    &&& Config.lowNibbleMask) ||| cap.setWidth 8,
    Config.lowNibbleMask⟩

/-- The code is accepted as `filterCap`; the masked write that is to follow (R178). -/
def filterAccepted (cap : BitVec Config.filCalWidth) : Ctl Triple := do
  let s ← get
  match s.shadow with
  | none => refuse .noShadow
  | some sh => do
    modify (State.setFilterCap cap)
    pure (filterTriple sh cap)

/-- The code is accepted: `filterCap`, OR'd into the low nibble of register 0x0A (R178). -/
def acceptFilterCap (cap : BitVec Config.filCalWidth) : Ctl Unit := do
  let t ← filterAccepted cap
  writeMask t

/-- `r820t.calibrate_filter(firstAttempt)` (R178): a non-zero code of the first attempt is retried once. -/
def calibrateFilter (c : Params) (firstAttempt : Bool) : Ctl Unit := do
  requireI2c
  let cap ← calibrateOnce c
  if cap ≠ 0 ∧ firstAttempt then do
    let cap' ← calibrateOnce c
    acceptFilterCap cap'
  else acceptFilterCap cap

/-- The last row whose threshold is at most `freq`, the first row where there is none (R179). -/
def muxRow (rows : Vector MuxRow Config.muxLen) (freq : Nat) : MuxRow :=
  ((rows.toList.filter fun r => decide (r.thresholdMHz * Config.million ≤ freq)).getLast?).getD rows[0]

/-- The three entries `r820t.set_mux` writes (R179). -/
def muxTable (c : Params) (freq : Nat) : List TableTriple :=
  let row := muxRow c.r820tMux freq
  [row.t0, row.t1, row.t2]

/-- `r820t.set_mux(freq)` (R179). -/
def setMux (c : Params) (freq : Nat) : Ctl Unit := do
  requireI2c
  writeTable (muxTable c freq)

/-- What `r820t.set_frequency` asks for first (R180). -/
def requireReady : Ctl Unit := do
  requireI2c
  let s ← get
  require s.tunerReady .tunerNotReady

/-- `r820t.set_frequency(freq)` (R180). -/
def setFrequency (c : Params) (freq : Nat) : Ctl Bool := do
  requireReady
  setMux c freq
  setPll c freq
  let s ← get
  pure s.hasPllLock

/-! ## Initialization, gain, power-down (R174, R184 to R186) -/

/-- Step 1 of `r820t.init`: the 27 defaults, to the shadow and in one buffer write to the device (R174). -/
def writeDefaults (c : Params) : Ctl Unit := do
  requireI2c
  modify (State.setShadow c.r820tDefaults)
  i2cWrite tunerBus (BitVec.ofNat 8 Config.shadowBase) c.r820tDefaults.toList

/-- Step 5 of `r820t.init`: the tuner is ready, and its shadow valid (R29, R174). -/
def tunerInitialized : Ctl Unit := do
  let s ← get
  require s.shadow.isSome .noShadow
  modify (State.setReady true)

/-- `r820t.init()` (R174). -/
def tunerInit (c : Params) : Ctl Unit := do
  writeDefaults c
  writeTable c.r820tInitElec
  calibrateFilter c true
  writeTable c.r820tInitPost
  tunerInitialized

/-- The writes of a manual gain (R184). -/
def manualGainTable (c : Params) (dB : Rat) : List TableTriple :=
  let step := clampGainStep (c.gainStep dB)
  c.gainRegs (lnaValue step) (mixerValue step)

/-- `r820t.set_manual_gain(dB)` (R184). -/
def setManualGain (c : Params) (dB : Rat) : Ctl Unit := writeTable (manualGainTable c dB)

/-- `r820t.set_auto_gain()` (R185). -/
def setAutoGain (c : Params) : Ctl Unit := writeTable c.autoGainSeq

/-- `r820t.close()` (R186). -/
def tunerClose (c : Params) : Ctl Unit := do
  writeTable c.r820tPowerdown.toList
  modify (State.setReady false)

/-! ## The power-down inside `rtl.close` (R212, R317) -/

/-- The shadow, or free bytes where none was ever filled (notes/assumptions/13.md). -/
def shadowOrFree (s : State) : Vector Byte Config.shadowLen :=
  s.shadow.getD (Vector.ofFn fun k => Config.shadowByte s.drawNo k.val)

/-- A masked tuner write inside `rtl.close`, which is made whatever the earlier steps reported (R317;
notes/assumptions/13.md). -/
def closingMask (t : TableTriple) : Ctl Unit := do
  let s ← get
  let sh := shadowOrFree s
  let new := maskByte sh[t.offset] t.value t.mask
  modify (State.setShadow (sh.set t.offset new))
  i2cWriteClosing (tripleOf t).reg new

/-- The power-down table inside `rtl.close`, entry after entry up to the first error (R173, R186). -/
def closingTable : List TableTriple → Ctl Unit
  | [] => pure ()
  | t :: ts => do
    closingMask t
    closingTable ts

/-- `r820t.close()` inside `rtl.close`: the power-down, then `tunerReady` is false (R186, R212 step 2;
notes/assumptions/13.md). -/
def tunerClosing (c : Params) : Ctl Unit := do
  closingTable c.r820tPowerdown.toList
  modify (State.setReady false)

/-! ## The meanings -/

/-- `r820t.write_mask` (R171). -/
def execR820tWriteMask (reg value mask : Byte) (s : State) : Host.Outcome State Fault Refusal :=
  runOp (do
    writeMask ⟨reg, value, mask⟩
    pure .nothing) s

/-- `r820t.read` (R172). -/
def execR820tRead (n : Nat) (s : State) : Host.Outcome State Fault Refusal :=
  runOp (do
    let bs ← tunerRead n
    pure (.bytes bs)) s

/-- `r820t.write_each` (R173). -/
def execR820tWriteEach (list : List Triple) (s : State) : Host.Outcome State Fault Refusal :=
  runOp (do
    writeEach list
    pure .nothing) s

/-- `r820t.init` (R174). -/
def execR820tInit (s : State) : Host.Outcome State Fault Refusal :=
  runOp (do
    tunerInit Config.chip
    pure .nothing) s

/-- `r820t.calibrate_filter` (R178). -/
def execR820tCalibrateFilter (firstAttempt : Bool) (s : State) : Host.Outcome State Fault Refusal :=
  runOp (do
    calibrateFilter Config.chip firstAttempt
    pure .nothing) s

/-- `r820t.set_mux` (R179). -/
def execR820tSetMux (freq : Nat) (s : State) : Host.Outcome State Fault Refusal :=
  runOp (do
    setMux Config.chip freq
    pure .nothing) s

/-- `r820t.set_frequency` (R180). -/
def execR820tSetFrequency (freq : Nat) (s : State) : Host.Outcome State Fault Refusal :=
  runOp (do
    let ok ← setFrequency Config.chip freq
    pure (.flag ok)) s

/-- `r820t.set_pll` (R181, R182). -/
def execR820tSetPll (freq : Nat) (s : State) : Host.Outcome State Fault Refusal :=
  runOp (do
    setPll Config.chip freq
    pure .nothing) s

/-- `r820t.get_pll_lock` (R183). -/
def execR820tGetPllLock (firstTry : Bool) (s : State) : Host.Outcome State Fault Refusal :=
  runOp (do
    getPllLock Config.chip firstTry
    pure .nothing) s

/-- `r820t.set_manual_gain` (R184). -/
def execR820tSetManualGain (dB : Rat) (s : State) : Host.Outcome State Fault Refusal :=
  runOp (do
    setManualGain Config.chip dB
    pure .nothing) s

/-- `r820t.set_auto_gain` (R185). -/
def execR820tSetAutoGain (s : State) : Host.Outcome State Fault Refusal :=
  runOp (do
    setAutoGain Config.chip
    pure .nothing) s

/-- `r820t.close` (R186). -/
def execR820tClose (s : State) : Host.Outcome State Fault Refusal :=
  runOp (do
    tunerClose Config.chip
    pure .nothing) s

end Sys2Proof.Machine
end

