-- ==== Sys2Proof/Machine/Demod.lean ====
section
/-! DEFINITION. Unit U4: RTL2832U demodulator control, the operations of the host at the control-path port (spec
43_rtl2832u_demod). -/

namespace Sys2Proof.Machine

open Sys2Proof.Config (Params InitEntry DemodWrite TableTriple)

/-! ## Steps of `rtl.open` (R202 to R204) -/

/-- One entry of `RTL_INIT` (R106): sent where its register can be reached, refused where block I2C cannot (R39 (a), R347;
notes/assumptions/4.md). -/
def initEntry : InitEntry → Ctl Unit
  | .reg block reg value len => writeReg block.word reg value len.bytes
  | .demod page1 addr value len => writeDemodReg page1 addr value len.bytes

/-- The entries of `RTL_INIT`, in order (R202 step 4, R353). -/
def initEntries : List InitEntry → Ctl Unit
  | [] => pure ()
  | e :: es => do
    initEntry e
    initEntries es

/-- The USB prelude and the claim (R202 steps 1 to 3). -/
def openPrelude : Ctl Unit := do
  writeReg Config.blockUsb Config.regSysctl Config.sysctlInit Config.sysctlLen.bytes
  writeReg Config.blockUsb Config.regEpaMaxpkt Config.epaMaxpktInit Config.epaMaxpktLen.bytes
  claimInterface Config.usbInterface

/-- The state with a corrected crystal frequency. -/
def State.setXtal (f : Int) (s : State) : State := { s with xtalFreq := some f }

/-- The state with an actual sample rate. -/
def State.setActualRate (r : Nat) (s : State) : State := { s with actualRate := some r }

/-- `xtalFreq <- floor(XTAL_FREQ * (1 + ppm / 1e6))` (R202 step 5). -/
def computeXtal : Ctl Unit := do
  let s ← get
  let ppm ← word s.ppm
  modify (State.setXtal (correctedXtal ppm))

/-- The identity byte is compared as received (R203). -/
def checkId (bs : List Byte) : Ctl Unit :=
  if bs.headD 0 = Config.r820tId then pure () else raise { kind := .unsupportedTuner, info := .probe (bs.headD 0) }

/-- The tuner probe (R203). -/
def probe : Ctl Unit := do
  let bs ← i2cRead tunerBus Config.regStatus Config.i2cRegLen
  checkId bs

/-- The IF offset multiplier's three bytes, most significant first (R204). -/
def ifOffsetWrites (c : Params) (xtal : Int) : List (Byte × Nat) :=
  let m := ifMultiplierWord xtal
  [(Config.regIfMultHi, m / 65536 &&& c.ifMultTopMask), (Config.regIfMultMid, m / 256 % 256),
    (Config.regIfMultLo, m % 256)]

/-- Writes to named registers of the DEMOD page, in order. -/
def writeBytes1 : List (Byte × Nat) → Ctl Unit
  | [] => pure ()
  | (addr, value) :: rest => do
    writeDemodReg Config.namedPage addr value Config.demodRegLen.bytes
    writeBytes1 rest

/-- The IF offset multiplier, most significant byte first (R204). -/
def writeIfOffset (c : Params) : Ctl Unit := do
  let s ← get
  let xtal ← word s.xtalFreq
  writeBytes1 (ifOffsetWrites c xtal)

/-- The writes of a gain setting (R184, R185, R202 step 10). -/
def gainTable (c : Params) : Gain → List TableTriple
  | .auto => c.autoGainSeq
  | .manual dB => manualGainTable c dB

/-- The gain of R202 step 10. -/
def applyGain (c : Params) : Ctl Unit := do
  let s ← get
  let gain ← word s.gain
  writeTable (gainTable c gain)

/-- `rtl.open()` (R202). -/
def rtlOpen (c : Params) : Ctl Unit := do
  seqAt .opening 0
  openPrelude
  initEntries c.rtlInit.entries
  computeXtal
  openI2c
  probe
  writeIfOffset c
  tunerInit c
  applyGain c
  closeI2c
  seqDone

/-! ## Sample rate (R205 to R208) -/

/-- The ratio through `RATIO_REGS` (R205). -/
def ratioWrites : List DemodWrite → Ctl Unit
  | [] => pure ()
  | w :: ws => do
    writeDemodReg w.page1 w.addr w.value w.len.bytes
    ratioWrites ws

/-- The PPM offset's two bytes, high byte first (R207). -/
def ppmOffsetWrites (c : Params) (ppm : Int) : List (Byte × Nat) :=
  let o := ppmOffsetWord ppm
  [(Config.regPpmOffHi, o / 256 &&& c.ppmOffTopMask), (Config.regPpmOffLo, o % 256)]

/-- The demodulator reset's two bytes (R208). -/
def demodResetWrites : List (Byte × Nat) :=
  [(Config.regBridge, Config.demodResetSet), (Config.regBridge, Config.demodResetClear)]

/-- The ratio of a rate that can be set (R205, G18). -/
def rateRatio (rate : Nat) : Ctl Nat := do
  require (decide (0 < rate)) .badOperand
  require (resamplingRatio rate != 0) (.rateTooHigh rate)
  pure (resamplingRatio rate)

/-- The writes of a ratio (R205). -/
def ratioTable (c : Params) (ratio : Nat) : List DemodWrite := (c.ratioRegs (BitVec.ofNat Config.ratioBits ratio)).map Subtype.val

/-- What a completed `rtl.set_sample_rate` records: the demodulator reset has closed the bridge (R206, R208). -/
def State.setRated (actual : Nat) (s : State) : State := (s.setI2cOpen false).setActualRate actual

/-- `rtl.set_sample_rate(rate)` (R205): the actual rate (R206). -/
def rtlSetSampleRate (c : Params) (rate : Nat) : Ctl Nat := do
  seqAt .setSampleRate 0
  let ratio ← rateRatio rate
  let s ← get
  let ppm ← word s.ppm
  ratioWrites (ratioTable c ratio)
  writeBytes1 (ppmOffsetWrites c ppm ++ demodResetWrites)
  modify (State.setRated (actualRateOf ratio))
  seqDone
  pure (actualRateOf ratio)

/-! ## Centre frequency, buffer (R209, R210) -/

/-- A tune that found no lock raises (R209, R304). -/
def tuneLocked (hz : Nat) (ok : Bool) : Ctl Unit :=
  if ok then pure () else raise { kind := .pllNotLocked, info := .pll .tune hz }

/-- `rtl.set_center_frequency(hz)` (R209): the bridge is closed before a failed lock is raised. -/
def rtlSetCenterFrequency (c : Params) (hz : Nat) : Ctl Unit := do
  seqAt .setCenterFrequency 0
  require (decide (0 < hz)) .badOperand
  openI2c
  let ok ← setFrequency c (hz + Config.ifFreq)
  closeI2c
  tuneLocked hz ok
  seqDone

/-- `rtl.reset_buffer()` (R210). -/
def rtlResetBuffer : Ctl Unit := do
  seqAt .resetBuffer 0
  writeReg Config.blockUsb Config.regEpaCtl Config.epaCtlReset Config.epaCtlLen.bytes
  writeReg Config.blockUsb Config.regEpaCtl Config.epaCtlRun Config.epaCtlLen.bytes
  seqDone

/-! ## Closing (R212, R317) -/

/-- An error a step of `rtl.close` raises is delivered, with the step's position, and `FAULT` is set; the close goes on at
index `next` of its sequence (R317; notes/assumptions/17.md, 39.md). Where no handler is installed the error is fatal and
nothing follows: of R311 and R317 the model takes R311. DESIGN CHOICE (notes/assumptions/46.md). -/
def closingError (next : Nat) (e : Err) (s : State) : EStateM.Result Stop State Unit :=
  if (takeError e s).ended then .error .ended (takeError e s)
  else .ok () ((takeError e s).atPos { op := .closing, step := next })

/-- A step of `rtl.close`, attempted whatever the others report (R317). -/
def attempt (next : Nat) (m : Ctl Unit) : Ctl Unit := fun s =>
  match m s with
  | .ok _ s' => .ok () (s'.atPos { op := .closing, step := next })
  | .error (.raised e) s' => closingError next e s'
  | .error e s' => .error e s'

/-- The index of the first transaction of the power-down inside `rtl.close`: after `open_i2c` (R212, R317). -/
def closingPowerDown : Nat := 1
/-- The index of `close_i2c` inside `rtl.close`. -/
def closingBridge : Nat := closingPowerDown + Config.powerdownLen
/-- The index of the release inside `rtl.close`. -/
def closingRelease : Nat := closingBridge + 1
/-- The index after the last transaction of `rtl.close`. -/
def closingEnd : Nat := closingRelease + 1

/-- The release, where the interface is claimed (notes/assumptions/13.md). -/
def releaseClaimed : Ctl Unit := do
  let s ← get
  if s.claimed then releaseInterface Config.usbInterface else pure ()

/-- The four steps of `rtl.close`, each attempted whatever the others report (R212, R317). -/
def rtlCloseSteps (c : Params) : Ctl Unit := do
  seqAt .closing 0
  attempt closingPowerDown openI2c
  attempt closingBridge (tunerClosing c)
  attempt closingRelease closeI2c
  attempt closingEnd releaseClaimed

/-- What `rtl.close` leaves whatever its steps report: the flags it writes are false, the tuner instance, its shadow and
the configuration words are destroyed (R212, R317). -/
def rtlClosed (s : State) : State :=
  { destroyWords s with claimed := false, i2cOpen := false, tunerReady := false }

/-- `rtl.close()` (R212). -/
def rtlClose (c : Params) : Ctl Unit := do
  rtlCloseSteps c
  modify rtlClosed
  seqDone

/-! ## The meanings -/

/-- What `rtl.new` leaves (R201). -/
def rtlConstructed (handle : Nat) (ppm : Int) (gain : Gain) (s : State) : State :=
  { s with
    opened := true
    fault := false
    handle := some handle
    ppm := some ppm
    gain := some gain
    seq := SeqPos.rest }

/-- `rtl.new` (R201). -/
def execRtlNew (handle : Nat) (ppm : Int) (gain : Gain) (s : State) : Host.Outcome State Fault Refusal :=
  runHostOp .rtlNew (do
    modify (rtlConstructed handle ppm gain)
    pure .nothing) s

/-- `rtl.open` with the tables `c` (R202). -/
def openHost (c : Params) (s : State) : Host.Outcome State Fault Refusal :=
  runHostOp .rtlOpen (do
    rtlOpen c
    pure .nothing) s

/-- `rtl.open` (R202). -/
def execRtlOpen (s : State) : Host.Outcome State Fault Refusal := openHost Config.chip s

/-- `rtl.set_sample_rate` (R205). -/
def execRtlSetSampleRate (rate : Nat) (s : State) : Host.Outcome State Fault Refusal :=
  runHostOp .rtlSetSampleRate (do
    let actual ← rtlSetSampleRate Config.chip rate
    pure (.uint actual)) s

/-- `rtl.set_center_frequency` (R209). -/
def execRtlSetCenterFrequency (hz : Nat) (s : State) : Host.Outcome State Fault Refusal :=
  runHostOp .rtlSetCenterFrequency (do
    rtlSetCenterFrequency Config.chip hz
    pure .nothing) s

/-- `rtl.reset_buffer` (R210). -/
def execRtlResetBuffer (s : State) : Host.Outcome State Fault Refusal :=
  runHostOp .rtlResetBuffer (do
    rtlResetBuffer
    pure .nothing) s

/-- What issuing a `read_samples(n)` leaves: the bulk transfer is on the wire and the read in flight, at its own position
(R211; notes/assumptions/3.md). -/
def readIssued (n : Nat) (s : State) : State :=
  { s with
    trace := s.trace ++ [.bulk (Config.bytesPerSample * n)]
    reads := s.reads ++ [{ length := Config.bytesPerSample * n, pos := { op := .readSamples, step := 0 } }] }

/-- `rtl.read_samples` (R211): the read is issued; its completion is an event of its own (R313). -/
def execRtlReadSamples (n : Nat) (s : State) : Host.Outcome State Fault Refusal :=
  if HostOp.rtlReadSamples.allowed s then
    if n = 0 then .refused .badOperand else .next (readIssued n s)
  else .next (takeError (invalidState .rtlReadSamples) s)

/-- `rtl.close` (R212). -/
def execRtlClose (s : State) : Host.Outcome State Fault Refusal :=
  runHostOp .rtlClose (do
    rtlClose Config.chip
    pure .nothing) s

end Sys2Proof.Machine
end

