-- ==== Sys2Proof/Machine/Fir.lean ====
section
/-! DEFINITION. Unit U5: the low-pass designer and the FIR filter (spec 44_fir_filter). A new instance is appended to
the list of its kind, and its handle is its index (notes/assumptions/33.md). -/

namespace Sys2Proof.Machine

open Sys2Proof.Config (Params)

/-! ## Instances -/

/-- Replaces element `k`. -/
def replaceAt {α : Type} (l : List α) (k : Nat) (a : α) : List α := l.set k a

/-- A data-path operation that completes: its result, and the state it leaves. -/
def give (r : Result) (s : State) : Host.Outcome State Fault Refusal := .next (complete r s)

/-! ## The designer (R221) -/

/-- The length forced odd: `n + ((n + 1) mod 2)`. -/
def oddLength (n : Nat) : Nat := n + (n + 1) % 2

/-- The window at tap `i` of `N`, with `theta = 2 pi (i + 1) / (N + 1)`. -/
def windowAt (c : Params) (N i : Nat) : Rat :=
  Config.windowA0 - Config.windowA1 * cosTurns c (mkRat (i + 1) (N + 1))
    + Config.windowA2 * cosTurns c (mkRat (2 * (i + 1)) (N + 1))

/-- The un-normalised tap `i` of `N` at the relative cutoff `fr`. -/
def rawTap (c : Params) (fr : Rat) (N i : Nat) : Rat :=
  let centre := N / 2
  if i = centre then 2 * piRat * fr
  else
    let k : Rat := (i : Rat) - centre
    sinTurns c (fr * k) / k * windowAt c N i

/-- The sum of a sequence. -/
def sumRat : List Rat → Rat
  | [] => 0
  | x :: xs => x + sumRat xs

/-- The un-normalised taps. -/
def rawTaps (c : Params) (rate f : Rat) (n : Nat) : List Rat :=
  (List.range (oddLength n)).map (rawTap c (f / rate) (oddLength n))

/-- The taps over their sum `t`. Where `t` is 0 though the exact taps do not sum to zero, the quotients are free values
(notes/assumptions/42.md). -/
def normalizeTaps (c : Params) (v : List Rat) (t : Rat) : List Rat :=
  if t = 0 then (List.range v.length).map fun k => binary32Value (Config.lowpassTap k)
  else v.map fun x => rndApprox c (x / t)

/-- `get_lowpass_fir_coeffs(rate, f, n)` (R221), or none where every tap is zero, that is for `f = 0` (G10). -/
def lowpass (c : Params) (rate f : Rat) (n : Nat) : Option (List Rat) :=
  if f = 0 then none else some (normalizeTaps c (rawTaps c rate f n) (sumRat (rawTaps c rate f n)))

/-! ## The filter (R223 to R225) -/

/-- `fir.new(coefs, step)` (R223): reversed coefficients, a history of zeros. -/
def Fir.make (c : Params) (coefs : List Rat) (step : Nat) : Fir :=
  { c := (coefs.map (rnd32 c)).reverse, step := step, buf := List.replicate ((coefs.length - 1) * step) 0, n := 0 }

/-- `H = (L - 1) * step`, the history's length (R23). -/
def Fir.history (f : Fir) : Nat := (f.c.length - 1) * f.step

/-- `f.load(samples)` (R224). A block of odd length in a filter of step 2 is loaded as it stands. DESIGN CHOICE
(notes/assumptions/25.md). -/
def Fir.load (f : Fir) (samples : List Rat) : Fir :=
  { f with buf := f.buf.drop (f.buf.length - f.history) ++ samples, n := samples.length }

/-- The sum of `c[k] * buf[k * step]`. -/
def dot : List Rat → List Rat → Nat → Rat
  | [], _, _ => 0
  | c :: cs, buf, step => c * buf.headD 0 + dot cs (buf.drop step) step

/-- `f.get(i)` (R225), for `i` inside the block last loaded. -/
def Fir.get (f : Fir) (i : Nat) : Rat := dot f.c (f.buf.drop i) f.step

/-! ## The meanings -/

/-- `get_lowpass_fir_coeffs` (R221). -/
def execGetLowpassFirCoeffs (rate f : Rat) (n : Nat) (s : State) : Host.Outcome State Fault Refusal :=
  if 0 < rate ∧ 0 ≤ f ∧ 0 < n then
    match lowpass Config.chip rate f n with
    | some coefs => give (.reals coefs) s
    | none => .refused .zeroSum
  else .refused .badOperand

/-- `fir.new` (R223). -/
def execFirNew (coefs : List Rat) (step : Nat) (s : State) : Host.Outcome State Fault Refusal :=
  if coefs ≠ [] ∧ 0 < step then
    give (.handle s.firs.length) { s with firs := s.firs ++ [Fir.make Config.chip coefs step] }
  else .refused .badOperand

/-- `fir.load` (R224). -/
def execFirLoad (fir : Nat) (samples : List Rat) (s : State) : Host.Outcome State Fault Refusal :=
  match s.firs[fir]? with
  | none => .refused (.noInstance fir)
  | some f => give .nothing { s with firs := replaceAt s.firs fir (f.load samples) }

/-- `fir.get` (R225): the exact sum; outside the block it is refused. -/
def execFirGet (fir : Nat) (i : Int) (s : State) : Host.Outcome State Fault Refusal :=
  match s.firs[fir]? with
  | none => .refused (.noInstance fir)
  | some f => if 0 ≤ i ∧ i < f.n then give (.real (f.get i.toNat)) s else .refused (.getOutOfRange i)

end Sys2Proof.Machine
end

