-- ==== Sys2Proof/Machine/Downsample.lean ====
section
/-! DEFINITION. Units U6 and U7: the downsampler and the IQ downsampler (spec 45_downsamplers). -/

namespace Sys2Proof.Machine

open Sys2Proof.Config (Params)

/-! ## The real stream (R236, R237) -/

/-- `ds.new(inRate, outRate, coefs)` (R236). -/
def Downsampler.make (c : Params) (inRate outRate : Rat) (coefs : List Rat) : Downsampler :=
  { inRate := inRate, outRate := outRate, filter := Fir.make c coefs Config.realStep }

/-- The outputs of a loaded filter at the read positions (R237). -/
def decimate (c : Params) (f : Fir) (n : Nat) (inRate outRate : Rat) : List Rat :=
  (List.range (outLen n inRate outRate)).map fun j => rnd32 c (f.get (readPos j inRate outRate))

/-- `d.downsample(samples)` (R237): a rate that is not the instance's own raises before anything changes (R239). -/
def Downsampler.run (c : Params) (d : Downsampler) (x : MonoFloat) : Except Err (MonoFloat × Downsampler) :=
  if x.rate = d.inRate then
    let f := d.filter.load x.samples
    .ok ({ samples := decimate c f x.samples.length d.inRate d.outRate, rate := d.outRate }, { d with filter := f })
  else .error (rateMismatch d.inRate x.rate)

/-! ## The IQ stream (R240, R241) -/

/-- `iqds.new(inRate, outRate, coefs)` (R240). -/
def IqDownsampler.make (c : Params) (inRate outRate : Rat) (coefs : List Rat) : IqDownsampler :=
  { inRate := inRate, outRate := outRate, filter := Fir.make c coefs Config.iqStep }

/-- `I0, Q0, I1, Q1, ...` -/
def interleave (iq : List (Rat × Rat)) : List Rat := iq.flatMap fun p => [p.1, p.2]

/-- The pairs of a loaded interleaved filter at the read positions (R241). -/
def decimatePairs (c : Params) (f : Fir) (n : Nat) (inRate outRate : Rat) : List (Rat × Rat) :=
  (List.range (outLen n inRate outRate)).map fun j =>
    let r := readPos j inRate outRate
    (rnd32 c (f.get (Config.iqStep * r)), rnd32 c (f.get (Config.iqStep * r + 1)))

/-- `q.downsample(iq)` (R241). -/
def IqDownsampler.run (c : Params) (q : IqDownsampler) (x : IqFloat) : Except Err (IqFloat × IqDownsampler) :=
  if x.rate = q.inRate then
    let f := q.filter.load (interleave x.samples)
    .ok ({ samples := decimatePairs c f x.samples.length q.inRate q.outRate, rate := q.outRate }, { q with filter := f })
  else .error (rateMismatch q.inRate x.rate)

/-! ## The meanings -/

/-- `ds.new` (R236). -/
def execDsNew (inRate outRate : Rat) (coefs : List Rat) (s : State) : Host.Outcome State Fault Refusal :=
  if 0 < inRate ∧ 0 < outRate ∧ coefs ≠ [] then
    give (.handle s.dss.length) { s with dss := s.dss ++ [Downsampler.make Config.chip inRate outRate coefs] }
  else .refused .badOperand

/-- `ds.downsample` (R237). -/
def execDsDownsample (ds : Nat) (samples : List Rat) (rate : Rat) (s : State) : Host.Outcome State Fault Refusal :=
  match s.dss[ds]? with
  | none => .refused (.noInstance ds)
  | some d =>
    match d.run Config.chip { samples := samples, rate := rate } with
    | .error e => .next (takeError e s)
    | .ok (y, d') => give (.mono y) { s with dss := replaceAt s.dss ds d' }

/-- `iqds.new` (R240). -/
def execIqdsNew (inRate outRate : Rat) (coefs : List Rat) (s : State) : Host.Outcome State Fault Refusal :=
  if 0 < inRate ∧ 0 < outRate ∧ coefs ≠ [] then
    give (.handle s.iqdss.length) { s with iqdss := s.iqdss ++ [IqDownsampler.make Config.chip inRate outRate coefs] }
  else .refused .badOperand

/-- `iqds.downsample` (R241). -/
def execIqdsDownsample (iqds : Nat) (iq : List (Rat × Rat)) (rate : Rat) (s : State) :
    Host.Outcome State Fault Refusal :=
  match s.iqdss[iqds]? with
  | none => .refused (.noInstance iqds)
  | some q =>
    match q.run Config.chip { samples := iq, rate := rate } with
    | .error e => .next (takeError e s)
    | .ok (y, q') => give (.iq y) { s with iqdss := replaceAt s.iqdss iqds q' }

end Sys2Proof.Machine
end

