-- ==== Sys2Proof/Machine/Demodulators.lean ====
section
/-! DEFINITION. Units U8 and U9: the FM and AM demodulators (spec 46_fm_am_demodulators). -/

namespace Sys2Proof.Machine

open Sys2Proof.Config (Params)

/-! ## FM (R251 to R254) -/

/-- `fm.new` (R251) with the coefficients of its channel filter. -/
def Fm.make (c : Params) (inRate outRate maxF : Rat) (coefs : List Rat) : Fm :=
  { iqds := IqDownsampler.make c inRate outRate coefs
    gain := outRate / (2 * piRat * maxF)
    prevI := 0
    prevQ := 0
    carrier := false }

/-- The phase advance from the previous sample `(pI, pQ)` to `(i, q)`, times the gain (R252). -/
def discriminate (c : Params) (gain pI pQ i q : Rat) : Rat := rndApprox c (atan2Rat c (q * pI - i * pQ) (i * pI + q * pQ) * gain)

/-- The discriminator over a block (R252). -/
def discriminateAll (c : Params) (gain : Rat) : Rat → Rat → List (Rat × Rat) → List Rat
  | _, _, [] => []
  | pI, pQ, (i, q) :: rest => discriminate c gain pI pQ i q :: discriminateAll c gain i q rest

/-- The power of a block, the sum of `I^2 + Q^2` (R252, R253). -/
def power (iq : List (Rat × Rat)) : Rat := sumRat (iq.map fun p => p.1 * p.1 + p.2 * p.2)

/-- `fm.demodulate(iq)` (R252). -/
def Fm.run (c : Params) (m : Fm) (x : IqFloat) : Except Err (MonoFloat × Fm) :=
  match m.iqds.run c x with
  | .error e => .error e
  | .ok (y, q) =>
    let last := y.samples.getLast?.getD (m.prevI, m.prevQ)
    .ok ({ samples := discriminateAll c m.gain m.prevI m.prevQ y.samples, rate := y.rate },
      { m with
        iqds := q
        prevI := last.1
        prevQ := last.2
        carrier := carrierFlag (power y.samples) y.samples.length })

/-! ## AM (R255 to R259) -/

/-- `am.new` (R255) with the coefficients of its channel filter. -/
def Am.make (c : Params) (inRate outRate : Rat) (coefs : List Rat) : Am :=
  { iqds := IqDownsampler.make c inRate outRate coefs, carrier := false, relPower := 0 }

/-- The envelope of a block about its own means (R256). -/
def envelope (c : Params) (iq : List (Rat × Rat)) : List Rat :=
  let len : Rat := iq.length
  let iBar := sumRat (iq.map Prod.fst) / len
  let qBar := sumRat (iq.map Prod.snd) / len
  iq.map fun p => hypotRat c (p.1 - iBar) (p.2 - qBar)

/-- The power of the raw input at the positions the downsampler read (R259). -/
def inputPower (x : IqFloat) (len : Nat) (inRate outRate : Rat) : Rat :=
  power ((List.range len).map fun i => x.samples.getD (readPos i inRate outRate) (0, 0))

/-- The normalised samples, or free ones where the mean amplitude is 0 (R256, R257; notes/assumptions/12.md). -/
def amSamples (c : Params) (y : List Rat) (draw : Nat) : List Rat :=
  let m := sumRat y / y.length
  if m = 0 then (List.range y.length).map fun k => binary32Value (Config.amSample draw k)
  else y.map fun v => rndApprox c ((v - m) / m)

/-- `am.demodulate(iq)` (R256) with the `relPower` of R259, `draw` numbering the free values of a block of mean amplitude 0. -/
def Am.run (c : Params) (a : Am) (x : IqFloat) (draw : Nat) : Except Err (MonoFloat × Am) :=
  match a.iqds.run c x with
  | .error e => .error e
  | .ok (d, q) =>
    if d.samples = [] then .ok ({ samples := [], rate := d.rate }, { a with iqds := q, carrier := false })
    else
      let y := envelope c d.samples
      let p := sumRat (y.map fun v => v * v)
      .ok ({ samples := amSamples c y draw, rate := d.rate },
        { iqds := q
          carrier := carrierFlag p y.length
          relPower := rndApprox c (c.relPowerAm p (inputPower x y.length a.iqds.inRate a.iqds.outRate)) })

/-! ## The meanings -/

/-- `fm.new` (R251). -/
def execFmNew (inRate outRate maxF filterFreq : Rat) (kernelLen : Nat) (s : State) :
    Host.Outcome State Fault Refusal :=
  if 0 < inRate ∧ 0 < outRate ∧ 0 < maxF ∧ 0 < filterFreq ∧ 0 < kernelLen then
    match lowpass Config.chip inRate filterFreq kernelLen with
    | some coefs => give (.handle s.fms.length) { s with fms := s.fms ++ [Fm.make Config.chip inRate outRate maxF coefs] }
    | none => .refused .zeroSum
  else .refused .badOperand

/-- `fm.demodulate` (R252): its result carries `carrier` (R26). -/
def execFmDemodulate (fm : Nat) (iq : List (Rat × Rat)) (rate : Rat) (s : State) : Host.Outcome State Fault Refusal :=
  match s.fms[fm]? with
  | none => .refused (.noInstance fm)
  | some m =>
    match m.run Config.chip { samples := iq, rate := rate } with
    | .error e => .next (takeError e s)
    | .ok (y, m') => give (.demodulated y m'.carrier) { s with fms := replaceAt s.fms fm m' }

/-- `am.new` (R255). -/
def execAmNew (inRate outRate filterFreq : Rat) (kernelLen : Nat) (s : State) : Host.Outcome State Fault Refusal :=
  if 0 < inRate ∧ 0 < outRate ∧ 0 < filterFreq ∧ 0 < kernelLen then
    match lowpass Config.chip inRate filterFreq kernelLen with
    | some coefs => give (.handle s.ams.length) { s with ams := s.ams ++ [Am.make Config.chip inRate outRate coefs] }
    | none => .refused .zeroSum
  else .refused .badOperand

/-- `am.demodulate` (R256): its result carries `carrier` (R26). -/
def execAmDemodulate (am : Nat) (iq : List (Rat × Rat)) (rate : Rat) (s : State) : Host.Outcome State Fault Refusal :=
  match s.ams[am]? with
  | none => .refused (.noInstance am)
  | some a =>
    match a.run Config.chip { samples := iq, rate := rate } s.drawNo with
    | .error e => .next (takeError e s)
    | .ok (y, a') => give (.demodulated y a'.carrier) { s with ams := replaceAt s.ams am a', drawNo := s.drawNo + 1 }

end Sys2Proof.Machine
end

