-- ==== Sys2Proof/Machine/Stereo.lean ====
section
/-! DEFINITION. Units U10, U11 and U12: the exponential averager, the stereo pilot separator and the de-emphasis
filter (spec 47_stereo_deemphasis_averager). -/

namespace Sys2Proof.Machine

open Sys2Proof.Config (Params)

/-! ## The averager (R266 to R268) -/

/-- `avg.new(w, withVariance)` (R266). -/
def Averager.make (w : Rat) (withVariance : Bool) : Averager :=
  { w := w, withVariance := withVariance, avg := 0, vari := 0 }

/-- `a.add(x)` (R267): the running average, and with the variance variant the running variance about the updated
average (R268). -/
def Averager.add (c : Params) (a : Averager) (x : Rat) : Averager :=
  let m := rnd32 c ((a.w * a.avg + x) / (a.w + 1))
  { a with
    avg := m
    vari := if a.withVariance then rnd32 c ((a.w * a.vari + (x - m) * (x - m)) / (a.w + 1)) else a.vari }

/-! ## The separator (R271 to R276) -/

/-- The frequency of table entry `b` (R272). -/
def binFreq (pilotFreq : Rat) (b : Nat) : Rat := pilotFreq + ((b : Rat) - Config.pilotCentre) * Config.pilotStep

/-- `SIN[b]` (R272). -/
def sinEntry (c : Params) (sampleRate pilotFreq : Rat) (b : Nat) : Rat :=
  rndApprox c (sinTurns c (binFreq pilotFreq b / sampleRate))

/-- `COS[b]` (R272). -/
def cosEntry (c : Params) (sampleRate pilotFreq : Rat) (b : Nat) : Rat :=
  rndApprox c (cosTurns c (binFreq pilotFreq b / sampleRate))

/-- `st.new(sampleRate, pilotFreq)` (R271). -/
def Stereo.make (c : Params) (sampleRate pilotFreq : Rat) : Stereo :=
  { sampleRate := sampleRate
    sinTab := (List.range Config.pilotTableLen).map (sinEntry c sampleRate pilotFreq)
    cosTab := (List.range Config.pilotTableLen).map (cosEntry c sampleRate pilotFreq)
    sin := 0
    cos := 1
    iavg := Averager.make c.wProj false
    qavg := Averager.make c.wProj false
    cavg := Averager.make c.wLock false
    found := true }

/-- The phase-error ratio (R274). -/
def phaseError (hdev vdev : Rat) : Rat :=
  if hdev = 0 then (if vdev = 0 then 0 else if 0 < vdev then Config.corrClamp else -Config.corrClamp)
  else clampRat (vdev / hdev) (-Config.corrClamp) Config.corrClamp

/-- The table index of a phase error (R274). -/
def tableIndex (corr : Rat) : Nat := (roundHalfUp ((corr + Config.corrClamp) * Config.pilotPerUnit)).toNat

/-- One sample through the separator: the output uses the oscillator before its rotation (R273, R275). -/
def Stereo.sample (c : Params) (st : Stereo) (x : Rat) : Rat × Stereo :=
  let iavg := st.iavg.add c (x * st.sin)
  let qavg := st.qavg.add c (x * st.cos)
  let corr := phaseError iavg.avg qavg.avg
  let idx := tableIndex corr
  let sn := st.sinTab.getD idx 0
  let cs := st.cosTab.getD idx 0
  (rnd32 c (x * st.sin * st.cos * Config.diffGain),
    { st with
      iavg := iavg
      qavg := qavg
      sin := rnd32 c (st.sin * cs + st.cos * sn)
      cos := rnd32 c (st.cos * cs - st.sin * sn)
      cavg := st.cavg.add c (corr * corr) })

/-- The samples of a block in order (R273). -/
def Stereo.samples (c : Params) : Stereo → List Rat → List Rat × Stereo
  | st, [] => ([], st)
  | st, x :: xs =>
    let y := st.sample c x
    let rest := Stereo.samples c y.2 xs
    (y.1 :: rest.1, rest.2)

/-- `st.separate(samples)` (R273, R276): an empty block leaves everything unchanged. -/
def Stereo.run (c : Params) (st : Stereo) (x : List Rat) : MonoFloat × Stereo :=
  if x = [] then ({ samples := [], rate := st.sampleRate }, st)
  else
    let y := st.samples c x
    ({ samples := y.1, rate := st.sampleRate }, { y.2 with found := foundFlag c.lockThres y.2.cavg.avg })

/-! ## De-emphasis (R277, R278) -/

/-- `de.new(rate, tau)` (R277): `alpha = exp(-1e6 / (tau * rate))`, `tau` in microseconds. -/
def Deemphasis.make (c : Params) (rate tau : Rat) : Deemphasis :=
  { alpha := expNeg c (Config.million / (tau * rate)), y := 0 }

/-- One sample (R278). -/
def Deemphasis.sample (c : Params) (d : Deemphasis) (x : Rat) : Deemphasis :=
  { d with y := rndApprox c ((1 - d.alpha) * x + d.alpha * d.y) }

/-- The samples of a block in order (R278). -/
def Deemphasis.samples (c : Params) : Deemphasis → List Rat → List Rat × Deemphasis
  | d, [] => ([], d)
  | d, x :: xs =>
    let d' := d.sample c x
    let rest := Deemphasis.samples c d' xs
    (d'.y :: rest.1, rest.2)

/-- `de.run(samples)` (R278): the rate is unchanged and not checked. -/
def Deemphasis.run (c : Params) (d : Deemphasis) (x : MonoFloat) : MonoFloat × Deemphasis :=
  let y := d.samples c x.samples
  ({ samples := y.1, rate := x.rate }, y.2)

/-! ## The meanings -/

/-- `avg.new` (R266). -/
def execAvgNew (w : Rat) (withVariance : Bool) (s : State) : Host.Outcome State Fault Refusal :=
  if 0 ≤ w then give (.handle s.avgs.length) { s with avgs := s.avgs ++ [Averager.make w withVariance] }
  else .refused (.negativeWeight w)

/-- `avg.add` (R267): the new average. -/
def execAvgAdd (avg : Nat) (x : Rat) (s : State) : Host.Outcome State Fault Refusal :=
  match s.avgs[avg]? with
  | none => .refused (.noInstance avg)
  | some a => give (.real (a.add Config.chip x).avg) { s with avgs := replaceAt s.avgs avg (a.add Config.chip x) }

/-- `st.new` (R271). -/
def execStNew (sampleRate pilotFreq : Rat) (s : State) : Host.Outcome State Fault Refusal :=
  if 0 < sampleRate ∧ 0 < pilotFreq then
    give (.handle s.sts.length) { s with sts := s.sts ++ [Stereo.make Config.chip sampleRate pilotFreq] }
  else .refused .badOperand

/-- `st.separate` (R273). -/
def execStSeparate (st : Nat) (samples : List Rat) (s : State) : Host.Outcome State Fault Refusal :=
  match s.sts[st]? with
  | none => .refused (.noInstance st)
  | some t =>
    give (.separated (t.run Config.chip samples).1 (t.run Config.chip samples).2.found)
      { s with sts := replaceAt s.sts st (t.run Config.chip samples).2 }

/-- `de.new` (R277). -/
def execDeNew (rate tau : Rat) (s : State) : Host.Outcome State Fault Refusal :=
  if 0 < rate ∧ 0 < tau then
    give (.handle s.des.length) { s with des := s.des ++ [Deemphasis.make Config.chip rate tau] }
  else .refused .badOperand

/-- `de.run` (R278). -/
def execDeRun (de : Nat) (samples : List Rat) (rate : Rat) (s : State) : Host.Outcome State Fault Refusal :=
  match s.des[de]? with
  | none => .refused (.noInstance de)
  | some d =>
    give (.mono (d.run Config.chip { samples := samples, rate := rate }).1)
      { s with des := replaceAt s.des de (d.run Config.chip { samples := samples, rate := rate }).2 }

end Sys2Proof.Machine
end

