-- ==== Sys2Proof/Machine/Pipeline.lean ====
section
/-! DEFINITION. Sample input conversion, the chains WBFM, NBFM and AM, and the two operations of the data-path port, as
operations and as messages (spec 48_pipelines_and_input, 30_encoding R118). -/

namespace Sys2Proof.Machine

open Sys2Proof.Config (Params)

/-! ## Input conversion (R286) -/

/-- One byte as a float: `byte / 128 - 0.995`. -/
def byteFloat (c : Params) (b : Byte) : Rat := rnd32 c ((b.toNat : Rat) / Config.iqScale - Config.iqOffset)

/-- Pairs of bytes, I first; a byte left over is dropped. -/
def bytePairs (c : Params) : List Byte → List (Rat × Rat)
  | i :: q :: rest => (byteFloat c i, byteFloat c q) :: bytePairs c rest
  | _ => []

/-- `iq_convert(bytes)` for an even number of bytes; the rate is IN_RATE whatever the device was set to. -/
def iqStream (c : Params) (bytes : List Byte) : IqFloat := { samples := bytePairs c bytes, rate := Config.inRate }

/-! ## Construction (R289 to R291) -/

/-- WBFM (R289). -/
def makeWbfm (c : Params) (tau : Rat) : Option Chain := do
  let fc ← lowpass c Config.inRate (Config.wbfmFilterShare * Config.wbfmMaxF) Config.wbfmKernelLen
  let ac ← lowpass c Config.wbfmInter c.wbfmAudioCutoff c.wbfmAudioTaps
  let audio := Downsampler.make c Config.wbfmInter Config.outRate ac
  pure (.wbfm (Fm.make c Config.inRate Config.wbfmInter Config.wbfmMaxF fc) audio audio
    (Stereo.make c Config.wbfmInter Config.pilotFreq) (Deemphasis.make c Config.outRate tau)
    (Deemphasis.make c Config.outRate tau))

/-- `multiple = 1 + floor((maxF - 1) * 7 / 75000)` (R290). -/
def nbfmMultiple (maxF : Rat) : Nat := 
  (Config.nbfmLeast + ((maxF - Config.nbfmMinF) * Config.nbfmFactor / Config.nbfmDivisor).floor).toNat

/-- The inter rate of the NBFM chain, `48000 * multiple` (R290). -/
def nbfmInter (maxF : Rat) : Rat := (Config.outRate * nbfmMultiple maxF : Nat)

/-- NBFM (R290). -/
def makeNbfm (c : Params) (maxF : Rat) : Option Chain := do
  let fc ← lowpass c Config.inRate (Config.nbfmFilterShare * maxF) (c.nbfmKernelLen (nbfmMultiple maxF))
  let ac ← lowpass c (nbfmInter maxF) Config.nbfmAudioCutoff Config.nbfmAudioTaps
  pure (.nbfm (Fm.make c Config.inRate (nbfmInter maxF) maxF fc)
    (Downsampler.make c (nbfmInter maxF) Config.outRate ac))

/-- AM (R291). -/
def makeAm (c : Params) (bandwidth : Rat) : Option Chain := do
  let fc ← lowpass c Config.inRate (Config.amFilterShare * bandwidth) Config.amKernelLen
  pure (.am (Am.make c Config.inRate Config.outRate fc))

/-- The chain of a mode; none where a filter cannot be designed (G10). -/
def makeChain (c : Params) : Mode → Option Chain
  | .wbfm tau => makeWbfm c (tau.getD c.deemphTau)
  | .nbfm maxF => makeNbfm c maxF
  | .am bandwidth => makeAm c bandwidth
  | .ssb _ _ => none

/-- `set_mode(mode)` (R292): a fresh instance replaces the old one. -/
def installMode (c : Params) (mode : Mode) (s : State) : Host.Outcome State Fault Refusal :=
  if mode.legal then
    match makeChain c mode with
    | some chain => give .nothing { s with pipeline := some { mode := mode, chain := chain } }
    | none => .refused .zeroSum
  else .refused (.badMode mode)

/-! ## Demodulation (R289 to R291) -/

/-- What a chain's `demodulate` returns. -/
structure Audio where
  left        : MonoFloat
  right       : MonoFloat
  stereo      : Bool
  signalLevel : Rat
  deriving DecidableEq, Repr, Inhabited

/-- `3.5 * sqrt(relPower)` (R291). -/
def amLevel (c : Params) (a : Am) : Rat := rndApprox c (Config.amLevelFactor * sqrtRat c a.relPower)

/-- The sum or difference of two streams, sample by sample, stored with `rnd32` (R289). -/
def combine (c : Params) (g : Rat → Rat → Rat) (x y : MonoFloat) : MonoFloat :=
  { samples := List.zipWith (fun a b => rnd32 c (g a b)) x.samples y.samples, rate := x.rate }

/-- The de-emphasis of both channels (R289). -/
def deemphasize (c : Params) (deL deR : Deemphasis) (left right : MonoFloat) (stereo : Bool) (level : Rat) :
    Audio × Deemphasis × Deemphasis :=
  ({ left := (deL.run c left).1, right := (deR.run c right).1, stereo := stereo, signalLevel := level },
    (deL.run c left).2, (deR.run c right).2)

/-- WBFM (R289), its signal level the OPEN `SIGNAL_LEVEL_FM` of the demodulator after the block
(notes/assumptions/26.md): the separator runs only where stereo is asked for, the difference downsampler only where the pilot is
found. -/
def runWbfm (c : Params) (fm : Fm) (mono diff : Downsampler) (st : Stereo) (deL deR : Deemphasis) (x : IqFloat)
    (inStereo : Bool) : Except Err (Audio × Chain) :=
  match fm.run c x with
  | .error e => .error e
  | .ok (comp, fm') =>
    match mono.run c comp with
    | .error e => .error e
    | .ok (sum, mono') =>
      if inStereo then
        let sep := st.run c comp.samples
        if sep.2.found then
          match diff.run c { samples := sep.1.samples, rate := st.sampleRate } with
          | .error e => .error e
          | .ok (d, diff') =>
            let out := deemphasize c deL deR (combine c (· + ·) sum d) (combine c (· - ·) sum d) true (c.signalLevelFm fm')
            .ok (out.1, .wbfm fm' mono' diff' sep.2 out.2.1 out.2.2)
        else
          let out := deemphasize c deL deR sum sum false (c.signalLevelFm fm')
          .ok (out.1, .wbfm fm' mono' diff sep.2 out.2.1 out.2.2)
      else
        let out := deemphasize c deL deR sum sum false (c.signalLevelFm fm')
        .ok (out.1, .wbfm fm' mono' diff st out.2.1 out.2.2)

/-- NBFM (R290): no stereo, no de-emphasis. -/
def runNbfm (c : Params) (fm : Fm) (mono : Downsampler) (x : IqFloat) : Except Err (Audio × Chain) :=
  match fm.run c x with
  | .error e => .error e
  | .ok (y, fm') =>
    match mono.run c y with
    | .error e => .error e
    | .ok (a, mono') =>
      .ok ({ left := a, right := a, stereo := false, signalLevel := c.signalLevelFm fm' }, .nbfm fm' mono')

/-- AM (R291). -/
def runAm (c : Params) (am : Am) (x : IqFloat) (draw : Nat) : Except Err (Audio × Chain) :=
  match am.run c x draw with
  | .error e => .error e
  | .ok (y, am') => .ok ({ left := y, right := y, stereo := false, signalLevel := amLevel c am' }, .am am')

/-- `p.demodulate(iq, inStereo)` (R288). -/
def Chain.run (c : Params) (ch : Chain) (x : IqFloat) (inStereo : Bool) (draw : Nat) :
    Except Err (Audio × Chain) :=
  match ch with
  | .wbfm f mono diff st deL deR => runWbfm c f mono diff st deL deR x inStereo
  | .nbfm f mono => runNbfm c f mono x
  | .am a => runAm c a x draw

/-- `process(bytes, inStereo, freqOffsetHz, echo)` (R288). -/
def processBlock (c : Params) (bytes : List Byte) (inStereo : Bool) (freqOffset : Rat) (echo : List Byte)
    (s : State) : Host.Outcome State Fault Refusal :=
  match s.pipeline with
  | none => .next (takeError (invalidState .process) s)
  | some p =>
    if freqOffset ≠ 0 then .refused (.freqOffset freqOffset)
    else if bytes.length % Config.bytesPerSample ≠ 0 then .refused (.oddLength bytes.length)
    else
      match p.chain.run c (iqStream c bytes) inStereo s.drawNo with
      | .error e => .next (takeError e s)
      | .ok (a, chain) =>
        give (.audio a.left a.right echo a.stereo a.signalLevel)
          { s with pipeline := some { p with chain := chain }, drawNo := s.drawNo + 1 }

/-! ## The meanings -/

/-- `iq_convert` (R286). -/
def execIqConvert (bytes : List Byte) (s : State) : Host.Outcome State Fault Refusal :=
  if bytes.length % Config.bytesPerSample = 0 then give (.iq (iqStream Config.chip bytes)) s else .refused (.oddLength bytes.length)

/-- `set_mode` (R292). -/
def execSetMode (mode : Mode) (s : State) : Host.Outcome State Fault Refusal := installMode Config.chip mode s

/-- `process` (R288). -/
def execProcess (bytes : List Byte) (inStereo : Bool) (freqOffset : Rat) (echo : List Byte) (s : State) :
    Host.Outcome State Fault Refusal :=
  processBlock Config.chip bytes inStereo freqOffset echo s

/-- Message tag 0, `process` (R118). -/
def execMsgProcess (bytes : List Byte) (inStereo : Bool) (freqOffset : Rat) (echo : List Byte) (s : State) :
    Host.Outcome State Fault Refusal :=
  processBlock Config.chip bytes inStereo freqOffset echo s

/-- Message tag 1, `set_mode` (R118). -/
def execMsgSetMode (mode : Mode) (s : State) : Host.Outcome State Fault Refusal := installMode Config.chip mode s

end Sys2Proof.Machine
end

