-- ==== Sys2Proof/Machine/Transport.lean ====
section
/-! DEFINITION. Unit U1: the USB transport (spec 40_usb_transport). -/

namespace Sys2Proof.Machine

/-- `control_read(value, index, length)` (R141). -/
def execControlRead (value index length : Word16) (s : State) : Host.Outcome State Fault Refusal :=
  runOp (do
    let data ← controlRead value index length
    pure (.bytes data)) s

/-- `control_write(value, index, bytes)` (R142). -/
def execControlWrite (value index : Word16) (bytes : List Byte) (s : State) : Host.Outcome State Fault Refusal :=
  runOp (do
    controlWrite value index bytes
    pure .nothing) s

/-- `bulk_read(length)` (R143), behind the reads in flight (R88). -/
def execBulkRead (length : Nat) (s : State) : Host.Outcome State Fault Refusal :=
  bulkBehind length s

/-- `claim_interface(1)` (R144). -/
def execClaimInterface (iface : Byte) (s : State) : Host.Outcome State Fault Refusal :=
  runOp (do
    claimInterface iface
    pure .nothing) s

/-- `release_interface(1)` (R145). -/
def execReleaseInterface (iface : Byte) (s : State) : Host.Outcome State Fault Refusal :=
  runOp (do
    releaseInterface iface
    pure .nothing) s

/-- What `close_device` leaves whatever the USB layer reports (R146, R317, R330, 92_eei_decisions D39): no device is
held, every flag but `FAULT` is false, and no control-path word exists. DESIGN CHOICE (notes/assumptions/52.md): an installed
pipeline stays, as R331 has it, although D39 lists none. -/
def deviceClosed (s : State) : State :=
  { destroyWords s with
    opened := false
    claimed := false
    i2cOpen := false
    tunerReady := false
    hasPllLock := false
    handle := none }

/-- `close_device()` (R146): an error of the USB layer is reported, and the device is closed all the same (R317). -/
def closeDevice : Ctl Unit := do
  let (draw, a) ← issue .closeDevice
  modify deviceClosed
  if a.code ≠ 0 then raise (transportError .closeDevice 0 0 draw a) else pure ()

/-- `close_device()` (R146). Where it is not allowed, a second one among them, R146 and G19 say refused and R306 says
`InvalidState`: the table of R306 is followed. DESIGN CHOICE (notes/assumptions/45.md). -/
def execCloseDevice (s : State) : Host.Outcome State Fault Refusal :=
  runHostOp .closeDevice (do
    closeDevice
    seqDone
    pure .nothing) s

end Sys2Proof.Machine
end

