-- ==== Sys2Proof/Machine/Wire.lean ====
section
/-! DEFINITION. Transfers on the wire: setup packets, the named register writes and the bulk transfer (spec 30_encoding
R100 to R104, R125, 10_state R37). Each is the transfer itself, with what the device does with it
(notes/assumptions/24.md). -/

namespace Sys2Proof.Machine

/-- A read transfer on the wire; its data stage is the result. -/
def wireRead (value index length : Word16) (s : State) : Host.Outcome State Fault Refusal :=
  runOp (do
    let data ← controlRead value index length
    pure (.bytes data)) s

/-- A write transfer on the wire; `index` without the write flag. -/
def wireWrite (value index : Word16) (bytes : List Byte) (s : State) : Host.Outcome State Fault Refusal :=
  runOp (do
    controlWrite value index bytes
    pure .nothing) s

/-- SETUP, a read (R100). -/
def execSetupControlRead (value index length : Word16) (s : State) : Host.Outcome State Fault Refusal :=
  wireRead value index length s

/-- SETUP, a write (R100). -/
def execSetupControlWrite (value index : Word16) (bytes : List Byte) (s : State) : Host.Outcome State Fault Refusal :=
  wireWrite value index bytes s

/-- REG, a read (R101). -/
def execSetupRegRead (block reg length : Word16) (s : State) : Host.Outcome State Fault Refusal :=
  wireRead reg block length s

/-- REG, a write (R101). -/
def execSetupRegWrite (block reg : Word16) (bytes : List Byte) (s : State) : Host.Outcome State Fault Refusal :=
  wireWrite reg block bytes s

/-- DEMODREG, a read (R102). -/
def execSetupDemodRead (page1 : Bool) (addr : Byte) (length : Word16) (s : State) : Host.Outcome State Fault Refusal :=
  wireRead (demodValue addr) (pageIndex page1) length s

/-- DEMODREG, a write (R102). -/
def execSetupDemodWrite (page1 : Bool) (addr : Byte) (bytes : List Byte) (s : State) :
    Host.Outcome State Fault Refusal :=
  wireWrite (demodValue addr) (pageIndex page1) bytes s

/-- I2C, a read (R103). -/
def execSetupI2cRead (length : Word16) (s : State) : Host.Outcome State Fault Refusal :=
  wireRead Config.r820tI2cAddr Config.blockI2c length s

/-- I2C, a write of `[reg] ++ bytes` (R103). -/
def execSetupI2cWrite (reg : Byte) (bytes : List Byte) (s : State) : Host.Outcome State Fault Refusal :=
  wireWrite Config.r820tI2cAddr Config.blockI2c (reg :: bytes) s

/-- SYSCTL (R37). -/
def execSetupSysctlWrite (data : Byte) (s : State) : Host.Outcome State Fault Refusal :=
  wireWrite Config.regSysctl Config.blockUsb [data] s

/-- EPA_MAXPKT, low byte first (R37, R77). -/
def execSetupEpaMaxpktWrite (data0 data1 : Byte) (s : State) : Host.Outcome State Fault Refusal :=
  wireWrite Config.regEpaMaxpkt Config.blockUsb [data0, data1] s

/-- EPA_CTL, low byte first (R37, R77). -/
def execSetupEpaCtlWrite (data0 data1 : Byte) (s : State) : Host.Outcome State Fault Refusal :=
  wireWrite Config.regEpaCtl Config.blockUsb [data0, data1] s

/-- DEMOD_CTL (R37). -/
def execSetupDemodCtlWrite (data : Byte) (s : State) : Host.Outcome State Fault Refusal :=
  wireWrite Config.regDemodCtl Config.blockSys [data] s

/-- DEMOD_CTL_1 (R37). -/
def execSetupDemodCtl1Write (data : Byte) (s : State) : Host.Outcome State Fault Refusal :=
  wireWrite Config.regDemodCtl1 Config.blockSys [data] s

/-- DEMOD page 1 register 0x01: the bridge and the demodulator reset (R37, R39). -/
def execSetupI2cBridgeWrite (data : Byte) (s : State) : Host.Outcome State Fault Refusal :=
  wireWrite (demodValue Config.regBridge) (pageIndex Config.namedPage) [data] s

/-- DEMOD page 1 register 0x19, the IF multiplier's most significant byte (R37). -/
def execSetupIfMultHiWrite (data : Byte) (s : State) : Host.Outcome State Fault Refusal :=
  wireWrite (demodValue Config.regIfMultHi) (pageIndex Config.namedPage) [data] s

/-- DEMOD page 1 register 0x1A, the IF multiplier's middle byte (R37). -/
def execSetupIfMultMidWrite (data : Byte) (s : State) : Host.Outcome State Fault Refusal :=
  wireWrite (demodValue Config.regIfMultMid) (pageIndex Config.namedPage) [data] s

/-- DEMOD page 1 register 0x1B, the IF multiplier's low byte (R37). -/
def execSetupIfMultLoWrite (data : Byte) (s : State) : Host.Outcome State Fault Refusal :=
  wireWrite (demodValue Config.regIfMultLo) (pageIndex Config.namedPage) [data] s

/-- DEMOD page 1 register 0x3E, the PPM offset's high byte (R37). -/
def execSetupPpmOffHiWrite (data : Byte) (s : State) : Host.Outcome State Fault Refusal :=
  wireWrite (demodValue Config.regPpmOffHi) (pageIndex Config.namedPage) [data] s

/-- DEMOD page 1 register 0x3F, the PPM offset's low byte (R37). -/
def execSetupPpmOffLoWrite (data : Byte) (s : State) : Host.Outcome State Fault Refusal :=
  wireWrite (demodValue Config.regPpmOffLo) (pageIndex Config.namedPage) [data] s

/-- BULK, a bulk-in transfer on endpoint 1 (R104), behind the reads in flight (R88). -/
def execBulkIn (length : Nat) (s : State) : Host.Outcome State Fault Refusal :=
  bulkBehind length s

end Sys2Proof.Machine
end

