-- ==== Sys2Proof/Machine/Dispatch.lean ====
section
/-! DEFINITION. One arm for each operation of the block: a direct call of its meaning. -/

namespace Sys2Proof.Machine

def exec (i : Instr) (s : State) : Host.Outcome State Fault Refusal :=
  match i with
  | .controlRead value index length => Sys2Proof.Machine.execControlRead value index length s
  | .controlWrite value index bytes => Sys2Proof.Machine.execControlWrite value index bytes s
  | .bulkRead length => Sys2Proof.Machine.execBulkRead length s
  | .claimInterface iface => Sys2Proof.Machine.execClaimInterface iface s
  | .releaseInterface iface => Sys2Proof.Machine.execReleaseInterface iface s
  | .closeDevice => Sys2Proof.Machine.execCloseDevice s
  | .writeReg block reg value len => Sys2Proof.Machine.execWriteReg block reg value len s
  | .readReg block reg len => Sys2Proof.Machine.execReadReg block reg len s
  | .writeRegMask block reg value mask => Sys2Proof.Machine.execWriteRegMask block reg value mask s
  | .writeDemodReg page addr value len => Sys2Proof.Machine.execWriteDemodReg page addr value len s
  | .readDemodReg page addr => Sys2Proof.Machine.execReadDemodReg page addr s
  | .openI2c => Sys2Proof.Machine.execOpenI2c s
  | .closeI2c => Sys2Proof.Machine.execCloseI2c s
  | .i2cWriteReg addr reg value => Sys2Proof.Machine.execI2cWriteReg addr reg value s
  | .i2cReadReg addr reg => Sys2Proof.Machine.execI2cReadReg addr reg s
  | .i2cWriteBuf addr reg bytes => Sys2Proof.Machine.execI2cWriteBuf addr reg bytes s
  | .i2cReadBuf addr reg n => Sys2Proof.Machine.execI2cReadBuf addr reg n s
  | .r820tWriteMask reg value mask => Sys2Proof.Machine.execR820tWriteMask reg value mask s
  | .r820tRead n => Sys2Proof.Machine.execR820tRead n s
  | .r820tWriteEach list => Sys2Proof.Machine.execR820tWriteEach list s
  | .r820tInit => Sys2Proof.Machine.execR820tInit s
  | .r820tCalibrateFilter firstAttempt => Sys2Proof.Machine.execR820tCalibrateFilter firstAttempt s
  | .r820tSetMux freq => Sys2Proof.Machine.execR820tSetMux freq s
  | .r820tSetFrequency freq => Sys2Proof.Machine.execR820tSetFrequency freq s
  | .r820tSetPll freq => Sys2Proof.Machine.execR820tSetPll freq s
  | .r820tGetPllLock firstTry => Sys2Proof.Machine.execR820tGetPllLock firstTry s
  | .r820tSetManualGain dB => Sys2Proof.Machine.execR820tSetManualGain dB s
  | .r820tSetAutoGain => Sys2Proof.Machine.execR820tSetAutoGain s
  | .r820tClose => Sys2Proof.Machine.execR820tClose s
  | .rtlNew handle ppm gain => Sys2Proof.Machine.execRtlNew handle ppm gain s
  | .rtlOpen => Sys2Proof.Machine.execRtlOpen s
  | .rtlSetSampleRate rate => Sys2Proof.Machine.execRtlSetSampleRate rate s
  | .rtlSetCenterFrequency hz => Sys2Proof.Machine.execRtlSetCenterFrequency hz s
  | .rtlResetBuffer => Sys2Proof.Machine.execRtlResetBuffer s
  | .rtlReadSamples n => Sys2Proof.Machine.execRtlReadSamples n s
  | .rtlClose => Sys2Proof.Machine.execRtlClose s
  | .getLowpassFirCoeffs rate f n => Sys2Proof.Machine.execGetLowpassFirCoeffs rate f n s
  | .firNew coefs step => Sys2Proof.Machine.execFirNew coefs step s
  | .firLoad fir samples => Sys2Proof.Machine.execFirLoad fir samples s
  | .firGet fir idx => Sys2Proof.Machine.execFirGet fir idx s
  | .dsNew inRate outRate coefs => Sys2Proof.Machine.execDsNew inRate outRate coefs s
  | .dsDownsample ds samples rate => Sys2Proof.Machine.execDsDownsample ds samples rate s
  | .iqdsNew inRate outRate coefs => Sys2Proof.Machine.execIqdsNew inRate outRate coefs s
  | .iqdsDownsample iqds iq rate => Sys2Proof.Machine.execIqdsDownsample iqds iq rate s
  | .fmNew inRate outRate maxF filterFreq kernelLen => Sys2Proof.Machine.execFmNew inRate outRate maxF filterFreq kernelLen s
  | .fmDemodulate fm iq rate => Sys2Proof.Machine.execFmDemodulate fm iq rate s
  | .amNew inRate outRate filterFreq kernelLen => Sys2Proof.Machine.execAmNew inRate outRate filterFreq kernelLen s
  | .amDemodulate am iq rate => Sys2Proof.Machine.execAmDemodulate am iq rate s
  | .avgNew w withVariance => Sys2Proof.Machine.execAvgNew w withVariance s
  | .avgAdd avg x => Sys2Proof.Machine.execAvgAdd avg x s
  | .stNew sampleRate pilotFreq => Sys2Proof.Machine.execStNew sampleRate pilotFreq s
  | .stSeparate st samples => Sys2Proof.Machine.execStSeparate st samples s
  | .deNew rate tau => Sys2Proof.Machine.execDeNew rate tau s
  | .deRun de samples rate => Sys2Proof.Machine.execDeRun de samples rate s
  | .iqConvert bytes => Sys2Proof.Machine.execIqConvert bytes s
  | .setMode mode => Sys2Proof.Machine.execSetMode mode s
  | .process bytes inStereo freqOffset echo => Sys2Proof.Machine.execProcess bytes inStereo freqOffset echo s
  | .msgProcess bytes inStereo freqOffset echo => Sys2Proof.Machine.execMsgProcess bytes inStereo freqOffset echo s
  | .msgSetMode mode => Sys2Proof.Machine.execMsgSetMode mode s
  | .setupControlRead value index length => Sys2Proof.Machine.execSetupControlRead value index length s
  | .setupControlWrite value index bytes => Sys2Proof.Machine.execSetupControlWrite value index bytes s
  | .setupRegRead block reg length => Sys2Proof.Machine.execSetupRegRead block reg length s
  | .setupRegWrite block reg bytes => Sys2Proof.Machine.execSetupRegWrite block reg bytes s
  | .setupDemodRead page1 addr length => Sys2Proof.Machine.execSetupDemodRead page1 addr length s
  | .setupDemodWrite page1 addr bytes => Sys2Proof.Machine.execSetupDemodWrite page1 addr bytes s
  | .setupI2cRead length => Sys2Proof.Machine.execSetupI2cRead length s
  | .setupI2cWrite reg bytes => Sys2Proof.Machine.execSetupI2cWrite reg bytes s
  | .setupSysctlWrite data => Sys2Proof.Machine.execSetupSysctlWrite data s
  | .setupEpaMaxpktWrite data0 data1 => Sys2Proof.Machine.execSetupEpaMaxpktWrite data0 data1 s
  | .setupEpaCtlWrite data0 data1 => Sys2Proof.Machine.execSetupEpaCtlWrite data0 data1 s
  | .setupDemodCtlWrite data => Sys2Proof.Machine.execSetupDemodCtlWrite data s
  | .setupDemodCtl1Write data => Sys2Proof.Machine.execSetupDemodCtl1Write data s
  | .setupI2cBridgeWrite data => Sys2Proof.Machine.execSetupI2cBridgeWrite data s
  | .setupIfMultHiWrite data => Sys2Proof.Machine.execSetupIfMultHiWrite data s
  | .setupIfMultMidWrite data => Sys2Proof.Machine.execSetupIfMultMidWrite data s
  | .setupIfMultLoWrite data => Sys2Proof.Machine.execSetupIfMultLoWrite data s
  | .setupPpmOffHiWrite data => Sys2Proof.Machine.execSetupPpmOffHiWrite data s
  | .setupPpmOffLoWrite data => Sys2Proof.Machine.execSetupPpmOffLoWrite data s
  | .bulkIn length => Sys2Proof.Machine.execBulkIn length s

end Sys2Proof.Machine
end

