-- ==== Sys2Proof/Machine/Sequencer.lean ====
section
/-! DEFINITION. The control sequencer: an operation of the host in progress is carried out one USB transaction at a time
(spec 00_scope R16 (a), 10_state R24, 40_usb_transport R140). Each move runs the same programs as the operation's meaning,
cut at its transactions (notes/assumptions/3.md). -/

namespace Sys2Proof.Machine

open Sys2Proof.Config (Params InitEntry DemodWrite TableTriple)

/-! ## What is to be done -/

/-- A table of masked writes. -/
def Task.table (l : List TableTriple) : Task := .each (l.map tripleOf)

/-- A read of `n` status bytes: two transfers (R161, R172). -/
def Task.status (n : Nat) (use : StatusUse) : List Task := [.point n, .fetch n use]

/-- An entry of `RTL_INIT` (R106). -/
def Task.entry : InitEntry → Task
  | .reg block addr value len => .reg block.word addr value len.bytes
  | .demod page1 addr value len => Task.demod page1 addr value len.bytes

/-- A write of `RATIO_REGS` (R205). -/
def Task.ratioWrite (w : DemodWrite) : Task := .demod w.page1 w.addr w.value w.len.bytes

/-- A write to a named register of DEMOD page 1. -/
def Task.byte1 (w : Byte × Nat) : Task := .demod Config.namedPage w.1 w.2 Config.demodRegLen.bytes

/-- What an operation of the host has to do, from its first transaction on (R202 to R212, R146). -/
def programOf (c : Params) : Instr → List Task
  | .rtlOpen =>
    [.reg Config.blockUsb Config.regSysctl Config.sysctlInit Config.sysctlLen.bytes,
      .reg Config.blockUsb Config.regEpaMaxpkt Config.epaMaxpktInit Config.epaMaxpktLen.bytes, .claim]
      ++ c.rtlInit.entries.map Task.entry ++ [.xtal, .openBridge] ++ Task.status Config.i2cRegLen .probe
      ++ [.ifOffset, .init, .gain, .closeBridge]
  | .rtlSetSampleRate rate => [.ratio rate]
  | .rtlSetCenterFrequency hz => [.tune hz]
  | .rtlResetBuffer =>
    [.reg Config.blockUsb Config.regEpaCtl Config.epaCtlReset Config.epaCtlLen.bytes,
      .reg Config.blockUsb Config.regEpaCtl Config.epaCtlRun Config.epaCtlLen.bytes]
  | .rtlClose =>
    [.openBridge, .mark closingPowerDown] ++ c.r820tPowerdown.toList.map Task.closingMask
      ++ [.unready, .mark closingBridge, .closeBridge, .mark closingRelease, .release, .mark closingEnd, .closed]
  | .closeDevice => [.device]
  | _ => []

/-- The result of an operation of the host that has completed (R206). -/
def resultOf : Instr → Result
  | .rtlSetSampleRate rate => .uint (actualRateOf (resamplingRatio rate))
  | _ => .nothing

/-! ## One task -/

/-- The state with the sequencer at index `k` of its operation. -/
def State.goto (k : Nat) (s : State) : State := s.atPos (s.seq.goto k)

/-- The lock as the last poll found it; where the first poll finds none, the charge pump is bumped and the lock polled once
more (R183). -/
def pollTasks (c : Params) (firstTry : Bool) (d : List Byte) : Ctl (List Task) :=
  if lockBit d then do
    setLock true
    pure []
  else if firstTry then pure (.mask (bumpTriple c) :: Task.status Config.statusLen (.lock false))
  else do
    setLock false
    pure []

/-- A filter code read: a non-zero code of the first attempt is retried once, any other accepted (R178). -/
def codeTasks (firstAttempt : Bool) (cap : BitVec Config.filCalWidth) : Ctl (List Task) :=
  if cap ≠ 0 ∧ firstAttempt then pure [.calibrate false]
  else do
    let t ← filterAccepted cap
    pure [.mask t]

/-- What follows from the status bytes `bs`, as received (R172, R178, R181, R183, R203). -/
def useStatus (c : Params) (bs : List Byte) : StatusUse → Ctl (List Task)
  | .probe => do
    checkId bs
    pure []
  | .fineTune freq pllRef => do
    let divNum ← pllExponent c freq (bs.map bitrev8)
    pure [.mask (vcoTriple divNum), .dividers (pllDividers freq divNum pllRef).1 (pllDividers freq divNum pllRef).2]
  | .lock firstTry => pollTasks c firstTry (bs.map bitrev8)
  | .code firstAttempt => codeTasks firstAttempt (filterCode (bs.map bitrev8))

/-- The divider words and the lock poll of `r820t.set_pll` (R181 to R183). -/
def dividerTasks (nint sdm : Int) : Ctl (List Task) :=
  if Config.nintMax < nint then do
    setLock false
    pure []
  else do
    require (decide (Config.nintMin ≤ nint)) (.nintRange nint)
    pure ((dividerTriples nint sdm).map Task.mask ++ Task.status Config.statusLen (.lock true))

/-- A task that issues nothing of its own, or one transaction, and nothing after it. -/
def Task.only (m : Ctl Unit) : Ctl (List Task) := do
  m
  pure []

/-- One task: at most one USB transaction, and what is to be done next because of it. -/
def Task.run (c : Params) : Task → Ctl (List Task)
  | .reg block addr value len => Task.only (writeReg block addr value len)
  | .demod page1 addr value len => Task.only (writeDemodReg page1 addr value len)
  | .claim => Task.only (claimInterface Config.usbInterface)
  | .openBridge => Task.only openI2c
  | .closeBridge => Task.only closeI2c
  | .mask t => Task.only (writeMask t)
  | .each [] => Task.only requireI2c
  | .each (t :: ts) => do
    writeMask t
    pure [.each ts]
  | .defaults => Task.only (writeDefaults c)
  | .point n => Task.only (i2cPoint tunerBus Config.regStatus n)
  | .fetch n use => do
    let bs ← controlRead tunerBus Config.blockI2c (BitVec.ofNat 16 n)
    useStatus c bs use
  | .closingMask t => Task.only (Sys2Proof.Machine.closingMask t)
  | .unready => Task.only (modify (State.setReady false))
  | .release => Task.only releaseClaimed
  | .device => Task.only closeDevice
  | .xtal => Task.only computeXtal
  | .ifOffset => do
    let s ← get
    let xtal ← word s.xtalFreq
    pure ((ifOffsetWrites c xtal).map Task.byte1)
  | .init => pure [.defaults, Task.table c.r820tInitElec, .calibrate true, Task.table c.r820tInitPost, .ready]
  | .ready => Task.only tunerInitialized
  | .gain => do
    let s ← get
    let gain ← word s.gain
    pure [Task.table (gainTable c gain)]
  | .pll freq => do
    let pllRef ← pllReference freq
    pure (Task.table c.r820tPllPre :: Task.status Config.statusLen (.fineTune freq pllRef))
  | .dividers nint sdm => dividerTasks nint sdm
  | .calibrate firstAttempt => do
    requireI2c
    pure [Task.table c.r820tCalPre, .pll Config.calFreq, .calibrated firstAttempt]
  | .calibrated firstAttempt => do
    calibrationLocked
    pure (Task.table c.r820tCalStart :: Task.table c.r820tCalStop :: Task.status Config.statusLen (.code firstAttempt))
  | .ratio rate => do
    let ratio ← rateRatio rate
    let s ← get
    let ppm ← word s.ppm
    pure ((ratioTable c ratio).map Task.ratioWrite ++ (ppmOffsetWrites c ppm ++ demodResetWrites).map Task.byte1
      ++ [.rated (actualRateOf ratio)])
  | .rated actual => Task.only (modify (State.setRated actual))
  | .tune hz => do
    require (decide (0 < hz)) .badOperand
    pure [.openBridge, .frequency (hz + Config.ifFreq), .settled hz]
  | .frequency freq => do
    requireReady
    pure [Task.table (muxTable c freq), .pll freq]
  | .settled hz => do
    let s ← get
    pure [.closeBridge, .tuned hz s.hasPllLock]
  | .tuned hz locked => Task.only (tuneLocked hz locked)
  | .mark k => Task.only (modify (State.goto k))
  | .closed => Task.only (modify rtlClosed)

/-! ## One move -/

/-- The state as the tasks see it: without the sequencer's record of the operation in progress. -/
def State.bare (s : State) : State := { s with running := none, todo := [] }

/-- The operation `op` goes on with `ts`; with nothing left to do it has completed (R24, R313). -/
def State.carry (op : Instr) (ts : List Task) (s : State) : State :=
  if ts.isEmpty then complete (resultOf op) { s with running := none, todo := [], seq := SeqPos.rest }
  else { s with running := some op, todo := ts }

/-- Where `rtl.close` goes on after a step that failed: its next step, with its index (R317). -/
def nextMark : List Task → Option (Nat × List Task)
  | [] => none
  | .mark k :: rest => some (k, rest)
  | _ :: rest => nextMark rest

/-- An error of the operation in progress is taken. It ends the operation; `rtl.close` goes on with its next step, unless the
error was fatal (R310, R311, R317; notes/assumptions/46.md). -/
def recover (op : Instr) (e : Err) (rest : List Task) (s : State) : State :=
  if (takeError e s).ended then takeError e s
  else match nextMark rest with
    | some (k, todo) => ((takeError e s).atPos (s.seq.goto k)).carry op todo
    | none => takeError e s

/-- One move of the operation in progress: its next task (R16 (a), R140). -/
def move (c : Params) (s : State) : Host.Outcome State Fault Refusal :=
  match s.running, s.todo with
  | some op, t :: rest =>
    match t.run c s.bare with
    | .ok ts s' => .next (s'.carry op (ts ++ rest))
    | .error (.raised e) s' => .next (recover op e rest s')
    | .error (.refused r) _ => .refused r
    | .error (.fault f) _ => .fault f
    | .error .ended s' => .next s'
  | _, _ => .next s

/-- The state with an operation in progress, before its first transaction (R24). -/
def State.started (c : Params) (op : Instr) (q : SeqOp) (s : State) : State :=
  { s with running := some op, todo := programOf c op, seq := { op := q, step := 0 } }

end Sys2Proof.Machine
end

