-- ==== Sys2Proof/Machine/Step.lean ====
section
/-! DEFINITION. One step of the block: it takes the host's next event (notes/assumptions/2.md). An operation of the control
path that the host issues without waiting is in progress until its completion, one transaction a step (R16 (a), R140, R313;
notes/assumptions/3.md); a message it puts at the data-path port without waiting is in flight until the DSP engine handles it,
one message a step (R16 (b), R313, R345; notes/assumptions/49.md). -/

namespace Sys2Proof.Machine

/-- The oldest read in flight completes; the operation in progress keeps its position (R88, R313). -/
def readCompletes (s : State) : State := { completeOldest s with seq := s.seq }

/-- The DSP engine handles the oldest message in flight; with none nothing changes (R16 (b), R292, R313). -/
def handleOldest (s : State) : Host.Outcome State Fault Refusal :=
  match s.messages with
  | [] => .next s
  | m :: later => exec m { s with messages := later }

/-- What the control path does on its own: with an operation in progress, the reads in flight complete, then the operation
makes one move; with none, the oldest read completes; with nothing in flight nothing changes (R16 (a), R88, R313, R325). -/
def proceed (s : State) : Host.Outcome State Fault Refusal :=
  match s.running with
  | none => .next (completeOldest s)
  | some _ => if s.reads.isEmpty then move Config.chip s else .next (readCompletes s)

/-- What the block does on its own: the control path first, then the data path, whose order no rule fixes (R16). DESIGN CHOICE
(notes/assumptions/49.md). -/
def idleStep (s : State) : Host.Outcome State Fault Refusal :=
  if s.running.isNone && s.reads.isEmpty then handleOldest s else proceed s

/-- The host waits for the next completion of the control path: a read in flight completes, or the operation in progress makes
one move, and the wait goes on until that was its last (R88, R313). `rest` is what the host does afterwards. -/
def awaitNext (rest : List Event) (s : State) : Host.Outcome State Fault Refusal :=
  if s.running.isNone || !s.reads.isEmpty then proceed { s with inbox := rest }
  else match move Config.chip s with
    | .next t => .next (if t.running.isNone then { t with inbox := rest } else t)
    | .fault f => .fault f
    | .refused r => .refused r

/-- The operation in progress makes one move before the host goes on; with none in progress the oldest read completes. -/
def progress (s : State) : Host.Outcome State Fault Refusal :=
  if s.running.isNone then .next (completeOldest s) else move Config.chip s

/-- An operation arrives at its port. While an operation of the control path is in progress a second one is an
`InvalidState` (R200, R306, R340), and the data path runs as it would without it (R16 (b)). A test-bench transfer with a read
in flight and no operation in progress runs as if no read were in flight: what the device does then is in no source (R88, G9).
DESIGN CHOICE (notes/assumptions/48.md). `rtl.new`, which issues nothing, completes in the step in which it arrives
(notes/assumptions/49.md). -/
def arrive (op : Instr) (s : State) : Host.Outcome State Fault Refusal :=
  match s.running with
  | none => exec op s
  | some _ =>
    if isDataPath op then exec op s
    else match hostOpOf op with
      | some name => .next (takeError (invalidState name) s)
      | none => .refused .sequencerBusy

/-- The host issues an operation and does not wait: a sequence that is allowed is in progress from here on; every other
operation arrives as it does where the host waits (R24, R306, R313). -/
def startOp (op : Instr) (s : State) : Host.Outcome State Fault Refusal :=
  match sequenceOf op, hostOpOf op with
  | some q, some name => if s.running.isNone && name.allowed s then .next (s.started Config.chip op q) else arrive op s
  | _, _ => arrive op s

/-- Whether a message has a response: `process` has one, `set_mode` none (R288, R292). -/
def responds : Instr → Bool
  | .msgProcess .. => true
  | _ => false

/-- The host waits for the next response of the data path: the DSP engine handles the oldest message in flight, and the wait
goes on until that was a `process` (R313). `rest` is what the host does afterwards. -/
def awaitResponse (rest : List Event) (s : State) : Host.Outcome State Fault Refusal :=
  match s.messages with
  | [] => .next { s with inbox := rest }
  | m :: later => exec m { s with messages := later, inbox := if responds m then rest else s.inbox }

/-- A command of the data path takes its turn behind the messages in flight (R89, R292). -/
def behindMessages (op : Instr) (s : State) : Bool := isDataPath op && !s.messages.isEmpty

/-- One step. After a fatal error there is none (R311). With no event left the block goes on by itself; with nothing in flight
it is idle and changes nothing (R325). A command is decoded and arrives, one of the data path behind the messages in flight; a
message that is submitted is in flight from here on (R313); a packet that is no operation is refused (R123). -/
def step (s : State) : Host.Outcome State Fault Refusal :=
  if s.ended then .fault .programEnded
  else
    match s.inbox with
    | [] => idleStep s
    | .completion :: rest => awaitNext rest s
    | .progress :: rest => progress { s with inbox := rest }
    | .command port bytes :: rest =>
      match decode port bytes with
      | .ok op => if behindMessages op s then handleOldest s else arrive op { s with inbox := rest }
      | .error why => .refused (.undecodable port why)
    | .issue bytes :: rest =>
      match decode .host bytes with
      | .ok op => startOp op { s with inbox := rest }
      | .error why => .refused (.undecodable .host why)
    | .submit bytes :: rest =>
      match decode .msg bytes with
      | .ok op => .next { s with messages := s.messages ++ [op], inbox := rest }
      | .error why => .refused (.undecodable .msg why)
    | .response :: rest => awaitResponse rest s

/-- The state in which the host's next event is the operation of `nbits` table bits `w`. -/
def State.withFetchWord (s : State) (nbits w : Nat) : State :=
  { s with inbox := .command (tablePort nbits) (tableBytes nbits w) :: s.inbox }

end Sys2Proof.Machine
end

