-- ==== Sys2Proof/Safety.lean ====
section
/-! DEFINITION. The words statements about the block are made in: what a transfer that succeeds leaves, what the device
is assumed to answer, and the invariant of the block's states. -/

namespace Sys2Proof.Machine

/-! ## The device's premise (R76) -/

/-- The next transfer succeeds and is complete. -/
def nextSucceeds (s : State) : Prop := answerOf s.plan s.drawNo = Answer.success

/-- Every transfer succeeds and is complete. -/
def allSucceed (s : State) : Prop := ∀ n, answerOf s.plan n = Answer.success

/-- The tuner can be reached by U2 and U3: a device is open, the block has opened the bridge, and the device forwards
(R39 (a), R158). -/
def tunerReachable (s : State) : Prop := s.opened = true ∧ s.i2cOpen = true ∧ s.bridge = .forwarding

/-! ## What a transfer leaves -/

/-- One transfer more on the wire, its answer taken, `STEP` advanced. -/
def transferred (t : Transfer) (s : State) : State := (s.issued t).advanced

/-- The transfer of `control_write` (R142). -/
def writeTransfer (value index : Word16) (bytes : List Byte) : Transfer :=
  .control (setupWrite value (index ||| Config.writeFlag) (BitVec.ofNat 16 bytes.length)) bytes

/-- The transfer of `control_read` (R141), with the data stage the device delivered (R125). -/
def readTransfer (value index length : Word16) (data : List Byte) : Transfer :=
  .control (setupRead value index length) data

/-- What a transfer needs of its target: behind the bridge, a bridge that forwards (R39 (a), G16). -/
def reaches (t : Target) (s : State) : Prop :=
  match t with
  | .register _ _ => True
  | .tuner | .absent => s.bridge = .forwarding

/-- A `control_write` that succeeds. -/
def afterWrite (value index : Word16) (bytes : List Byte) (t : Target) (s : State) : State :=
  deviceStore t bytes (transferred (writeTransfer value index bytes) s)

/-- The bytes a `control_read` delivers that succeeds. -/
def readBytes (t : Target) (length : Word16) (s : State) : List Byte := deviceBytes t length.toNat s.drawNo s

/-- A `control_read` that succeeds. -/
def afterRead (value index length : Word16) (t : Target) (s : State) : State :=
  deviceAfterRead t (transferred (readTransfer value index length (readBytes t length s)) s)

/-- The window of a DEMOD register (R73). -/
def demodWindow (page1 : Bool) (addr : Byte) : Target :=
  .register (cellAddr (pageIndex page1) addr.toNat) (Config.pageSize - addr.toNat)

/-- Where a register of a block lies: in block USB or SYS (R72), in a DEMOD page (R73), or behind the bridge (R74). -/
def blockWindow (block reg : Word16) : Target :=
  if isDemodPage block then
    .register (cellAddr block (demodAddr reg).toNat) (Config.pageSize - (demodAddr reg).toNat)
  else if block = Config.blockI2c then if reg = Config.r820tI2cAddr then .tuner else .absent
  else .register (cellAddr block reg.toNat) (Config.blockSize - reg.toNat)

/-- A `write_reg` that succeeds (R151). -/
def afterRegWrite (block reg : Word16) (value len : Nat) (s : State) : State :=
  afterWrite reg block (leBytes len value) (blockWindow block reg) s

/-- A `write_demod_reg` that succeeds (R154). -/
def afterDemodWrite (page1 : Bool) (addr : Byte) (value len : Nat) (s : State) : State :=
  afterWrite (demodValue addr) (pageIndex page1) (beBytes len value) (demodWindow page1 addr) s

/-- `open_i2c` that succeeds (R156). -/
def afterOpenI2c (s : State) : State :=
  (afterDemodWrite Config.namedPage Config.regBridge Config.bridgeOpenValue Config.demodRegLen.bytes s).setI2cOpen true

/-- `close_i2c` that succeeds (R157). -/
def afterCloseI2c (s : State) : State :=
  (afterDemodWrite Config.namedPage Config.regBridge Config.bridgeCloseValue Config.demodRegLen.bytes s).setI2cOpen false

/-- A write of `[reg] ++ data` to the tuner that succeeds. -/
def afterTunerWrite (reg : Byte) (data : List Byte) (s : State) : State :=
  afterWrite tunerBus Config.blockI2c (reg :: data) .tuner s

/-- The pointer write and the read of `n` bytes from register `reg` of the tuner, both successful. -/
def afterTunerRead (reg : Byte) (n : Nat) (s : State) : State :=
  afterRead tunerBus Config.blockI2c (BitVec.ofNat 16 n) .tuner (afterTunerWrite reg [] s)

/-- The bytes that read delivers, as they come over the wire. -/
def tunerBytes (reg : Byte) (n : Nat) (s : State) : List Byte :=
  deviceBytes .tuner n (s.drawNo + 1) (afterTunerWrite reg [] s)

/-- A masked tuner write that succeeds: the shadow byte and the device's register become the masked byte (R171). -/
def afterMask (t : Triple) (s : State) : State :=
  match shadowIndex t.reg, s.shadow with
  | some k, some sh =>
    afterTunerWrite t.reg [maskByte sh[k] t.value t.mask] (s.setShadow (sh.set k (maskByte sh[k] t.value t.mask)))
  | _, _ => s

/-- A list of masked writes that all succeed (R173). -/
def afterMasks : List Triple → State → State
  | [], s => s
  | t :: ts, s => afterMasks ts (afterMask t s)

/-! ## Sequences of the tuner that succeed (R178 to R186) -/

/-- A table as TRIPLEs. -/
def triplesOf (l : List Config.TableTriple) : List Triple := l.map tripleOf

/-- The status bytes the next five-byte read of the tuner gives, bits reversed (R172). -/
def statusOf (s : State) : List Byte := (tunerBytes Config.regStatus Config.statusLen s).map bitrev8

/-- A five-byte read of the tuner that succeeds. -/
def afterStatus (s : State) : State := afterTunerRead Config.regStatus Config.statusLen s

/-- `r820t.get_pll_lock(firstTry)`, its transfers all successful (R183). -/
def afterPoll (c : Config.Params) (firstTry : Bool) (s : State) : State :=
  if lockBit (statusOf s) then (afterStatus s).setLock true
  else if firstTry then
    let s1 := afterMask (bumpTriple c) (afterStatus s)
    (afterStatus s1).setLock (lockBit (statusOf s1))
  else (afterStatus s).setLock false

/-- The state in which `r820t.set_pll` reads the fine-tune bits (R181). -/
def pllStart (c : Config.Params) (s : State) : State := afterMasks (triplesOf c.r820tPllPre) s

/-- The divider exponent `r820t.set_pll` arrives at (R181). -/
def pllDivider (c : Config.Params) (freq : Nat) (s : State) : Int :=
  divNumAdjusted c freq (vcoFine (statusOf (pllStart c s)))

/-- `nint` and `sdm` of `r820t.set_pll` (R181, R182). -/
def pllWords (c : Config.Params) (freq : Nat) (pllRef : Int) (s : State) : Int × Int :=
  pllDividers freq (pllDivider c freq s).toNat pllRef

/-- What `r820t.set_pll` needs not to be refused: a divider in its field and an integer part of at least 13 (R181, G17). -/
def pllInRange (c : Config.Params) (freq : Nat) (pllRef : Int) (s : State) : Prop :=
  0 ≤ pllDivider c freq s ∧ pllDivider c freq s ≤ Config.divNumMax ∧ Config.nintMin ≤ (pllWords c freq pllRef s).1

/-- `r820t.set_pll(freq)`, its transfers all successful (R181 to R183). -/
def afterPll (c : Config.Params) (freq : Nat) (pllRef : Int) (s : State) : State :=
  let s1 := afterMask (vcoTriple (pllDivider c freq s).toNat) (afterStatus (pllStart c s))
  let w := pllWords c freq pllRef s
  if Config.nintMax < w.1 then s1.setLock false
  else afterPoll c true (afterMasks (dividerTriples w.1 w.2) s1)

/-- The three writes of `r820t.set_mux(freq)` (R179). -/
def muxTriples (c : Config.Params) (freq : Nat) : List Triple :=
  triplesOf [(muxRow c.r820tMux freq).t0, (muxRow c.r820tMux freq).t1, (muxRow c.r820tMux freq).t2]

/-- The state in which a run of the calibration sets the PLL (R178). -/
def calStart (c : Config.Params) (s : State) : State := afterMasks (triplesOf c.r820tCalPre) s

/-- The state in which a run of the calibration reads its code (R178). -/
def calReady (c : Config.Params) (pllRef : Int) (s : State) : State :=
  afterMasks (triplesOf c.r820tCalStop)
    (afterMasks (triplesOf c.r820tCalStart) (afterPll c Config.calFreq pllRef (calStart c s)))

/-- The code a run of the calibration reads, 0x0F counting as 0 (R178). -/
def calCode (c : Config.Params) (pllRef : Int) (s : State) : BitVec Config.filCalWidth := filterCode (statusOf (calReady c pllRef s))

/-- One run of the calibration, its transfers all successful and its PLL locked. -/
def afterCalRun (c : Config.Params) (pllRef : Int) (s : State) : State := afterStatus (calReady c pllRef s)

/-- What one run of the calibration needs to complete: the PLL's operands in range and a lock (R178). -/
def calRuns (c : Config.Params) (pllRef : Int) (s : State) : Prop :=
  pllInRange c Config.calFreq pllRef (calStart c s) ∧
    (afterPll c Config.calFreq pllRef (calStart c s)).hasPllLock = true

/-- The code accepted: `filterCap`, OR'd into the low nibble of register 0x0A (R178). -/
def afterFilterCap (cap : BitVec Config.filCalWidth) (s : State) : State :=
  match s.shadow with
  | none => s
  | some sh => afterMask (filterTriple sh cap) (s.setFilterCap cap)

/-- Whether a calibration runs a second time (R178). -/
def calRetries (c : Config.Params) (pllRef : Int) (firstAttempt : Bool) (s : State) : Bool :=
  calCode c pllRef s != 0 && firstAttempt

/-- `r820t.calibrate_filter(firstAttempt)`, its transfers all successful and its PLL locked (R178). -/
def afterCalibration (c : Config.Params) (pllRef : Int) (firstAttempt : Bool) (s : State) : State :=
  if calRetries c pllRef firstAttempt s then
    afterFilterCap (calCode c pllRef (afterCalRun c pllRef s)) (afterCalRun c pllRef (afterCalRun c pllRef s))
  else afterFilterCap (calCode c pllRef s) (afterCalRun c pllRef s)

/-- What a calibration needs to complete (R178). -/
def calibrates (c : Config.Params) (pllRef : Int) (firstAttempt : Bool) (s : State) : Prop :=
  calRuns c pllRef s ∧ (calRetries c pllRef firstAttempt s = true → calRuns c pllRef (afterCalRun c pllRef s))

/-- The state in which `r820t.init` calibrates (R174). -/
def initStart (c : Config.Params) (s : State) : State :=
  afterMasks (triplesOf c.r820tInitElec) (afterTunerWrite (BitVec.ofNat 8 Config.shadowBase)
    c.r820tDefaults.toList (s.setShadow c.r820tDefaults))

/-- `r820t.init()`, its transfers all successful and its PLL locked (R174). -/
def afterInit (c : Config.Params) (pllRef : Int) (s : State) : State :=
  (afterMasks (triplesOf c.r820tInitPost) (afterCalibration c pllRef true (initStart c s))).setReady true

/-! ## Operations of the host that succeed (R202 to R209) -/

/-- An entry of `RTL_INIT`, its write successful (R106). -/
def afterEntry : Config.InitEntry → State → State
  | .reg block reg value len, s => afterRegWrite block.word reg value len.bytes s
  | .demod page1 addr value len, s => afterDemodWrite page1 addr value len.bytes s

/-- An entry reaches its register: one of block I2C through a bridge that forwards only (R39 (a), R347). -/
def entryReaches (e : Config.InitEntry) (s : State) : Prop :=
  match e with
  | .reg .i2c _ _ _ => s.bridge = .forwarding
  | .reg .usb _ _ _ | .reg .sys _ _ _ | .reg .demodPage0 _ _ _ | .reg .demodPage1 _ _ _ | .demod _ _ _ _ => True

/-- A list of entries, their writes all successful. -/
def afterEntries : List Config.InitEntry → State → State
  | [], s => s
  | e :: es, s => afterEntries es (afterEntry e s)

/-- Every entry of a list reaches its register, each after those before it. -/
def entriesReach : List Config.InitEntry → State → Prop
  | [], _ => True
  | e :: es, s => entryReaches e s ∧ entriesReach es (afterEntry e s)

/-- `rtl.open` before its claim (R202 steps 1, 2). -/
def openPrepared (s : State) : State :=
  afterRegWrite Config.blockUsb Config.regEpaMaxpkt Config.epaMaxpktInit Config.epaMaxpktLen.bytes
    (afterRegWrite Config.blockUsb Config.regSysctl Config.sysctlInit Config.sysctlLen.bytes (s.atPos { op := .opening, step := 0 }))

/-- `rtl.open` after its claim (R202 step 3). -/
def openClaimed (s : State) : State :=
  transferred (.claim Config.usbInterface) ((openPrepared s).setClaimed true)

/-- Every entry of `RTL_INIT` reaches its register when `rtl.open` writes it (R202 step 4, R347). -/
def tableReaches (c : Config.Params) (s : State) : Prop := entriesReach c.rtlInit.entries (openClaimed s)

/-- `rtl.open` with the bridge open, before the probe (R202 steps 4 to 6). -/
def openProbing (c : Config.Params) (ppm : Int) (s : State) : State :=
  afterOpenI2c ((afterEntries c.rtlInit.entries (openClaimed s)).setXtal (correctedXtal ppm))

/-- The identity byte the probe of `rtl.open` reads (R203). -/
def probedId (c : Config.Params) (ppm : Int) (s : State) : Byte :=
  (tunerBytes Config.regStatus Config.i2cRegLen (openProbing c ppm s)).headD 0

/-- The IF offset's three writes (R204). -/
def afterIfOffset (c : Config.Params) (xtal : Int) (s : State) : State :=
  let m := ifMultiplierWord xtal
  afterDemodWrite Config.namedPage Config.regIfMultLo (m % 256) Config.demodRegLen.bytes
    (afterDemodWrite Config.namedPage Config.regIfMultMid (m / 256 % 256) Config.demodRegLen.bytes
      (afterDemodWrite Config.namedPage Config.regIfMultHi (m / 65536 &&& c.ifMultTopMask) Config.demodRegLen.bytes s))

/-- `rtl.open` before `r820t.init` (R202 steps 7, 8). -/
def openTuning (c : Config.Params) (ppm : Int) (s : State) : State :=
  afterIfOffset c (correctedXtal ppm) (afterTunerRead Config.regStatus Config.i2cRegLen (openProbing c ppm s))

/-- The writes of a gain setting (R184, R185). -/
def gainTriples (c : Config.Params) (g : Gain) : List Triple := triplesOf (gainTable c g)

/-- What `rtl.open` needs to complete: the probe reads 0x69 and the calibration completes (R203, R304). -/
def opens (c : Config.Params) (ppm : Int) (s : State) : Prop :=
  probedId c ppm s = Config.r820tId ∧ calibrates c (correctedXtal ppm) true (initStart c (openTuning c ppm s))

/-- `rtl.open()`, its transfers all successful (R202). -/
def afterRtlOpen (c : Config.Params) (ppm : Int) (gain : Gain) (s : State) : State :=
  (afterCloseI2c (afterMasks (gainTriples c gain) (afterInit c (correctedXtal ppm) (openTuning c ppm s)))).atPos
    SeqPos.rest

/-- DEMOD writes, all successful. -/
def afterDemodWrites : List Config.DemodWrite → State → State
  | [], s => s
  | w :: ws, s => afterDemodWrites ws (afterDemodWrite w.page1 w.addr w.value w.len.bytes s)

/-- The PPM offset's two writes (R207). -/
def afterPpmOffset (c : Config.Params) (ppm : Int) (s : State) : State :=
  afterDemodWrite Config.namedPage Config.regPpmOffLo (ppmOffsetWord ppm % 256) Config.demodRegLen.bytes
    (afterDemodWrite Config.namedPage Config.regPpmOffHi (ppmOffsetWord ppm / 256 &&& c.ppmOffTopMask) Config.demodRegLen.bytes s)

/-- The demodulator reset (R208). -/
def afterDemodReset (s : State) : State :=
  (afterDemodWrite Config.namedPage Config.regBridge Config.demodResetClear Config.demodRegLen.bytes
    (afterDemodWrite Config.namedPage Config.regBridge Config.demodResetSet Config.demodRegLen.bytes s)).setI2cOpen false

/-- `rtl.set_sample_rate(rate)`, its transfers all successful (R205). -/
def afterSampleRate (c : Config.Params) (ppm : Int) (rate : Nat) (s : State) : State :=
  ((afterDemodReset (afterPpmOffset c ppm
      (afterDemodWrites (ratioTable c (resamplingRatio rate))
        (s.atPos { op := .setSampleRate, step := 0 })))).setActualRate
    (actualRateOf (resamplingRatio rate))).atPos SeqPos.rest

/-- `rtl.set_center_frequency(hz)` when it sets the PLL (R209). -/
def tuneStart (c : Config.Params) (hz : Nat) (s : State) : State :=
  afterMasks (muxTriples c (hz + Config.ifFreq)) (afterOpenI2c (s.atPos { op := .setCenterFrequency, step := 0 }))

/-- `rtl.set_center_frequency(hz)` with the PLL set, its transfers all successful (R209). -/
def tuned (c : Config.Params) (hz : Nat) (pllRef : Int) (s : State) : State :=
  afterPll c (hz + Config.ifFreq) pllRef (tuneStart c hz s)

/-- `rtl.reset_buffer()`, its transfers both successful (R210). -/
def afterResetBuffer (s : State) : State :=
  (afterRegWrite Config.blockUsb Config.regEpaCtl Config.epaCtlRun Config.epaCtlLen.bytes
    (afterRegWrite Config.blockUsb Config.regEpaCtl Config.epaCtlReset Config.epaCtlLen.bytes (s.atPos { op := .resetBuffer, step := 0 }))).atPos
    SeqPos.rest

/-! ## The instructions that are one transfer -/

/-- The address words and length of an instruction that is one read transfer (R141, R100 to R103). -/
def readOf : Instr → Option (Word16 × Word16 × Word16)
  | .controlRead value index length => some (value, index, length)
  | .setupControlRead value index length => some (value, index, length)
  | .setupRegRead block reg length => some (reg, block, length)
  | .setupDemodRead page1 addr length => some (demodValue addr, pageIndex page1, length)
  | .setupI2cRead length => some (tunerBus, Config.blockI2c, length)
  | _ => none

/-- The address words and data of an instruction that is one write transfer (R142, R100 to R103, R37). -/
def writeOf : Instr → Option (Word16 × Word16 × List Byte)
  | .controlWrite value index bytes => some (value, index, bytes)
  | .setupControlWrite value index bytes => some (value, index, bytes)
  | .setupRegWrite block reg bytes => some (reg, block, bytes)
  | .setupDemodWrite page1 addr bytes => some (demodValue addr, pageIndex page1, bytes)
  | .setupI2cWrite reg bytes => some (tunerBus, Config.blockI2c, reg :: bytes)
  | .setupSysctlWrite data => some (Config.regSysctl, Config.blockUsb, [data])
  | .setupEpaMaxpktWrite data0 data1 => some (Config.regEpaMaxpkt, Config.blockUsb, [data0, data1])
  | .setupEpaCtlWrite data0 data1 => some (Config.regEpaCtl, Config.blockUsb, [data0, data1])
  | .setupDemodCtlWrite data => some (Config.regDemodCtl, Config.blockSys, [data])
  | .setupDemodCtl1Write data => some (Config.regDemodCtl1, Config.blockSys, [data])
  | .setupI2cBridgeWrite data => some (demodValue Config.regBridge, pageIndex Config.namedPage, [data])
  | .setupIfMultHiWrite data => some (demodValue Config.regIfMultHi, pageIndex Config.namedPage, [data])
  | .setupIfMultMidWrite data => some (demodValue Config.regIfMultMid, pageIndex Config.namedPage, [data])
  | .setupIfMultLoWrite data => some (demodValue Config.regIfMultLo, pageIndex Config.namedPage, [data])
  | .setupPpmOffHiWrite data => some (demodValue Config.regPpmOffHi, pageIndex Config.namedPage, [data])
  | .setupPpmOffLoWrite data => some (demodValue Config.regPpmOffLo, pageIndex Config.namedPage, [data])
  | _ => none

/-- The operation numbers of R120. -/
def operationNumbers : List Byte :=
  [0x00, 0x01, 0x02, 0x03, 0x04, 0x05, 0x10, 0x11, 0x12, 0x13, 0x14, 0x15, 0x16, 0x17, 0x18, 0x19, 0x1A,
   0x20, 0x21, 0x22, 0x23, 0x24, 0x25, 0x26, 0x27, 0x28, 0x29, 0x2A, 0x2B, 0x30, 0x31, 0x32, 0x33, 0x34, 0x35, 0x36,
   0x40, 0x41, 0x42, 0x43, 0x50, 0x51, 0x52, 0x53, 0x60, 0x61, 0x62, 0x63, 0x70, 0x71, 0x73, 0x74, 0x75, 0x76,
   0x80, 0x81, 0x82]

/-- The operations of unit U3 (R170 to R186): they need the bridge open. -/
def isTunerOp : Instr → Bool
  | .r820tWriteMask .. | .r820tRead .. | .r820tWriteEach .. | .r820tInit | .r820tCalibrateFilter .. | .r820tSetMux ..
  | .r820tSetFrequency .. | .r820tSetPll .. | .r820tGetPllLock .. | .r820tSetManualGain .. | .r820tSetAutoGain
  | .r820tClose => true
  | _ => false

/-- The operations of unit U2 that reach the tuner (R158 to R161). -/
def isI2cOp : Instr → Bool
  | .i2cWriteReg .. | .i2cReadReg .. | .i2cWriteBuf .. | .i2cReadBuf .. => true
  | _ => false

/-! ## The data path -/

/-- The blocks loaded into a filter one after another. -/
def Fir.feed (f : Fir) (blocks : List (List Rat)) : Fir := blocks.foldl Fir.load f

/-- The blocks given to a downsampler one after another, each at its own rate. -/
def Downsampler.feed (d : Downsampler) (blocks : List (List Rat)) : Downsampler :=
  { d with filter := d.filter.feed blocks }

/-- The blocks given to an IQ downsampler one after another, each at its own rate. -/
def IqDownsampler.feed (q : IqDownsampler) (blocks : List (List (Rat × Rat))) : IqDownsampler :=
  { q with filter := q.filter.feed (blocks.map interleave) }

/-- The sum over `m` of `coefs[m] * x[t - m * step]`, with `x[u] = 0` for `u < 0` (R227). -/
def convolve (step : Nat) (x : List Rat) : List Rat → Nat → Nat → Rat
  | [], _, _ => 0
  | c :: cs, m, t => c * (if m * step ≤ t then x.getD (t - m * step) 0 else 0) + convolve step x cs (m + 1) t

/-- A filter as built from the coefficients `get_lowpass_fir_coeffs(rate, f, n)` returns: those coefficients stored, the last
first, and a history of zeros (R221, R223). -/
def freshFilter (rate f : Rat) (n step : Nat) (filter : Fir) : Prop :=
  ∃ coefs : List Rat, (∀ s : State, exec (.getLowpassFirCoeffs rate f n) s = .next (complete (.reals coefs) s)) ∧
    filter = { c := (coefs.map (rnd32 Config.chip)).reverse, step := step, n := 0
               buf := List.replicate ((coefs.length - 1) * step) 0 }

/-- The rates of a chain fit together and with the converter (R288 to R291). -/
def Chain.fits : Chain → Prop
  | .wbfm fm mono diff st _ _ =>
    fm.iqds.inRate = Config.inRate ∧ fm.iqds.outRate = Config.wbfmInter ∧ mono.inRate = Config.wbfmInter ∧
      mono.outRate = Config.outRate ∧ diff.inRate = Config.wbfmInter ∧ diff.outRate = Config.outRate ∧
      st.sampleRate = Config.wbfmInter
  | .nbfm fm mono =>
    fm.iqds.inRate = Config.inRate ∧ mono.inRate = fm.iqds.outRate ∧ mono.outRate = Config.outRate
  | .am a => a.iqds.inRate = Config.inRate ∧ a.iqds.outRate = Config.outRate

/-- The shadow mirrors the device: every shadow byte is what the device's register last received (R35). -/
def mirrors (s : State) : Prop :=
  ∀ sh, s.shadow = some sh → ∀ k : Fin Config.shadowLen, s.mem.get (tunerAddr (Config.shadowBase + k.val)) = some sh[k]

/-! ## Many steps -/

/-- `n` steps, one after another. -/
def runSteps : Nat → State → Host.Outcome State Fault Refusal
  | 0, s => .next s
  | n + 1, s =>
    match step s with
    | .next t => runSteps n t
    | .fault f => .fault f
    | .refused r => .refused r

/-- At most one transfer more has gone on the wire. -/
def atMostOneTransfer (s t : State) : Prop := t.trace = s.trace ∨ ∃ x : Transfer, t.trace = s.trace ++ [x]

/-! ## The invariant -/

/-- The name of the operation in progress, `idle` where there is none (R24). -/
def seqName (running : Option Instr) : Option SeqOp :=
  match running with
  | none => some .idle
  | some op => sequenceOf op

/-- The messages of the data-path port (R118). -/
def isMessage : Instr → Bool
  | .msgProcess .. | .msgSetMode .. => true
  | _ => false

/-- What holds in every state between two steps: the byte store is canonical; the sequencer's position has the name of the
operation in progress, and stays 0 where it has none; an operation in progress has something left to do; at most two reads are
in flight, each of a positive even number of bytes at its own position; a bulk read starts on an I byte; the interface is
claimed and the bridge recorded open only while a device is open; a ready tuner has a shadow; what waits for
the DSP engine are messages of the data-path port; and the rates of the installed pipeline fit together (R24, R29, R39 (c),
R81, R118, R211, R288). -/
structure BlockInv (s : State) : Prop where
  memory     : s.mem.wf = true
  sequencer  : seqName s.running = some s.seq.op
  idleStep   : s.seq.op = .idle → s.seq.step = 0
  progress   : s.running.isSome = true ↔ s.todo ≠ []
  readCount  : s.reads.length ≤ Config.maxReads
  readShape  : ∀ r ∈ s.reads, 0 < r.length ∧ r.length % 2 = 0 ∧ r.pos = { op := .readSamples, step := 0 }
  onIByte    : s.streamPos % 2 = 0
  claimOpen  : s.claimed = true → s.opened = true
  bridgeOpen : s.i2cOpen = true → s.opened = true
  shadowed   : s.tunerReady = true → s.shadow.isSome = true
  waiting    : ∀ m ∈ s.messages, isMessage m = true
  chainFits  : ∀ p, s.pipeline = some p → p.chain.fits

/-! ## What a step keeps -/

/-- The two states agree on everything the control path, the device and the wire hold (R331). -/
def sameControl (s t : State) : Prop :=
  t.opened = s.opened ∧ t.claimed = s.claimed ∧ t.i2cOpen = s.i2cOpen ∧ t.tunerReady = s.tunerReady ∧
  t.hasPllLock = s.hasPllLock ∧ t.fault = s.fault ∧ t.seq = s.seq ∧ t.reads = s.reads ∧ t.running = s.running ∧
  t.todo = s.todo ∧
  t.handle = s.handle ∧ t.ppm = s.ppm ∧ t.gain = s.gain ∧ t.xtalFreq = s.xtalFreq ∧ t.filterCap = s.filterCap ∧
  t.actualRate = s.actualRate ∧ t.shadow = s.shadow ∧ t.mem = s.mem ∧ t.bridge = s.bridge ∧ t.i2cPtr = s.i2cPtr ∧
  t.fifoEpoch = s.fifoEpoch ∧ t.streamPos = s.streamPos ∧ t.trace = s.trace ∧ t.plan = s.plan

/-- The two states agree on every unit instance, on the pipeline and on the messages in flight (R331). -/
def sameData (s t : State) : Prop :=
  t.firs = s.firs ∧ t.dss = s.dss ∧ t.iqdss = s.iqdss ∧ t.fms = s.fms ∧ t.ams = s.ams ∧ t.avgs = s.avgs ∧
  t.sts = s.sts ∧ t.des = s.des ∧ t.pipeline = s.pipeline ∧ t.messages = s.messages

/-- The two states agree on the flags, words, shadow, reads and operation in progress of the control path, on the data path,
and on what the host was given; they may differ in the device, the wire, the sequencer, the draw counter and the result. -/
def keepsBlock (s t : State) : Prop :=
  t.opened = s.opened ∧ t.claimed = s.claimed ∧ t.i2cOpen = s.i2cOpen ∧ t.tunerReady = s.tunerReady ∧
  t.hasPllLock = s.hasPllLock ∧ t.fault = s.fault ∧ t.reads = s.reads ∧ t.running = s.running ∧ t.todo = s.todo ∧
  t.handle = s.handle ∧ t.ppm = s.ppm ∧ t.gain = s.gain ∧ t.xtalFreq = s.xtalFreq ∧ t.filterCap = s.filterCap ∧
  t.actualRate = s.actualRate ∧ t.shadow = s.shadow ∧ sameData s t ∧ t.errors = s.errors ∧ t.handlerInstalled = s.handlerInstalled ∧
  t.ended = s.ended ∧ t.inbox = s.inbox

/-- The two states agree on the device's side: the byte store, the bridge, the read pointer, the stream. -/
def sameDevice (s t : State) : Prop :=
  t.mem = s.mem ∧ t.bridge = s.bridge ∧ t.i2cPtr = s.i2cPtr ∧ t.fifoEpoch = s.fifoEpoch ∧ t.streamPos = s.streamPos

/-- What `rtl.close` leaves where it runs to its end (R212, R317). -/
def closeCompletes (s t : State) : Prop :=
  t.tunerReady = false ∧ t.i2cOpen = false ∧ t.claimed = false ∧ t.shadow = none ∧ t.ppm = none ∧ t.gain = none ∧
  t.xtalFreq = none ∧ t.filterCap = none ∧ t.actualRate = none ∧ t.seq = SeqPos.rest ∧ t.opened = true ∧
  t.handle = s.handle ∧ t.result = .nothing ∧ s.errors <+: t.errors ∧ (s.fault = true → t.fault = true) ∧
  sameData s t ∧ t.reads = s.reads

/-- The two states differ at most in what delivering one error changes: the record, and whether the host program has
ended. -/
def onlyDelivered (r : ErrRecord) (s t : State) : Prop :=
  t = { s with errors := s.errors ++ [r], ended := t.ended }

end Sys2Proof.Machine
end

