-- ==== Sys2Proof/Certificates/Slice0/Obligations.lean ====
section
/-! DEFINITION. The statements about the block, one `Prop` each; OBLIGATIONS.json lists them with their rules. -/

section

open Sys2Proof Sys2Proof.Machine

/-- O1. Decoding the encoding of an operation gives the operation back, and of a trace its transfers (R100, R101, R102,
R103, R104, R118, R120, R125). The byte layout of operands is the model's choice (notes/assumptions/1.md). The layout of the
setup packet is marked in R100 as from general knowledge. -/
def Obligations.DecodeOfEncode : Prop :=
  (∀ i : Instr, i.encodable = true → decode i.port (encode i) = .ok i) ∧
  (∀ (i : Instr) (op : HostOp), hostOpOf i = some op → isDataPath i = false → i.encodable = true →
    decode .host (encode i) = .ok i) ∧
  (∀ ts : List (Word64 × List Byte), (∀ t ∈ ts, t.2.length = t.1.toNat / 2 ^ 48) →
    decodeTrace (encodeTrace ts) = .ok ts)

/-- O2. A step runs the decoded operation. An operation that is issued is in progress: a step of it puts at most one transfer
on the wire, and step after step it ends as its meaning says. A second one meanwhile is InvalidState, and with nothing to do a
step changes nothing. A message that is submitted is in flight; messages are handled in the order they came, one a step, and
an operation of the data path behind them (R16, R24, R121, R123, R140, R200, R292, R313, R325, R340). How the host waits, and
which path goes first, stand in notes/assumptions/2.md, 3.md and 49.md. -/
def Obligations.StepRunsDecoded : Prop :=
  (∀ (s : State) (i : Instr), s.ended = false → s.running = none → (isDataPath i = true → s.messages = []) →
     (∀ port bytes rest, s.inbox = .command port bytes :: rest → decode port bytes = .ok i →
       step s = exec i { s with inbox := rest }) ∧
     (∀ nbits w, decodeTableWord nbits w = some i → step (s.withFetchWord nbits w) = exec i s)) ∧
  (∀ (s : State) port bytes rest why, s.ended = false → decode port bytes = .error why →
    s.inbox = .command port bytes :: rest ∨ (port = .host ∧ s.inbox = .issue bytes :: rest) →
    step s = .refused (.undecodable port why)) ∧
  (∀ s : State, s.ended = false → s.inbox = [] → s.reads = [] → s.running = none → s.messages = [] → step s = .next s) ∧
  (∀ (s : State) (i : Instr) (q : SeqOp) (op : HostOp) bytes rest, s.ended = false → s.running = none →
    s.inbox = .issue bytes :: rest → decode .host bytes = .ok i → sequenceOf i = some q → hostOpOf i = some op →
    op.allowed s = true →
    step s = .next { s with
      inbox := rest, running := some i, todo := programOf Config.chip i, seq := { op := q, step := 0 } }) ∧
  (∀ (s : State) (i : Instr) rest, s.ended = false → s.running = some i →
    (s.inbox = .progress :: rest → step s = move Config.chip { s with inbox := rest }) ∧
    (s.reads = [] → s.inbox = [] → step s = move Config.chip s) ∧
    (s.reads = [] → s.inbox = .completion :: rest → ∀ t, move Config.chip s = .next t →
      step s = .next (if t.running = none then { t with inbox := rest } else t)) ∧
    (∀ t, s.inbox = [] ∨ s.inbox = .progress :: rest ∨ s.inbox = .completion :: rest → step s = .next t →
      atMostOneTransfer s t)) ∧
  (∀ (s : State) (i : Instr) (q : SeqOp) (op : HostOp), s.ended = false → s.running = none → s.todo = [] → s.inbox = [] →
    s.reads = [] → s.seq = { op := .idle, step := 0 } → sequenceOf i = some q → hostOpOf i = some op →
    op.allowed s = true → ∃ n : Nat, runSteps n { s with
      running := some i, todo := programOf Config.chip i, seq := { op := q, step := 0 } } = exec i s) ∧
  (∀ (s : State) (i j : Instr) port bytes rest, s.ended = false → s.running = some j → decode port bytes = .ok i →
    (isDataPath i = true → s.messages = [] → s.inbox = .command port bytes :: rest →
      step s = exec i { s with inbox := rest }) ∧
    (∀ op, isDataPath i = false → hostOpOf i = some op →
      s.inbox = .command port bytes :: rest ∨ (port = .host ∧ s.inbox = .issue bytes :: rest) →
      step s = .next { s with
        inbox := rest
        errors := s.errors ++ [{ kind := .invalidState, info := .operation op, pos := none }] })) ∧
  (∀ (s : State) bytes rest, s.ended = false → s.inbox = .submit bytes :: rest →
    (∀ m, decode .msg bytes = .ok m → step s = .next { s with messages := s.messages ++ [m], inbox := rest }) ∧
    (∀ why, decode .msg bytes = .error why → step s = .refused (.undecodable .msg why))) ∧
  (∀ (s : State) (m : Instr) later rest, s.ended = false → s.messages = m :: later →
    (s.running = none → s.reads = [] → s.inbox = [] → step s = exec m { s with messages := later }) ∧
    (∀ (i : Instr) port bytes, isDataPath i = true → s.inbox = .command port bytes :: rest → decode port bytes = .ok i →
      step s = exec m { s with messages := later }) ∧
    (∀ mode, m = .msgSetMode mode → s.inbox = .response :: rest → step s = exec m { s with messages := later }) ∧
    (∀ bytes inStereo freqOffset echo, m = .msgProcess bytes inStereo freqOffset echo → s.inbox = .response :: rest →
      step s = exec m { s with messages := later, inbox := rest }))

/-- O3. Words written out from the spec decode to their operations (R100, R101, R102, R103, R118, R120, R151, R156, R158).
The bytes after an operation number or a message tag are laid out as the model lays them out (notes/assumptions/1.md). The
layout of the setup packet is marked in R100 as from general knowledge. -/
def Obligations.WordsDecode : Prop :=
  decode .setup [0x40, 0x00, 0x58, 0x21, 0x10, 0x01, 0x02, 0x00, 0x00, 0x02] = .ok (.setupEpaMaxpktWrite 0x00 0x02) ∧
  decode .setup [0x40, 0x00, 0x48, 0x21, 0x10, 0x01, 0x02, 0x00, 0x10, 0x02] = .ok (.setupEpaCtlWrite 0x10 0x02) ∧
  decode .setup [0x40, 0x00, 0x00, 0x30, 0x10, 0x02, 0x01, 0x00, 0xE8] = .ok (.setupDemodCtlWrite 0xE8) ∧
  decode .setup [0x40, 0x00, 0x20, 0x01, 0x11, 0x00, 0x01, 0x00, 0x18] = .ok (.setupI2cBridgeWrite 0x18) ∧
  decode .setup [0x40, 0x00, 0x34, 0x00, 0x10, 0x06, 0x02, 0x00, 0x10, 0x80] = .ok (.setupI2cWrite 0x10 [0x80]) ∧
  decode .setup [0xC0, 0x00, 0x34, 0x00, 0x00, 0x06, 0x05, 0x00] = .ok (.setupI2cRead 5) ∧
  decode .setup [0xC0, 0x00, 0x20, 0x01, 0x01, 0x00, 0x01, 0x00] = .ok (.setupDemodRead true 0x01 1) ∧
  decode .setup [0xC0, 0x00, 0x48, 0x21, 0x00, 0x01, 0x02, 0x00] = .ok (.setupRegRead 0x0100 0x2148 2) ∧
  decode .cmd [0x31] = .ok .rtlOpen ∧ decode .cmd [0x15] = .ok .openI2c ∧
  decode .cmd [0x20, 0x10, 0x80, 0x00, 0x00, 0x00, 0x00, 0x00, 0x00, 0x00, 0xE0, 0x00, 0x00, 0x00, 0x00, 0x00, 0x00, 0x00] =
    .ok (.r820tWriteMask 0x10 0x80 0xE0) ∧
  decode .msg (1 :: putMode (.am 10000)) = .ok (.msgSetMode (.am 10000))

/-- O4. A number that names no operation is refused, and at the host's control-path port every number but the host's own
(R120, R118, R121, R123, R38). That close_device stands at that port is the model's reading (notes/assumptions/41.md). -/
def Obligations.ReservedNumbersRefused : Prop :=
  (∀ (op : Byte) (rest : List Byte), op ∉ operationNumbers → decode .cmd (op :: rest) = .error (.unknownOp op.toNat)) ∧
  (∀ (tag : Byte) (rest : List Byte), tag ≠ 0 → tag ≠ 1 → decode .msg (tag :: rest) = .error (.unknownTag tag.toNat)) ∧
  (∀ (bytes : List Byte) (i : Instr), decode .cmd bytes = .ok i → ∃ op ∈ operationNumbers, bytes.head? = some op) ∧
  (∀ (op : Byte) (rest : List Byte), op ≠ 0x05 → ¬ (0x30 ≤ op.toNat ∧ op.toNat ≤ 0x36) →
    decode .host (op :: rest) = .error (.internalOp op.toNat)) ∧
  (∀ (bytes : List Byte) (i : Instr), decode .host bytes = .ok i → ∃ op, hostOpOf i = some op ∧ isDataPath i = false)

/-- O5. At power-up the control path is closed, no data-path instance exists, and the invariant holds (R47, R48, R332,
R24, R29, R39). -/
def Obligations.ResetState : Prop :=
  (State.reset.seq = { op := .idle, step := 0 } ∧ State.reset.opened = false ∧ State.reset.claimed = false ∧
   State.reset.i2cOpen = false ∧ State.reset.tunerReady = false ∧ State.reset.hasPllLock = false ∧
   State.reset.fault = false ∧ State.reset.shadow = none ∧ State.reset.xtalFreq = none ∧
   State.reset.filterCap = none ∧ State.reset.actualRate = none ∧ State.reset.ppm = none ∧ State.reset.gain = none ∧
   State.reset.reads = [] ∧ State.reset.running = none ∧ State.reset.todo = [] ∧ State.reset.messages = [] ∧
   State.reset.pipeline = none ∧ State.reset.firs = [] ∧
   State.reset.dss = [] ∧
   State.reset.iqdss = [] ∧ State.reset.fms = [] ∧ State.reset.ams = [] ∧ State.reset.avgs = [] ∧
   State.reset.sts = [] ∧ State.reset.des = [] ∧ (∀ a, State.reset.mem.get a = none)) ∧
  (BlockInv State.reset)

/-- O6. Every step keeps the invariant (R24, R29, R39, R81, R211, R288, R310). What is left of an operation, the canonical
form of the byte store and the whole pairs a failed read uses up are the model's choices (notes/assumptions/3.md, 8.md,
44.md). -/
def Obligations.StepKeepsInv : Prop :=
  ∀ s t : State, BlockInv s → step s = .next t → BlockInv t

/-- O7. A canonical byte store is determined by what it reads as (R72, spec/20_memory.md). The canonical form is the model's
choice (notes/assumptions/8.md). -/
def Obligations.CanonicalMemoryUnique : Prop :=
  (∀ m n : Mem, m.wf = true → n.wf = true → (∀ a, m.get a = n.get a) → m = n) ∧
  (∀ (m : Mem) (a n : Nat) (bs : List Byte), m.wf = true →
    (m.putBytes a bs).wf = true ∧ (m.forgetBytes a n).wf = true ∧
    (∀ k, k < bs.length → (m.putBytes a bs).get (a + k) = bs[k]?) ∧
    (∀ k, k < n → (m.forgetBytes a n).get (a + k) = none))

/-- O8. A control read returns its data stage or raises TransportError. The data stage of a register's window holds the
bytes last stored there (R141, R125, R72, R73, R87); that a tuner register past 0x04 gives the byte last stored there, bits
reversed, is the model's choice (notes/assumptions/36.md), and what an access of several bytes sees of a register is in
notes/assumptions/50.md. That a wire format means this transfer is the model's reading (notes/assumptions/24.md). The layout
of the setup packet is marked in R100 as from general knowledge. -/
def Obligations.ControlReadRule : Prop :=
  ∀ (i : Instr) (value index length : Word16) (s : State), readOf i = some (value, index, length) →
    (s.opened = false → exec i s = .refused .notOpened) ∧
    (s.opened = true → length = 0 → exec i s = .refused (.badLength 0)) ∧
    ∀ t : Target, s.opened = true → length ≠ 0 → targetOf value index = .ok t → reaches t s →
      (nextSucceeds s →
        exec i s = .next (complete (.bytes (deviceBytes t length.toNat s.drawNo s)) (afterRead value index length t s)) ∧
        (deviceBytes t length.toNat s.drawNo s).length = length.toNat ∧
        (∀ (base room k : Nat) (p : Byte), t = .register base room → k < length.toNat → k < room →
          s.mem.get (base + k) = some p → (deviceBytes t length.toNat s.drawNo s)[k]? = some p) ∧
        (∀ (k : Nat) (p : Byte), t = .tuner → k < length.toNat → 0x05 ≤ s.i2cPtr.toNat + k → s.i2cPtr.toNat + k < 32 →
          s.mem.get (tunerAddr (s.i2cPtr.toNat + k)) = some p →
          (deviceBytes t length.toNat s.drawNo s)[k]? = some (bitrev8 p)) ∧
        keepsBlock s (afterRead value index length t s) ∧ sameDevice s (afterRead value index length t s) ∧
        (afterRead value index length t s).trace = s.trace ++
          [.control (setupPacket 0xC0 value index length) (deviceBytes t length.toNat s.drawNo s)]) ∧
      (¬ nextSucceeds s → ∃ data : List Byte,
        exec i s = .next (takeError (transportError .controlRead value index s.drawNo (answerOf s.plan s.drawNo))
          (s.issued (.control (setupPacket 0xC0 value index length) data))) ∧
        ((answerOf s.plan s.drawNo).code ≠ 0 → data = []) ∧
        ((answerOf s.plan s.drawNo).code = 0 → data =
          (deviceBytes t length.toNat s.drawNo s).take (length.toNat - (answerOf s.plan s.drawNo).missing)))

/-- O9. A control write stores its bytes or raises TransportError (R142). That a wire format means this transfer, and that
nothing is known of a register after a failed write, are the model's readings (notes/assumptions/7.md, 24.md). The layout of
the setup packet is marked in R100 as from general knowledge. -/
def Obligations.ControlWriteRule : Prop :=
  ∀ (i : Instr) (value index : Word16) (bytes : List Byte) (s : State), writeOf i = some (value, index, bytes) →
    (s.opened = false → exec i s = .refused .notOpened) ∧
    (s.opened = true → bytes = [] → exec i s = .refused (.badLength 0)) ∧
    ∀ t : Target, s.opened = true → 0 < bytes.length → bytes.length < 2 ^ 16 →
      targetOf value (index &&& ~~~Config.writeFlag) = .ok t → reaches t s →
      ((answerOf s.plan s.drawNo).code = 0 →
        exec i s = .next (complete .nothing (afterWrite value index bytes t s)) ∧
        keepsBlock s (afterWrite value index bytes t s) ∧
        (afterWrite value index bytes t s).trace = s.trace ++
          [.control (setupPacket 0x40 value (index ||| 0x10) (BitVec.ofNat 16 bytes.length)) bytes]) ∧
      ((answerOf s.plan s.drawNo).code ≠ 0 →
        exec i s = .next (takeError
          (transportError .controlWrite value (index ||| 0x10) s.drawNo (answerOf s.plan s.drawNo))
          (deviceForget t bytes s.drawNo (s.issued (writeTransfer value index bytes)))))

/-- O10. A write transfer stores its bytes and leaves every other byte alone (R72, R73, R74, R84, R103, R142, R37, R39).
What bytes past a window and past register 0x1F do, and the FIFO reset as an epoch, are the model's choices
(notes/assumptions/22.md, 23.md, 29.md). That bytes lie one by one at consecutive addresses whatever the width, and that of
a longer write the byte that falls on the bridge register acts on the bridge, are the model's choices
(notes/assumptions/50.md, 53.md); that consecutive bytes go to consecutive tuner registers is marked in R74 as from general
knowledge. -/
def Obligations.WriteFrame : Prop :=
  (∀ (i : Instr) (value index : Word16) (bytes : List Byte) (base room : Nat) (s : State),
     writeOf i = some (value, index, bytes) → s.opened = true → 0 < bytes.length → bytes.length < 2 ^ 16 →
     targetOf value (index &&& ~~~Config.writeFlag) = .ok (.register base room) →
     (answerOf s.plan s.drawNo).code = 0 →
     ∃ t : State, exec i s = .next t ∧
       (∀ k, k < bytes.length → k < room → t.mem.get (base + k) = bytes[k]?) ∧
       (∀ a, a < base ∨ base + min bytes.length room ≤ a → t.mem.get a = s.mem.get a) ∧
       t.i2cPtr = s.i2cPtr ∧
       (¬ (base ≤ bridgeAddr ∧ bridgeAddr < base + min bytes.length room) → t.bridge = s.bridge) ∧
       (base = bridgeAddr → 0 < room → bytes.head? = some 0x18 → t.bridge = .forwarding) ∧
       (base = bridgeAddr → 0 < room → bytes.head? = some 0x10 → t.bridge = .blocked) ∧
       (¬ (base = epaCtlAddr ∧ bytes.take room = [0x00, 0x00] ∧ s.mem.get epaCtlAddr = some 0x10 ∧
           s.mem.get (epaCtlAddr + 1) = some 0x02) → t.fifoEpoch = s.fifoEpoch ∧ t.streamPos = s.streamPos) ∧
       (base = epaCtlAddr ∧ bytes.take room = [0x00, 0x00] ∧ s.mem.get epaCtlAddr = some 0x10 ∧
           s.mem.get (epaCtlAddr + 1) = some 0x02 → t.fifoEpoch = s.fifoEpoch + 1 ∧ t.streamPos = 0) ∧
       keepsBlock s t) ∧
  (∀ (i : Instr) (value index : Word16) (reg : Byte) (data : List Byte) (s : State),
     writeOf i = some (value, index, reg :: data) → value = 0x0034 → index = 0x0600 → s.opened = true →
     s.bridge = .forwarding → data.length + 1 < 2 ^ 16 → (answerOf s.plan s.drawNo).code = 0 →
     ∃ t : State, exec i s = .next t ∧ t.i2cPtr = reg ∧
       (∀ k, k < data.length → reg.toNat + k < 32 → t.mem.get (tunerAddr (reg.toNat + k)) = data[k]?) ∧
       (∀ a, a < tunerAddr reg.toNat ∨ tunerAddr reg.toNat + min data.length (32 - reg.toNat) ≤ a →
         t.mem.get a = s.mem.get a) ∧
       t.bridge = s.bridge ∧ t.fifoEpoch = s.fifoEpoch ∧ t.streamPos = s.streamPos ∧ keepsBlock s t)

/-- O11. Where a control transfer stops, and what one to an I2C address without a device does (R71, R74, R101, R123, R347,
R141, R142). Which address words select a register, what an I2C address without a device does, and the unspecified bridge
are the model's choices (notes/assumptions/21.md, 23.md, 28.md). -/
def Obligations.TransferStops : Prop :=
  ∀ (i : Instr) (value index : Word16) (s : State), s.opened = true →
    (∀ length, readOf i = some (value, index, length) → length ≠ 0 →
      (index ≠ 0x0100 → index ≠ 0x0200 → index ≠ 0x0600 → index ≠ 0x0000 → index ≠ 0x0001 →
        exec i s = .refused (.reservedAddress value index)) ∧
      (index = 0x0600 → s.bridge ≠ .forwarding → exec i s = .refused .bridgeClosed) ∧
      (index = 0x0600 → value ≠ 0x0034 → s.bridge = .forwarding → nextSucceeds s → ∃ data : List Byte,
        data.length = length.toNat ∧ exec i s = .next (complete (.bytes data)
          (transferred (.control (setupPacket 0xC0 value index length) data) s)))) ∧
    (∀ bytes, writeOf i = some (value, index, bytes) → index &&& 0x10 = 0 → 0 < bytes.length →
      bytes.length < 2 ^ 16 →
      (index ≠ 0x0100 → index ≠ 0x0200 → index ≠ 0x0600 → index ≠ 0x0000 → index ≠ 0x0001 →
        exec i s = .refused (.reservedAddress value index)) ∧
      (index = 0x0600 → s.bridge ≠ .forwarding → exec i s = .refused .bridgeClosed) ∧
      (index = 0x0600 → value ≠ 0x0034 → s.bridge = .forwarding → nextSucceeds s →
        exec i s = .next (complete .nothing (transferred (.control
          (setupPacket 0x40 value 0x0610 (BitVec.ofNat 16 bytes.length)) bytes) s))))

/-- O12. A bulk read returns the next bytes of the stream, behind the reads in flight, and consumes them, or raises
TransportError; whole pairs are used up either way (R143, R88, R81, R311). What is used up by a read that fails, and how the
reads in flight complete, are the model's choices (notes/assumptions/40.md, 44.md). That the bulk transfer on the wire means
a bulk_read is the model's reading (notes/assumptions/24.md). -/
def Obligations.BulkReadRule : Prop :=
  (∀ (i : Instr) (n : Nat) (s u : State), i = .bulkRead n ∨ i = .bulkIn n → u = drained s →
     (u.ended = true → exec i s = .next u) ∧
     (u.ended = false →
       (s.opened = false → exec i s = .refused .notOpened) ∧
       (s.opened = true → s.claimed = false → exec i s = .refused .notClaimed) ∧
       (s.opened = true → s.claimed = true → n = 0 ∨ n % 2 = 1 → exec i s = .refused (.badLength n)) ∧
       (s.opened = true → s.claimed = true → 0 < n → n % 2 = 0 →
         (nextSucceeds u →
           exec i s = .next (complete (.bytes (streamBytes u n)) (consumeStream n (transferred (.bulk n) u))) ∧
           (streamBytes u n).length = n ∧ keepsBlock u (consumeStream n (transferred (.bulk n) u)) ∧
           (consumeStream n (transferred (.bulk n) u)).mem = s.mem ∧
           (consumeStream n (transferred (.bulk n) u)).streamPos = u.streamPos + n) ∧
         (¬ nextSucceeds u → ∃ t : State, exec i s = .next t ∧ t.fault = true ∧ t.seq = SeqPos.rest ∧
           t.mem = s.mem ∧ t.result = u.result ∧ (∃ k, k % 2 = 0 ∧ k ≤ n ∧ t.streamPos = u.streamPos + k) ∧
           t.errors = u.errors ++ [{ kind := .transportError, pos := some u.seq
                                     info := (transportError .bulkRead 0 0 u.drawNo (answerOf u.plan u.drawNo)).info }])))) ∧
  (∀ s : State, (s.reads = [] → drained s = s) ∧
    (s.reads ≠ [] → (completeOldest s).ended = true → drained s = completeOldest s) ∧
    (s.reads ≠ [] → (completeOldest s).ended = false → drained s = drained (completeOldest s)) ∧
    ((drained s).ended = false → (drained s).reads = [])) ∧
  (∀ (s : State) (a b : Nat), streamBytes s (a + b) = streamBytes s a ++ streamBytes (consumeStream a s) b)

/-- O13. Claiming sets claimed or raises TransportError; releasing clears it whatever it reports (R144, R145). -/
def Obligations.InterfaceRule : Prop :=
  (∀ (iface : Byte) (s : State),
     (iface ≠ 1 → exec (.claimInterface iface) s = .refused (.badInterface iface)) ∧
     (s.opened = false → exec (.claimInterface 1) s = .refused .notOpened) ∧
     (s.opened = true → s.claimed = true → exec (.claimInterface 1) s = .refused .alreadyClaimed) ∧
     (s.opened = true → s.claimed = false →
       ((answerOf s.plan s.drawNo).code = 0 →
         exec (.claimInterface 1) s = .next (complete .nothing (transferred (.claim 1) { s with claimed := true }))) ∧
       ((answerOf s.plan s.drawNo).code ≠ 0 →
         exec (.claimInterface 1) s = .next (takeError
           (transportError .claimInterface 0 0 s.drawNo (answerOf s.plan s.drawNo)) (s.issued (.claim 1)))))) ∧
  (∀ (iface : Byte) (s : State),
     (iface ≠ 1 → exec (.releaseInterface iface) s = .refused (.badInterface iface)) ∧
     (s.claimed = false → exec (.releaseInterface 1) s = .refused .notClaimed) ∧
     (s.claimed = true →
       ((answerOf s.plan s.drawNo).code = 0 →
         exec (.releaseInterface 1) s = .next (complete .nothing (transferred (.release 1) { s with claimed := false }))) ∧
       ((answerOf s.plan s.drawNo).code ≠ 0 →
         exec (.releaseInterface 1) s = .next (takeError
           (transportError .releaseInterface 0 0 s.drawNo (answerOf s.plan s.drawNo))
           { s.issued (.release 1) with claimed := false }))))

/-- O14. close_device gives the handle back whatever the USB layer reports (R146, R306, R317, R330, R331). That the other
flags and the words go, that a failing close_device sets FAULT, that reads in flight stay, that a second close_device is
InvalidState, and that pipeline and instances stay (R331 against D39) are the model's choices (notes/assumptions/14.md,
17.md, 40.md, 45.md, 52.md). -/
def Obligations.CloseDeviceRule : Prop :=
  ∀ s : State,
    (s.opened = true → s.claimed = false → ∃ t : State, exec .closeDevice s = .next t ∧
      t.opened = false ∧ t.claimed = false ∧ t.i2cOpen = false ∧ t.tunerReady = false ∧ t.hasPllLock = false ∧
      t.seq = { op := .idle, step := 0 } ∧ t.handle = none ∧ t.ppm = none ∧ t.gain = none ∧ t.xtalFreq = none ∧
      t.filterCap = none ∧ t.actualRate = none ∧ t.shadow = none ∧ t.trace = s.trace ++ [.closeDevice] ∧
      sameDevice s t ∧ sameData s t ∧ t.reads = s.reads ∧ t.running = s.running ∧ t.todo = s.todo ∧
      ((answerOf s.plan s.drawNo).code = 0 → t.fault = s.fault ∧ t.errors = s.errors ∧ t.result = .nothing) ∧
      ((answerOf s.plan s.drawNo).code ≠ 0 → t.fault = true ∧
        t.errors = s.errors ++ [{ kind := .transportError, pos := some s.seq
                                  info := (transportError .closeDevice 0 0 s.drawNo
                                    (answerOf s.plan s.drawNo)).info }])) ∧
    (s.opened = false ∨ s.claimed = true → ∃ t : State, exec .closeDevice s = .next t ∧
      onlyDelivered { kind := .invalidState, info := .operation .closeDevice, pos := none } s t)

/-- O15. write_reg sends its low bytes least significant first, read_reg decodes them so (R151, R152). That block 0x0001 is
admitted, and what bytes past a window do, are the model's choices (notes/assumptions/22.md, 43.md). That an access sees a
register byte by byte is the model's choice (notes/assumptions/50.md). -/
def Obligations.RegisterAccessRule : Prop :=
  (∀ (block reg : Word16) (value len : Nat) (s : State),
     (legalBlock block = false → exec (.writeReg block reg value len) s = .refused (.reservedAddress reg block)) ∧
     (legalBlock block = true → (isRegLen len && Config.widthOk (Config.namedWidth block reg) len) = false →
       exec (.writeReg block reg value len) s = .refused (.badWidth len)) ∧
     (legalBlock block = true → isRegLen len = true → Config.widthOk (Config.namedWidth block reg) len = true →
       exec (.writeReg block reg value len) s =
         exec (.controlWrite reg block (leBytes len (value % 2 ^ (8 * len)))) s ∧
       ∀ t : Target, s.opened = true → targetOf reg block = .ok t → reaches t s →
         nextSucceeds s →
         exec (.writeReg block reg value len) s =
           .next (complete .nothing (afterWrite reg block (leBytes len value) t s)))) ∧
  (∀ (block reg : Word16) (len : Nat) (s : State),
     (legalBlock block = false → exec (.readReg block reg len) s = .refused (.reservedAddress reg block)) ∧
     (legalBlock block = true → (isRegLen len && Config.widthOk (Config.namedWidth block reg) len) = false →
       exec (.readReg block reg len) s = .refused (.badWidth len)) ∧
     ∀ t : Target, legalBlock block = true → isRegLen len = true →
       Config.widthOk (Config.namedWidth block reg) len = true → s.opened = true → targetOf reg block = .ok t →
       reaches t s →
       (nextSucceeds s →
         exec (.readReg block reg len) s =
           .next (complete (.uint (leValue (deviceBytes t len s.drawNo s)))
             (afterRead reg block (BitVec.ofNat 16 len) t s)) ∧
         leValue (deviceBytes t len s.drawNo s) < 2 ^ (8 * len) ∧
         leValue (deviceBytes t len s.drawNo s) =
           ((List.range len).map fun k => ((deviceBytes t len s.drawNo s).getD k 0).toNat * 2 ^ (8 * k)).sum) ∧
       (¬ nextSucceeds s →
         exec (.readReg block reg len) s = exec (.controlRead reg block (BitVec.ofNat 16 len)) s))

/-- O16. write_reg_mask is a plain write for mask 0xFF, else a read and a write, and leaves (p & ~m) | (v & m) (R153). What
a failed write leaves, and that block 0x0001 is admitted, are the model's choices (notes/assumptions/7.md, 43.md). -/
def Obligations.MaskedRegisterRule : Prop :=
  (∀ (block reg : Word16) (value mask : Byte) (t : Target) (s : State), legalBlock block = true →
     Config.widthOk (Config.namedWidth block reg) 1 = true → s.opened = true → targetOf reg block = .ok t →
     (mask = 0xFF → exec (.writeRegMask block reg value mask) s = exec (.controlWrite reg block [value]) s ∧
       (reaches t s → nextSucceeds s →
         exec (.writeRegMask block reg value mask) s =
           .next (complete .nothing (afterWrite reg block [value] t s)))) ∧
     (mask ≠ 0xFF → reaches t s →
       (¬ nextSucceeds s →
         exec (.writeRegMask block reg value mask) s = .next (takeError
           (transportError .controlRead reg block s.drawNo (answerOf s.plan s.drawNo))
           (s.issued (readTransfer reg block 1 (delivered t 1 s))))) ∧
       (nextSucceeds s → ∀ (old : Byte) (s1 : State), old = (deviceBytes t 1 s.drawNo s).headD 0 →
         s1 = afterRead reg block 1 t s →
         (nextSucceeds s1 →
           exec (.writeRegMask block reg value mask) s =
             .next (complete .nothing (afterWrite reg block [(old &&& ~~~mask) ||| (value &&& mask)] t s1))) ∧
         ((answerOf s1.plan s1.drawNo).code ≠ 0 →
           exec (.writeRegMask block reg value mask) s = .next (takeError
             (transportError .controlWrite reg (block ||| 0x10) s1.drawNo (answerOf s1.plan s1.drawNo))
             (deviceForget t [(old &&& ~~~mask) ||| (value &&& mask)] s1.drawNo
               (s1.issued (writeTransfer reg block [(old &&& ~~~mask) ||| (value &&& mask)])))))))) ∧
  (∀ (block reg : Word16) (p value mask : Byte) (s : State), block = 0x0100 ∨ block = 0x0200 →
     Config.widthOk (Config.namedWidth block reg) 1 = true → s.opened = true → allSucceed s →
     s.mem.get (cellAddr block reg.toNat) = some p →
     ∃ t : State, exec (.writeRegMask block reg value mask) s = .next t ∧
       t.mem.get (cellAddr block reg.toNat) = some ((p &&& ~~~mask) ||| (value &&& mask)) ∧
       (∀ a, a ≠ cellAddr block reg.toNat → t.mem.get a = s.mem.get a) ∧
       t.trace.length = s.trace.length + (if mask = 0xFF then 1 else 2) ∧ keepsBlock s t)

/-- O17. DEMOD registers are written most significant byte first at (addr << 8) | 0x20 and read one byte at a time (R154,
R155). Of a write that runs past the page's last address only the bytes inside the page are stored: the model's choice
(notes/assumptions/22.md). So is that an access sees a register byte by byte (notes/assumptions/50.md). -/
def Obligations.DemodRegisterRule : Prop :=
  (∀ (page addr : Byte) (value len : Nat) (s : State),
     (page ≠ 0 → page ≠ 1 →
       exec (.writeDemodReg page addr value len) s = .refused (.reservedAddress (demodValue addr) (page.setWidth 16))) ∧
     ∀ page1 : Bool, page = (if page1 then 1 else 0) →
       ((isRegLen len && Config.widthOk (Config.namedDemodWidth page1 addr) len) = false →
         exec (.writeDemodReg page addr value len) s = .refused (.badWidth len)) ∧
       (isRegLen len = true → Config.widthOk (Config.namedDemodWidth page1 addr) len = true →
         exec (.writeDemodReg page addr value len) s = exec (.controlWrite (BitVec.ofNat 16 (addr.toNat * 256 + 0x20))
           (page.setWidth 16) (beBytes len (value % 2 ^ (8 * len)))) s ∧
         (s.opened = true → nextSucceeds s →
           exec (.writeDemodReg page addr value len) s =
             .next (complete .nothing (afterDemodWrite page1 addr value len s))))) ∧
  (∀ (page addr : Byte) (s : State),
     (page ≠ 0 → page ≠ 1 →
       exec (.readDemodReg page addr) s = .refused (.reservedAddress (demodValue addr) (page.setWidth 16))) ∧
     ∀ page1 : Bool, page = (if page1 then 1 else 0) → s.opened = true →
       (nextSucceeds s → ∃ b : Byte,
         exec (.readDemodReg page addr) s =
           .next (complete (.uint b.toNat) (transferred (readTransfer (demodValue addr) (pageIndex page1) 1 [b]) s)) ∧
         (∀ p, s.mem.get (cellAddr (pageIndex page1) addr.toNat) = some p → b = p)) ∧
       (¬ nextSucceeds s →
         exec (.readDemodReg page addr) s = exec (.controlRead (demodValue addr) (pageIndex page1) 1) s))

/-- O18. open_i2c and close_i2c write 0x18 and 0x10 to page 1 register 0x01 and set i2cOpen (R156, R157). What a failed
write leaves of the bridge is the model's reading (notes/assumptions/7.md). The layout of the setup packet is marked in R100
as from general knowledge. -/
def Obligations.BridgeRule : Prop :=
  ∀ s : State, s.opened = true →
    (nextSucceeds s → ∃ t : State, exec .openI2c s = .next t ∧ t = complete .nothing (afterOpenI2c s) ∧
      t.i2cOpen = true ∧ t.bridge = .forwarding ∧ t.mem.get (cellAddr 1 0x01) = some 0x18 ∧
      (∀ a, a ≠ cellAddr 1 0x01 → t.mem.get a = s.mem.get a) ∧
      t.trace = s.trace ++ [.control (setupPacket 0x40 0x0120 0x0011 1) [0x18]] ∧ t.claimed = s.claimed ∧
      t.tunerReady = s.tunerReady ∧ t.hasPllLock = s.hasPllLock ∧ t.fault = s.fault ∧ t.shadow = s.shadow) ∧
    (nextSucceeds s → ∃ t : State, exec .closeI2c s = .next t ∧ t = complete .nothing (afterCloseI2c s) ∧
      t.i2cOpen = false ∧ t.bridge = .blocked ∧ t.mem.get (cellAddr 1 0x01) = some 0x10 ∧
      (∀ a, a ≠ cellAddr 1 0x01 → t.mem.get a = s.mem.get a) ∧
      t.trace = s.trace ++ [.control (setupPacket 0x40 0x0120 0x0011 1) [0x10]] ∧ t.claimed = s.claimed ∧
      t.tunerReady = s.tunerReady ∧ t.hasPllLock = s.hasPllLock ∧ t.fault = s.fault ∧ t.shadow = s.shadow) ∧
    ((answerOf s.plan s.drawNo).code ≠ 0 → ∀ i : Instr, i = .openI2c ∨ i = .closeI2c → ∃ t : State,
      exec i s = .next t ∧ t.i2cOpen = s.i2cOpen ∧ t.fault = true ∧ t.seq = { op := .idle, step := 0 } ∧
      t.bridge = .unspecified ∧
      t.trace = s.trace ++ [.control (setupPacket 0x40 0x0120 0x0011 1) [if i = .openI2c then 0x18 else 0x10]] ∧
      t.errors = s.errors ++ [{ kind := .transportError, pos := some s.seq
                                info := .transport .controlWrite 0x0120 0x0011 (answerOf s.plan s.drawNo).code
                                  (Config.errorText s.drawNo) }])

/-- O19. I2C writes store consecutive registers; I2C reads set the pointer and give the bytes as received (R158, R159, R160,
R161, R74). What another I2C address and registers past 0x1F do is the model's choice (notes/assumptions/23.md). That
consecutive bytes go to consecutive registers is marked in R74 as from general knowledge. -/
def Obligations.I2cRule : Prop :=
  (∀ (reg value : Byte) (bytes : List Byte) (s : State), tunerReachable s →
     exec (.i2cWriteReg 0x34 reg value) s = exec (.i2cWriteBuf 0x34 reg [value]) s ∧
     exec (.i2cWriteBuf 0x34 reg []) s = .refused (.badLength 0) ∧
     (bytes ≠ [] → bytes.length + 1 < 2 ^ 16 → nextSucceeds s →
       exec (.i2cWriteBuf 0x34 reg bytes) s = .next (complete .nothing (afterTunerWrite reg bytes s)) ∧
       (∀ k, k < bytes.length → reg.toNat + k < 32 →
         (afterTunerWrite reg bytes s).mem.get (tunerAddr (reg.toNat + k)) = bytes[k]?) ∧
       (∀ a, a < tunerAddr reg.toNat ∨ tunerAddr reg.toNat + min bytes.length (32 - reg.toNat) ≤ a →
         (afterTunerWrite reg bytes s).mem.get a = s.mem.get a) ∧
       (afterTunerWrite reg bytes s).trace = s.trace ++
         [.control (setupPacket 0x40 0x0034 0x0610 (BitVec.ofNat 16 (bytes.length + 1))) (reg :: bytes)]) ∧
     (∀ addr : Word16, addr ≠ 0x34 → bytes ≠ [] → bytes.length + 1 < 2 ^ 16 → nextSucceeds s →
       exec (.i2cWriteBuf addr reg bytes) s = .next (complete .nothing (transferred
         (.control (setupPacket 0x40 addr 0x0610 (BitVec.ofNat 16 (bytes.length + 1))) (reg :: bytes)) s)))) ∧
  (∀ (reg : Byte) (n : Nat) (s : State), tunerReachable s →
     exec (.i2cReadBuf 0x34 reg 0) s = .refused (.badLength 0) ∧
     (0 < n → n < 2 ^ 16 → allSucceed s →
       exec (.i2cReadBuf 0x34 reg n) s = .next (complete (.bytes (tunerBytes reg n s)) (afterTunerRead reg n s)) ∧
       (tunerBytes reg n s).length = n ∧ (afterTunerRead reg n s).mem = s.mem ∧
       (afterTunerRead reg n s).i2cPtr = reg ∧ keepsBlock s (afterTunerRead reg n s) ∧
       (afterTunerRead reg n s).trace = s.trace ++ [.control (setupPacket 0x40 0x0034 0x0610 1) [reg],
         .control (setupPacket 0xC0 0x0034 0x0600 (BitVec.ofNat 16 n)) (tunerBytes reg n s)]) ∧
     (allSucceed s →
       exec (.i2cReadReg 0x34 reg) s =
         .next (complete (.uint ((tunerBytes reg 1 s).headD 0).toNat) (afterTunerRead reg 1 s))))

/-- O20. The I2C operations of U2 and every operation of U3 are refused while the bridge is closed, and set_sample_rate
leaves it closed (R347, R306, R309, R170, the preamble of spec/42_r820t_tuner.md, R208, R39). -/
def Obligations.BridgeClosedRefused : Prop :=
  (∀ (i : Instr) (s : State), isI2cOp i = true → (∀ addr reg, i ≠ .i2cWriteBuf addr reg []) → s.i2cOpen = false →
    exec i s = .refused .bridgeClosed) ∧
  (∀ (i : Instr) (s : State), isTunerOp i = true → s.i2cOpen = false → exec i s = .refused .bridgeClosed) ∧
  (∀ (ppm : Int) (rate : Nat) (s : State),
    (afterSampleRate Config.chip ppm rate s).i2cOpen = false ∧
    (afterSampleRate Config.chip ppm rate s).bridge = .blocked ∧
    (afterSampleRate Config.chip ppm rate s).mem.get (cellAddr 1 0x01) = some 0x10)

/-- O21. A masked tuner write goes to the shadow first, then to the device, and never reads (R171). What a failed write
leaves is the model's reading (notes/assumptions/7.md). -/
def Obligations.TunerMaskRule : Prop :=
  ∀ (reg value mask : Byte) (s : State), tunerReachable s →
    (¬ (0x05 ≤ reg.toNat ∧ reg.toNat ≤ 0x1F) → exec (.r820tWriteMask reg value mask) s = .refused (.noShadowByte reg)) ∧
    (∀ k : Fin 27, reg.toNat = 0x05 + k.val →
      (s.shadow = none → exec (.r820tWriteMask reg value mask) s = .refused .noShadow) ∧
      ∀ (sh : Vector Byte 27) (new : Byte), s.shadow = some sh → new = (sh[k] &&& ~~~mask) ||| (value &&& mask) →
        (nextSucceeds s → ∃ t : State, exec (.r820tWriteMask reg value mask) s = .next t ∧
          t = complete .nothing (afterMask ⟨reg, value, mask⟩ s) ∧ t.shadow = some (sh.set k new) ∧
          t.mem.get (tunerAddr reg.toNat) = some new ∧
          (∀ a, a ≠ tunerAddr reg.toNat → t.mem.get a = s.mem.get a) ∧ t.bridge = s.bridge ∧
          t.trace = s.trace ++ [.control (setupPacket 0x40 0x0034 0x0610 2) [reg, new]] ∧
          keepsBlock { s with shadow := t.shadow } t) ∧
        ((answerOf s.plan s.drawNo).code ≠ 0 → s.mem.wf = true →
          ∃ t : State, exec (.r820tWriteMask reg value mask) s = .next t ∧
            t.shadow = some (sh.set k new) ∧ t.mem.get (tunerAddr reg.toNat) = none ∧ t.fault = true ∧
            (∀ a, a ≠ tunerAddr reg.toNat → t.mem.get a = s.mem.get a) ∧
            t.errors = s.errors ++ [{ kind := .transportError, pos := some s.seq
                                      info := (transportError .controlWrite 0x0034 0x0610 s.drawNo
                                        (answerOf s.plan s.drawNo)).info }]))

/-- O22. r820t.read gives the first n registers with the bits of each byte reversed (R172). -/
def Obligations.TunerReadRule : Prop :=
  ∀ (n : Nat) (s : State), tunerReachable s →
    (n = 0 ∨ 5 < n → exec (.r820tRead n) s = .refused (.badLength n)) ∧
    (1 ≤ n → n ≤ 5 → allSucceed s →
      exec (.r820tRead n) s =
        .next (complete (.bytes ((tunerBytes 0x00 n s).map bitrev8)) (afterTunerRead 0x00 n s)) ∧
      exec (.i2cReadBuf 0x34 0x00 n) s = .next (complete (.bytes (tunerBytes 0x00 n s)) (afterTunerRead 0x00 n s)) ∧
      (afterTunerRead 0x00 n s).mem = s.mem ∧ (afterTunerRead 0x00 n s).shadow = s.shadow ∧
      keepsBlock s (afterTunerRead 0x00 n s))

/-- O23. The words the block assembles: bit reversal, PLL words, demodulator words, on the examples of the spec (R111, R112,
R113, R114, R115, R181, R182, R202, R204, R205, R206). The direction and the reference of the divider's adjustment are the
spec's decided default (notes/assumptions/5.md), which R181 marks as from general knowledge, as R114 does the places of ni
and si. -/
def Obligations.AssembledWords : Prop :=
  ((∀ b : Byte, bitrev8 (bitrev8 b) = b) ∧ (∀ (b : Byte) (i : Fin 8), (bitrev8 b).getLsbD i = b.getLsbD (7 - i)) ∧
   bitrev8 0x69 = 0x96 ∧ bitrev8 0x40 = 0x02 ∧ bitrev8 0xB4 = 0x2D ∧ bitrev8 0x2D = 0xB4) ∧
  ((∀ n : Fin 51, ((nintWord ((n.val : Int) + 13)).extractLsb' 0 6).toNat = n.val / 4 ∧
     ((nintWord ((n.val : Int) + 13)).extractLsb' 6 2).toNat = n.val % 4) ∧
   divNumAdjusted Config.chip 92070000 2 = 4 ∧ divNumAdjusted Config.chip 92070000 3 = 3 ∧
   divNumAdjusted Config.chip 92070000 1 = 5 ∧
   pllDividers 92070000 4 28800000 = (51, 9830) ∧ nintWord 51 = 0x89 ∧ sdmHigh 9830 = 0x26 ∧ sdmLow 9830 = 0x66 ∧
   divWord 4 = 0x80) ∧
  (correctedXtal 0 = 28800000 ∧ correctedXtal 50 = 28801440 ∧ correctedXtal (-30) = 28799136 ∧
   ifMultiplierWord 28800000 = 0xF81112 ∧ ifMultiplierWord 28801440 = 0xF8112C ∧
   ppmOffsetWord 50 = 0xFCBA ∧ ppmOffsetWord (-30) = 0x01F8 ∧ ppmOffsetWord 0 = 0 ∧
   resamplingRatio 1024000 = 0x07080000 ∧ actualRateOf 0x07080000 = 1024000 ∧ resamplingRatio 1000000 = 0x07333330 ∧
   actualRateOf 0x07333330 = 1000000 ∧ resamplingRatio 250000 = 0x0CCCCCCC ∧ actualRateOf 0x0CCCCCCC = 562500)

/-- O24. write_each executes its entries in order and stops at the first error (R173). -/
def Obligations.WriteEachRule : Prop :=
  (∀ s : State, tunerReachable s → exec (.r820tWriteEach []) s = .next (complete .nothing s)) ∧
  (∀ (list : List Triple) (s : State), tunerReachable s → allSucceed s → s.shadow.isSome = true →
    (∀ t ∈ list, t.legal = true) →
    exec (.r820tWriteEach list) s = .next (complete .nothing (afterMasks list s))) ∧
  (∀ (t : Triple) (list : List Triple) (s : State), tunerReachable s → allSucceed s → s.shadow.isSome = true →
    t.legal = true → exec (.r820tWriteMask t.reg t.value t.mask) s = .next (complete .nothing (afterMask t s)) ∧
      afterMasks (t :: list) s = afterMasks list (afterMask t s)) ∧
  (∀ (before : List Triple) (t : Triple) (after : List Triple) (s s1 : State),
    writeEach before s = .ok () s1 → s1.i2cOpen = true → (answerOf s1.plan s1.drawNo).code ≠ 0 →
    exec (.r820tWriteEach (before ++ t :: after)) s = exec (.r820tWriteMask t.reg t.value t.mask) s1)

/-- O25. set_mux writes the triples of its row; set_frequency sets the mux, then the PLL, and gives the lock flag (R179,
R180, R106). -/
def Obligations.MuxAndFrequencyRule : Prop :=
  (∀ (freq : Nat) (s : State), tunerReachable s → allSucceed s → s.shadow.isSome = true → 0 < freq →
     ∃ row : Config.MuxRow,
       exec (.r820tSetMux freq) s =
         .next (complete .nothing (afterMasks [tripleOf row.t0, tripleOf row.t1, tripleOf row.t2] s)) ∧
       ((∃ k : Fin 15, row = Config.chip.r820tMux[k] ∧ row.thresholdMHz * 1000000 ≤ freq ∧
           ∀ j : Fin 15, k < j → ¬ Config.chip.r820tMux[j].thresholdMHz * 1000000 ≤ freq) ∨
         (row = Config.chip.r820tMux[0] ∧ ∀ j : Fin 15, ¬ Config.chip.r820tMux[j].thresholdMHz * 1000000 ≤ freq))) ∧
  (∀ j k : Fin 15, j < k → Config.chip.r820tMux[j].thresholdMHz < Config.chip.r820tMux[k].thresholdMHz) ∧
  (∀ (freq : Nat) (s : State), tunerReachable s →
     (s.tunerReady = false → exec (.r820tSetFrequency freq) s = .refused .tunerNotReady) ∧
     (∀ r : Int, s.tunerReady = true → allSucceed s → s.shadow.isSome = true → s.xtalFreq = some r → 0 < freq →
       pllInRange Config.chip freq r (afterMasks (muxTriples Config.chip freq) s) →
       ∃ s1 s2 : State, exec (.r820tSetMux freq) s = .next (complete .nothing s1) ∧
         exec (.r820tSetPll freq) s1 = .next (complete .nothing s2) ∧
         exec (.r820tSetFrequency freq) s = .next (complete (.flag s2.hasPllLock) s2)))

/-- O26. set_pll writes the divider word, then ni and si, the high and the low byte of sdm, and polls the lock; or it
reports no lock, or is refused out of range (R181, R182, R183, R114). The adjustment of the divider is the spec's decided
default and the words for a reference of 0 are free (notes/assumptions/5.md, 15.md). The places of ni and si are marked in
R114 as from general knowledge. -/
def Obligations.SetPllRule : Prop :=
  ∀ (freq : Nat) (r : Int) (s : State), tunerReachable s → allSucceed s → s.shadow.isSome = true →
    s.xtalFreq = some r → 0 < freq →
    (pllInRange Config.chip freq r s →
      exec (.r820tSetPll freq) s = .next (complete .nothing (afterPll Config.chip freq r s)) ∧
      (63 < (pllWords Config.chip freq r s).1 → (afterPll Config.chip freq r s).hasPllLock = false ∧
        afterPll Config.chip freq r s = (afterMask ⟨0x10, BitVec.ofNat 8 ((pllDivider Config.chip freq s).toNat * 32), 0xE0⟩
          (afterStatus (pllStart Config.chip s))).setLock false) ∧
      (∀ nint sdm ni si : Int, pllWords Config.chip freq r s = (nint, sdm) → nint ≤ 63 → ni = Int.fdiv (nint - 13) 4 →
        si = nint - 4 * ni - 13 → 0 ≤ ni ∧ ni ≤ 12 ∧ 0 ≤ si ∧ si ≤ 3 ∧
        ∀ s1 s2 s3 s4 : State,
          s1 = afterMask ⟨0x10, BitVec.ofNat 8 ((pllDivider Config.chip freq s).toNat * 32), 0xE0⟩
            (afterStatus (pllStart Config.chip s)) →
          s2 = afterMask ⟨0x14, BitVec.ofInt 8 (ni + 64 * si), 0xFF⟩ s1 →
          s3 = afterMask ⟨0x16, BitVec.ofInt 8 (Int.fdiv sdm 256), 0xFF⟩ s2 →
          s4 = afterMask ⟨0x15, BitVec.ofInt 8 sdm, 0xFF⟩ s3 → afterPll Config.chip freq r s = afterPoll Config.chip true s4)) ∧
    (r ≠ 0 → ∀ vcoFreq nint : Int, vcoFreq = (freq : Int) * 2 ^ ((pllDivider Config.chip freq s).toNat + 1) →
      nint = Int.fdiv vcoFreq (2 * r) → pllWords Config.chip freq r s =
        (nint, min 65535 (Int.fdiv (32768 * Int.fdiv (vcoFreq - 2 * r * nint) 1000 * 1000) r))) ∧
    (pllDivider Config.chip freq s < 0 ∨ 7 < pllDivider Config.chip freq s →
      exec (.r820tSetPll freq) s = .refused (.dividerRange (pllDivider Config.chip freq s))) ∧
    (0 ≤ pllDivider Config.chip freq s → pllDivider Config.chip freq s ≤ 7 →
      (pllWords Config.chip freq r s).1 < 13 →
      exec (.r820tSetPll freq) s = .refused (.nintRange (pllWords Config.chip freq r s).1))

/-- O27. The lock poll reads LOCK, and on a first try bumps the charge pump and polls once more (R183). The bump's value
3 << 5 is the spec's own choice, marked from general knowledge (notes/assumptions/5.md). -/
def Obligations.LockPollRule : Prop :=
  ∀ (firstTry : Bool) (s : State), tunerReachable s → allSucceed s → s.shadow.isSome = true →
    exec (.r820tGetPllLock firstTry) s = .next (complete .nothing (afterPoll Config.chip firstTry s)) ∧
    (((statusOf s).getD 2 0).getLsbD 6 = true → afterPoll Config.chip firstTry s = (afterStatus s).setLock true) ∧
    (((statusOf s).getD 2 0).getLsbD 6 = false → firstTry = false →
      afterPoll Config.chip firstTry s = (afterStatus s).setLock false) ∧
    (((statusOf s).getD 2 0).getLsbD 6 = false → firstTry = true → ∀ s1 : State,
      s1 = afterMask ⟨0x12, 0x60, 0xE0⟩ (afterStatus s) →
      afterPoll Config.chip firstTry s = (afterStatus s1).setLock (((statusOf s1).getD 2 0).getLsbD 6))

/-- O28. The filter calibration accepts a code, retries a non-zero first one once, and raises PllNotLocked without a
lock (R178, R304). -/
def Obligations.CalibrationRule : Prop :=
  ∀ (first : Bool) (r : Int) (s : State), tunerReachable s → allSucceed s → s.shadow.isSome = true →
    s.xtalFreq = some r →
    (calibrates Config.chip r first s →
      exec (.r820tCalibrateFilter first) s = .next (complete .nothing (afterCalibration Config.chip r first s)) ∧
      ∃ (cap : BitVec 4) (s1 : State) (sh : Vector Byte 27), s1.shadow = some sh ∧
        afterCalibration Config.chip r first s =
          afterMask ⟨0x0A, (sh[0x0A - 0x05] &&& 0x0F) ||| cap.setWidth 8, 0x0F⟩ { s1 with filterCap := some cap } ∧
        (afterCalibration Config.chip r first s).filterCap = some cap ∧
        (calCode Config.chip r s = 0 ∨ first = false → cap = calCode Config.chip r s ∧
          s1 = afterCalRun Config.chip r s) ∧
        (calCode Config.chip r s ≠ 0 → first = true →
          cap = calCode Config.chip r (afterCalRun Config.chip r s) ∧
          s1 = afterCalRun Config.chip r (afterCalRun Config.chip r s))) ∧
    (pllInRange Config.chip 56000000 r (calStart Config.chip s) →
      (afterPll Config.chip 56000000 r (calStart Config.chip s)).hasPllLock = false →
      exec (.r820tCalibrateFilter first) s = .next (takeError
        { kind := .pllNotLocked, info := .pll .calibration 56000000 }
        (afterPll Config.chip 56000000 r (calStart Config.chip s)))) ∧
    (∀ s1 : State, s1 = calStart Config.chip (afterCalRun Config.chip r s) → calRuns Config.chip r s →
      calCode Config.chip r s ≠ 0 → first = true → pllInRange Config.chip 56000000 r s1 →
      (afterPll Config.chip 56000000 r s1).hasPllLock = false →
      exec (.r820tCalibrateFilter first) s = .next (takeError
        { kind := .pllNotLocked, info := .pll .calibration 56000000 } (afterPll Config.chip 56000000 r s1))) ∧
    (∀ u : State, calCode Config.chip r u =
      if ((statusOf (calReady Config.chip r u)).getD 4 0).extractLsb' 0 4 = (0xF : BitVec 4) then 0
      else ((statusOf (calReady Config.chip r u)).getD 4 0).extractLsb' 0 4)

/-- O29. r820t.init fills shadow and device with the defaults, runs its tables around the calibration, and sets
tunerReady (R174, R35). -/
def Obligations.TunerInitRule : Prop :=
  ∀ (r : Int) (s s1 : State), tunerReachable s → allSucceed s → s.xtalFreq = some r →
    s1 = afterTunerWrite 0x05 Config.chip.r820tDefaults.toList { s with shadow := some Config.chip.r820tDefaults } →
    calibrates Config.chip r true (afterMasks (triplesOf Config.chip.r820tInitElec) s1) →
    exec .r820tInit s = .next (complete .nothing (afterInit Config.chip r s)) ∧
    afterInit Config.chip r s = { (afterMasks (triplesOf Config.chip.r820tInitPost) (afterCalibration Config.chip r true
      (afterMasks (triplesOf Config.chip.r820tInitElec) s1))) with tunerReady := true } ∧
    (∀ k : Fin 27, s1.mem.get (tunerAddr (0x05 + k.val)) = some Config.chip.r820tDefaults[k]) ∧
    s1.trace = s.trace ++ [.control (setupPacket 0x40 0x0034 0x0610 28) (0x05 :: Config.chip.r820tDefaults.toList)] ∧
    (afterInit Config.chip r s).tunerReady = true ∧ (afterInit Config.chip r s).filterCap.isSome = true ∧
    (afterInit Config.chip r s).shadow.isSome = true

/-- O30. Gain and power-down are tables written in order; power-down clears tunerReady (R184, R185, R186, R116). The
registers of the tables are OPEN (notes/assumptions/4.md). -/
def Obligations.GainAndPowerDownRule : Prop :=
  ∀ (dB : Rat) (s : State), tunerReachable s → allSucceed s → s.shadow.isSome = true →
    (∀ step : Nat, (step : Int) = max 0 (min 28 (Config.chip.gainStep dB)) →
      exec (.r820tSetManualGain dB) s =
        .next (complete .nothing (afterMasks (triplesOf (Config.chip.gainRegs ((step + 1) / 2) (step / 2))) s))) ∧
    exec .r820tSetAutoGain s = .next (complete .nothing (afterMasks (triplesOf Config.chip.autoGainSeq) s)) ∧
    exec .r820tClose s = .next (complete .nothing
      { afterMasks (triplesOf Config.chip.r820tPowerdown.toList) s with tunerReady := false }) ∧
    (triplesOf Config.chip.r820tPowerdown.toList).length = 11

/-- O31. Where no transfer fails, the shadow mirrors the tuner's registers (R35, R171, R174). -/
def Obligations.ShadowMirrorsDevice : Prop :=
  (∀ (i : Instr) (s t : State), isTunerOp i = true → allSucceed s → tunerReachable s → mirrors s → exec i s = .next t →
    mirrors t) ∧
  (∀ s t : State, allSucceed s → tunerReachable s → exec .r820tInit s = .next t → mirrors t)

/-- O32. The tuner's operations touch nothing but the tuner (R38, R171, R172, R173, R174, R178, R179, R180, R181, R183,
R186). -/
def Obligations.TunerFrame : Prop :=
  ∀ (i : Instr) (s t : State), isTunerOp i = true → exec i s = .next t →
    (∀ a, a < tunerAddr 0x05 ∨ tunerAddr 0x1F < a → t.mem.get a = s.mem.get a) ∧ t.bridge = s.bridge ∧
    t.fifoEpoch = s.fifoEpoch ∧ t.streamPos = s.streamPos ∧ t.opened = s.opened ∧ t.claimed = s.claimed ∧
    t.i2cOpen = s.i2cOpen ∧ t.handle = s.handle ∧ t.ppm = s.ppm ∧ t.gain = s.gain ∧ t.xtalFreq = s.xtalFreq ∧
    t.actualRate = s.actualRate ∧ t.reads = s.reads ∧ sameData s t

/-- O33. rtl.new opens the unit with its operands, clears FAULT, and issues no transfer (R201); with a device open it is
InvalidState (R306). -/
def Obligations.RtlNewRule : Prop :=
  ∀ (handle : Nat) (ppm : Int) (gain : Gain) (s : State),
    (s.opened = false → exec (.rtlNew handle ppm gain) s = .next (complete .nothing
      { s with opened := true, fault := false, handle := some handle, ppm := some ppm, gain := some gain
               seq := { op := .idle, step := 0 } })) ∧
    (s.opened = true → ∃ t : State, exec (.rtlNew handle ppm gain) s = .next t ∧
      onlyDelivered { kind := .invalidState, info := .operation .rtlNew, pos := none } s t)

/-- O34. rtl.open runs its eleven steps, or ends with UnsupportedTuner at the probe, whatever the tables hold. Every entry
of RTL_INIT is written, and one of block I2C that meets a bridge not open is refused there (R202, R203, R204, R174, R112,
R303, R310, R106, R347). Which blocks an entry may name is the model's choice (notes/assumptions/4.md). The layout of the
setup packet is marked in R100 as from general knowledge. -/
def Obligations.RtlOpenRule : Prop :=
  (∀ s : State, exec .rtlOpen s = openHost Config.chip s) ∧
  (∀ (c : Config.Params) (ppm : Int) (gain : Gain) (s : State), HostOp.rtlOpen.allowed s = true → allSucceed s →
     s.ppm = some ppm → s.gain = some gain → tableReaches c s → opens c ppm s →
     openHost c s = .next (complete .nothing (afterRtlOpen c ppm gain s)) ∧
     (c = Config.chip → exec .rtlOpen s = .next (complete .nothing (afterRtlOpen c ppm gain s))) ∧
     (afterRtlOpen c ppm gain s).claimed = true ∧ (afterRtlOpen c ppm gain s).tunerReady = true ∧
     (afterRtlOpen c ppm gain s).i2cOpen = false ∧ (afterRtlOpen c ppm gain s).bridge = .blocked ∧
     (afterRtlOpen c ppm gain s).seq = { op := .idle, step := 0 } ∧
     (afterRtlOpen c ppm gain s).fault = s.fault ∧
     (afterRtlOpen c ppm gain s).xtalFreq = some (Int.fdiv (28800000 * (1000000 + ppm)) 1000000) ∧
     (afterRtlOpen c ppm gain s).filterCap.isSome = true ∧
     (s.trace ++ [.control (setupPacket 0x40 0x2000 0x0110 1) [0x09],
       .control (setupPacket 0x40 0x2158 0x0110 2) [0x00, 0x02], .claim 1])
       <+: (afterRtlOpen c ppm gain s).trace) ∧
  (∀ (c : Config.Params) (ppm : Int) (s : State), HostOp.rtlOpen.allowed s = true → allSucceed s → s.ppm = some ppm →
     tableReaches c s → probedId c ppm s ≠ 0x69 →
     ∃ t : State, openHost c s = .next t ∧ t.fault = true ∧ t.seq = { op := .idle, step := 0 } ∧
       t.claimed = true ∧ t.i2cOpen = true ∧ t.tunerReady = s.tunerReady ∧
       t.errors = s.errors ++ [{ kind := .unsupportedTuner, info := .probe (probedId c ppm s)
                                 pos := some (afterTunerRead 0x00 1 (openProbing c ppm s)).seq }] ∧
       t.trace = (openProbing c ppm s).trace ++ [.control (setupPacket 0x40 0x0034 0x0610 1) [0x00],
         .control (setupPacket 0xC0 0x0034 0x0600 1) [probedId c ppm s]]) ∧
  (∀ (c : Config.Params) (s : State), HostOp.rtlOpen.allowed s = true → allSucceed s →
     (¬ tableReaches c s → openHost c s = .refused .bridgeClosed) ∧
     ((∀ block reg value len, Config.InitEntry.reg block reg value len ∈ c.rtlInit.entries → block ≠ .i2c) →
       tableReaches c s))

/-- O35. rtl.set_sample_rate writes ratio, PPM offset and demodulator reset, and gives the actual rate (R205, R206, R207,
R208, R111, R113). That the high byte of the PPM offset is written whole rests on the decided default PPMOFF_TOP_MASK = 0xFF
(notes/assumptions/5.md). -/
def Obligations.SetSampleRateRule : Prop :=
  ∀ (rate : Nat) (ppm : Int) (s : State), HostOp.rtlSetSampleRate.allowed s = true → s.opened = true →
    allSucceed s → s.ppm = some ppm → 0 < rate →
    (28800000 * 2 ^ 22 / rate &&& 0x0FFFFFFC = 0 → exec (.rtlSetSampleRate rate) s = .refused (.rateTooHigh rate)) ∧
    ∀ ratio : Nat, ratio = 28800000 * 2 ^ 22 / rate &&& 0x0FFFFFFC → ratio ≠ 0 → ∃ t : State,
      exec (.rtlSetSampleRate rate) s = .next t ∧
      t = complete (.uint (28800000 * 2 ^ 22 / ratio)) (afterSampleRate Config.chip ppm rate s) ∧
      t.actualRate = some (28800000 * 2 ^ 22 / ratio) ∧ t.i2cOpen = false ∧ t.bridge = .blocked ∧
      t.seq = { op := .idle, step := 0 } ∧ ratio < 2 ^ 28 ∧ ratio % 4 = 0 ∧
      t.mem.get (cellAddr 1 0x3E) = some (BitVec.ofNat 8 ((-Int.fdiv (ppm * 2 ^ 24) 1000000 % 2 ^ 16).toNat / 256)) ∧
      t.mem.get (cellAddr 1 0x3F) = some (BitVec.ofNat 8 ((-Int.fdiv (ppm * 2 ^ 24) 1000000 % 2 ^ 16).toNat)) ∧
      t.mem.get (cellAddr 1 0x01) = some 0x10 ∧ t.claimed = s.claimed ∧ t.tunerReady = s.tunerReady ∧
      t.hasPllLock = s.hasPllLock ∧ t.fault = s.fault ∧ t.shadow = s.shadow ∧ t.xtalFreq = s.xtalFreq

/-- O36. rtl.set_center_frequency tunes to hz + IF_FREQ and closes the bridge before it reports a failed lock (R209,
R304, R180). -/
def Obligations.SetCenterFrequencyRule : Prop :=
  ∀ (hz : Nat) (r : Int) (s : State), HostOp.rtlSetCenterFrequency.allowed s = true → s.opened = true →
    allSucceed s → s.shadow.isSome = true → s.xtalFreq = some r → 0 < hz →
    pllInRange Config.chip (hz + 3570000) r (tuneStart Config.chip hz s) →
    (afterCloseI2c (tuned Config.chip hz r s)).i2cOpen = false ∧
    (afterCloseI2c (tuned Config.chip hz r s)).bridge = .blocked ∧
    ((tuned Config.chip hz r s).hasPllLock = true →
      exec (.rtlSetCenterFrequency hz) s =
        .next (complete .nothing { afterCloseI2c (tuned Config.chip hz r s) with seq := { op := .idle, step := 0 } })) ∧
    ((tuned Config.chip hz r s).hasPllLock = false →
      exec (.rtlSetCenterFrequency hz) s = .next (takeError { kind := .pllNotLocked, info := .pll .tune hz }
        (afterCloseI2c (tuned Config.chip hz r s))))

/-- O37. rtl.reset_buffer toggles EPA_CTL and the stream starts afresh (R210, R84, R90). The epoch of the stream is the
model's choice (notes/assumptions/29.md). The layout of the setup packet is marked in R100 as from general knowledge. -/
def Obligations.ResetBufferRule : Prop :=
  ∀ s : State, HostOp.rtlResetBuffer.allowed s = true → s.opened = true → allSucceed s → ∃ t : State,
    exec .rtlResetBuffer s = .next t ∧ t.result = .nothing ∧
    t.trace = s.trace ++ [.control (setupPacket 0x40 0x2148 0x0110 2) [0x10, 0x02],
      .control (setupPacket 0x40 0x2148 0x0110 2) [0x00, 0x00]] ∧
    t.mem.get (cellAddr 0x0100 0x2148) = some 0x00 ∧ t.mem.get (cellAddr 0x0100 0x2149) = some 0x00 ∧
    (∀ a, a ≠ cellAddr 0x0100 0x2148 → a ≠ cellAddr 0x0100 0x2149 → t.mem.get a = s.mem.get a) ∧
    t.fifoEpoch = s.fifoEpoch + 1 ∧ t.streamPos = 0 ∧ t.bridge = s.bridge ∧ keepsBlock s t ∧
    t.seq = { op := .idle, step := 0 }

/-- O38. rtl.read_samples issues a read of 2n bytes; completions come in issue order (R211, R88, R313, R306). Issue and
completion as two steps, the label before a set_sample_rate, and that a failing read ends itself only are the model's
choices (notes/assumptions/3.md, 35.md, 40.md). -/
def Obligations.ReadSamplesRule : Prop :=
  (∀ (n : Nat) (s : State), HostOp.rtlReadSamples.allowed s = true → 0 < n →
    exec (.rtlReadSamples n) s = .next { s with
      trace := s.trace ++ [.bulk (2 * n)]
      reads := s.reads ++ [{ length := 2 * n, pos := { op := .readSamples, step := 0 } }] }) ∧
  (∀ (n : Nat) (s : State), 2 ≤ s.reads.length → ∃ t : State, exec (.rtlReadSamples n) s = .next t ∧
    onlyDelivered { kind := .invalidState, info := .operation .rtlReadSamples, pos := none } s t) ∧
  (∀ (r : ReadInFlight) (later : List ReadInFlight) (rest : List Event) (s : State), s.ended = false →
    s.inbox = .completion :: rest → s.reads = r :: later →
    (nextSucceeds s → ∃ t : State, step s = .next t ∧ t.result = .raw (streamBytes s r.length) s.actualRate ∧
      t.reads = later ∧ t.streamPos = s.streamPos + r.length ∧ t.fifoEpoch = s.fifoEpoch ∧ t.mem = s.mem ∧
      t.fault = s.fault ∧ t.inbox = rest) ∧
    (¬ nextSucceeds s → ∃ t : State, step s = .next t ∧ t.reads = later ∧ t.fault = true ∧ t.result = s.result ∧
      t.errors = s.errors ++ [{ kind := .transportError, pos := some r.pos
                                info := (transportError .bulkRead 0 0 s.drawNo (answerOf s.plan s.drawNo)).info }]))

/-- O39. rtl.close completes whatever its steps report, where a handler is installed or no transfer fails (R212, R317,
R316). Without a handler the first error is fatal and the close ends with it: of R311 and R317 the model takes R311, its
choice (notes/assumptions/46.md). So are the steps a close makes from a failed open, the words it destroys, that an error in
it sets FAULT, and that reads in flight stay (notes/assumptions/13.md, 14.md, 17.md, 40.md). -/
def Obligations.RtlCloseRule : Prop :=
  ∀ s : State, HostOp.rtlClose.allowed s = true → s.ended = false → ∃ t : State, exec .rtlClose s = .next t ∧
    (s.handlerInstalled = true ∨ allSucceed s → closeCompletes s t) ∧
    (s.handlerInstalled = false → closeCompletes s t ∧ t.ended = false ∨
      t.ended = true ∧ t.fault = true ∧ t.seq = { op := .idle, step := 0 } ∧ sameData s t ∧ t.reads = s.reads ∧
        ∃ r : ErrRecord, r.kind = .transportError ∧ t.errors = s.errors ++ [r]) ∧
    (allSucceed s → t.errors = s.errors ∧ t.fault = s.fault) ∧
    (allSucceed s → s.claimed = true → ∃ values : List Byte, values.length = 11 ∧
      t.trace = s.trace ++ [.control (setupPacket 0x40 0x0120 0x0011 1) [0x18]] ++
        List.zipWith (fun (e : Config.TableTriple) v =>
          Transfer.control (setupPacket 0x40 0x0034 0x0610 2) [BitVec.ofNat 8 (0x05 + e.offset.val), v])
          Config.chip.r820tPowerdown.toList values ++
        [.control (setupPacket 0x40 0x0120 0x0011 1) [0x10], .release 1] ∧
      (s.shadow.isSome = true → t.trace = (afterCloseI2c (afterMasks (triplesOf Config.chip.r820tPowerdown.toList)
        (afterOpenI2c s))).trace ++ [.release 1]))

/-- O40. A host operation in a state that disallows it is ignored with InvalidState (R306). That close_device follows R306
is the model's choice (notes/assumptions/45.md). -/
def Obligations.InvalidStateRule : Prop :=
  (∀ s : State, (HostOp.rtlNew.allowed s = true ↔ s.opened = false) ∧
    (HostOp.rtlOpen.allowed s = true ↔
      s.opened = true ∧ s.claimed = false ∧ s.fault = false ∧ s.seq.op = .idle ∧ s.reads = []) ∧
    (HostOp.rtlSetSampleRate.allowed s = true ↔
      s.claimed = true ∧ s.fault = false ∧ s.seq.op = .idle ∧ s.reads = []) ∧
    (HostOp.rtlResetBuffer.allowed s = true ↔
      s.claimed = true ∧ s.fault = false ∧ s.seq.op = .idle ∧ s.reads = []) ∧
    (HostOp.rtlSetCenterFrequency.allowed s = true ↔
      s.tunerReady = true ∧ s.fault = false ∧ s.seq.op = .idle ∧ s.reads = []) ∧
    (HostOp.rtlReadSamples.allowed s = true ↔
      s.claimed = true ∧ s.fault = false ∧ s.seq.op = .idle ∧ s.reads.length ≤ 1) ∧
    (HostOp.rtlClose.allowed s = true ↔ s.opened = true ∧ ((s.seq.op = .idle ∧ s.reads = []) ∨ s.fault = true)) ∧
    (HostOp.closeDevice.allowed s = true ↔ s.opened = true ∧ s.claimed = false) ∧
    (HostOp.process.allowed s = true ↔ s.pipeline ≠ none)) ∧
  (∀ (i : Instr) (op : HostOp) (s : State), hostOpOf i = some op → op.allowed s = false →
    ∃ t : State, exec i s = .next t ∧
      onlyDelivered { kind := .invalidState, info := .operation op, pos := none } s t) ∧
  (∀ (mode : Mode) (s t : State), exec (.setMode mode) s = .next t → t.errors = s.errors)

/-- O41. What taking an error does, and that it ends its sequence (R308, R310, R311, R315). That InvalidState never ends the
program is the model's reading (notes/assumptions/16.md). -/
def Obligations.ErrorEntry : Prop :=
  (∀ k : ErrKind, k.setsFault = true ↔ k.code = 3 ∨ k.code = 4 ∨ k.code = 5) ∧
  (∀ (e : Err) (s : State), e.kind.setsFault = true → takeError e s = { s with
    fault := true
    seq := { op := .idle, step := 0 }
    errors := s.errors ++ [{ kind := e.kind, info := e.info, pos := some s.seq }]
    ended := s.ended || !s.handlerInstalled }) ∧
  (∀ (e : Err) (s : State), e.kind.setsFault = false →
    onlyDelivered { kind := e.kind, info := e.info, pos := none } s (takeError e s)) ∧
  (∀ (e : Err) (s : State), (takeError e s).ended =
    if e.kind = .invalidState then s.ended else s.ended || !s.handlerInstalled) ∧
  (∀ (m : Ctl Unit) (rest : Ctl Result) (e : Err) (s s1 : State), m s = .error (.raised e) s1 →
    runOp (do
      m
      rest) s = .next (takeError e s1)) ∧
  (∀ (s : State), s.handlerInstalled = true → s.ended = false → ∀ e, (takeError e s).ended = false) ∧
  (∀ s : State, s.ended = true → step s = .fault .programEnded)

/-- O42. No operation but rtl.new from the closed state clears FAULT, nor does what the block does on its own (R29, R201,
R310). -/
def Obligations.FaultSticky : Prop :=
  (∀ (i : Instr) (s t : State), s.fault = true → exec i s = .next t →
    (s.opened = true ∨ ∀ handle ppm gain, i ≠ .rtlNew handle ppm gain) → t.fault = true) ∧
  (∀ s t : State, s.fault = true → s.ended = false → (∀ m ∈ s.messages, isMessage m = true) →
    move Config.chip s = .next t ∨ t = completeOldest s ∨ handleOldest s = .next t → t.fault = true)

/-- O43. The control path and the data path do not touch each other (R331, R89, R323). -/
def Obligations.PathsAreIndependent : Prop :=
  (∀ (i : Instr) (s t : State), isDataPath i = true → exec i s = .next t → sameControl s t ∧ t.messages = s.messages) ∧
  (∀ s t : State, (∀ m ∈ s.messages, isMessage m = true) → handleOldest s = .next t →
    sameControl s t ∧ t.messages = s.messages.tail) ∧
  ((∀ (i : Instr) (s t : State), isDataPath i = false → exec i s = .next t → sameData s t) ∧
   (∀ s : State, sameData s (completeOldest s)) ∧
   (∀ s t : State, s.ended = false → move Config.chip s = .next t → sameData s t))

/-- O44. process without an installed pipeline is InvalidState (R48). -/
def Obligations.ProcessBeforeSetMode : Prop :=
  State.reset.pipeline = none ∧
  ∀ (bytes echo : List Byte) (inStereo : Bool) (freqOffset : Rat) (s : State), s.pipeline = none →
    ∃ t : State, exec (.process bytes inStereo freqOffset echo) s = .next t ∧
      exec (.msgProcess bytes inStereo freqOffset echo) s = .next t ∧
      onlyDelivered { kind := .invalidState, info := .operation .process, pos := none } s t

/-- O45. The designer gives an odd number of normalised windowed-sinc taps (R221). Sines, cosines and pi are approximated
(notes/assumptions/10.md), and where the approximated taps sum to 0 the quotients are free (notes/assumptions/42.md). The
forms of the window's angle, of the tap and of the odd length are marked in R221 as from general knowledge. -/
def Obligations.LowpassRule : Prop :=
  (∀ (rate f : Rat) (n N : Nat) (s : State), 0 < rate → 0 < f → 0 < n → N = n + (n + 1) % 2 → ∃ coefs : List Rat,
    exec (.getLowpassFirCoeffs rate f n) s = .next (complete (.reals coefs) s) ∧ coefs.length = N ∧ N % 2 = 1 ∧
    ∀ (v : Nat → Rat) (t : Rat),
      (∀ i, i = N / 2 → v i = 2 * piRat * (f / rate)) →
      (∀ i, i ≠ N / 2 → v i = sinTurns Config.chip (f / rate * ((i : Rat) - (N / 2 : Nat))) / ((i : Rat) - (N / 2 : Nat)) *
        (42 / 100 - 1 / 2 * cosTurns Config.chip (mkRat (i + 1) (N + 1)) +
          8 / 100 * cosTurns Config.chip (mkRat (2 * (i + 1)) (N + 1)))) →
      t = ((List.range N).map v).sum → t ≠ 0 → ∀ i, i < N → coefs[i]? = some (rndApprox Config.chip (v i / t))) ∧
  (∀ (rate : Rat) (n : Nat) (s : State), 0 < rate → 0 < n →
    exec (.getLowpassFirCoeffs rate 0 n) s = .refused .zeroSum)

/-- O46. A filter instance: reversed coefficients, a zero history, load, and get as a sum (R223, R224, R225). A block of odd
length in a filter of step 2, and the numbering of instances, are the model's choices (notes/assumptions/25.md, 33.md). -/
def Obligations.FirRule : Prop :=
  ((∀ (coefs : List Rat) (step : Nat) (s : State), coefs ≠ [] → 0 < step →
     exec (.firNew coefs step) s = .next (complete (.handle s.firs.length) { s with firs := s.firs ++ [
       { c := (coefs.map (rnd32 Config.chip)).reverse, step := step, n := 0
         buf := List.replicate ((coefs.length - 1) * step) 0 }] })) ∧
   (∀ (fir : Nat) (samples : List Rat) (f : Fir) (s : State), s.firs[fir]? = some f →
     exec (.firLoad fir samples) s = .next (complete .nothing { s with firs := s.firs.set fir { f with
       buf := f.buf.drop (f.buf.length - (f.c.length - 1) * f.step) ++ samples, n := samples.length } })) ∧
   (∀ (coefs : List Rat) (step : Nat) (blocks : List (List Rat)) (last : List Rat),
     (((Fir.make Config.chip coefs step).feed blocks).load last).buf =
       (List.replicate ((coefs.length - 1) * step) 0 ++ blocks.flatten ++ last).drop blocks.flatten.length ∧
     (((Fir.make Config.chip coefs step).feed blocks).load last).n = last.length)) ∧
  (∀ (fir : Nat) (i : Int) (f : Fir) (s : State), s.firs[fir]? = some f →
     (∀ k : Nat, i = k → k < f.n → exec (.firGet fir i) s = .next (complete (.real
       ((List.range f.c.length).map fun j => f.c.getD j 0 * f.buf.getD (k + j * f.step) 0).sum) s)) ∧
     (i < 0 ∨ f.n ≤ i → exec (.firGet fir i) s = .refused (.getOutOfRange i)))

/-- O47. A filter computes the causal convolution of everything loaded into it (R227). -/
def Obligations.FirConvolution : Prop :=
  ∀ (coefs : List Rat) (step : Nat) (blocks : List (List Rat)) (last : List Rat) (i : Nat), i < last.length →
    (((Fir.make Config.chip coefs step).feed blocks).load last).get i =
      convolve step (blocks.flatten ++ last) (coefs.map (rnd32 Config.chip)) 0 (blocks.flatten.length + i)

/-- O48. New downsamplers, demodulators and separators have their constants and their reset values (R236, R240, R251, R255,
R271, R272, R41, R42, R43, R45, R46). The weights are the spec's decided defaults, and pi and the rotations are approximated
(notes/assumptions/5.md, 10.md). -/
def Obligations.ConstructionRule : Prop :=
  (∀ (inRate outRate : Rat) (coefs : List Rat) (s : State), 0 < inRate → 0 < outRate → coefs ≠ [] →
     exec (.dsNew inRate outRate coefs) s = .next (complete (.handle s.dss.length) { s with
       dss := s.dss ++ [{ inRate := inRate, outRate := outRate, filter := Fir.make Config.chip coefs 1 }] }) ∧
     exec (.iqdsNew inRate outRate coefs) s = .next (complete (.handle s.iqdss.length) { s with
       iqdss := s.iqdss ++ [{ inRate := inRate, outRate := outRate, filter := Fir.make Config.chip coefs 2 }] })) ∧
  (∀ (inRate outRate maxF filterFreq : Rat) (kernelLen : Nat) (s : State), 0 < inRate → 0 < outRate → 0 < maxF →
     0 < filterFreq → 0 < kernelLen → ∃ coefs : List Rat,
     lowpass Config.chip inRate filterFreq kernelLen = some coefs ∧
     exec (.fmNew inRate outRate maxF filterFreq kernelLen) s = .next (complete (.handle s.fms.length) { s with
       fms := s.fms ++ [{ iqds := IqDownsampler.make Config.chip inRate outRate coefs, gain := outRate / (2 * piRat * maxF)
                          prevI := 0, prevQ := 0, carrier := false }] }) ∧
     exec (.amNew inRate outRate filterFreq kernelLen) s = .next (complete (.handle s.ams.length) { s with
       ams := s.ams ++ [{ iqds := IqDownsampler.make Config.chip inRate outRate coefs, carrier := false, relPower := 0 }] })) ∧
  (∀ (sampleRate pilotFreq : Rat) (s : State), 0 < sampleRate → 0 < pilotFreq → ∃ st : Stereo,
     exec (.stNew sampleRate pilotFreq) s =
       .next (complete (.handle s.sts.length) { s with sts := s.sts ++ [st] }) ∧
     st.sampleRate = sampleRate ∧ st.sin = 0 ∧ st.cos = 1 ∧ st.found = true ∧
     st.iavg = { w := 9999, withVariance := false, avg := 0, vari := 0 } ∧ st.qavg = st.iavg ∧
     st.cavg = { w := 49999, withVariance := false, avg := 0, vari := 0 } ∧
     st.sinTab.length = 8001 ∧ st.cosTab.length = 8001 ∧
     (∀ b : Nat, b < 8001 → st.sinTab[b]? =
         some (rndApprox Config.chip (sinTurns Config.chip ((pilotFreq + ((b : Rat) - 4000) / 100) / sampleRate))) ∧
       st.cosTab[b]? = some (rndApprox Config.chip (cosTurns Config.chip ((pilotFreq + ((b : Rat) - 4000) / 100) / sampleRate)))))

/-- O49. downsample loads the block and keeps the outputs at floor(j inRate / outRate); another rate is RateMismatch
(R237, R239). -/
def Obligations.DownsampleRule : Prop :=
  ∀ (ds : Nat) (samples : List Rat) (rate : Rat) (d : Downsampler) (s : State), s.dss[ds]? = some d →
    (rate = d.inRate → ∃ out : List Rat,
      exec (.dsDownsample ds samples rate) s = .next (complete (.mono { samples := out, rate := d.outRate })
        { s with dss := s.dss.set ds { d with filter := d.filter.load samples } }) ∧
      d.run Config.chip { samples := samples, rate := rate } =
        .ok ({ samples := out, rate := d.outRate }, { d with filter := d.filter.load samples }) ∧
      out.length = ((samples.length : Rat) * d.outRate / d.inRate).floor.toNat ∧
      (∀ j, j < out.length → out[j]? = some (rnd32 Config.chip ((d.filter.load samples).get
        (((j : Rat) * d.inRate / d.outRate).floor.toNat)))) ∧
      (0 < d.inRate → 0 < d.outRate → ∀ j, j < out.length →
        ((j : Rat) * d.inRate / d.outRate).floor.toNat < samples.length)) ∧
    (rate ≠ d.inRate → ∃ t : State, exec (.dsDownsample ds samples rate) s = .next t ∧
      onlyDelivered { kind := .rateMismatch, info := .rates d.inRate rate, pos := none } s t)

/-- O50. An IQ downsample filters the interleaved stream: I from even, Q from odd positions (R241). -/
def Obligations.IqDownsampleRule : Prop :=
  ∀ (h : Nat) (iq : List (Rat × Rat)) (rate : Rat) (q : IqDownsampler) (s : State), s.iqdss[h]? = some q →
    (rate = q.inRate → ∃ (z : List Rat) (out : List (Rat × Rat)),
      exec (.iqdsDownsample h iq rate) s = .next (complete (.iq { samples := out, rate := q.outRate })
        { s with iqdss := s.iqdss.set h { q with filter := q.filter.load z } }) ∧
      q.run Config.chip { samples := iq, rate := rate } =
        .ok ({ samples := out, rate := q.outRate }, { q with filter := q.filter.load z }) ∧
      z.length = 2 * iq.length ∧
      (∀ k, z[2 * k]? = iq[k]?.map Prod.fst ∧ z[2 * k + 1]? = iq[k]?.map Prod.snd) ∧
      out.length = ((iq.length : Rat) * q.outRate / q.inRate).floor.toNat ∧
      (∀ j r, j < out.length → r = ((j : Rat) * q.inRate / q.outRate).floor.toNat →
        out[j]? = some (rnd32 Config.chip ((q.filter.load z).get (2 * r)),
          rnd32 Config.chip ((q.filter.load z).get (2 * r + 1))))) ∧
    (rate ≠ q.inRate → ∃ t : State, exec (.iqdsDownsample h iq rate) s = .next t ∧
      onlyDelivered { kind := .rateMismatch, info := .rates q.inRate rate, pos := none } s t)

/-- O51. An IQ downsampler equals two real downsamplers (R242). -/
def Obligations.IqEqualsTwoReal : Prop :=
  ∀ (inRate outRate : Rat) (coefs : List Rat) (blocks : List (List (Rat × Rat))) (iq : List (Rat × Rat))
    (y : IqFloat) (yI yQ : MonoFloat) (q : IqDownsampler) (dI dQ : Downsampler), 0 < inRate → 0 < outRate →
    ((IqDownsampler.make Config.chip inRate outRate coefs).feed blocks).run Config.chip
      { samples := iq, rate := inRate } = .ok (y, q) →
    ((Downsampler.make Config.chip inRate outRate coefs).feed (blocks.map fun b => b.map Prod.fst)).run Config.chip
      { samples := iq.map Prod.fst, rate := inRate } = .ok (yI, dI) →
    ((Downsampler.make Config.chip inRate outRate coefs).feed (blocks.map fun b => b.map Prod.snd)).run Config.chip
      { samples := iq.map Prod.snd, rate := inRate } = .ok (yQ, dQ) →
    y.samples.map Prod.fst = yI.samples ∧ y.samples.map Prod.snd = yQ.samples ∧ y.rate = yI.rate ∧ y.rate = yQ.rate

/-- O52. FM demodulation gives the phase advance of each downsampled sample and the carrier flag (R252, R253, R26). The
arctangent is approximated (notes/assumptions/10.md). -/
def Obligations.FmDemodulateRule : Prop :=
  ∀ (h : Nat) (iq : List (Rat × Rat)) (rate : Rat) (m : Fm) (s : State), s.fms[h]? = some m →
    (rate = m.iqds.inRate → ∃ (y : IqFloat) (q : IqDownsampler) (out : List Rat) (m' : Fm),
      m.iqds.run Config.chip { samples := iq, rate := rate } = .ok (y, q) ∧
      exec (.fmDemodulate h iq rate) s =
        .next (complete (.demodulated { samples := out, rate := m.iqds.outRate } m'.carrier)
          { s with fms := s.fms.set h m' }) ∧
      m.run Config.chip { samples := iq, rate := rate } = .ok ({ samples := out, rate := m.iqds.outRate }, m') ∧
      out.length = y.samples.length ∧
      (∀ (k : Nat) (i i' q q' : Rat), y.samples[k]? = some (i, q) →
        (if k = 0 then some (m.prevI, m.prevQ) else y.samples[k - 1]?) = some (i', q') →
        out[k]? = some (rndApprox Config.chip (atan2Rat Config.chip (q * i' - i * q') (i * i' + q * q') * m.gain))) ∧
      (m'.prevI, m'.prevQ) = y.samples.getLast?.getD (m.prevI, m.prevQ) ∧
      (m'.carrier = true ↔
        2 / 1000 * (y.samples.length : Rat) < (y.samples.map fun p => p.1 * p.1 + p.2 * p.2).sum) ∧
      m'.gain = m.gain ∧ m'.iqds = q) ∧
    (rate ≠ m.iqds.inRate → ∃ t : State, exec (.fmDemodulate h iq rate) s = .next t ∧
      onlyDelivered { kind := .rateMismatch, info := .rates m.iqds.inRate rate, pos := none } s t)

/-- O53. AM demodulation gives the normalised envelope about the block means, the carrier flag and the relative power (R256,
R257, R258, R259, R26). That an empty block leaves relPower as it is stands in notes/assumptions/37.md. The square root is
approximated, and the samples of a block with mean amplitude 0 are free (notes/assumptions/10.md, 12.md). relPower as P / S
is the decided default of REL_POWER_AM, which R259 marks as from general knowledge (notes/assumptions/5.md). -/
def Obligations.AmDemodulateRule : Prop :=
  ∀ (h : Nat) (iq : List (Rat × Rat)) (rate : Rat) (a : Am) (s : State), s.ams[h]? = some a →
    (rate = a.iqds.inRate → ∃ (d : IqFloat) (q : IqDownsampler) (out : List Rat) (a' : Am),
      a.iqds.run Config.chip { samples := iq, rate := rate } = .ok (d, q) ∧
      exec (.amDemodulate h iq rate) s =
        .next (complete (.demodulated { samples := out, rate := a.iqds.outRate } a'.carrier)
          { s with ams := s.ams.set h a', drawNo := s.drawNo + 1 }) ∧
      a.run Config.chip { samples := iq, rate := rate } s.drawNo = .ok ({ samples := out, rate := a.iqds.outRate }, a') ∧
      a'.iqds = q ∧ out.length = d.samples.length ∧
      (d.samples = [] → a'.carrier = false ∧ a'.relPower = a.relPower) ∧
      (d.samples ≠ [] → ∀ (iBar qBar m p sum : Rat) (y : List Rat),
        iBar = (d.samples.map Prod.fst).sum / d.samples.length →
        qBar = (d.samples.map Prod.snd).sum / d.samples.length →
        y = d.samples.map (fun z => sqrtRat Config.chip ((z.1 - iBar) ^ 2 + (z.2 - qBar) ^ 2)) → m = y.sum / y.length →
        p = (y.map fun v => v ^ 2).sum →
        sum = ((List.range y.length).map fun i : Nat =>
          (iq.getD ((i : Rat) * a.iqds.inRate / a.iqds.outRate).floor.toNat (0, 0)).1 ^ 2 +
          (iq.getD ((i : Rat) * a.iqds.inRate / a.iqds.outRate).floor.toNat (0, 0)).2 ^ 2).sum →
        (a'.carrier = true ↔ 2 / 1000 * (y.length : Rat) < p) ∧
        (sum = 0 → a'.relPower = 0) ∧ (sum ≠ 0 → a'.relPower = rndApprox Config.chip (p / sum)) ∧
        (m ≠ 0 → out = y.map fun v => rndApprox Config.chip ((v - m) / m)) ∧
        (m = 0 → a'.carrier = false))) ∧
    (rate ≠ a.iqds.inRate → ∃ t : State, exec (.amDemodulate h iq rate) s = .next t ∧
      onlyDelivered { kind := .rateMismatch, info := .rates a.iqds.inRate rate, pos := none } s t)

/-- O54. The averager's recurrence, with and without variance; the variance is never negative (R266, R267, R268). -/
def Obligations.AveragerRule : Prop :=
  (∀ (w : Rat) (v : Bool) (s : State),
    (0 ≤ w → exec (.avgNew w v) s = .next (complete (.handle s.avgs.length) { s with
      avgs := s.avgs ++ [{ w := w, withVariance := v, avg := 0, vari := 0 }] })) ∧
    (w < 0 → exec (.avgNew w v) s = .refused (.negativeWeight w))) ∧
  (∀ (h : Nat) (x m : Rat) (a : Averager) (s : State), s.avgs[h]? = some a →
    m = rnd32 Config.chip ((a.w * a.avg + x) / (a.w + 1)) →
    (a.withVariance = true → exec (.avgAdd h x) s = .next (complete (.real m) { s with
      avgs := s.avgs.set h { a with avg := m, vari := rnd32 Config.chip ((a.w * a.vari + (x - m) ^ 2) / (a.w + 1)) } })) ∧
    (0 ≤ a.w → 0 ≤ a.vari → 0 ≤ rnd32 Config.chip ((a.w * a.vari + (x - m) ^ 2) / (a.w + 1))) ∧
    (a.withVariance = false → exec (.avgAdd h x) s = .next (complete (.real m) { s with
      avgs := s.avgs.set h { a with avg := m } })))

/-- O55. The separator's recurrence per sample, and found at the end of the block (R273, R274, R275, R276, R27). The
threshold 4 of the lock average is the decided default of LOCK_THRES (notes/assumptions/5.md). -/
def Obligations.StereoSeparateRule : Prop :=
  (∀ (h : Nat) (samples : List Rat) (st : Stereo) (s : State), s.sts[h]? = some st → ∃ (out : List Rat) (st' : Stereo),
    exec (.stSeparate h samples) s = .next (complete
      (.separated { samples := out, rate := st.sampleRate } st'.found) { s with sts := s.sts.set h st' }) ∧
    st.run Config.chip samples = ({ samples := out, rate := st.sampleRate }, st') ∧
    out.length = samples.length ∧ (samples = [] → st' = st) ∧
    (samples ≠ [] → (st'.found = true ↔ st'.cavg.avg < 4)) ∧
    (∀ x xs, samples = x :: xs → ∃ st1 : Stereo, (st.run Config.chip [x]).2 = st1 ∧
      out.head? = (st.run Config.chip [x]).1.samples.head? ∧ out.tail = (st1.run Config.chip xs).1.samples ∧ st' = (st1.run Config.chip xs).2)) ∧
  (∀ (x corr : Rat) (st st' : Stereo) (out : MonoFloat), st.run Config.chip [x] = (out, st') →
    corr = phaseError (st.iavg.add Config.chip (x * st.sin)).avg (st.qavg.add Config.chip (x * st.cos)).avg →
    out.samples = [rnd32 Config.chip (x * st.sin * st.cos * 2)] ∧ st'.iavg = st.iavg.add Config.chip (x * st.sin) ∧
    st'.qavg = st.qavg.add Config.chip (x * st.cos) ∧ st'.cavg = st.cavg.add Config.chip (corr * corr) ∧
    st'.sin = rnd32 Config.chip (st.sin * st.cosTab.getD (tableIndex corr) 0 + st.cos * st.sinTab.getD (tableIndex corr) 0) ∧
    st'.cos = rnd32 Config.chip (st.cos * st.cosTab.getD (tableIndex corr) 0 - st.sin * st.sinTab.getD (tableIndex corr) 0) ∧
    st'.sinTab = st.sinTab ∧ st'.cosTab = st.cosTab)

/-- O56. The phase error is clamped to [-4, 4] and its index lies in the table (R274). -/
def Obligations.PhaseErrorInTable : Prop :=
  (∀ hdev vdev : Rat, -4 ≤ phaseError hdev vdev ∧ phaseError hdev vdev ≤ 4 ∧
    tableIndex (phaseError hdev vdev) ≤ 8000 ∧
    (tableIndex (phaseError hdev vdev) : Int) = ((phaseError hdev vdev + 4) * 1000 + 1 / 2).floor ∧
    (hdev ≠ 0 → phaseError hdev vdev = max (-4) (min 4 (vdev / hdev))) ∧
    (hdev = 0 → vdev = 0 → phaseError hdev vdev = 0) ∧ (hdev = 0 → 0 < vdev → phaseError hdev vdev = 4) ∧
    (hdev = 0 → vdev < 0 → phaseError hdev vdev = -4)) ∧
  tableIndex (-4) = 0 ∧ tableIndex 0 = 4000 ∧ tableIndex 4 = 8000

/-- O57. The de-emphasis filter's recurrence (R277, R278). The exponential is approximated (notes/assumptions/10.md). -/
def Obligations.DeemphasisRule : Prop :=
  (∀ (rate tau : Rat) (s : State), 0 < rate → 0 < tau →
    exec (.deNew rate tau) s = .next (complete (.handle s.des.length) { s with
      des := s.des ++ [{ alpha := expNeg Config.chip (1000000 / (tau * rate)), y := 0 }] }) ∧
    0 < expNeg Config.chip (1000000 / (tau * rate)) ∧ expNeg Config.chip (1000000 / (tau * rate)) < 1) ∧
  (∀ (h : Nat) (samples : List Rat) (rate : Rat) (d : Deemphasis) (s : State), s.des[h]? = some d →
    ∃ (out : List Rat) (d' : Deemphasis),
      exec (.deRun h samples rate) s =
        .next (complete (.mono { samples := out, rate := rate }) { s with des := s.des.set h d' }) ∧
      d.run Config.chip { samples := samples, rate := rate } = ({ samples := out, rate := rate }, d') ∧
      out.length = samples.length ∧ d' = { d with y := out.getLast?.getD d.y } ∧
      (∀ (k : Nat) (x y : Rat), samples[k]? = some x → (if k = 0 then some d.y else out[k - 1]?) = some y →
        out[k]? = some (rndApprox Config.chip ((1 - d.alpha) * x + d.alpha * y))))

/-- O58. iq_convert maps byte pairs to floats byte/128 - 0.995 at IN_RATE (R286). -/
def Obligations.IqConvertRule : Prop :=
  ∀ (bytes : List Byte) (s : State),
    (bytes.length % 2 = 1 → exec (.iqConvert bytes) s = .refused (.oddLength bytes.length)) ∧
    (bytes.length % 2 = 0 → ∃ pairs : List (Rat × Rat),
      exec (.iqConvert bytes) s = .next (complete (.iq { samples := pairs, rate := 1024000 }) s) ∧
      iqStream Config.chip bytes = { samples := pairs, rate := 1024000 } ∧
      2 * pairs.length = bytes.length ∧
      ∀ (k : Nat) (b c : Byte), bytes[2 * k]? = some b → bytes[2 * k + 1]? = some c →
        pairs[k]? = some (rnd32 Config.chip ((b.toNat : Rat) / 128 - 995 / 1000),
          rnd32 Config.chip ((c.toNat : Rat) / 128 - 995 / 1000)))

/-- O59. set_mode replaces the pipeline by a fresh chain of its mode, each filter with the coefficients designed for it and
a history of zeros; SSB is refused (R292, R293, R289, R290, R291, R123, R221). Pi in the gains and the exponential in the
de-emphasis are approximated, and that a tau must be positive is the model's reading (notes/assumptions/10.md, 27.md). The
weights 9999 and 49999 and the tau 50 are the spec's decided defaults (notes/assumptions/5.md). -/
def Obligations.SetModeRule : Prop :=
  (∀ (mode : Mode) (i : Instr) (s : State), i = .setMode mode ∨ i = .msgSetMode mode →
    (mode.legal = true → ∃ ch : Chain, makeChain Config.chip mode = some ch ∧ ch.fits ∧
      exec i s = .next (complete .nothing { s with pipeline := some { mode := mode, chain := ch } })) ∧
    (mode.legal = false → exec i s = .refused (.badMode mode))) ∧
  (∀ (mode : Mode) (ch : Chain), mode.legal = true → makeChain Config.chip mode = some ch →
    (match mode, ch with
      | .wbfm tau, .wbfm fm mono diff st deL deR =>
        fm.carrier = false ∧ fm.prevI = 0 ∧ fm.prevQ = 0 ∧ fm.gain = 336000 / (2 * piRat * 75000) ∧
          freshFilter 1024000 67500 101 2 fm.iqds.filter ∧ fm.iqds.inRate = 1024000 ∧ fm.iqds.outRate = 336000 ∧
          freshFilter 336000 Config.chip.wbfmAudioCutoff Config.chip.wbfmAudioTaps 1 mono.filter ∧
          mono.inRate = 336000 ∧ mono.outRate = 48000 ∧
          fm.iqds.filter.c.length = 101 ∧ mono = diff ∧ (∀ x ∈ mono.filter.buf, x = 0) ∧
          (∀ x ∈ fm.iqds.filter.buf, x = 0) ∧ st.found = true ∧ st.sin = 0 ∧ st.cos = 1 ∧
          st.iavg = { w := 9999, withVariance := false, avg := 0, vari := 0 } ∧ st.qavg = st.iavg ∧
          st.cavg = { w := 49999, withVariance := false, avg := 0, vari := 0 } ∧ st.sinTab.length = 8001 ∧
          deL = { alpha := expNeg Config.chip (1000000 / (tau.getD 50 * 48000)), y := 0 } ∧ deR = deL
      | .nbfm maxF, .nbfm fm mono =>
        fm.carrier = false ∧ fm.prevI = 0 ∧ fm.prevQ = 0 ∧ fm.gain = fm.iqds.outRate / (2 * piRat * maxF) ∧
          fm.iqds.outRate = 48000 * (1 + ((maxF - 1) * 7 / 75000).floor).toNat ∧ mono.filter.c.length = 41 ∧
          freshFilter 1024000 (8 / 10 * maxF) (Config.chip.nbfmKernelLen (1 + ((maxF - 1) * 7 / 75000).floor).toNat) 2
            fm.iqds.filter ∧ fm.iqds.inRate = 1024000 ∧
          freshFilter fm.iqds.outRate 8000 41 1 mono.filter ∧ mono.inRate = fm.iqds.outRate ∧ mono.outRate = 48000 ∧
          (∀ x ∈ mono.filter.buf, x = 0) ∧ (∀ x ∈ fm.iqds.filter.buf, x = 0)
      | .am bandwidth, .am am =>
        freshFilter 1024000 (bandwidth / 2) 351 2 am.iqds.filter ∧ am.iqds.inRate = 1024000 ∧ am.iqds.outRate = 48000 ∧
        am.carrier = false ∧ am.relPower = 0 ∧ am.iqds.filter.c.length = 351 ∧ (∀ x ∈ am.iqds.filter.buf, x = 0)
      | _, _ => False)) ∧
  (∀ mode : Mode, mode.legal = true ↔ match mode with
    | .wbfm none => True
    | .wbfm (some tau) => 0 < tau
    | .nbfm maxF => 1 ≤ maxF
    | .am bandwidth => 0 < bandwidth
    | .ssb _ _ => False)

/-- O60. process demodulates one block through the installed chain. WBFM runs the demodulator and the sum downsampler on
every block, the separator where stereo is asked for, the difference downsampler where the pilot is found after the block,
and then left and right are the de-emphasised sum and difference of S and D, else both are de-emphasised S. NBFM gives the
downsampled demodulated signal on both sides, AM the demodulated one (R288, R286, R287, R289, R290, R291). The square root
of the AM level is approximated; which composites are valid is OPEN; the form of echo is the model's choice
(notes/assumptions/10.md, 26.md, 51.md). -/
def Obligations.ProcessRule : Prop :=
  ∀ (bytes echo : List Byte) (inStereo : Bool) (p : Pipeline) (n : Nat) (i : Instr) (s : State),
    s.pipeline = some p → p.chain.fits → n = bytes.length / 2 →
    i = .process bytes inStereo 0 echo ∨ i = .msgProcess bytes inStereo 0 echo →
    (bytes.length % 2 = 1 → exec i s = .refused (.oddLength bytes.length)) ∧
    (∀ f : Rat, f ≠ 0 → exec (.process bytes inStereo f echo) s = .refused (.freqOffset f) ∧
      exec (.msgProcess bytes inStereo f echo) s = .refused (.freqOffset f)) ∧
    (bytes.length % 2 = 0 → ∃ (a : Audio) (ch : Chain),
      p.chain.run Config.chip (iqStream Config.chip bytes) inStereo s.drawNo = .ok (a, ch) ∧
      exec i s = .next (complete (.audio a.left a.right echo a.stereo a.signalLevel)
        { s with pipeline := some { mode := p.mode, chain := ch }, drawNo := s.drawNo + 1 }) ∧
      a.left.rate = 48000 ∧ a.right.rate = 48000 ∧ a.left.samples.length = a.right.samples.length ∧ ch.fits ∧
      (∀ fm mono diff st deL deR, p.chain = .wbfm fm mono diff st deL deR →
        a.left.samples.length = outLen (outLen n 1024000 336000) 336000 48000 ∧
        (a.stereo = true → inStereo = true) ∧ (deL = deR → a.stereo = false → a.left = a.right) ∧
        ∃ (comp sum : MonoFloat) (sep : MonoFloat × Stereo) (fm' : Fm) (mono' diff' : Downsampler) (st' : Stereo)
          (deL' deR' : Deemphasis), ch = .wbfm fm' mono' diff' st' deL' deR' ∧
          fm.run Config.chip (iqStream Config.chip bytes) = .ok (comp, fm') ∧ mono.run Config.chip comp = .ok (sum, mono') ∧
          sep = st.run Config.chip comp.samples ∧
          (inStereo = true → sep.2.found = true → ∃ d : MonoFloat,
            diff.run Config.chip { samples := sep.1.samples, rate := 336000 } = .ok (d, diff') ∧ st' = sep.2 ∧
            a.stereo = true ∧ d.samples.length = sum.samples.length ∧
            (a.left, deL') = deL.run Config.chip
              { samples := List.zipWith (fun x y => rnd32 Config.chip (x + y)) sum.samples d.samples, rate := 48000 } ∧
            (a.right, deR') = deR.run Config.chip
              { samples := List.zipWith (fun x y => rnd32 Config.chip (x - y)) sum.samples d.samples, rate := 48000 }) ∧
          (inStereo = false ∨ sep.2.found = false → diff' = diff ∧ st' = (if inStereo then sep.2 else st) ∧
            a.stereo = false ∧ (a.left, deL') = deL.run Config.chip sum ∧ (a.right, deR') = deR.run Config.chip sum) ∧
          a.signalLevel = Config.chip.signalLevelFm fm' ∧ 0 ≤ a.signalLevel ∧
          (Config.chip.validComposite fm' = true → 0 < a.signalLevel) ∧ (a.stereo = true → st'.found = true)) ∧
      (∀ fm mono, p.chain = .nbfm fm mono →
        a.left.samples.length = outLen (outLen n 1024000 fm.iqds.outRate) fm.iqds.outRate 48000 ∧
        a.left = a.right ∧ a.stereo = false ∧
        ∃ (y : MonoFloat) (fm' : Fm) (mono' : Downsampler), ch = .nbfm fm' mono' ∧
          fm.run Config.chip (iqStream Config.chip bytes) = .ok (y, fm') ∧ mono.run Config.chip y = .ok (a.left, mono') ∧
          a.signalLevel = Config.chip.signalLevelFm fm' ∧ 0 ≤ a.signalLevel ∧
          (Config.chip.validComposite fm' = true → 0 < a.signalLevel)) ∧
      (∀ am, p.chain = .am am →
        a.left.samples.length = outLen n 1024000 48000 ∧ a.left = a.right ∧ a.stereo = false ∧
        ∃ am' : Am, ch = .am am' ∧ am.run Config.chip (iqStream Config.chip bytes) s.drawNo = .ok (a.left, am') ∧
          a.signalLevel = rndApprox Config.chip (7 / 2 * sqrtRat Config.chip am'.relPower) ∧
          (0 ≤ am.relPower → 0 ≤ a.signalLevel)))

end
end

