-- ==== Sys2Proof/Laws/Numerics.lean ====
section
/-! SUPPORT. What the reference numerics guarantee: `exp(-a)` lies strictly between 0 and 1 for `a > 0`, a square root is
not negative and its square does not exceed its argument, storing keeps the sign, and the whole part of a logarithm is exact
(00_scope R12; 42_r820t_tuner R181; 47_stereo_deemphasis_averager R277). -/

namespace Sys2Proof.Machine

/-! ## exp -/

theorem expSeries_le (y : Nat) : ∀ fuel k t, expSeries y fuel k t ≤ t
  | 0, _, t => Nat.zero_le t
  | _ + 1, _, t => Nat.sub_le t _

/-- The series of `exp(-y)` for `0 < y ≤ 1` lies between a quarter and one. -/
theorem expSeries_bounds {y : Nat} (h0 : 0 < y) (h1 : y ≤ fixOne) :
    fixOne ≤ 4 * expSeries y 75 0 fixOne ∧ expSeries y 75 0 fixOne < fixOne := by
  have hp : 2 ^ 10 ≤ fixOne := by decide +kernel
  have hpos : 0 < fixOne := by omega
  have e1 : expSeries y 75 0 fixOne = fixOne - expSeries y 74 1 (fixOne * y / fixOne / 1) := rfl
  have e2 : fixOne * y / fixOne / 1 = y := by rw [Nat.div_one, Nat.mul_div_cancel_left _ hpos]
  have e3 : expSeries y 74 1 y = y - expSeries y 73 2 (y * y / fixOne / 2) := rfl
  generalize ht : y * y / fixOne / 2 = t2 at e3
  have e4 : expSeries y 73 2 t2 = t2 - expSeries y 72 3 (t2 * y / fixOne / 3) := rfl
  have b4 := expSeries_le y 72 3 (t2 * y / fixOne / 3)
  have b3 : expSeries y 73 2 t2 ≤ t2 := expSeries_le y 73 2 t2
  have q1 : y * y / fixOne ≤ y := Nat.div_le_of_le_mul (by nlinarith)
  have q2 : t2 * y / fixOne ≤ t2 := Nat.div_le_of_le_mul (by nlinarith)
  have q3 : y * y < fixOne * (2 * t2 + 2) := by
    have h := Nat.lt_mul_div_succ (y * y) hpos
    have h' : y * y / fixOne + 1 ≤ 2 * t2 + 2 := by omega
    calc y * y < fixOne * (y * y / fixOne + 1) := h
      _ ≤ fixOne * (2 * t2 + 2) := Nat.mul_le_mul_left _ h'
  have q4 : fixOne ≤ 2 * (fixOne - y) + 2 * t2 + 2 := by
    obtain ⟨z, hz⟩ := Nat.exists_eq_add_of_le h1
    have : fixOne - y = z := by omega
    rw [this]
    by_contra hc
    push Not at hc
    have hc' : 2 * t2 + 2 ≤ fixOne - 2 * z - 1 := by omega
    obtain ⟨w, hw⟩ : ∃ w, fixOne = 2 * z + 1 + w := ⟨fixOne - 2 * z - 1, by omega⟩
    have h2 : 2 * t2 + 2 ≤ w := by omega
    have h3 : fixOne * (2 * t2 + 2) ≤ fixOne * w := Nat.mul_le_mul_left _ h2
    have h4 : y * y < fixOne * w := lt_of_lt_of_le q3 h3
    have h5 : y = z + 1 + w := by omega
    rw [hw, h5] at h4
    nlinarith
  rw [e1, e2, e3, e4]
  omega

/-- A normalised fraction below one: 320 bits over at least 2^320. -/
def isFraction (e : Nat × Nat) : Prop := 2 ^ 319 ≤ e.1 ∧ e.1 < 2 ^ 320 ∧ 320 ≤ e.2

theorem squareNorm_isFraction {e : Nat × Nat} (h : isFraction e) : isFraction (squareNorm e) := by
  obtain ⟨h1, h2, h3⟩ := h
  have l : 2 ^ 638 ≤ e.1 * e.1 := by
    calc 2 ^ 638 = 2 ^ 319 * 2 ^ 319 := by rw [← pow_add]
      _ ≤ e.1 * e.1 := Nat.mul_le_mul h1 h1
  have u : e.1 * e.1 < 2 ^ 640 := by
    calc e.1 * e.1 < 2 ^ 320 * 2 ^ 320 := Nat.mul_lt_mul'' h2 h2
      _ = 2 ^ 640 := by rw [← pow_add]
  unfold squareNorm isFraction
  by_cases hp : e.1 * e.1 < 2 ^ 639
  · simp only [hp, if_true]
    refine ⟨(Nat.le_div_iff_mul_le (by positivity)).mpr ?_, (Nat.div_lt_iff_lt_mul (by positivity)).mpr ?_, by omega⟩
    · rw [← pow_add]; exact l
    · rw [← pow_add]; exact hp
  · simp only [hp, if_false]
    refine ⟨(Nat.le_div_iff_mul_le (by positivity)).mpr ?_, (Nat.div_lt_iff_lt_mul (by positivity)).mpr ?_, by omega⟩
    · rw [← pow_add]; exact not_lt.mp hp
    · rw [← pow_add]; exact u

theorem squareNormN_isFraction : ∀ (n : Nat) {e : Nat × Nat}, isFraction e → isFraction (squareNormN n e)
  | 0, _, h => h
  | n + 1, _, h => squareNormN_isFraction n (squareNorm_isFraction h)

theorem isFraction_value {e : Nat × Nat} (h : isFraction e) : 0 < mkRat e.1 (2 ^ e.2) ∧ mkRat e.1 (2 ^ e.2) < 1 := by
  obtain ⟨h1, h2, h3⟩ := h
  have hpos : 0 < e.1 := lt_of_lt_of_le (by positivity) h1
  have hlt : e.1 < 2 ^ e.2 := lt_of_lt_of_le h2 (Nat.pow_le_pow_right (by norm_num) h3)
  have hd : (0 : Rat) < ((2 ^ e.2 : Nat) : Rat) := by positivity
  rw [Rat.mkRat_eq_div]
  constructor
  · exact div_pos (by exact_mod_cast hpos) hd
  · rw [div_lt_one hd]; exact_mod_cast hlt

/-- The fixed-point argument of the series in the middle range. -/
theorem expArg_bounds {a : Rat} (h1 : mkRat 1 (2 ^ 100) ≤ a) (h2 : a ≤ 4096) :
    0 < a.num.natAbs * fixOne / (a.den * 4096) ∧ a.num.natAbs * fixOne / (a.den * 4096) ≤ fixOne := by
  have hpos : 0 < a := lt_of_lt_of_le (by rw [Rat.mkRat_eq_div]; positivity) h1
  have hn : (a.num.natAbs : Int) = a.num := Int.natAbs_of_nonneg (Rat.num_nonneg.mpr hpos.le)
  have hd : 0 < a.den := a.den_pos
  have hq : a = (a.num.natAbs : Rat) / (a.den : Rat) := by
    conv_lhs => rw [← Rat.num_div_den a, ← hn]
    rw [Int.cast_natCast]
  have hdq : (0 : Rat) < (a.den : Rat) := by exact_mod_cast hd
  constructor
  · apply Nat.div_pos _ (by positivity)
    have : a.den ≤ a.num.natAbs * 2 ^ 100 := by
      rw [hq, Rat.mkRat_eq_div, div_le_div_iff₀ (by positivity) hdq] at h1
      have : ((a.den : Nat) : Rat) ≤ ((a.num.natAbs * 2 ^ 100 : Nat) : Rat) := by push_cast at h1 ⊢; linarith
      exact_mod_cast this
    calc a.den * 4096 ≤ a.num.natAbs * 2 ^ 100 * 4096 := Nat.mul_le_mul_right _ this
      _ = a.num.natAbs * (2 ^ 100 * 4096) := by ring
      _ ≤ a.num.natAbs * fixOne := Nat.mul_le_mul_left _ (by decide +kernel)
  · apply Nat.div_le_of_le_mul
    have : a.num.natAbs ≤ a.den * 4096 := by
      rw [hq, div_le_iff₀ hdq] at h2
      have : ((a.num.natAbs : Nat) : Rat) ≤ ((a.den * 4096 : Nat) : Rat) := by push_cast; linarith
      exact_mod_cast this
    exact Nat.mul_le_mul_right _ this

/-- `exp(-a)` of the reference numerics lies strictly between 0 and 1 for `a > 0` (R277). -/
theorem expNegRef_bounds {a : Rat} (ha : 0 < a) : 0 < expNegRef a ∧ expNegRef a < 1 := by
  unfold expNegRef
  by_cases h1 : a < mkRat 1 (2 ^ 100)
  · rw [if_pos h1]
    have h2 : a < 1 := lt_trans h1 (by rw [Rat.mkRat_eq_div]; norm_num)
    constructor <;> nlinarith
  · rw [if_neg h1]
    by_cases h2 : 4096 < a
    · rw [if_pos h2, Rat.mkRat_eq_div]
      constructor
      · positivity
      · rw [div_lt_one (by positivity)]
        exact_mod_cast Nat.one_lt_two_pow (by norm_num)
    · rw [if_neg h2]
      have hb := expArg_bounds (not_lt.mp h1) (not_lt.mp h2)
      have hs := expSeries_bounds hb.1 hb.2
      unfold expMiddle
      refine isFraction_value (squareNormN_isFraction 12 ?_)
      have hf : fixOne = 2 ^ 320 := rfl
      generalize expSeries _ 75 0 fixOne = e at hs ⊢
      rw [hf] at hs
      have p1 : (2 : Nat) ^ 320 = 2 * 2 ^ 319 := by rw [← pow_succ']
      by_cases he : e < 2 ^ 319
      · rw [if_pos he]
        exact ⟨by show 2 ^ 319 ≤ 2 * e; omega, by show 2 * e < 2 ^ 320; omega, by show 320 ≤ 321; omega⟩
      · rw [if_neg he]
        exact ⟨not_lt.mp he, hs.2, le_refl 320⟩

/-- `exp(-a)` lies strictly between 0 and 1 for `a > 0` (R277). -/
theorem expNeg_bounds {a : Rat} (ha : 0 < a) : 0 < expNeg Config.chip a ∧ expNeg Config.chip a < 1 :=
  expNegRef_bounds ha

/-! ## sqrt -/

theorem isqrtBits_sq (n : Nat) : ∀ fuel r, r * r ≤ n → isqrtBits n fuel r * isqrtBits n fuel r ≤ n
  | 0, _, h => h
  | fuel + 1, r, h => by
    simp only [isqrtBits]
    split
    · exact isqrtBits_sq n fuel _ ‹_›
    · exact isqrtBits_sq n fuel r h

theorem isqrt_sq_le (n : Nat) : isqrt n * isqrt n ≤ n := isqrtBits_sq n _ 0 (Nat.zero_le n)

/-- A square root of the reference numerics is not negative, and its square does not exceed the magnitude of its
argument. -/
theorem sqrtRef_bounds (q : Rat) : 0 ≤ sqrtRef q ∧ sqrtRef q * sqrtRef q ≤ |q| := by
  have hd : (0 : Rat) < (q.den : Rat) := by exact_mod_cast q.den_pos
  have habs : |q| = (q.num.natAbs : Rat) / (q.den : Rat) := by
    conv_lhs => rw [← Rat.num_div_den q]
    rw [abs_div, abs_of_pos hd, Nat.cast_natAbs, Int.cast_abs]
  unfold sqrtRef
  simp only
  split
  · rename_i h
    rw [Rat.mkRat_eq_div, habs]
    refine ⟨by positivity, ?_⟩
    rw [div_mul_div_comm]
    have h1 : ((isqrt q.num.natAbs : Nat) : Rat) * (isqrt q.num.natAbs : Nat) = (q.num.natAbs : Rat) := by
      exact_mod_cast congrArg (fun k : Nat => (k : Rat)) h.1
    have h2 : ((isqrt q.den : Nat) : Rat) * (isqrt q.den : Nat) = (q.den : Rat) := by
      exact_mod_cast congrArg (fun k : Nat => (k : Rat)) h.2
    rw [h2, Int.cast_natCast, h1]
  · generalize hs : 2 ^ (fixBits + (Nat.log2 q.den - Nat.log2 q.num.natAbs)) = s
    have hsp : 0 < s := by rw [← hs]; positivity
    have hsq : (0 : Rat) < (s : Rat) := by exact_mod_cast hsp
    rw [Rat.mkRat_eq_div, habs, Int.cast_natCast]
    refine ⟨by positivity, ?_⟩
    rw [div_mul_div_comm, div_le_div_iff₀ (by positivity) hd]
    have h1 := isqrt_sq_le (q.num.natAbs * s * s / q.den)
    have h2 : q.num.natAbs * s * s / q.den * q.den ≤ q.num.natAbs * s * s := Nat.div_mul_le_self _ _
    have h3 : isqrt (q.num.natAbs * s * s / q.den) * isqrt (q.num.natAbs * s * s / q.den) * q.den
        ≤ q.num.natAbs * (s * s) := by
      calc _ ≤ q.num.natAbs * s * s / q.den * q.den := Nat.mul_le_mul_right _ h1
        _ ≤ q.num.natAbs * s * s := h2
        _ = q.num.natAbs * (s * s) := by ring
    exact_mod_cast h3

/-- A square root is not negative, and its square does not exceed the magnitude of its argument. -/
theorem sqrtRat_bounds (q : Rat) : 0 ≤ sqrtRat Config.chip q ∧ sqrtRat Config.chip q * sqrtRat Config.chip q ≤ |q| :=
  sqrtRef_bounds q

/-! ## rnd32 -/

theorem scale2_nonneg (m : Nat) : ∀ t : Int, 0 ≤ scale2 m t
  | .ofNat t => by simp only [scale2]; positivity
  | .negSucc t => by rw [scale2, Rat.mkRat_eq_div]; positivity

theorem scale2_eq (m : Nat) : ∀ t : Int, scale2 m t = (m : Rat) * (2 : Rat) ^ t
  | .ofNat t => by simp only [scale2]; push_cast; rfl
  | .negSucc t => by
    rw [scale2, Rat.mkRat_eq_div, zpow_negSucc]
    push_cast
    rw [div_eq_mul_inv]

theorem roundMagnitude_nonneg (n d : Nat) : 0 ≤ roundMagnitude n d := by
  unfold roundMagnitude
  simp only
  split <;> exact scale2_nonneg _ _

/-- The magnitude of a binary32 pattern is finite and not negative. -/
theorem binary32Magnitude_bounds (b : BitVec 32) : 0 ≤ binary32Magnitude b ∧ binary32Magnitude b < 2 ^ 128 := by
  have hs : (b &&& 0x7FFFFFFF).toNat / 2 ^ 31 = 0 := by
    have : (b &&& 0x7FFFFFFF).toNat ≤ 0x7FFFFFFF := Nat.and_le_right
    omega
  unfold binary32Magnitude binary32Value
  simp only [hs, if_true]
  generalize (b &&& 0x7FFFFFFF).toNat = n
  have hm : n % 2 ^ 23 < 2 ^ 23 := Nat.mod_lt _ (by norm_num)
  have he : n / 2 ^ 23 % 256 % 255 < 255 := Nat.mod_lt _ (by norm_num)
  generalize n % 2 ^ 23 = m at hm
  generalize n / 2 ^ 23 % 256 % 255 = e at he
  have hq : (m : Rat) < 2 ^ 23 := by exact_mod_cast hm
  constructor
  · split <;> exact scale2_nonneg _ _
  · split
    · rw [scale2_eq]
      have h1 : (2 : Rat) ^ (-149 : Int) ≤ 1 := zpow_le_one_of_nonpos₀ (by norm_num) (by norm_num)
      calc (m : Rat) * 2 ^ (-149 : Int) ≤ (m : Rat) * 1 := mul_le_mul_of_nonneg_left h1 (Nat.cast_nonneg m)
        _ < 2 ^ 128 := by linarith [show (2 : Rat) ^ 23 < 2 ^ 128 by norm_num]
    · rw [scale2_eq]
      have h1 : (2 : Rat) ^ ((e : Int) - 150) ≤ 2 ^ (104 : Int) := zpow_le_zpow_right₀ (by norm_num) (by omega)
      have h2 : (0 : Rat) < 2 ^ ((e : Int) - 150) := by positivity
      have h3 : (2 : Rat) ^ (104 : Int) * 2 ^ 24 = 2 ^ 128 := by norm_num
      push_cast
      calc ((m : Rat) + 2 ^ 23) * 2 ^ ((e : Int) - 150) < 2 ^ 24 * 2 ^ ((e : Int) - 150) := by
            apply mul_lt_mul_of_pos_right _ h2
            linarith [show (2 : Rat) ^ 24 = 2 ^ 23 + 2 ^ 23 by norm_num]
        _ ≤ 2 ^ 24 * 2 ^ (104 : Int) := mul_le_mul_of_nonneg_left h1 (by positivity)
        _ = 2 ^ 128 := by rw [mul_comm]; exact h3

/-- The magnitude stored lies in the binary32 range. -/
theorem storedMagnitude_bounds (x : Rat) : 0 ≤ storedMagnitude x ∧ storedMagnitude x < 2 ^ 128 := by
  unfold storedMagnitude
  simp only
  split
  · exact ⟨roundMagnitude_nonneg _ _, ‹_›⟩
  · exact binary32Magnitude_bounds _

/-- Storing keeps the sign (R12). -/
theorem rnd32_nonneg {x : Rat} (h : 0 ≤ x) : 0 ≤ rnd32 Config.chip x := by
  show 0 ≤ rnd32Ref x
  unfold rnd32Ref
  split
  · exact le_refl 0
  · rename_i hn
    rw [if_pos (lt_of_le_of_ne (Rat.num_nonneg.mpr h) (Ne.symm hn))]
    exact (storedMagnitude_bounds x).1

/-- Every stored value lies in the binary32 range (R12). -/
theorem rnd32_abs_lt (x : Rat) : |rnd32 Config.chip x| < 2 ^ 128 := by
  show |rnd32Ref x| < 2 ^ 128
  have h := storedMagnitude_bounds x
  unfold rnd32Ref
  split
  · norm_num
  · split
    · rw [abs_of_nonneg h.1]; exact h.2
    · rw [abs_neg, abs_of_nonneg h.1]; exact h.2

theorem snap_nonneg {x : Rat} (h0 : 0 ≤ x) : 0 ≤ snap x := by
  have hfl : (0 : Int) ≤ (x * 2 ^ 200 + 1 / 2).floor := Rat.le_floor_iff.mpr (by push_cast; positivity)
  unfold snap
  rw [Rat.mkRat_eq_div]
  exact div_nonneg (by exact_mod_cast hfl) (by positivity)

/-- A value that is not negative, computed from approximated functions, is stored as one. -/
theorem rndApprox_nonneg {x : Rat} (h : 0 ≤ x) : 0 ≤ rndApprox Config.chip x := rnd32_nonneg (snap_nonneg h)

/-! ## log2 -/

theorem log2Digits_lt (fuel : Nat) : ∀ m, log2Digits fuel m < 2 ^ fuel := by
  induction fuel with
  | zero => intro m; simp [log2Digits]
  | succ fuel ih =>
    intro m
    have h1 := ih (m * m / fixOne / 2)
    have h2 := ih (m * m / fixOne)
    simp only [log2Digits, pow_succ]
    split <;> omega

/-- The whole part of the reference logarithm is exact (R181). -/
theorem log2Ref_floor (q : Rat) : (log2Ref q).floor = floorLog2 q.num.natAbs q.den := by
  have h := log2Digits_lt log2Bits (mantissaFix q.num.natAbs q.den (floorLog2 q.num.natAbs q.den))
  have hp : (0 : Rat) < ((2 ^ log2Bits : Nat) : Rat) := by positivity
  unfold log2Ref
  simp only
  rw [Rat.mkRat_eq_div]
  generalize log2Digits _ _ = d at h
  have hd : (d : Rat) < ((2 ^ log2Bits : Nat) : Rat) := by exact_mod_cast h
  have h0 : 0 ≤ ((d : Int) : Rat) / ((2 ^ log2Bits : Nat) : Rat) := by positivity
  have h1 : ((d : Int) : Rat) / ((2 ^ log2Bits : Nat) : Rat) < 1 := by
    rw [div_lt_one hp]; exact_mod_cast h
  refine le_antisymm ?_ ?_
  · by_contra hc
    push Not at hc
    have := Rat.le_floor_iff.mp (Int.add_one_le_iff.mpr hc)
    push_cast at this h1
    linarith
  · exact Rat.le_floor_iff.mpr (by linarith)

end Sys2Proof.Machine
end

