-- ==== Sys2Proof/Laws/Chain.lean ====
section
/-! SUPPORT. What the data path's shared operations do: the designer, the downsamplers, the demodulators and the chains
(44_fir_filter R221; 45_downsamplers R237, R241; 46_fm_am_demodulators R252, R256; 48_pipelines_and_input R289 to
R291). -/

namespace Sys2Proof.Machine

variable {c : Config.Params}

/-! ## The designer -/

theorem sumRat_eq : ∀ l : List Rat, sumRat l = l.sum
  | [] => rfl
  | x :: xs => by rw [sumRat, sumRat_eq, List.sum_cons]

@[simp] theorem rawTaps_length (rate f : Rat) (n : Nat) : (rawTaps c rate f n).length = oddLength n := by simp [rawTaps]

@[simp] theorem normalizeTaps_length (v : List Rat) (t : Rat) : (normalizeTaps c v t).length = v.length := by
  unfold normalizeTaps
  split <;> simp

/-- Every cutoff but 0 has coefficients (R221, G10). -/
theorem lowpass_some {rate f : Rat} {n : Nat} (h : f ≠ 0) :
    lowpass c rate f n = some (normalizeTaps c (rawTaps c rate f n) (sumRat (rawTaps c rate f n))) := by
  simp [lowpass, h]

/-- The coefficients are odd in number (R221). -/
theorem lowpass_length {rate f : Rat} {n : Nat} {coefs : List Rat} (h : lowpass c rate f n = some coefs) :
    coefs.length = oddLength n := by
  unfold lowpass at h
  split at h
  · cases h
  · injection h with h
    simp [← h]

/-! ## Downsampling -/

/-- `d.downsample` at its own rate gives the outputs at the read positions and keeps the rates. -/
theorem Downsampler.run_ok {d : Downsampler} {x : MonoFloat} (h : x.rate = d.inRate) :
    d.run c x = .ok (
      { samples := decimate c (d.filter.load x.samples) x.samples.length d.inRate d.outRate, rate := d.outRate }, { d with filter := d.filter.load x.samples }) := by
  simp [Downsampler.run, h]

@[simp] theorem decimate_length (f : Fir) (n : Nat) (inRate outRate : Rat) :
    (decimate c f n inRate outRate).length = outLen n inRate outRate := by simp [decimate]

/-- `q.downsample` at its own rate. -/
theorem IqDownsampler.run_ok {q : IqDownsampler} {x : IqFloat} (h : x.rate = q.inRate) :
    q.run c x = .ok (
      { samples := decimatePairs c (q.filter.load (interleave x.samples)) x.samples.length q.inRate q.outRate
        rate := q.outRate }, { q with filter := q.filter.load (interleave x.samples) }) := by
  simp [IqDownsampler.run, h]

@[simp] theorem decimatePairs_length (f : Fir) (n : Nat) (inRate outRate : Rat) :
    (decimatePairs c f n inRate outRate).length = outLen n inRate outRate := by simp [decimatePairs]

/-! ## Demodulating -/

@[simp] theorem discriminateAll_length (gain : Rat) : ∀ (l : List (Rat × Rat)) (pI pQ : Rat),
    (discriminateAll c gain pI pQ l).length = l.length
  | [], _, _ => rfl
  | (i, q) :: l, pI, pQ => by simp [discriminateAll, discriminateAll_length gain l i q]

@[simp] theorem envelope_length (iq : List (Rat × Rat)) : (envelope c iq).length = iq.length := by simp [envelope]

@[simp] theorem amSamples_length (y : List Rat) (draw : Nat) : (amSamples c y draw).length = y.length := by
  unfold amSamples
  simp only
  split <;> simp

/-- `fm.demodulate` at its own rate: as many samples as the downsampler gives, the rates kept (R252). -/
theorem Fm.run_ok {m : Fm} {x : IqFloat} (h : x.rate = m.iqds.inRate) : ∃ (y : MonoFloat) (m' : Fm),
    m.run c x = .ok (y, m') ∧ y.rate = m.iqds.outRate ∧ m'.iqds.inRate = m.iqds.inRate ∧
      m'.iqds.outRate = m.iqds.outRate ∧ y.samples.length = outLen x.samples.length m.iqds.inRate m.iqds.outRate := by
  unfold Fm.run
  rw [IqDownsampler.run_ok h]
  exact ⟨_, _, rfl, rfl, rfl, rfl, by simp⟩

/-- `am.demodulate` at its own rate (R256). -/
theorem Am.run_ok {m : Am} {x : IqFloat} {draw : Nat} (h : x.rate = m.iqds.inRate) :
    ∃ (y : MonoFloat) (m' : Am), m.run c x draw = .ok (y, m') ∧ y.rate = m.iqds.outRate ∧
      m'.iqds.inRate = m.iqds.inRate ∧ m'.iqds.outRate = m.iqds.outRate ∧
      y.samples.length = outLen x.samples.length m.iqds.inRate m.iqds.outRate := by
  unfold Am.run
  rw [IqDownsampler.run_ok h]
  dsimp only
  split
  · rename_i he
    refine ⟨_, _, rfl, rfl, rfl, rfl, ?_⟩
    rw [← decimatePairs_length (c := c) (m.iqds.filter.load (interleave x.samples)), he]
    rfl
  · exact ⟨_, _, rfl, rfl, rfl, rfl, by simp⟩

/-! ## Separating -/

@[simp] theorem Stereo.samples_length : ∀ (l : List Rat) (st : Stereo), (st.samples c l).1.length = l.length
  | [], _ => rfl
  | x :: l, st => by simp [Stereo.samples, Stereo.samples_length l]

theorem Stereo.samples_rate : ∀ (l : List Rat) (st : Stereo), (st.samples c l).2.sampleRate = st.sampleRate
  | [], _ => rfl
  | x :: l, st => Stereo.samples_rate l (st.sample c x).2

/-- `st.separate` gives as many samples as it gets, at the separator's rate (R273). -/
theorem Stereo.run_shape (c : Config.Params) (st : Stereo) (x : List Rat) : (st.run c x).1.samples.length = x.length ∧
    (st.run c x).1.rate = st.sampleRate ∧ (st.run c x).2.sampleRate = st.sampleRate := by
  unfold Stereo.run
  split
  · rename_i h
    exact ⟨by rw [h], rfl, rfl⟩
  · exact ⟨Stereo.samples_length _ _, rfl, Stereo.samples_rate _ _⟩

/-! ## The chains -/

theorem Config.wbfmAudioCutoff_pos (c : Config.Tables) : 0 < c.wbfmAudioCutoff := by
  unfold Config.Tables.wbfmAudioCutoff
  rw [Rat.mkRat_eq_div]
  push_cast
  positivity

/-- `SIGNAL_LEVEL_FM` is never negative, and positive for a valid composite (R289). -/
theorem Config.signalLevelFm_bounds (c : Config.Tables) (m : Fm) :
    0 ≤ c.signalLevelFm m ∧ (c.validComposite m = true → 0 < c.signalLevelFm m) := by
  unfold Config.Tables.signalLevelFm
  rw [Rat.mkRat_eq_div]
  constructor
  · split <;> push_cast <;> positivity
  · intro h
    rw [if_pos h]
    push_cast
    positivity

/-- Every descriptor the block accepts has a chain (R289 to R292). -/
theorem makeChain_some (c : Config.Params) {mode : Mode} (h : mode.legal = true) : ∃ ch, makeChain c mode = some ch := by
  cases mode with
  | wbfm tau =>
    unfold makeChain makeWbfm
    rw [lowpass_some (by simp [Config.wbfmFilterShare, Config.wbfmMaxF]),
      lowpass_some (Config.wbfmAudioCutoff_pos c.toTables).ne']
    exact ⟨_, rfl⟩
  | nbfm maxF =>
    have h0 : maxF ≠ 0 := by
      simp only [Mode.legal, decide_eq_true_eq] at h
      intro h0
      rw [h0] at h
      exact absurd h (by norm_num)
    show ∃ ch, makeNbfm c maxF = some ch
    unfold makeNbfm
    rw [lowpass_some (by simp [Config.nbfmFilterShare, h0]), lowpass_some (by simp [Config.nbfmAudioCutoff])]
    exact ⟨_, rfl⟩
  | am bandwidth =>
    have h0 : bandwidth ≠ 0 := by
      simp only [Mode.legal, decide_eq_true_eq] at h
      exact h.ne'
    show ∃ ch, makeAm c bandwidth = some ch
    unfold makeAm
    rw [lowpass_some (by simp [Config.amFilterShare, h0])]
    exact ⟨_, rfl⟩
  | ssb b u => cases h

end Sys2Proof.Machine
end

