-- ==== Sys2Proof/Laws/Codec.lean ====
section
/-! SUPPORT. The laws of readers and writers of operands: what a writer writes, its reader reads, and leaves the rest; and
the bytes of a setup packet. -/

namespace Sys2Proof

open Sys2Proof.Machine

/-- The reader `g` reads `a` from `bs` and leaves whatever follows. -/
def Reads {α : Type} (g : Reader α) (bs : List Byte) (a : α) : Prop := ∀ rest, g (bs ++ rest) = .ok (a, rest)

theorem Reads.pure {α : Type} (a : α) : Reads (Pure.pure a : Reader α) [] a := fun _ => rfl

theorem Reads.bind {α β : Type} {g : Reader α} {f : α → Reader β} {bs cs : List Byte} {a : α} {b : β}
    (hg : Reads g bs a) (hf : Reads (f a) cs b) : Reads (g >>= f) (bs ++ cs) b := by
  intro rest
  show (g (bs ++ cs ++ rest) >>= fun p => f p.1 p.2) = _
  rw [List.append_assoc, hg]
  exact hf rest

/-- The last operand of an operation. -/
theorem Reads.last {α β : Type} {g : Reader α} {f : α → β} {bs : List Byte} {a : α} (hg : Reads g bs a) :
    Reads (g >>= fun x => Pure.pure (f x)) bs (f a) := by
  have h := Reads.bind (f := fun x => Pure.pure (f x)) hg (Reads.pure (f a))
  rwa [List.append_nil] at h

theorem reads_byte (b : Byte) : Reads getByte [b] b := fun _ => rfl

theorem Reads.byte {β : Type} {f : Byte → Reader β} {b : Byte} {cs : List Byte} {x : β} (hf : Reads (f b) cs x) :
    Reads (getByte >>= f) (b :: cs) x := Reads.bind (reads_byte b) hf

/-! ## Numbers -/

theorem reads_LE : ∀ (n v : Nat), v < 256 ^ n → Reads (getLE n) (leBytes n v) v
  | 0, v, h, rest => by
    have : v = 0 := by simpa using h
    subst this
    rfl
  | n + 1, v, h, rest => by
    have hv : v / 256 < 256 ^ n := by
      rw [Nat.div_lt_iff_lt_mul (by decide)]
      rwa [Nat.pow_succ] at h
    have ih := reads_LE n (v / 256) hv rest
    simp only [getLE, leBytes, List.cons_append, ih, BitVec.toNat_ofNat]
    rw [show v % 2 ^ 8 + 256 * (v / 256) = v from Nat.mod_add_div v 256]

theorem reads_word (w : Word16) : Reads getWord (putWord w) w := by
  have h := Reads.last (f := fun v => BitVec.ofNat 16 v) (reads_LE 2 w.toNat w.isLt)
  rwa [BitVec.ofNat_toNat, BitVec.setWidth_eq] at h

theorem reads_nat {n : Nat} (h : fitsNat n = true) : Reads getNat (putNat n) n := by
  simp only [fitsNat, decide_eq_true_eq] at h
  exact reads_LE 8 n (by simpa using h)

/-- The two's complement of a number that fits `n` bytes reads back as the number. -/
theorem signedOf_put {n : Nat} {v : Int} (hn : 0 < n) (h : -(2 ^ (8 * n - 1)) ≤ v ∧ v < 2 ^ (8 * n - 1)) :
    signedOf n (v % 2 ^ (8 * n)).toNat = v ∧ (v % 2 ^ (8 * n)).toNat < 256 ^ n := by
  have hp : (2 : Int) ^ (8 * n) = 2 * 2 ^ (8 * n - 1) := by
    rw [show 8 * n = 8 * n - 1 + 1 by omega, Int.pow_succ]
    simp [Int.mul_comm]
  have hq : (256 : Nat) ^ n = 2 ^ (8 * n) := by rw [show (256 : Nat) = 2 ^ 8 by decide, ← Nat.pow_mul]
  have hc : ((2 : Nat) ^ (8 * n - 1) : Nat) = ((2 : Int) ^ (8 * n - 1)).toNat := by
    rw [show (2 : Int) = ((2 : Nat) : Int) from rfl, ← Int.natCast_pow, Int.toNat_natCast]
  have hq2 : ((2 : Nat) ^ (8 * n) : Nat) = ((2 : Int) ^ (8 * n)).toNat := by
    rw [show (2 : Int) = ((2 : Nat) : Int) from rfl, ← Int.natCast_pow, Int.toNat_natCast]
  have hpos : (0 : Int) < 2 ^ (8 * n - 1) := by positivity
  rw [hq, hq2]
  unfold signedOf
  rw [hc, hp]
  generalize (2 : Int) ^ (8 * n - 1) = p at *
  rcases lt_or_ge v 0 with hv | hv
  · have hm : v % (2 * p) = v + 2 * p := by
      rw [← Int.add_emod_right, Int.emod_eq_of_lt (by omega) (by omega)]
    rw [hm]
    refine ⟨?_, by omega⟩
    rw [if_neg (by omega)]
    omega
  · have hm : v % (2 * p) = v := Int.emod_eq_of_lt hv (by omega)
    rw [hm]
    refine ⟨?_, by omega⟩
    rw [if_pos (by omega)]
    omega

theorem reads_int {v : Int} (h : fitsInt v = true) : Reads getInt (putInt v) v := by
  simp only [fitsInt, Bool.and_eq_true, decide_eq_true_eq] at h
  have hs := signedOf_put (n := 8) (v := v) (by decide) h
  have hr := Reads.last (f := signedOf 8) (reads_LE 8 _ hs.2)
  rwa [hs.1] at hr

theorem reads_rat {q : Rat} (h : fitsRat q = true) : Reads getRat (putRat q) q := by
  simp only [fitsRat, Bool.and_eq_true, decide_eq_true_eq] at h
  have hs := signedOf_put (n := 20) (v := q.num) (by decide) h.1
  have hd : q.den - 1 < 256 ^ 20 := by
    have h1 := q.den_pos
    have h2 := h.2
    have h3 : (256 : Nat) ^ 20 = 2 ^ 160 := by decide
    omega
  have hq : mkRat (signedOf 20 (q.num % 2 ^ (8 * 20)).toNat) (q.den - 1 + 1) = q := by
    rw [hs.1, Nat.sub_add_cancel q.den_pos, Rat.mkRat_self]
  have hr := Reads.bind (f := fun n => getLE 20 >>= fun d => Pure.pure (mkRat (signedOf 20 n) (d + 1)))
    (reads_LE 20 _ hs.2)
    (Reads.last (f := fun d => mkRat (signedOf 20 (q.num % 2 ^ (8 * 20)).toNat) (d + 1)) (reads_LE 20 _ hd))
  rwa [hq] at hr

theorem reads_bool (b : Bool) : Reads getBool (putBool b) b := by
  cases b <;> exact fun _ => rfl

/-! ## Sequences and structured operands -/

theorem reads_many {α : Type} {g : Reader α} {p : α → List Byte} :
    ∀ {l : List α}, (∀ a ∈ l, Reads g (p a) a) → Reads (getMany g l.length) (l.flatMap p) l
  | [], _ => fun _ => rfl
  | a :: as, h => by
    have ih := reads_many (l := as) fun b hb => h b (List.mem_cons_of_mem _ hb)
    have hl := Reads.last (f := fun bs => a :: bs) ih
    exact Reads.bind (f := fun x => getMany g as.length >>= fun bs => Pure.pure (x :: bs)) (h a List.mem_cons_self) hl

theorem reads_list {α : Type} {g : Reader α} {p : α → List Byte} {l : List α} (hl : fitsLen l = true)
    (h : ∀ a ∈ l, Reads g (p a) a) : Reads (getList g) (putList p l) l := by
  simp only [fitsLen, decide_eq_true_eq] at hl
  exact Reads.bind (reads_LE 4 l.length (by simpa using hl)) (reads_many h)

theorem reads_bytes {l : List Byte} (h : fitsLen l = true) : Reads (getList getByte) (putList putByte l) l :=
  reads_list h fun b _ => reads_byte b

theorem reads_rats {l : List Rat} (h : fitsRats l = true) : Reads (getList getRat) (putList putRat l) l := by
  simp only [fitsRats, Bool.and_eq_true, List.all_eq_true] at h
  exact reads_list h.1 fun q hq => reads_rat (h.2 q hq)

theorem reads_pair {p : Rat × Rat} (h1 : fitsRat p.1 = true) (h2 : fitsRat p.2 = true) :
    Reads getPair (putPair p) p :=
  Reads.bind (f := fun a => getRat >>= fun b => Pure.pure (a, b)) (reads_rat h1)
    (Reads.last (f := fun b => (p.1, b)) (reads_rat h2))

theorem reads_pairs {l : List (Rat × Rat)} (h : fitsPairs l = true) :
    Reads (getList getPair) (putList putPair l) l := by
  simp only [fitsPairs, Bool.and_eq_true, List.all_eq_true] at h
  exact reads_list h.1 fun p hp => reads_pair (h.2 p hp).1 (h.2 p hp).2

/-- A byte written in eight bytes reads back as itself (R123). -/
theorem reads_wide (b : Byte) : Reads getWide (putWide b) b := by
  have hb : b.toNat < 256 ^ 8 := Nat.lt_of_lt_of_le b.isLt (by decide)
  have h := Reads.last (f := fun v => BitVec.ofNat 8 v) (reads_LE 8 b.toNat hb)
  rwa [BitVec.ofNat_toNat, BitVec.setWidth_eq] at h

theorem reads_triple (t : Triple) : Reads getTriple (putTriple t) t :=
  Reads.byte (Reads.bind (reads_wide t.value) (Reads.last (reads_wide t.mask)))

theorem reads_triples {l : List Triple} (h : fitsLen l = true) : Reads (getList getTriple) (putList putTriple l) l :=
  reads_list h fun t _ => reads_triple t

theorem reads_gain {g : Gain} (h : fitsGain g = true) : Reads getGain (putGain g) g := by
  cases g with
  | auto => exact fun _ => rfl
  | manual dB => exact Reads.bind (reads_bool true) (Reads.last (f := Gain.manual) (reads_rat h))

theorem reads_mode {m : Mode} (h : fitsMode m = true) : Reads getMode (putMode m) m := by
  cases m with
  | wbfm tau =>
    cases tau with
    | none => exact fun _ => rfl
    | some tau =>
      exact Reads.byte (Reads.bind (reads_bool true) (Reads.last (f := fun t => Mode.wbfm (some t)) (reads_rat h)))
  | nbfm maxF => exact Reads.byte (Reads.last (f := Mode.nbfm) (reads_rat h))
  | am bandwidth => exact Reads.byte (Reads.last (f := Mode.am) (reads_rat h))
  | ssb bandwidth upper =>
    exact Reads.byte (Reads.bind (reads_rat h) (Reads.last (f := Mode.ssb bandwidth) (reads_bool upper)))

/-! ## Setup packets (R100) -/

theorem append_toNat {m n : Nat} (x : BitVec m) (y : BitVec n) : (x ++ y).toNat = x.toNat * 2 ^ n + y.toNat := by
  rw [BitVec.toNat_append, ← Nat.shiftLeft_add_eq_or_of_lt y.isLt, Nat.shiftLeft_eq]

/-- The setup packet as a number (R100). -/
theorem setupPacket_toNat (requestType : Byte) (value index length : Word16) :
    (setupPacket requestType value index length).toNat =
      requestType.toNat + 2 ^ 16 * value.toNat + 2 ^ 32 * index.toNat + 2 ^ 48 * length.toNat := by
  have h0 : Config.usbRequest.toNat = 0 := rfl
  unfold setupPacket
  simp only [append_toNat, h0]
  omega

/-- The bytes of a setup packet: the direction, the request 0, the three words. -/
theorem setupPacket_bytes (requestType : Byte) (value index length : Word16) :
    leBytes 8 (setupPacket requestType value index length).toNat =
      requestType :: 0 :: (putWord value ++ putWord index ++ putWord length) := by
  have h1 := requestType.isLt
  have h2 := value.isLt
  have h3 := index.isLt
  have h4 := length.isLt
  have hz : (0 : Byte).toNat = 0 := rfl
  rw [setupPacket_toNat]
  simp only [putWord, leBytes, List.cons_append, List.nil_append, List.cons.injEq, and_true]
  refine ⟨?_, ?_, ?_, ?_, ?_, ?_, ?_, ?_⟩ <;>
    (apply BitVec.eq_of_toNat_eq; simp only [BitVec.toNat_ofNat, hz]; omega)

end Sys2Proof
end

