-- ==== Sys2Proof/Laws/Ctl.lean ====
section
/-! SUPPORT. How a control-path program runs: one equation for each primitive, and the rule that carries a property
through a program. -/

namespace Sys2Proof.Machine

@[simp] theorem Ctl.run_pure {α : Type} (a : α) (s : State) : (pure a : Ctl α) s = .ok a s := rfl

theorem Ctl.run_bind {α β : Type} (m : Ctl α) (f : α → Ctl β) (s : State) :
    (m >>= f) s = match m s with
      | .ok a s' => f a s'
      | .error e s' => .error e s' := by
  show EStateM.bind m f s = _
  unfold EStateM.bind
  cases m s <;> rfl

@[simp] theorem Ctl.run_get (s : State) : (get : Ctl State) s = .ok s s := rfl

@[simp] theorem Ctl.run_set (t s : State) : (set t : Ctl PUnit) s = .ok ⟨⟩ t := rfl

@[simp] theorem Ctl.run_modify (f : State → State) (s : State) : (modify f : Ctl PUnit) s = .ok ⟨⟩ (f s) := rfl

@[simp] theorem Ctl.run_throw {α : Type} (e : Stop) (s : State) : (throw e : Ctl α) s = .error e s := rfl

@[simp] theorem refuse_run {α : Type} (r : Refusal) (s : State) : (refuse r : Ctl α) s = .error (.refused r) s := rfl

@[simp] theorem faultWith_run {α : Type} (f : Fault) (s : State) : (faultWith f : Ctl α) s = .error (.fault f) s := rfl

@[simp] theorem raise_run {α : Type} (e : Err) (s : State) : (raise e : Ctl α) s = .error (.raised e) s := rfl

@[simp] theorem require_true (r : Refusal) (s : State) : require true r s = .ok () s := rfl

@[simp] theorem require_false (r : Refusal) (s : State) : require false r s = .error (.refused r) s := rfl

theorem require_ok {b : Bool} (h : b = true) (r : Refusal) (s : State) : require b r s = .ok () s := by
  subst h; rfl

theorem require_run (b : Bool) (r : Refusal) (s : State) :
    require b r s = if b then .ok () s else .error (.refused r) s := by cases b <;> rfl

@[simp] theorem word_some {α : Type} (v : α) (s : State) : word (some v) s = .ok v s := rfl

@[simp] theorem issue_run (t : Transfer) (s : State) :
    issue t s = .ok (s.drawNo, answerOf s.plan s.drawNo) (s.issued t) := rfl

@[simp] theorem advance_run (s : State) : advance s = .ok () s.advanced := rfl

@[simp] theorem seqAt_run (op : SeqOp) (k : Nat) (s : State) :
    seqAt op k s = .ok () (s.atPos { op := op, step := k }) := rfl

@[simp] theorem seqDone_run (s : State) : seqDone s = .ok () (s.atPos SeqPos.rest) := rfl

theorem target_ok {value index : Word16} {t : Target} (h : targetOf value index = .ok t) (s : State) :
    target value index s = .ok t s := by simp only [target, h]; rfl

/-- A program that has ended well, followed by another. -/
theorem Ctl.run_bind_ok {α β : Type} {m : Ctl α} {f : α → Ctl β} {s s' : State} {a : α} (h : m s = .ok a s') :
    (m >>= f) s = f a s' := by simp only [Ctl.run_bind, h]

/-- A program that has raised an error ends the program it is part of (R310 item 1). -/
theorem Ctl.run_bind_error {α β : Type} {m : Ctl α} {f : α → Ctl β} {s s' : State} {e : Stop}
    (h : m s = .error e s') : (m >>= f) s = .error e s' := by simp only [Ctl.run_bind, h]

theorem runOp_ok {m : Ctl Result} {s s' : State} {r : Result} (h : m s = .ok r s') :
    runOp m s = .next (complete r s') := by simp only [runOp, h]

theorem runOp_refused {m : Ctl Result} {s s' : State} {r : Refusal} (h : m s = .error (.refused r) s') :
    runOp m s = .refused r := by simp only [runOp, h]

theorem runOp_raised {m : Ctl Result} {s s' : State} {e : Err} (h : m s = .error (.raised e) s') :
    runOp m s = .next (takeError e s') := by simp only [runOp, h]

/-- `P` holds of whatever state a program leaves, with a value, with a raised error, or with an error that has ended the host
program, if it held before; and every error it raises sets `FAULT` (R308). -/
def Ctl.Keeps {α : Type} (P : State → Prop) (m : Ctl α) : Prop :=
  ∀ s, P s → match m s with
    | .ok _ s' => P s'
    | .error (.raised e) s' => P s' ∧ e.kind.setsFault = true
    | .error .ended s' => P s' ∧ s'.ended = true
    | .error (.refused _) _ => True
    | .error (.fault _) _ => True

theorem Ctl.Keeps.pure {α : Type} {P : State → Prop} (a : α) : Ctl.Keeps P (pure a : Ctl α) := fun _ h => h

theorem Ctl.Keeps.bind {α β : Type} {P : State → Prop} {m : Ctl α} {f : α → Ctl β} (hm : Ctl.Keeps P m)
    (hf : ∀ a, Ctl.Keeps P (f a)) : Ctl.Keeps P (m >>= f) := by
  intro s h
  have hs := hm s h
  rw [Ctl.run_bind]
  revert hs
  cases m s with
  | ok a s' => exact fun hs => hf a s' hs
  | error e s' => cases e <;> exact fun hs => hs

theorem Ctl.Keeps.get {P : State → Prop} : Ctl.Keeps P (get : Ctl State) := fun _ h => h

/-- Reading the state and going on with what was read. -/
theorem Ctl.Keeps.getBind {β : Type} {P : State → Prop} {f : State → Ctl β}
    (hf : ∀ s, P s → match f s s with
      | .ok _ s' => P s'
      | .error (.raised e) s' => P s' ∧ e.kind.setsFault = true
      | .error .ended s' => P s' ∧ s'.ended = true
      | .error (.refused _) _ => True
      | .error (.fault _) _ => True) : Ctl.Keeps P (MonadState.get >>= f) := fun s h => hf s h

theorem Ctl.Keeps.modify {P : State → Prop} {g : State → State} (hg : ∀ s, P s → P (g s)) :
    Ctl.Keeps P (modify g : Ctl PUnit) := fun s h => hg s h

theorem Ctl.Keeps.refuse {α : Type} {P : State → Prop} (r : Refusal) :
    Ctl.Keeps P (Sys2Proof.Machine.refuse r : Ctl α) := fun _ _ => trivial

theorem Ctl.Keeps.raise {α : Type} {P : State → Prop} {e : Err} (he : e.kind.setsFault = true) :
    Ctl.Keeps P (Sys2Proof.Machine.raise e : Ctl α) := fun _ h => ⟨h, he⟩

theorem Ctl.Keeps.word {α : Type} {P : State → Prop} (o : Option α) : Ctl.Keeps P (Sys2Proof.Machine.word o) := by
  cases o
  · exact Ctl.Keeps.refuse _
  · exact Ctl.Keeps.pure _

theorem Ctl.Keeps.require {P : State → Prop} (b : Bool) (r : Refusal) :
    Ctl.Keeps P (Sys2Proof.Machine.require b r) := by
  cases b
  · exact fun _ _ => trivial
  · exact fun _ h => h

theorem Ctl.Keeps.ite {α : Type} {P : State → Prop} {c : Prop} [Decidable c] {m n : Ctl α} (hm : Ctl.Keeps P m)
    (hn : Ctl.Keeps P n) : Ctl.Keeps P (if c then m else n) := by
  split
  · exact hm
  · exact hn

/-- What a program keeps, its step keeps too, where the result and a taken error do not matter to it. -/
theorem runOp_keeps {P : State → Prop} {m : Ctl Result} (hm : Ctl.Keeps P m)
    (hr : ∀ r s, P s → P (complete r s)) (he : ∀ e s, P s → e.kind.setsFault = true → P (takeError e s)) {s t : State} (h : P s)
    (ht : runOp m s = .next t) : P t := by
  have hs := hm s h
  unfold runOp at ht
  revert hs ht
  cases m s with
  | ok r s' => intro ht hs; cases ht; exact hr _ _ hs
  | error e s' =>
    cases e with
    | raised e => intro ht hs; cases ht; exact he _ _ hs.1 hs.2
    | refused r => intro ht; cases ht
    | fault f => intro ht; cases ht
    | ended => intro ht hs; cases ht; exact hs.1

end Sys2Proof.Machine
end

