-- ==== Sys2Proof/Laws/Memory.lean ====
section
/-! SUPPORT. The laws of the device's byte store: a read after a write, a write leaves every other byte alone, and every
operation keeps the canonical form. -/

namespace Sys2Proof.Machine

/-! ## The canonical form -/

theorem Mem.sortedFrom_mono {a b : Nat} (h : b ≤ a) : ∀ {m : Mem}, Mem.sortedFrom a m = true → Mem.sortedFrom b m = true
  | [], _ => rfl
  | (k, v) :: rest, hm => by
    simp only [Mem.sortedFrom, Bool.and_eq_true, decide_eq_true_eq] at hm ⊢
    exact ⟨by omega, hm.2⟩

theorem Mem.sortedFrom_put {a : Nat} (b : Byte) :
    ∀ {m : Mem} {lo : Nat}, lo ≤ a → Mem.sortedFrom lo m = true → Mem.sortedFrom lo (m.put a b) = true
  | [], lo, hl, _ => by simp [Mem.put, Mem.sortedFrom, hl]
  | (k, v) :: rest, lo, hl, hm => by
    simp only [Mem.sortedFrom, Bool.and_eq_true, decide_eq_true_eq] at hm
    simp only [Mem.put]
    split
    · simp only [Mem.sortedFrom, Bool.and_eq_true, decide_eq_true_eq]
      exact ⟨hl, by omega, hm.2⟩
    · split
      · subst_vars
        simp only [Mem.sortedFrom, Bool.and_eq_true, decide_eq_true_eq]
        exact hm
      · simp only [Mem.sortedFrom, Bool.and_eq_true, decide_eq_true_eq]
        exact ⟨hm.1, Mem.sortedFrom_put b (by omega) hm.2⟩

theorem Mem.sortedFrom_forget (a : Nat) :
    ∀ {m : Mem} {lo : Nat}, Mem.sortedFrom lo m = true → Mem.sortedFrom lo (m.forget a) = true
  | [], _, _ => rfl
  | (k, v) :: rest, lo, hm => by
    simp only [Mem.sortedFrom, Bool.and_eq_true, decide_eq_true_eq] at hm
    simp only [Mem.forget]
    split
    · exact Mem.sortedFrom_mono (by omega) hm.2
    · simp only [Mem.sortedFrom, Bool.and_eq_true, decide_eq_true_eq]
      exact ⟨hm.1, Mem.sortedFrom_forget a hm.2⟩

theorem Mem.wf_put {m : Mem} (h : m.wf = true) (a : Nat) (b : Byte) : (m.put a b).wf = true :=
  Mem.sortedFrom_put b (Nat.zero_le a) h

theorem Mem.wf_forget {m : Mem} (h : m.wf = true) (a : Nat) : (m.forget a).wf = true := Mem.sortedFrom_forget a h

theorem Mem.wf_putBytes : ∀ (bs : List Byte) {m : Mem} (a : Nat), m.wf = true → (m.putBytes a bs).wf = true
  | [], _, _, h => h
  | b :: bs, _, a, h => Mem.wf_putBytes bs (a + 1) (Mem.wf_put h a b)

theorem Mem.wf_forgetBytes : ∀ (n : Nat) {m : Mem} (a : Nat), m.wf = true → (m.forgetBytes a n).wf = true
  | 0, _, _, h => h
  | n + 1, _, a, h => Mem.wf_forgetBytes n (a + 1) (Mem.wf_forget h a)

/-! ## Reading back -/

theorem Mem.get_put_same (b : Byte) (a : Nat) : ∀ m : Mem, (m.put a b).get a = some b
  | [] => by simp [Mem.put, Mem.get]
  | (k, v) :: rest => by
    simp only [Mem.put]
    split
    · simp [Mem.get]
    · split
      · simp [Mem.get]
      · next _ hk => simp [Mem.get, hk, Mem.get_put_same b a rest]

theorem Mem.get_put_other (b : Byte) {a x : Nat} (hx : x ≠ a) : ∀ m : Mem, (m.put a b).get x = m.get x
  | [] => by simp [Mem.put, Mem.get, hx]
  | (k, v) :: rest => by
    simp only [Mem.put]
    split
    · simp [Mem.get, hx]
    · split
      · next _ hk => subst hk; simp [Mem.get, hx]
      · simp only [Mem.get]
        rw [Mem.get_put_other b hx rest]

/-- No byte is listed below the address a store starts at. -/
theorem Mem.get_below : ∀ {m : Mem} {lo x : Nat}, Mem.sortedFrom lo m = true → x < lo → m.get x = none
  | [], _, _, _, _ => rfl
  | (k, v) :: rest, lo, x, hm, hx => by
    simp only [Mem.sortedFrom, Bool.and_eq_true, decide_eq_true_eq] at hm
    simp only [Mem.get]
    rw [if_neg (by omega)]
    exact Mem.get_below hm.2 (by omega)

theorem Mem.get_forget_same (a : Nat) : ∀ {m : Mem} {lo : Nat}, Mem.sortedFrom lo m = true → (m.forget a).get a = none
  | [], _, _ => rfl
  | (k, v) :: rest, lo, hm => by
    simp only [Mem.sortedFrom, Bool.and_eq_true, decide_eq_true_eq] at hm
    simp only [Mem.forget]
    split
    · next hk => subst hk; exact Mem.get_below hm.2 (by omega)
    · next hk =>
      simp only [Mem.get, if_neg hk]
      exact Mem.get_forget_same a hm.2

theorem Mem.get_forget_other {a x : Nat} (hx : x ≠ a) : ∀ m : Mem, (m.forget a).get x = m.get x
  | [] => rfl
  | (k, v) :: rest => by
    simp only [Mem.forget]
    split
    · next hk => subst hk; simp [Mem.get, hx]
    · simp only [Mem.get]
      rw [Mem.get_forget_other hx rest]

/-- A write of consecutive bytes leaves every byte outside them alone. -/
theorem Mem.get_putBytes_outside :
    ∀ (bs : List Byte) (m : Mem) (a x : Nat), x < a ∨ a + bs.length ≤ x → (m.putBytes a bs).get x = m.get x
  | [], _, _, _, _ => rfl
  | b :: bs, m, a, x, hx => by
    simp only [List.length_cons] at hx
    rw [Mem.putBytes, Mem.get_putBytes_outside bs _ _ _ (by omega), Mem.get_put_other b (by omega)]

/-- A write of consecutive bytes stores each of them. -/
theorem Mem.get_putBytes_inside :
    ∀ (bs : List Byte) (m : Mem) (a k : Nat) (hk : k < bs.length), (m.putBytes a bs).get (a + k) = some bs[k]
  | [], _, _, _, hk => absurd hk (Nat.not_lt_zero _)
  | b :: bs, m, a, 0, _ => by
    rw [Mem.putBytes, Mem.get_putBytes_outside bs _ _ _ (by omega)]
    exact Mem.get_put_same b a m
  | b :: bs, m, a, k + 1, hk => by
    have h := Mem.get_putBytes_inside bs (m.put a b) (a + 1) k (by simpa using hk)
    rw [Mem.putBytes, show a + (k + 1) = a + 1 + k by omega, h]
    rfl

/-- Forgetting consecutive bytes leaves every byte outside them alone. -/
theorem Mem.get_forgetBytes_outside :
    ∀ (n : Nat) (m : Mem) (a x : Nat), x < a ∨ a + n ≤ x → (m.forgetBytes a n).get x = m.get x
  | 0, _, _, _, _ => rfl
  | n + 1, m, a, x, hx => by
    rw [Mem.forgetBytes, Mem.get_forgetBytes_outside n _ _ _ (by omega), Mem.get_forget_other (by omega)]

/-- The empty store is canonical, and nothing is listed in it. -/
theorem Mem.wf_nil : Mem.wf ([] : Mem) = true := rfl

theorem Mem.get_nil (a : Nat) : Mem.get ([] : Mem) a = none := rfl

end Sys2Proof.Machine
end

