-- ==== Sys2Proof/Laws/State.lean ====
section
/-! SUPPORT. What each update of the state leaves in each field, so that no proof unfolds a record update. -/

namespace Sys2Proof.Machine

@[simp] theorem State.issued_opened (t : Transfer) (s : State) : (s.issued t).opened = s.opened := rfl
@[simp] theorem State.issued_claimed (t : Transfer) (s : State) : (s.issued t).claimed = s.claimed := rfl
@[simp] theorem State.issued_i2cOpen (t : Transfer) (s : State) : (s.issued t).i2cOpen = s.i2cOpen := rfl
@[simp] theorem State.issued_tunerReady (t : Transfer) (s : State) : (s.issued t).tunerReady = s.tunerReady := rfl
@[simp] theorem State.issued_hasPllLock (t : Transfer) (s : State) : (s.issued t).hasPllLock = s.hasPllLock := rfl
@[simp] theorem State.issued_fault (t : Transfer) (s : State) : (s.issued t).fault = s.fault := rfl
@[simp] theorem State.issued_seq (t : Transfer) (s : State) : (s.issued t).seq = s.seq := rfl
@[simp] theorem State.issued_reads (t : Transfer) (s : State) : (s.issued t).reads = s.reads := rfl
@[simp] theorem State.issued_running (t : Transfer) (s : State) : (s.issued t).running = s.running := rfl
@[simp] theorem State.issued_todo (t : Transfer) (s : State) : (s.issued t).todo = s.todo := rfl
@[simp] theorem State.issued_handle (t : Transfer) (s : State) : (s.issued t).handle = s.handle := rfl
@[simp] theorem State.issued_ppm (t : Transfer) (s : State) : (s.issued t).ppm = s.ppm := rfl
@[simp] theorem State.issued_gain (t : Transfer) (s : State) : (s.issued t).gain = s.gain := rfl
@[simp] theorem State.issued_xtalFreq (t : Transfer) (s : State) : (s.issued t).xtalFreq = s.xtalFreq := rfl
@[simp] theorem State.issued_filterCap (t : Transfer) (s : State) : (s.issued t).filterCap = s.filterCap := rfl
@[simp] theorem State.issued_actualRate (t : Transfer) (s : State) : (s.issued t).actualRate = s.actualRate := rfl
@[simp] theorem State.issued_shadow (t : Transfer) (s : State) : (s.issued t).shadow = s.shadow := rfl
@[simp] theorem State.issued_mem (t : Transfer) (s : State) : (s.issued t).mem = s.mem := rfl
@[simp] theorem State.issued_bridge (t : Transfer) (s : State) : (s.issued t).bridge = s.bridge := rfl
@[simp] theorem State.issued_i2cPtr (t : Transfer) (s : State) : (s.issued t).i2cPtr = s.i2cPtr := rfl
@[simp] theorem State.issued_fifoEpoch (t : Transfer) (s : State) : (s.issued t).fifoEpoch = s.fifoEpoch := rfl
@[simp] theorem State.issued_streamPos (t : Transfer) (s : State) : (s.issued t).streamPos = s.streamPos := rfl
@[simp] theorem State.issued_firs (t : Transfer) (s : State) : (s.issued t).firs = s.firs := rfl
@[simp] theorem State.issued_dss (t : Transfer) (s : State) : (s.issued t).dss = s.dss := rfl
@[simp] theorem State.issued_iqdss (t : Transfer) (s : State) : (s.issued t).iqdss = s.iqdss := rfl
@[simp] theorem State.issued_fms (t : Transfer) (s : State) : (s.issued t).fms = s.fms := rfl
@[simp] theorem State.issued_ams (t : Transfer) (s : State) : (s.issued t).ams = s.ams := rfl
@[simp] theorem State.issued_avgs (t : Transfer) (s : State) : (s.issued t).avgs = s.avgs := rfl
@[simp] theorem State.issued_sts (t : Transfer) (s : State) : (s.issued t).sts = s.sts := rfl
@[simp] theorem State.issued_des (t : Transfer) (s : State) : (s.issued t).des = s.des := rfl
@[simp] theorem State.issued_pipeline (t : Transfer) (s : State) : (s.issued t).pipeline = s.pipeline := rfl
@[simp] theorem State.issued_messages (t : Transfer) (s : State) : (s.issued t).messages = s.messages := rfl
@[simp] theorem State.issued_errors (t : Transfer) (s : State) : (s.issued t).errors = s.errors := rfl
@[simp] theorem State.issued_handlerInstalled (t : Transfer) (s : State) :
    (s.issued t).handlerInstalled = s.handlerInstalled := rfl
@[simp] theorem State.issued_ended (t : Transfer) (s : State) : (s.issued t).ended = s.ended := rfl
@[simp] theorem State.issued_result (t : Transfer) (s : State) : (s.issued t).result = s.result := rfl
@[simp] theorem State.issued_inbox (t : Transfer) (s : State) : (s.issued t).inbox = s.inbox := rfl
@[simp] theorem State.issued_trace (t : Transfer) (s : State) : (s.issued t).trace = s.trace ++ [t] := rfl
@[simp] theorem State.issued_plan (t : Transfer) (s : State) : (s.issued t).plan = s.plan := rfl
@[simp] theorem State.issued_drawNo (t : Transfer) (s : State) : (s.issued t).drawNo = s.drawNo + 1 := rfl

@[simp] theorem State.advanced_opened (s : State) : (s.advanced).opened = s.opened := rfl
@[simp] theorem State.advanced_claimed (s : State) : (s.advanced).claimed = s.claimed := rfl
@[simp] theorem State.advanced_i2cOpen (s : State) : (s.advanced).i2cOpen = s.i2cOpen := rfl
@[simp] theorem State.advanced_tunerReady (s : State) : (s.advanced).tunerReady = s.tunerReady := rfl
@[simp] theorem State.advanced_hasPllLock (s : State) : (s.advanced).hasPllLock = s.hasPllLock := rfl
@[simp] theorem State.advanced_fault (s : State) : (s.advanced).fault = s.fault := rfl
@[simp] theorem State.advanced_seq (s : State) : (s.advanced).seq = s.seq.advance := rfl
@[simp] theorem State.advanced_reads (s : State) : (s.advanced).reads = s.reads := rfl
@[simp] theorem State.advanced_running (s : State) : (s.advanced).running = s.running := rfl
@[simp] theorem State.advanced_todo (s : State) : (s.advanced).todo = s.todo := rfl
@[simp] theorem State.advanced_handle (s : State) : (s.advanced).handle = s.handle := rfl
@[simp] theorem State.advanced_ppm (s : State) : (s.advanced).ppm = s.ppm := rfl
@[simp] theorem State.advanced_gain (s : State) : (s.advanced).gain = s.gain := rfl
@[simp] theorem State.advanced_xtalFreq (s : State) : (s.advanced).xtalFreq = s.xtalFreq := rfl
@[simp] theorem State.advanced_filterCap (s : State) : (s.advanced).filterCap = s.filterCap := rfl
@[simp] theorem State.advanced_actualRate (s : State) : (s.advanced).actualRate = s.actualRate := rfl
@[simp] theorem State.advanced_shadow (s : State) : (s.advanced).shadow = s.shadow := rfl
@[simp] theorem State.advanced_mem (s : State) : (s.advanced).mem = s.mem := rfl
@[simp] theorem State.advanced_bridge (s : State) : (s.advanced).bridge = s.bridge := rfl
@[simp] theorem State.advanced_i2cPtr (s : State) : (s.advanced).i2cPtr = s.i2cPtr := rfl
@[simp] theorem State.advanced_fifoEpoch (s : State) : (s.advanced).fifoEpoch = s.fifoEpoch := rfl
@[simp] theorem State.advanced_streamPos (s : State) : (s.advanced).streamPos = s.streamPos := rfl
@[simp] theorem State.advanced_firs (s : State) : (s.advanced).firs = s.firs := rfl
@[simp] theorem State.advanced_dss (s : State) : (s.advanced).dss = s.dss := rfl
@[simp] theorem State.advanced_iqdss (s : State) : (s.advanced).iqdss = s.iqdss := rfl
@[simp] theorem State.advanced_fms (s : State) : (s.advanced).fms = s.fms := rfl
@[simp] theorem State.advanced_ams (s : State) : (s.advanced).ams = s.ams := rfl
@[simp] theorem State.advanced_avgs (s : State) : (s.advanced).avgs = s.avgs := rfl
@[simp] theorem State.advanced_sts (s : State) : (s.advanced).sts = s.sts := rfl
@[simp] theorem State.advanced_des (s : State) : (s.advanced).des = s.des := rfl
@[simp] theorem State.advanced_pipeline (s : State) : (s.advanced).pipeline = s.pipeline := rfl
@[simp] theorem State.advanced_messages (s : State) : (s.advanced).messages = s.messages := rfl
@[simp] theorem State.advanced_errors (s : State) : (s.advanced).errors = s.errors := rfl
@[simp] theorem State.advanced_handlerInstalled (s : State) :
    (s.advanced).handlerInstalled = s.handlerInstalled := rfl
@[simp] theorem State.advanced_ended (s : State) : (s.advanced).ended = s.ended := rfl
@[simp] theorem State.advanced_result (s : State) : (s.advanced).result = s.result := rfl
@[simp] theorem State.advanced_inbox (s : State) : (s.advanced).inbox = s.inbox := rfl
@[simp] theorem State.advanced_trace (s : State) : (s.advanced).trace = s.trace := rfl
@[simp] theorem State.advanced_plan (s : State) : (s.advanced).plan = s.plan := rfl
@[simp] theorem State.advanced_drawNo (s : State) : (s.advanced).drawNo = s.drawNo := rfl

@[simp] theorem State.atPos_opened (p : SeqPos) (s : State) : (s.atPos p).opened = s.opened := rfl
@[simp] theorem State.atPos_claimed (p : SeqPos) (s : State) : (s.atPos p).claimed = s.claimed := rfl
@[simp] theorem State.atPos_i2cOpen (p : SeqPos) (s : State) : (s.atPos p).i2cOpen = s.i2cOpen := rfl
@[simp] theorem State.atPos_tunerReady (p : SeqPos) (s : State) : (s.atPos p).tunerReady = s.tunerReady := rfl
@[simp] theorem State.atPos_hasPllLock (p : SeqPos) (s : State) : (s.atPos p).hasPllLock = s.hasPllLock := rfl
@[simp] theorem State.atPos_fault (p : SeqPos) (s : State) : (s.atPos p).fault = s.fault := rfl
@[simp] theorem State.atPos_seq (p : SeqPos) (s : State) : (s.atPos p).seq = p := rfl
@[simp] theorem State.atPos_reads (p : SeqPos) (s : State) : (s.atPos p).reads = s.reads := rfl
@[simp] theorem State.atPos_running (p : SeqPos) (s : State) : (s.atPos p).running = s.running := rfl
@[simp] theorem State.atPos_todo (p : SeqPos) (s : State) : (s.atPos p).todo = s.todo := rfl
@[simp] theorem State.atPos_handle (p : SeqPos) (s : State) : (s.atPos p).handle = s.handle := rfl
@[simp] theorem State.atPos_ppm (p : SeqPos) (s : State) : (s.atPos p).ppm = s.ppm := rfl
@[simp] theorem State.atPos_gain (p : SeqPos) (s : State) : (s.atPos p).gain = s.gain := rfl
@[simp] theorem State.atPos_xtalFreq (p : SeqPos) (s : State) : (s.atPos p).xtalFreq = s.xtalFreq := rfl
@[simp] theorem State.atPos_filterCap (p : SeqPos) (s : State) : (s.atPos p).filterCap = s.filterCap := rfl
@[simp] theorem State.atPos_actualRate (p : SeqPos) (s : State) : (s.atPos p).actualRate = s.actualRate := rfl
@[simp] theorem State.atPos_shadow (p : SeqPos) (s : State) : (s.atPos p).shadow = s.shadow := rfl
@[simp] theorem State.atPos_mem (p : SeqPos) (s : State) : (s.atPos p).mem = s.mem := rfl
@[simp] theorem State.atPos_bridge (p : SeqPos) (s : State) : (s.atPos p).bridge = s.bridge := rfl
@[simp] theorem State.atPos_i2cPtr (p : SeqPos) (s : State) : (s.atPos p).i2cPtr = s.i2cPtr := rfl
@[simp] theorem State.atPos_fifoEpoch (p : SeqPos) (s : State) : (s.atPos p).fifoEpoch = s.fifoEpoch := rfl
@[simp] theorem State.atPos_streamPos (p : SeqPos) (s : State) : (s.atPos p).streamPos = s.streamPos := rfl
@[simp] theorem State.atPos_firs (p : SeqPos) (s : State) : (s.atPos p).firs = s.firs := rfl
@[simp] theorem State.atPos_dss (p : SeqPos) (s : State) : (s.atPos p).dss = s.dss := rfl
@[simp] theorem State.atPos_iqdss (p : SeqPos) (s : State) : (s.atPos p).iqdss = s.iqdss := rfl
@[simp] theorem State.atPos_fms (p : SeqPos) (s : State) : (s.atPos p).fms = s.fms := rfl
@[simp] theorem State.atPos_ams (p : SeqPos) (s : State) : (s.atPos p).ams = s.ams := rfl
@[simp] theorem State.atPos_avgs (p : SeqPos) (s : State) : (s.atPos p).avgs = s.avgs := rfl
@[simp] theorem State.atPos_sts (p : SeqPos) (s : State) : (s.atPos p).sts = s.sts := rfl
@[simp] theorem State.atPos_des (p : SeqPos) (s : State) : (s.atPos p).des = s.des := rfl
@[simp] theorem State.atPos_pipeline (p : SeqPos) (s : State) : (s.atPos p).pipeline = s.pipeline := rfl
@[simp] theorem State.atPos_messages (p : SeqPos) (s : State) : (s.atPos p).messages = s.messages := rfl
@[simp] theorem State.atPos_errors (p : SeqPos) (s : State) : (s.atPos p).errors = s.errors := rfl
@[simp] theorem State.atPos_handlerInstalled (p : SeqPos) (s : State) :
    (s.atPos p).handlerInstalled = s.handlerInstalled := rfl
@[simp] theorem State.atPos_ended (p : SeqPos) (s : State) : (s.atPos p).ended = s.ended := rfl
@[simp] theorem State.atPos_result (p : SeqPos) (s : State) : (s.atPos p).result = s.result := rfl
@[simp] theorem State.atPos_inbox (p : SeqPos) (s : State) : (s.atPos p).inbox = s.inbox := rfl
@[simp] theorem State.atPos_trace (p : SeqPos) (s : State) : (s.atPos p).trace = s.trace := rfl
@[simp] theorem State.atPos_plan (p : SeqPos) (s : State) : (s.atPos p).plan = s.plan := rfl
@[simp] theorem State.atPos_drawNo (p : SeqPos) (s : State) : (s.atPos p).drawNo = s.drawNo := rfl

@[simp] theorem State.setClaimed_opened (b : Bool) (s : State) : (s.setClaimed b).opened = s.opened := rfl
@[simp] theorem State.setClaimed_claimed (b : Bool) (s : State) : (s.setClaimed b).claimed = b := rfl
@[simp] theorem State.setClaimed_i2cOpen (b : Bool) (s : State) : (s.setClaimed b).i2cOpen = s.i2cOpen := rfl
@[simp] theorem State.setClaimed_tunerReady (b : Bool) (s : State) : (s.setClaimed b).tunerReady = s.tunerReady := rfl
@[simp] theorem State.setClaimed_hasPllLock (b : Bool) (s : State) : (s.setClaimed b).hasPllLock = s.hasPllLock := rfl
@[simp] theorem State.setClaimed_fault (b : Bool) (s : State) : (s.setClaimed b).fault = s.fault := rfl
@[simp] theorem State.setClaimed_seq (b : Bool) (s : State) : (s.setClaimed b).seq = s.seq := rfl
@[simp] theorem State.setClaimed_reads (b : Bool) (s : State) : (s.setClaimed b).reads = s.reads := rfl
@[simp] theorem State.setClaimed_running (b : Bool) (s : State) : (s.setClaimed b).running = s.running := rfl
@[simp] theorem State.setClaimed_todo (b : Bool) (s : State) : (s.setClaimed b).todo = s.todo := rfl
@[simp] theorem State.setClaimed_handle (b : Bool) (s : State) : (s.setClaimed b).handle = s.handle := rfl
@[simp] theorem State.setClaimed_ppm (b : Bool) (s : State) : (s.setClaimed b).ppm = s.ppm := rfl
@[simp] theorem State.setClaimed_gain (b : Bool) (s : State) : (s.setClaimed b).gain = s.gain := rfl
@[simp] theorem State.setClaimed_xtalFreq (b : Bool) (s : State) : (s.setClaimed b).xtalFreq = s.xtalFreq := rfl
@[simp] theorem State.setClaimed_filterCap (b : Bool) (s : State) : (s.setClaimed b).filterCap = s.filterCap := rfl
@[simp] theorem State.setClaimed_actualRate (b : Bool) (s : State) : (s.setClaimed b).actualRate = s.actualRate := rfl
@[simp] theorem State.setClaimed_shadow (b : Bool) (s : State) : (s.setClaimed b).shadow = s.shadow := rfl
@[simp] theorem State.setClaimed_mem (b : Bool) (s : State) : (s.setClaimed b).mem = s.mem := rfl
@[simp] theorem State.setClaimed_bridge (b : Bool) (s : State) : (s.setClaimed b).bridge = s.bridge := rfl
@[simp] theorem State.setClaimed_i2cPtr (b : Bool) (s : State) : (s.setClaimed b).i2cPtr = s.i2cPtr := rfl
@[simp] theorem State.setClaimed_fifoEpoch (b : Bool) (s : State) : (s.setClaimed b).fifoEpoch = s.fifoEpoch := rfl
@[simp] theorem State.setClaimed_streamPos (b : Bool) (s : State) : (s.setClaimed b).streamPos = s.streamPos := rfl
@[simp] theorem State.setClaimed_firs (b : Bool) (s : State) : (s.setClaimed b).firs = s.firs := rfl
@[simp] theorem State.setClaimed_dss (b : Bool) (s : State) : (s.setClaimed b).dss = s.dss := rfl
@[simp] theorem State.setClaimed_iqdss (b : Bool) (s : State) : (s.setClaimed b).iqdss = s.iqdss := rfl
@[simp] theorem State.setClaimed_fms (b : Bool) (s : State) : (s.setClaimed b).fms = s.fms := rfl
@[simp] theorem State.setClaimed_ams (b : Bool) (s : State) : (s.setClaimed b).ams = s.ams := rfl
@[simp] theorem State.setClaimed_avgs (b : Bool) (s : State) : (s.setClaimed b).avgs = s.avgs := rfl
@[simp] theorem State.setClaimed_sts (b : Bool) (s : State) : (s.setClaimed b).sts = s.sts := rfl
@[simp] theorem State.setClaimed_des (b : Bool) (s : State) : (s.setClaimed b).des = s.des := rfl
@[simp] theorem State.setClaimed_pipeline (b : Bool) (s : State) : (s.setClaimed b).pipeline = s.pipeline := rfl
@[simp] theorem State.setClaimed_messages (b : Bool) (s : State) : (s.setClaimed b).messages = s.messages := rfl
@[simp] theorem State.setClaimed_errors (b : Bool) (s : State) : (s.setClaimed b).errors = s.errors := rfl
@[simp] theorem State.setClaimed_handlerInstalled (b : Bool) (s : State) :
    (s.setClaimed b).handlerInstalled = s.handlerInstalled := rfl
@[simp] theorem State.setClaimed_ended (b : Bool) (s : State) : (s.setClaimed b).ended = s.ended := rfl
@[simp] theorem State.setClaimed_result (b : Bool) (s : State) : (s.setClaimed b).result = s.result := rfl
@[simp] theorem State.setClaimed_inbox (b : Bool) (s : State) : (s.setClaimed b).inbox = s.inbox := rfl
@[simp] theorem State.setClaimed_trace (b : Bool) (s : State) : (s.setClaimed b).trace = s.trace := rfl
@[simp] theorem State.setClaimed_plan (b : Bool) (s : State) : (s.setClaimed b).plan = s.plan := rfl
@[simp] theorem State.setClaimed_drawNo (b : Bool) (s : State) : (s.setClaimed b).drawNo = s.drawNo := rfl

@[simp] theorem State.setI2cOpen_opened (b : Bool) (s : State) : (s.setI2cOpen b).opened = s.opened := rfl
@[simp] theorem State.setI2cOpen_claimed (b : Bool) (s : State) : (s.setI2cOpen b).claimed = s.claimed := rfl
@[simp] theorem State.setI2cOpen_i2cOpen (b : Bool) (s : State) : (s.setI2cOpen b).i2cOpen = b := rfl
@[simp] theorem State.setI2cOpen_tunerReady (b : Bool) (s : State) : (s.setI2cOpen b).tunerReady = s.tunerReady := rfl
@[simp] theorem State.setI2cOpen_hasPllLock (b : Bool) (s : State) : (s.setI2cOpen b).hasPllLock = s.hasPllLock := rfl
@[simp] theorem State.setI2cOpen_fault (b : Bool) (s : State) : (s.setI2cOpen b).fault = s.fault := rfl
@[simp] theorem State.setI2cOpen_seq (b : Bool) (s : State) : (s.setI2cOpen b).seq = s.seq := rfl
@[simp] theorem State.setI2cOpen_reads (b : Bool) (s : State) : (s.setI2cOpen b).reads = s.reads := rfl
@[simp] theorem State.setI2cOpen_running (b : Bool) (s : State) : (s.setI2cOpen b).running = s.running := rfl
@[simp] theorem State.setI2cOpen_todo (b : Bool) (s : State) : (s.setI2cOpen b).todo = s.todo := rfl
@[simp] theorem State.setI2cOpen_handle (b : Bool) (s : State) : (s.setI2cOpen b).handle = s.handle := rfl
@[simp] theorem State.setI2cOpen_ppm (b : Bool) (s : State) : (s.setI2cOpen b).ppm = s.ppm := rfl
@[simp] theorem State.setI2cOpen_gain (b : Bool) (s : State) : (s.setI2cOpen b).gain = s.gain := rfl
@[simp] theorem State.setI2cOpen_xtalFreq (b : Bool) (s : State) : (s.setI2cOpen b).xtalFreq = s.xtalFreq := rfl
@[simp] theorem State.setI2cOpen_filterCap (b : Bool) (s : State) : (s.setI2cOpen b).filterCap = s.filterCap := rfl
@[simp] theorem State.setI2cOpen_actualRate (b : Bool) (s : State) : (s.setI2cOpen b).actualRate = s.actualRate := rfl
@[simp] theorem State.setI2cOpen_shadow (b : Bool) (s : State) : (s.setI2cOpen b).shadow = s.shadow := rfl
@[simp] theorem State.setI2cOpen_mem (b : Bool) (s : State) : (s.setI2cOpen b).mem = s.mem := rfl
@[simp] theorem State.setI2cOpen_bridge (b : Bool) (s : State) : (s.setI2cOpen b).bridge = s.bridge := rfl
@[simp] theorem State.setI2cOpen_i2cPtr (b : Bool) (s : State) : (s.setI2cOpen b).i2cPtr = s.i2cPtr := rfl
@[simp] theorem State.setI2cOpen_fifoEpoch (b : Bool) (s : State) : (s.setI2cOpen b).fifoEpoch = s.fifoEpoch := rfl
@[simp] theorem State.setI2cOpen_streamPos (b : Bool) (s : State) : (s.setI2cOpen b).streamPos = s.streamPos := rfl
@[simp] theorem State.setI2cOpen_firs (b : Bool) (s : State) : (s.setI2cOpen b).firs = s.firs := rfl
@[simp] theorem State.setI2cOpen_dss (b : Bool) (s : State) : (s.setI2cOpen b).dss = s.dss := rfl
@[simp] theorem State.setI2cOpen_iqdss (b : Bool) (s : State) : (s.setI2cOpen b).iqdss = s.iqdss := rfl
@[simp] theorem State.setI2cOpen_fms (b : Bool) (s : State) : (s.setI2cOpen b).fms = s.fms := rfl
@[simp] theorem State.setI2cOpen_ams (b : Bool) (s : State) : (s.setI2cOpen b).ams = s.ams := rfl
@[simp] theorem State.setI2cOpen_avgs (b : Bool) (s : State) : (s.setI2cOpen b).avgs = s.avgs := rfl
@[simp] theorem State.setI2cOpen_sts (b : Bool) (s : State) : (s.setI2cOpen b).sts = s.sts := rfl
@[simp] theorem State.setI2cOpen_des (b : Bool) (s : State) : (s.setI2cOpen b).des = s.des := rfl
@[simp] theorem State.setI2cOpen_pipeline (b : Bool) (s : State) : (s.setI2cOpen b).pipeline = s.pipeline := rfl
@[simp] theorem State.setI2cOpen_messages (b : Bool) (s : State) : (s.setI2cOpen b).messages = s.messages := rfl
@[simp] theorem State.setI2cOpen_errors (b : Bool) (s : State) : (s.setI2cOpen b).errors = s.errors := rfl
@[simp] theorem State.setI2cOpen_handlerInstalled (b : Bool) (s : State) :
    (s.setI2cOpen b).handlerInstalled = s.handlerInstalled := rfl
@[simp] theorem State.setI2cOpen_ended (b : Bool) (s : State) : (s.setI2cOpen b).ended = s.ended := rfl
@[simp] theorem State.setI2cOpen_result (b : Bool) (s : State) : (s.setI2cOpen b).result = s.result := rfl
@[simp] theorem State.setI2cOpen_inbox (b : Bool) (s : State) : (s.setI2cOpen b).inbox = s.inbox := rfl
@[simp] theorem State.setI2cOpen_trace (b : Bool) (s : State) : (s.setI2cOpen b).trace = s.trace := rfl
@[simp] theorem State.setI2cOpen_plan (b : Bool) (s : State) : (s.setI2cOpen b).plan = s.plan := rfl
@[simp] theorem State.setI2cOpen_drawNo (b : Bool) (s : State) : (s.setI2cOpen b).drawNo = s.drawNo := rfl

@[simp] theorem State.setShadow_opened (sh : Vector Byte Config.shadowLen) (s : State) :
    (s.setShadow sh).opened = s.opened := rfl
@[simp] theorem State.setShadow_claimed (sh : Vector Byte Config.shadowLen) (s : State) :
    (s.setShadow sh).claimed = s.claimed := rfl
@[simp] theorem State.setShadow_i2cOpen (sh : Vector Byte Config.shadowLen) (s : State) :
    (s.setShadow sh).i2cOpen = s.i2cOpen := rfl
@[simp] theorem State.setShadow_tunerReady (sh : Vector Byte Config.shadowLen) (s : State) :
    (s.setShadow sh).tunerReady = s.tunerReady := rfl
@[simp] theorem State.setShadow_hasPllLock (sh : Vector Byte Config.shadowLen) (s : State) :
    (s.setShadow sh).hasPllLock = s.hasPllLock := rfl
@[simp] theorem State.setShadow_fault (sh : Vector Byte Config.shadowLen) (s : State) :
    (s.setShadow sh).fault = s.fault := rfl
@[simp] theorem State.setShadow_seq (sh : Vector Byte Config.shadowLen) (s : State) :
    (s.setShadow sh).seq = s.seq := rfl
@[simp] theorem State.setShadow_reads (sh : Vector Byte Config.shadowLen) (s : State) :
    (s.setShadow sh).reads = s.reads := rfl
@[simp] theorem State.setShadow_running (sh : Vector Byte Config.shadowLen) (s : State) :
    (s.setShadow sh).running = s.running := rfl
@[simp] theorem State.setShadow_todo (sh : Vector Byte Config.shadowLen) (s : State) :
    (s.setShadow sh).todo = s.todo := rfl
@[simp] theorem State.setShadow_handle (sh : Vector Byte Config.shadowLen) (s : State) :
    (s.setShadow sh).handle = s.handle := rfl
@[simp] theorem State.setShadow_ppm (sh : Vector Byte Config.shadowLen) (s : State) :
    (s.setShadow sh).ppm = s.ppm := rfl
@[simp] theorem State.setShadow_gain (sh : Vector Byte Config.shadowLen) (s : State) :
    (s.setShadow sh).gain = s.gain := rfl
@[simp] theorem State.setShadow_xtalFreq (sh : Vector Byte Config.shadowLen) (s : State) :
    (s.setShadow sh).xtalFreq = s.xtalFreq := rfl
@[simp] theorem State.setShadow_filterCap (sh : Vector Byte Config.shadowLen) (s : State) :
    (s.setShadow sh).filterCap = s.filterCap := rfl
@[simp] theorem State.setShadow_actualRate (sh : Vector Byte Config.shadowLen) (s : State) :
    (s.setShadow sh).actualRate = s.actualRate := rfl
@[simp] theorem State.setShadow_shadow (sh : Vector Byte Config.shadowLen) (s : State) :
    (s.setShadow sh).shadow = some sh := rfl
@[simp] theorem State.setShadow_mem (sh : Vector Byte Config.shadowLen) (s : State) :
    (s.setShadow sh).mem = s.mem := rfl
@[simp] theorem State.setShadow_bridge (sh : Vector Byte Config.shadowLen) (s : State) :
    (s.setShadow sh).bridge = s.bridge := rfl
@[simp] theorem State.setShadow_i2cPtr (sh : Vector Byte Config.shadowLen) (s : State) :
    (s.setShadow sh).i2cPtr = s.i2cPtr := rfl
@[simp] theorem State.setShadow_fifoEpoch (sh : Vector Byte Config.shadowLen) (s : State) :
    (s.setShadow sh).fifoEpoch = s.fifoEpoch := rfl
@[simp] theorem State.setShadow_streamPos (sh : Vector Byte Config.shadowLen) (s : State) :
    (s.setShadow sh).streamPos = s.streamPos := rfl
@[simp] theorem State.setShadow_firs (sh : Vector Byte Config.shadowLen) (s : State) :
    (s.setShadow sh).firs = s.firs := rfl
@[simp] theorem State.setShadow_dss (sh : Vector Byte Config.shadowLen) (s : State) :
    (s.setShadow sh).dss = s.dss := rfl
@[simp] theorem State.setShadow_iqdss (sh : Vector Byte Config.shadowLen) (s : State) :
    (s.setShadow sh).iqdss = s.iqdss := rfl
@[simp] theorem State.setShadow_fms (sh : Vector Byte Config.shadowLen) (s : State) :
    (s.setShadow sh).fms = s.fms := rfl
@[simp] theorem State.setShadow_ams (sh : Vector Byte Config.shadowLen) (s : State) :
    (s.setShadow sh).ams = s.ams := rfl
@[simp] theorem State.setShadow_avgs (sh : Vector Byte Config.shadowLen) (s : State) :
    (s.setShadow sh).avgs = s.avgs := rfl
@[simp] theorem State.setShadow_sts (sh : Vector Byte Config.shadowLen) (s : State) :
    (s.setShadow sh).sts = s.sts := rfl
@[simp] theorem State.setShadow_des (sh : Vector Byte Config.shadowLen) (s : State) :
    (s.setShadow sh).des = s.des := rfl
@[simp] theorem State.setShadow_pipeline (sh : Vector Byte Config.shadowLen) (s : State) :
    (s.setShadow sh).pipeline = s.pipeline := rfl
@[simp] theorem State.setShadow_messages (sh : Vector Byte Config.shadowLen) (s : State) :
    (s.setShadow sh).messages = s.messages := rfl
@[simp] theorem State.setShadow_errors (sh : Vector Byte Config.shadowLen) (s : State) :
    (s.setShadow sh).errors = s.errors := rfl
@[simp] theorem State.setShadow_handlerInstalled (sh : Vector Byte Config.shadowLen) (s : State) :
    (s.setShadow sh).handlerInstalled = s.handlerInstalled := rfl
@[simp] theorem State.setShadow_ended (sh : Vector Byte Config.shadowLen) (s : State) :
    (s.setShadow sh).ended = s.ended := rfl
@[simp] theorem State.setShadow_result (sh : Vector Byte Config.shadowLen) (s : State) :
    (s.setShadow sh).result = s.result := rfl
@[simp] theorem State.setShadow_inbox (sh : Vector Byte Config.shadowLen) (s : State) :
    (s.setShadow sh).inbox = s.inbox := rfl
@[simp] theorem State.setShadow_trace (sh : Vector Byte Config.shadowLen) (s : State) :
    (s.setShadow sh).trace = s.trace := rfl
@[simp] theorem State.setShadow_plan (sh : Vector Byte Config.shadowLen) (s : State) :
    (s.setShadow sh).plan = s.plan := rfl
@[simp] theorem State.setShadow_drawNo (sh : Vector Byte Config.shadowLen) (s : State) :
    (s.setShadow sh).drawNo = s.drawNo := rfl

@[simp] theorem State.setLock_opened (b : Bool) (s : State) : (s.setLock b).opened = s.opened := rfl
@[simp] theorem State.setLock_claimed (b : Bool) (s : State) : (s.setLock b).claimed = s.claimed := rfl
@[simp] theorem State.setLock_i2cOpen (b : Bool) (s : State) : (s.setLock b).i2cOpen = s.i2cOpen := rfl
@[simp] theorem State.setLock_tunerReady (b : Bool) (s : State) : (s.setLock b).tunerReady = s.tunerReady := rfl
@[simp] theorem State.setLock_hasPllLock (b : Bool) (s : State) : (s.setLock b).hasPllLock = b := rfl
@[simp] theorem State.setLock_fault (b : Bool) (s : State) : (s.setLock b).fault = s.fault := rfl
@[simp] theorem State.setLock_seq (b : Bool) (s : State) : (s.setLock b).seq = s.seq := rfl
@[simp] theorem State.setLock_reads (b : Bool) (s : State) : (s.setLock b).reads = s.reads := rfl
@[simp] theorem State.setLock_running (b : Bool) (s : State) : (s.setLock b).running = s.running := rfl
@[simp] theorem State.setLock_todo (b : Bool) (s : State) : (s.setLock b).todo = s.todo := rfl
@[simp] theorem State.setLock_handle (b : Bool) (s : State) : (s.setLock b).handle = s.handle := rfl
@[simp] theorem State.setLock_ppm (b : Bool) (s : State) : (s.setLock b).ppm = s.ppm := rfl
@[simp] theorem State.setLock_gain (b : Bool) (s : State) : (s.setLock b).gain = s.gain := rfl
@[simp] theorem State.setLock_xtalFreq (b : Bool) (s : State) : (s.setLock b).xtalFreq = s.xtalFreq := rfl
@[simp] theorem State.setLock_filterCap (b : Bool) (s : State) : (s.setLock b).filterCap = s.filterCap := rfl
@[simp] theorem State.setLock_actualRate (b : Bool) (s : State) : (s.setLock b).actualRate = s.actualRate := rfl
@[simp] theorem State.setLock_shadow (b : Bool) (s : State) : (s.setLock b).shadow = s.shadow := rfl
@[simp] theorem State.setLock_mem (b : Bool) (s : State) : (s.setLock b).mem = s.mem := rfl
@[simp] theorem State.setLock_bridge (b : Bool) (s : State) : (s.setLock b).bridge = s.bridge := rfl
@[simp] theorem State.setLock_i2cPtr (b : Bool) (s : State) : (s.setLock b).i2cPtr = s.i2cPtr := rfl
@[simp] theorem State.setLock_fifoEpoch (b : Bool) (s : State) : (s.setLock b).fifoEpoch = s.fifoEpoch := rfl
@[simp] theorem State.setLock_streamPos (b : Bool) (s : State) : (s.setLock b).streamPos = s.streamPos := rfl
@[simp] theorem State.setLock_firs (b : Bool) (s : State) : (s.setLock b).firs = s.firs := rfl
@[simp] theorem State.setLock_dss (b : Bool) (s : State) : (s.setLock b).dss = s.dss := rfl
@[simp] theorem State.setLock_iqdss (b : Bool) (s : State) : (s.setLock b).iqdss = s.iqdss := rfl
@[simp] theorem State.setLock_fms (b : Bool) (s : State) : (s.setLock b).fms = s.fms := rfl
@[simp] theorem State.setLock_ams (b : Bool) (s : State) : (s.setLock b).ams = s.ams := rfl
@[simp] theorem State.setLock_avgs (b : Bool) (s : State) : (s.setLock b).avgs = s.avgs := rfl
@[simp] theorem State.setLock_sts (b : Bool) (s : State) : (s.setLock b).sts = s.sts := rfl
@[simp] theorem State.setLock_des (b : Bool) (s : State) : (s.setLock b).des = s.des := rfl
@[simp] theorem State.setLock_pipeline (b : Bool) (s : State) : (s.setLock b).pipeline = s.pipeline := rfl
@[simp] theorem State.setLock_messages (b : Bool) (s : State) : (s.setLock b).messages = s.messages := rfl
@[simp] theorem State.setLock_errors (b : Bool) (s : State) : (s.setLock b).errors = s.errors := rfl
@[simp] theorem State.setLock_handlerInstalled (b : Bool) (s : State) :
    (s.setLock b).handlerInstalled = s.handlerInstalled := rfl
@[simp] theorem State.setLock_ended (b : Bool) (s : State) : (s.setLock b).ended = s.ended := rfl
@[simp] theorem State.setLock_result (b : Bool) (s : State) : (s.setLock b).result = s.result := rfl
@[simp] theorem State.setLock_inbox (b : Bool) (s : State) : (s.setLock b).inbox = s.inbox := rfl
@[simp] theorem State.setLock_trace (b : Bool) (s : State) : (s.setLock b).trace = s.trace := rfl
@[simp] theorem State.setLock_plan (b : Bool) (s : State) : (s.setLock b).plan = s.plan := rfl
@[simp] theorem State.setLock_drawNo (b : Bool) (s : State) : (s.setLock b).drawNo = s.drawNo := rfl

@[simp] theorem State.setReady_opened (b : Bool) (s : State) : (s.setReady b).opened = s.opened := rfl
@[simp] theorem State.setReady_claimed (b : Bool) (s : State) : (s.setReady b).claimed = s.claimed := rfl
@[simp] theorem State.setReady_i2cOpen (b : Bool) (s : State) : (s.setReady b).i2cOpen = s.i2cOpen := rfl
@[simp] theorem State.setReady_tunerReady (b : Bool) (s : State) : (s.setReady b).tunerReady = b := rfl
@[simp] theorem State.setReady_hasPllLock (b : Bool) (s : State) : (s.setReady b).hasPllLock = s.hasPllLock := rfl
@[simp] theorem State.setReady_fault (b : Bool) (s : State) : (s.setReady b).fault = s.fault := rfl
@[simp] theorem State.setReady_seq (b : Bool) (s : State) : (s.setReady b).seq = s.seq := rfl
@[simp] theorem State.setReady_reads (b : Bool) (s : State) : (s.setReady b).reads = s.reads := rfl
@[simp] theorem State.setReady_running (b : Bool) (s : State) : (s.setReady b).running = s.running := rfl
@[simp] theorem State.setReady_todo (b : Bool) (s : State) : (s.setReady b).todo = s.todo := rfl
@[simp] theorem State.setReady_handle (b : Bool) (s : State) : (s.setReady b).handle = s.handle := rfl
@[simp] theorem State.setReady_ppm (b : Bool) (s : State) : (s.setReady b).ppm = s.ppm := rfl
@[simp] theorem State.setReady_gain (b : Bool) (s : State) : (s.setReady b).gain = s.gain := rfl
@[simp] theorem State.setReady_xtalFreq (b : Bool) (s : State) : (s.setReady b).xtalFreq = s.xtalFreq := rfl
@[simp] theorem State.setReady_filterCap (b : Bool) (s : State) : (s.setReady b).filterCap = s.filterCap := rfl
@[simp] theorem State.setReady_actualRate (b : Bool) (s : State) : (s.setReady b).actualRate = s.actualRate := rfl
@[simp] theorem State.setReady_shadow (b : Bool) (s : State) : (s.setReady b).shadow = s.shadow := rfl
@[simp] theorem State.setReady_mem (b : Bool) (s : State) : (s.setReady b).mem = s.mem := rfl
@[simp] theorem State.setReady_bridge (b : Bool) (s : State) : (s.setReady b).bridge = s.bridge := rfl
@[simp] theorem State.setReady_i2cPtr (b : Bool) (s : State) : (s.setReady b).i2cPtr = s.i2cPtr := rfl
@[simp] theorem State.setReady_fifoEpoch (b : Bool) (s : State) : (s.setReady b).fifoEpoch = s.fifoEpoch := rfl
@[simp] theorem State.setReady_streamPos (b : Bool) (s : State) : (s.setReady b).streamPos = s.streamPos := rfl
@[simp] theorem State.setReady_firs (b : Bool) (s : State) : (s.setReady b).firs = s.firs := rfl
@[simp] theorem State.setReady_dss (b : Bool) (s : State) : (s.setReady b).dss = s.dss := rfl
@[simp] theorem State.setReady_iqdss (b : Bool) (s : State) : (s.setReady b).iqdss = s.iqdss := rfl
@[simp] theorem State.setReady_fms (b : Bool) (s : State) : (s.setReady b).fms = s.fms := rfl
@[simp] theorem State.setReady_ams (b : Bool) (s : State) : (s.setReady b).ams = s.ams := rfl
@[simp] theorem State.setReady_avgs (b : Bool) (s : State) : (s.setReady b).avgs = s.avgs := rfl
@[simp] theorem State.setReady_sts (b : Bool) (s : State) : (s.setReady b).sts = s.sts := rfl
@[simp] theorem State.setReady_des (b : Bool) (s : State) : (s.setReady b).des = s.des := rfl
@[simp] theorem State.setReady_pipeline (b : Bool) (s : State) : (s.setReady b).pipeline = s.pipeline := rfl
@[simp] theorem State.setReady_messages (b : Bool) (s : State) : (s.setReady b).messages = s.messages := rfl
@[simp] theorem State.setReady_errors (b : Bool) (s : State) : (s.setReady b).errors = s.errors := rfl
@[simp] theorem State.setReady_handlerInstalled (b : Bool) (s : State) :
    (s.setReady b).handlerInstalled = s.handlerInstalled := rfl
@[simp] theorem State.setReady_ended (b : Bool) (s : State) : (s.setReady b).ended = s.ended := rfl
@[simp] theorem State.setReady_result (b : Bool) (s : State) : (s.setReady b).result = s.result := rfl
@[simp] theorem State.setReady_inbox (b : Bool) (s : State) : (s.setReady b).inbox = s.inbox := rfl
@[simp] theorem State.setReady_trace (b : Bool) (s : State) : (s.setReady b).trace = s.trace := rfl
@[simp] theorem State.setReady_plan (b : Bool) (s : State) : (s.setReady b).plan = s.plan := rfl
@[simp] theorem State.setReady_drawNo (b : Bool) (s : State) : (s.setReady b).drawNo = s.drawNo := rfl

@[simp] theorem State.setFilterCap_opened (cap : BitVec Config.filCalWidth) (s : State) :
    (s.setFilterCap cap).opened = s.opened := rfl
@[simp] theorem State.setFilterCap_claimed (cap : BitVec Config.filCalWidth) (s : State) :
    (s.setFilterCap cap).claimed = s.claimed := rfl
@[simp] theorem State.setFilterCap_i2cOpen (cap : BitVec Config.filCalWidth) (s : State) :
    (s.setFilterCap cap).i2cOpen = s.i2cOpen := rfl
@[simp] theorem State.setFilterCap_tunerReady (cap : BitVec Config.filCalWidth) (s : State) :
    (s.setFilterCap cap).tunerReady = s.tunerReady := rfl
@[simp] theorem State.setFilterCap_hasPllLock (cap : BitVec Config.filCalWidth) (s : State) :
    (s.setFilterCap cap).hasPllLock = s.hasPllLock := rfl
@[simp] theorem State.setFilterCap_fault (cap : BitVec Config.filCalWidth) (s : State) :
    (s.setFilterCap cap).fault = s.fault := rfl
@[simp] theorem State.setFilterCap_seq (cap : BitVec Config.filCalWidth) (s : State) :
    (s.setFilterCap cap).seq = s.seq := rfl
@[simp] theorem State.setFilterCap_reads (cap : BitVec Config.filCalWidth) (s : State) :
    (s.setFilterCap cap).reads = s.reads := rfl
@[simp] theorem State.setFilterCap_running (cap : BitVec Config.filCalWidth) (s : State) :
    (s.setFilterCap cap).running = s.running := rfl
@[simp] theorem State.setFilterCap_todo (cap : BitVec Config.filCalWidth) (s : State) :
    (s.setFilterCap cap).todo = s.todo := rfl
@[simp] theorem State.setFilterCap_handle (cap : BitVec Config.filCalWidth) (s : State) :
    (s.setFilterCap cap).handle = s.handle := rfl
@[simp] theorem State.setFilterCap_ppm (cap : BitVec Config.filCalWidth) (s : State) :
    (s.setFilterCap cap).ppm = s.ppm := rfl
@[simp] theorem State.setFilterCap_gain (cap : BitVec Config.filCalWidth) (s : State) :
    (s.setFilterCap cap).gain = s.gain := rfl
@[simp] theorem State.setFilterCap_xtalFreq (cap : BitVec Config.filCalWidth) (s : State) :
    (s.setFilterCap cap).xtalFreq = s.xtalFreq := rfl
@[simp] theorem State.setFilterCap_filterCap (cap : BitVec Config.filCalWidth) (s : State) :
    (s.setFilterCap cap).filterCap = some cap := rfl
@[simp] theorem State.setFilterCap_actualRate (cap : BitVec Config.filCalWidth) (s : State) :
    (s.setFilterCap cap).actualRate = s.actualRate := rfl
@[simp] theorem State.setFilterCap_shadow (cap : BitVec Config.filCalWidth) (s : State) :
    (s.setFilterCap cap).shadow = s.shadow := rfl
@[simp] theorem State.setFilterCap_mem (cap : BitVec Config.filCalWidth) (s : State) :
    (s.setFilterCap cap).mem = s.mem := rfl
@[simp] theorem State.setFilterCap_bridge (cap : BitVec Config.filCalWidth) (s : State) :
    (s.setFilterCap cap).bridge = s.bridge := rfl
@[simp] theorem State.setFilterCap_i2cPtr (cap : BitVec Config.filCalWidth) (s : State) :
    (s.setFilterCap cap).i2cPtr = s.i2cPtr := rfl
@[simp] theorem State.setFilterCap_fifoEpoch (cap : BitVec Config.filCalWidth) (s : State) :
    (s.setFilterCap cap).fifoEpoch = s.fifoEpoch := rfl
@[simp] theorem State.setFilterCap_streamPos (cap : BitVec Config.filCalWidth) (s : State) :
    (s.setFilterCap cap).streamPos = s.streamPos := rfl
@[simp] theorem State.setFilterCap_firs (cap : BitVec Config.filCalWidth) (s : State) :
    (s.setFilterCap cap).firs = s.firs := rfl
@[simp] theorem State.setFilterCap_dss (cap : BitVec Config.filCalWidth) (s : State) :
    (s.setFilterCap cap).dss = s.dss := rfl
@[simp] theorem State.setFilterCap_iqdss (cap : BitVec Config.filCalWidth) (s : State) :
    (s.setFilterCap cap).iqdss = s.iqdss := rfl
@[simp] theorem State.setFilterCap_fms (cap : BitVec Config.filCalWidth) (s : State) :
    (s.setFilterCap cap).fms = s.fms := rfl
@[simp] theorem State.setFilterCap_ams (cap : BitVec Config.filCalWidth) (s : State) :
    (s.setFilterCap cap).ams = s.ams := rfl
@[simp] theorem State.setFilterCap_avgs (cap : BitVec Config.filCalWidth) (s : State) :
    (s.setFilterCap cap).avgs = s.avgs := rfl
@[simp] theorem State.setFilterCap_sts (cap : BitVec Config.filCalWidth) (s : State) :
    (s.setFilterCap cap).sts = s.sts := rfl
@[simp] theorem State.setFilterCap_des (cap : BitVec Config.filCalWidth) (s : State) :
    (s.setFilterCap cap).des = s.des := rfl
@[simp] theorem State.setFilterCap_pipeline (cap : BitVec Config.filCalWidth) (s : State) :
    (s.setFilterCap cap).pipeline = s.pipeline := rfl
@[simp] theorem State.setFilterCap_messages (cap : BitVec Config.filCalWidth) (s : State) :
    (s.setFilterCap cap).messages = s.messages := rfl
@[simp] theorem State.setFilterCap_errors (cap : BitVec Config.filCalWidth) (s : State) :
    (s.setFilterCap cap).errors = s.errors := rfl
@[simp] theorem State.setFilterCap_handlerInstalled (cap : BitVec Config.filCalWidth) (s : State) :
    (s.setFilterCap cap).handlerInstalled = s.handlerInstalled := rfl
@[simp] theorem State.setFilterCap_ended (cap : BitVec Config.filCalWidth) (s : State) :
    (s.setFilterCap cap).ended = s.ended := rfl
@[simp] theorem State.setFilterCap_result (cap : BitVec Config.filCalWidth) (s : State) :
    (s.setFilterCap cap).result = s.result := rfl
@[simp] theorem State.setFilterCap_inbox (cap : BitVec Config.filCalWidth) (s : State) :
    (s.setFilterCap cap).inbox = s.inbox := rfl
@[simp] theorem State.setFilterCap_trace (cap : BitVec Config.filCalWidth) (s : State) :
    (s.setFilterCap cap).trace = s.trace := rfl
@[simp] theorem State.setFilterCap_plan (cap : BitVec Config.filCalWidth) (s : State) :
    (s.setFilterCap cap).plan = s.plan := rfl
@[simp] theorem State.setFilterCap_drawNo (cap : BitVec Config.filCalWidth) (s : State) :
    (s.setFilterCap cap).drawNo = s.drawNo := rfl

@[simp] theorem State.setXtal_opened (f : Int) (s : State) : (s.setXtal f).opened = s.opened := rfl
@[simp] theorem State.setXtal_claimed (f : Int) (s : State) : (s.setXtal f).claimed = s.claimed := rfl
@[simp] theorem State.setXtal_i2cOpen (f : Int) (s : State) : (s.setXtal f).i2cOpen = s.i2cOpen := rfl
@[simp] theorem State.setXtal_tunerReady (f : Int) (s : State) : (s.setXtal f).tunerReady = s.tunerReady := rfl
@[simp] theorem State.setXtal_hasPllLock (f : Int) (s : State) : (s.setXtal f).hasPllLock = s.hasPllLock := rfl
@[simp] theorem State.setXtal_fault (f : Int) (s : State) : (s.setXtal f).fault = s.fault := rfl
@[simp] theorem State.setXtal_seq (f : Int) (s : State) : (s.setXtal f).seq = s.seq := rfl
@[simp] theorem State.setXtal_reads (f : Int) (s : State) : (s.setXtal f).reads = s.reads := rfl
@[simp] theorem State.setXtal_running (f : Int) (s : State) : (s.setXtal f).running = s.running := rfl
@[simp] theorem State.setXtal_todo (f : Int) (s : State) : (s.setXtal f).todo = s.todo := rfl
@[simp] theorem State.setXtal_handle (f : Int) (s : State) : (s.setXtal f).handle = s.handle := rfl
@[simp] theorem State.setXtal_ppm (f : Int) (s : State) : (s.setXtal f).ppm = s.ppm := rfl
@[simp] theorem State.setXtal_gain (f : Int) (s : State) : (s.setXtal f).gain = s.gain := rfl
@[simp] theorem State.setXtal_xtalFreq (f : Int) (s : State) : (s.setXtal f).xtalFreq = some f := rfl
@[simp] theorem State.setXtal_filterCap (f : Int) (s : State) : (s.setXtal f).filterCap = s.filterCap := rfl
@[simp] theorem State.setXtal_actualRate (f : Int) (s : State) : (s.setXtal f).actualRate = s.actualRate := rfl
@[simp] theorem State.setXtal_shadow (f : Int) (s : State) : (s.setXtal f).shadow = s.shadow := rfl
@[simp] theorem State.setXtal_mem (f : Int) (s : State) : (s.setXtal f).mem = s.mem := rfl
@[simp] theorem State.setXtal_bridge (f : Int) (s : State) : (s.setXtal f).bridge = s.bridge := rfl
@[simp] theorem State.setXtal_i2cPtr (f : Int) (s : State) : (s.setXtal f).i2cPtr = s.i2cPtr := rfl
@[simp] theorem State.setXtal_fifoEpoch (f : Int) (s : State) : (s.setXtal f).fifoEpoch = s.fifoEpoch := rfl
@[simp] theorem State.setXtal_streamPos (f : Int) (s : State) : (s.setXtal f).streamPos = s.streamPos := rfl
@[simp] theorem State.setXtal_firs (f : Int) (s : State) : (s.setXtal f).firs = s.firs := rfl
@[simp] theorem State.setXtal_dss (f : Int) (s : State) : (s.setXtal f).dss = s.dss := rfl
@[simp] theorem State.setXtal_iqdss (f : Int) (s : State) : (s.setXtal f).iqdss = s.iqdss := rfl
@[simp] theorem State.setXtal_fms (f : Int) (s : State) : (s.setXtal f).fms = s.fms := rfl
@[simp] theorem State.setXtal_ams (f : Int) (s : State) : (s.setXtal f).ams = s.ams := rfl
@[simp] theorem State.setXtal_avgs (f : Int) (s : State) : (s.setXtal f).avgs = s.avgs := rfl
@[simp] theorem State.setXtal_sts (f : Int) (s : State) : (s.setXtal f).sts = s.sts := rfl
@[simp] theorem State.setXtal_des (f : Int) (s : State) : (s.setXtal f).des = s.des := rfl
@[simp] theorem State.setXtal_pipeline (f : Int) (s : State) : (s.setXtal f).pipeline = s.pipeline := rfl
@[simp] theorem State.setXtal_messages (f : Int) (s : State) : (s.setXtal f).messages = s.messages := rfl
@[simp] theorem State.setXtal_errors (f : Int) (s : State) : (s.setXtal f).errors = s.errors := rfl
@[simp] theorem State.setXtal_handlerInstalled (f : Int) (s : State) :
    (s.setXtal f).handlerInstalled = s.handlerInstalled := rfl
@[simp] theorem State.setXtal_ended (f : Int) (s : State) : (s.setXtal f).ended = s.ended := rfl
@[simp] theorem State.setXtal_result (f : Int) (s : State) : (s.setXtal f).result = s.result := rfl
@[simp] theorem State.setXtal_inbox (f : Int) (s : State) : (s.setXtal f).inbox = s.inbox := rfl
@[simp] theorem State.setXtal_trace (f : Int) (s : State) : (s.setXtal f).trace = s.trace := rfl
@[simp] theorem State.setXtal_plan (f : Int) (s : State) : (s.setXtal f).plan = s.plan := rfl
@[simp] theorem State.setXtal_drawNo (f : Int) (s : State) : (s.setXtal f).drawNo = s.drawNo := rfl

@[simp] theorem State.started_opened (c : Config.Params) (op : Instr) (q : SeqOp) (s : State) :
    (s.started c op q).opened = s.opened := rfl
@[simp] theorem State.started_claimed (c : Config.Params) (op : Instr) (q : SeqOp) (s : State) :
    (s.started c op q).claimed = s.claimed := rfl
@[simp] theorem State.started_i2cOpen (c : Config.Params) (op : Instr) (q : SeqOp) (s : State) :
    (s.started c op q).i2cOpen = s.i2cOpen := rfl
@[simp] theorem State.started_tunerReady (c : Config.Params) (op : Instr) (q : SeqOp) (s : State) :
    (s.started c op q).tunerReady = s.tunerReady := rfl
@[simp] theorem State.started_hasPllLock (c : Config.Params) (op : Instr) (q : SeqOp) (s : State) :
    (s.started c op q).hasPllLock = s.hasPllLock := rfl
@[simp] theorem State.started_fault (c : Config.Params) (op : Instr) (q : SeqOp) (s : State) :
    (s.started c op q).fault = s.fault := rfl
@[simp] theorem State.started_seq (c : Config.Params) (op : Instr) (q : SeqOp) (s : State) :
    (s.started c op q).seq = { op := q, step := 0 } := rfl
@[simp] theorem State.started_reads (c : Config.Params) (op : Instr) (q : SeqOp) (s : State) :
    (s.started c op q).reads = s.reads := rfl
@[simp] theorem State.started_running (c : Config.Params) (op : Instr) (q : SeqOp) (s : State) :
    (s.started c op q).running = some op := rfl
@[simp] theorem State.started_todo (c : Config.Params) (op : Instr) (q : SeqOp) (s : State) :
    (s.started c op q).todo = programOf c op := rfl
@[simp] theorem State.started_handle (c : Config.Params) (op : Instr) (q : SeqOp) (s : State) :
    (s.started c op q).handle = s.handle := rfl
@[simp] theorem State.started_ppm (c : Config.Params) (op : Instr) (q : SeqOp) (s : State) :
    (s.started c op q).ppm = s.ppm := rfl
@[simp] theorem State.started_gain (c : Config.Params) (op : Instr) (q : SeqOp) (s : State) :
    (s.started c op q).gain = s.gain := rfl
@[simp] theorem State.started_xtalFreq (c : Config.Params) (op : Instr) (q : SeqOp) (s : State) :
    (s.started c op q).xtalFreq = s.xtalFreq := rfl
@[simp] theorem State.started_filterCap (c : Config.Params) (op : Instr) (q : SeqOp) (s : State) :
    (s.started c op q).filterCap = s.filterCap := rfl
@[simp] theorem State.started_actualRate (c : Config.Params) (op : Instr) (q : SeqOp) (s : State) :
    (s.started c op q).actualRate = s.actualRate := rfl
@[simp] theorem State.started_shadow (c : Config.Params) (op : Instr) (q : SeqOp) (s : State) :
    (s.started c op q).shadow = s.shadow := rfl
@[simp] theorem State.started_mem (c : Config.Params) (op : Instr) (q : SeqOp) (s : State) :
    (s.started c op q).mem = s.mem := rfl
@[simp] theorem State.started_bridge (c : Config.Params) (op : Instr) (q : SeqOp) (s : State) :
    (s.started c op q).bridge = s.bridge := rfl
@[simp] theorem State.started_i2cPtr (c : Config.Params) (op : Instr) (q : SeqOp) (s : State) :
    (s.started c op q).i2cPtr = s.i2cPtr := rfl
@[simp] theorem State.started_fifoEpoch (c : Config.Params) (op : Instr) (q : SeqOp) (s : State) :
    (s.started c op q).fifoEpoch = s.fifoEpoch := rfl
@[simp] theorem State.started_streamPos (c : Config.Params) (op : Instr) (q : SeqOp) (s : State) :
    (s.started c op q).streamPos = s.streamPos := rfl
@[simp] theorem State.started_firs (c : Config.Params) (op : Instr) (q : SeqOp) (s : State) :
    (s.started c op q).firs = s.firs := rfl
@[simp] theorem State.started_dss (c : Config.Params) (op : Instr) (q : SeqOp) (s : State) :
    (s.started c op q).dss = s.dss := rfl
@[simp] theorem State.started_iqdss (c : Config.Params) (op : Instr) (q : SeqOp) (s : State) :
    (s.started c op q).iqdss = s.iqdss := rfl
@[simp] theorem State.started_fms (c : Config.Params) (op : Instr) (q : SeqOp) (s : State) :
    (s.started c op q).fms = s.fms := rfl
@[simp] theorem State.started_ams (c : Config.Params) (op : Instr) (q : SeqOp) (s : State) :
    (s.started c op q).ams = s.ams := rfl
@[simp] theorem State.started_avgs (c : Config.Params) (op : Instr) (q : SeqOp) (s : State) :
    (s.started c op q).avgs = s.avgs := rfl
@[simp] theorem State.started_sts (c : Config.Params) (op : Instr) (q : SeqOp) (s : State) :
    (s.started c op q).sts = s.sts := rfl
@[simp] theorem State.started_des (c : Config.Params) (op : Instr) (q : SeqOp) (s : State) :
    (s.started c op q).des = s.des := rfl
@[simp] theorem State.started_pipeline (c : Config.Params) (op : Instr) (q : SeqOp) (s : State) :
    (s.started c op q).pipeline = s.pipeline := rfl
@[simp] theorem State.started_messages (c : Config.Params) (op : Instr) (q : SeqOp) (s : State) :
    (s.started c op q).messages = s.messages := rfl
@[simp] theorem State.started_errors (c : Config.Params) (op : Instr) (q : SeqOp) (s : State) :
    (s.started c op q).errors = s.errors := rfl
@[simp] theorem State.started_handlerInstalled (c : Config.Params) (op : Instr) (q : SeqOp) (s : State) :
    (s.started c op q).handlerInstalled = s.handlerInstalled := rfl
@[simp] theorem State.started_ended (c : Config.Params) (op : Instr) (q : SeqOp) (s : State) :
    (s.started c op q).ended = s.ended := rfl
@[simp] theorem State.started_result (c : Config.Params) (op : Instr) (q : SeqOp) (s : State) :
    (s.started c op q).result = s.result := rfl
@[simp] theorem State.started_inbox (c : Config.Params) (op : Instr) (q : SeqOp) (s : State) :
    (s.started c op q).inbox = s.inbox := rfl
@[simp] theorem State.started_trace (c : Config.Params) (op : Instr) (q : SeqOp) (s : State) :
    (s.started c op q).trace = s.trace := rfl
@[simp] theorem State.started_plan (c : Config.Params) (op : Instr) (q : SeqOp) (s : State) :
    (s.started c op q).plan = s.plan := rfl
@[simp] theorem State.started_drawNo (c : Config.Params) (op : Instr) (q : SeqOp) (s : State) :
    (s.started c op q).drawNo = s.drawNo := rfl

@[simp] theorem State.bare_opened (s : State) : (s.bare).opened = s.opened := rfl
@[simp] theorem State.bare_claimed (s : State) : (s.bare).claimed = s.claimed := rfl
@[simp] theorem State.bare_i2cOpen (s : State) : (s.bare).i2cOpen = s.i2cOpen := rfl
@[simp] theorem State.bare_tunerReady (s : State) : (s.bare).tunerReady = s.tunerReady := rfl
@[simp] theorem State.bare_hasPllLock (s : State) : (s.bare).hasPllLock = s.hasPllLock := rfl
@[simp] theorem State.bare_fault (s : State) : (s.bare).fault = s.fault := rfl
@[simp] theorem State.bare_seq (s : State) : (s.bare).seq = s.seq := rfl
@[simp] theorem State.bare_reads (s : State) : (s.bare).reads = s.reads := rfl
@[simp] theorem State.bare_running (s : State) : (s.bare).running = none := rfl
@[simp] theorem State.bare_todo (s : State) : (s.bare).todo = [] := rfl
@[simp] theorem State.bare_handle (s : State) : (s.bare).handle = s.handle := rfl
@[simp] theorem State.bare_ppm (s : State) : (s.bare).ppm = s.ppm := rfl
@[simp] theorem State.bare_gain (s : State) : (s.bare).gain = s.gain := rfl
@[simp] theorem State.bare_xtalFreq (s : State) : (s.bare).xtalFreq = s.xtalFreq := rfl
@[simp] theorem State.bare_filterCap (s : State) : (s.bare).filterCap = s.filterCap := rfl
@[simp] theorem State.bare_actualRate (s : State) : (s.bare).actualRate = s.actualRate := rfl
@[simp] theorem State.bare_shadow (s : State) : (s.bare).shadow = s.shadow := rfl
@[simp] theorem State.bare_mem (s : State) : (s.bare).mem = s.mem := rfl
@[simp] theorem State.bare_bridge (s : State) : (s.bare).bridge = s.bridge := rfl
@[simp] theorem State.bare_i2cPtr (s : State) : (s.bare).i2cPtr = s.i2cPtr := rfl
@[simp] theorem State.bare_fifoEpoch (s : State) : (s.bare).fifoEpoch = s.fifoEpoch := rfl
@[simp] theorem State.bare_streamPos (s : State) : (s.bare).streamPos = s.streamPos := rfl
@[simp] theorem State.bare_firs (s : State) : (s.bare).firs = s.firs := rfl
@[simp] theorem State.bare_dss (s : State) : (s.bare).dss = s.dss := rfl
@[simp] theorem State.bare_iqdss (s : State) : (s.bare).iqdss = s.iqdss := rfl
@[simp] theorem State.bare_fms (s : State) : (s.bare).fms = s.fms := rfl
@[simp] theorem State.bare_ams (s : State) : (s.bare).ams = s.ams := rfl
@[simp] theorem State.bare_avgs (s : State) : (s.bare).avgs = s.avgs := rfl
@[simp] theorem State.bare_sts (s : State) : (s.bare).sts = s.sts := rfl
@[simp] theorem State.bare_des (s : State) : (s.bare).des = s.des := rfl
@[simp] theorem State.bare_pipeline (s : State) : (s.bare).pipeline = s.pipeline := rfl
@[simp] theorem State.bare_messages (s : State) : (s.bare).messages = s.messages := rfl
@[simp] theorem State.bare_errors (s : State) : (s.bare).errors = s.errors := rfl
@[simp] theorem State.bare_handlerInstalled (s : State) : (s.bare).handlerInstalled = s.handlerInstalled := rfl
@[simp] theorem State.bare_ended (s : State) : (s.bare).ended = s.ended := rfl
@[simp] theorem State.bare_result (s : State) : (s.bare).result = s.result := rfl
@[simp] theorem State.bare_inbox (s : State) : (s.bare).inbox = s.inbox := rfl
@[simp] theorem State.bare_trace (s : State) : (s.bare).trace = s.trace := rfl
@[simp] theorem State.bare_plan (s : State) : (s.bare).plan = s.plan := rfl
@[simp] theorem State.bare_drawNo (s : State) : (s.bare).drawNo = s.drawNo := rfl

@[simp] theorem State.setRated_opened (r : Nat) (s : State) : (s.setRated r).opened = s.opened := rfl
@[simp] theorem State.setRated_claimed (r : Nat) (s : State) : (s.setRated r).claimed = s.claimed := rfl
@[simp] theorem State.setRated_i2cOpen (r : Nat) (s : State) : (s.setRated r).i2cOpen = false := rfl
@[simp] theorem State.setRated_tunerReady (r : Nat) (s : State) : (s.setRated r).tunerReady = s.tunerReady := rfl
@[simp] theorem State.setRated_hasPllLock (r : Nat) (s : State) : (s.setRated r).hasPllLock = s.hasPllLock := rfl
@[simp] theorem State.setRated_fault (r : Nat) (s : State) : (s.setRated r).fault = s.fault := rfl
@[simp] theorem State.setRated_seq (r : Nat) (s : State) : (s.setRated r).seq = s.seq := rfl
@[simp] theorem State.setRated_reads (r : Nat) (s : State) : (s.setRated r).reads = s.reads := rfl
@[simp] theorem State.setRated_running (r : Nat) (s : State) : (s.setRated r).running = s.running := rfl
@[simp] theorem State.setRated_todo (r : Nat) (s : State) : (s.setRated r).todo = s.todo := rfl
@[simp] theorem State.setRated_handle (r : Nat) (s : State) : (s.setRated r).handle = s.handle := rfl
@[simp] theorem State.setRated_ppm (r : Nat) (s : State) : (s.setRated r).ppm = s.ppm := rfl
@[simp] theorem State.setRated_gain (r : Nat) (s : State) : (s.setRated r).gain = s.gain := rfl
@[simp] theorem State.setRated_xtalFreq (r : Nat) (s : State) : (s.setRated r).xtalFreq = s.xtalFreq := rfl
@[simp] theorem State.setRated_filterCap (r : Nat) (s : State) : (s.setRated r).filterCap = s.filterCap := rfl
@[simp] theorem State.setRated_actualRate (r : Nat) (s : State) : (s.setRated r).actualRate = some r := rfl
@[simp] theorem State.setRated_shadow (r : Nat) (s : State) : (s.setRated r).shadow = s.shadow := rfl
@[simp] theorem State.setRated_mem (r : Nat) (s : State) : (s.setRated r).mem = s.mem := rfl
@[simp] theorem State.setRated_bridge (r : Nat) (s : State) : (s.setRated r).bridge = s.bridge := rfl
@[simp] theorem State.setRated_i2cPtr (r : Nat) (s : State) : (s.setRated r).i2cPtr = s.i2cPtr := rfl
@[simp] theorem State.setRated_fifoEpoch (r : Nat) (s : State) : (s.setRated r).fifoEpoch = s.fifoEpoch := rfl
@[simp] theorem State.setRated_streamPos (r : Nat) (s : State) : (s.setRated r).streamPos = s.streamPos := rfl
@[simp] theorem State.setRated_firs (r : Nat) (s : State) : (s.setRated r).firs = s.firs := rfl
@[simp] theorem State.setRated_dss (r : Nat) (s : State) : (s.setRated r).dss = s.dss := rfl
@[simp] theorem State.setRated_iqdss (r : Nat) (s : State) : (s.setRated r).iqdss = s.iqdss := rfl
@[simp] theorem State.setRated_fms (r : Nat) (s : State) : (s.setRated r).fms = s.fms := rfl
@[simp] theorem State.setRated_ams (r : Nat) (s : State) : (s.setRated r).ams = s.ams := rfl
@[simp] theorem State.setRated_avgs (r : Nat) (s : State) : (s.setRated r).avgs = s.avgs := rfl
@[simp] theorem State.setRated_sts (r : Nat) (s : State) : (s.setRated r).sts = s.sts := rfl
@[simp] theorem State.setRated_des (r : Nat) (s : State) : (s.setRated r).des = s.des := rfl
@[simp] theorem State.setRated_pipeline (r : Nat) (s : State) : (s.setRated r).pipeline = s.pipeline := rfl
@[simp] theorem State.setRated_messages (r : Nat) (s : State) : (s.setRated r).messages = s.messages := rfl
@[simp] theorem State.setRated_errors (r : Nat) (s : State) : (s.setRated r).errors = s.errors := rfl
@[simp] theorem State.setRated_handlerInstalled (r : Nat) (s : State) :
    (s.setRated r).handlerInstalled = s.handlerInstalled := rfl
@[simp] theorem State.setRated_ended (r : Nat) (s : State) : (s.setRated r).ended = s.ended := rfl
@[simp] theorem State.setRated_result (r : Nat) (s : State) : (s.setRated r).result = s.result := rfl
@[simp] theorem State.setRated_inbox (r : Nat) (s : State) : (s.setRated r).inbox = s.inbox := rfl
@[simp] theorem State.setRated_trace (r : Nat) (s : State) : (s.setRated r).trace = s.trace := rfl
@[simp] theorem State.setRated_plan (r : Nat) (s : State) : (s.setRated r).plan = s.plan := rfl
@[simp] theorem State.setRated_drawNo (r : Nat) (s : State) : (s.setRated r).drawNo = s.drawNo := rfl

@[simp] theorem State.setActualRate_opened (r : Nat) (s : State) : (s.setActualRate r).opened = s.opened := rfl
@[simp] theorem State.setActualRate_claimed (r : Nat) (s : State) : (s.setActualRate r).claimed = s.claimed := rfl
@[simp] theorem State.setActualRate_i2cOpen (r : Nat) (s : State) : (s.setActualRate r).i2cOpen = s.i2cOpen := rfl
@[simp] theorem State.setActualRate_tunerReady (r : Nat) (s : State) :
    (s.setActualRate r).tunerReady = s.tunerReady := rfl
@[simp] theorem State.setActualRate_hasPllLock (r : Nat) (s : State) :
    (s.setActualRate r).hasPllLock = s.hasPllLock := rfl
@[simp] theorem State.setActualRate_fault (r : Nat) (s : State) : (s.setActualRate r).fault = s.fault := rfl
@[simp] theorem State.setActualRate_seq (r : Nat) (s : State) : (s.setActualRate r).seq = s.seq := rfl
@[simp] theorem State.setActualRate_reads (r : Nat) (s : State) : (s.setActualRate r).reads = s.reads := rfl
@[simp] theorem State.setActualRate_running (r : Nat) (s : State) : (s.setActualRate r).running = s.running := rfl
@[simp] theorem State.setActualRate_todo (r : Nat) (s : State) : (s.setActualRate r).todo = s.todo := rfl
@[simp] theorem State.setActualRate_handle (r : Nat) (s : State) : (s.setActualRate r).handle = s.handle := rfl
@[simp] theorem State.setActualRate_ppm (r : Nat) (s : State) : (s.setActualRate r).ppm = s.ppm := rfl
@[simp] theorem State.setActualRate_gain (r : Nat) (s : State) : (s.setActualRate r).gain = s.gain := rfl
@[simp] theorem State.setActualRate_xtalFreq (r : Nat) (s : State) : (s.setActualRate r).xtalFreq = s.xtalFreq := rfl
@[simp] theorem State.setActualRate_filterCap (r : Nat) (s : State) :
    (s.setActualRate r).filterCap = s.filterCap := rfl
@[simp] theorem State.setActualRate_actualRate (r : Nat) (s : State) : (s.setActualRate r).actualRate = some r := rfl
@[simp] theorem State.setActualRate_shadow (r : Nat) (s : State) : (s.setActualRate r).shadow = s.shadow := rfl
@[simp] theorem State.setActualRate_mem (r : Nat) (s : State) : (s.setActualRate r).mem = s.mem := rfl
@[simp] theorem State.setActualRate_bridge (r : Nat) (s : State) : (s.setActualRate r).bridge = s.bridge := rfl
@[simp] theorem State.setActualRate_i2cPtr (r : Nat) (s : State) : (s.setActualRate r).i2cPtr = s.i2cPtr := rfl
@[simp] theorem State.setActualRate_fifoEpoch (r : Nat) (s : State) :
    (s.setActualRate r).fifoEpoch = s.fifoEpoch := rfl
@[simp] theorem State.setActualRate_streamPos (r : Nat) (s : State) :
    (s.setActualRate r).streamPos = s.streamPos := rfl
@[simp] theorem State.setActualRate_firs (r : Nat) (s : State) : (s.setActualRate r).firs = s.firs := rfl
@[simp] theorem State.setActualRate_dss (r : Nat) (s : State) : (s.setActualRate r).dss = s.dss := rfl
@[simp] theorem State.setActualRate_iqdss (r : Nat) (s : State) : (s.setActualRate r).iqdss = s.iqdss := rfl
@[simp] theorem State.setActualRate_fms (r : Nat) (s : State) : (s.setActualRate r).fms = s.fms := rfl
@[simp] theorem State.setActualRate_ams (r : Nat) (s : State) : (s.setActualRate r).ams = s.ams := rfl
@[simp] theorem State.setActualRate_avgs (r : Nat) (s : State) : (s.setActualRate r).avgs = s.avgs := rfl
@[simp] theorem State.setActualRate_sts (r : Nat) (s : State) : (s.setActualRate r).sts = s.sts := rfl
@[simp] theorem State.setActualRate_des (r : Nat) (s : State) : (s.setActualRate r).des = s.des := rfl
@[simp] theorem State.setActualRate_pipeline (r : Nat) (s : State) : (s.setActualRate r).pipeline = s.pipeline := rfl
@[simp] theorem State.setActualRate_messages (r : Nat) (s : State) : (s.setActualRate r).messages = s.messages := rfl
@[simp] theorem State.setActualRate_errors (r : Nat) (s : State) : (s.setActualRate r).errors = s.errors := rfl
@[simp] theorem State.setActualRate_handlerInstalled (r : Nat) (s : State) :
    (s.setActualRate r).handlerInstalled = s.handlerInstalled := rfl
@[simp] theorem State.setActualRate_ended (r : Nat) (s : State) : (s.setActualRate r).ended = s.ended := rfl
@[simp] theorem State.setActualRate_result (r : Nat) (s : State) : (s.setActualRate r).result = s.result := rfl
@[simp] theorem State.setActualRate_inbox (r : Nat) (s : State) : (s.setActualRate r).inbox = s.inbox := rfl
@[simp] theorem State.setActualRate_trace (r : Nat) (s : State) : (s.setActualRate r).trace = s.trace := rfl
@[simp] theorem State.setActualRate_plan (r : Nat) (s : State) : (s.setActualRate r).plan = s.plan := rfl
@[simp] theorem State.setActualRate_drawNo (r : Nat) (s : State) : (s.setActualRate r).drawNo = s.drawNo := rfl

@[simp] theorem complete_opened (r : Result) (s : State) : (complete r s).opened = s.opened := rfl
@[simp] theorem complete_claimed (r : Result) (s : State) : (complete r s).claimed = s.claimed := rfl
@[simp] theorem complete_i2cOpen (r : Result) (s : State) : (complete r s).i2cOpen = s.i2cOpen := rfl
@[simp] theorem complete_tunerReady (r : Result) (s : State) : (complete r s).tunerReady = s.tunerReady := rfl
@[simp] theorem complete_hasPllLock (r : Result) (s : State) : (complete r s).hasPllLock = s.hasPllLock := rfl
@[simp] theorem complete_fault (r : Result) (s : State) : (complete r s).fault = s.fault := rfl
@[simp] theorem complete_seq (r : Result) (s : State) : (complete r s).seq = s.seq := rfl
@[simp] theorem complete_reads (r : Result) (s : State) : (complete r s).reads = s.reads := rfl
@[simp] theorem complete_running (r : Result) (s : State) : (complete r s).running = s.running := rfl
@[simp] theorem complete_todo (r : Result) (s : State) : (complete r s).todo = s.todo := rfl
@[simp] theorem complete_handle (r : Result) (s : State) : (complete r s).handle = s.handle := rfl
@[simp] theorem complete_ppm (r : Result) (s : State) : (complete r s).ppm = s.ppm := rfl
@[simp] theorem complete_gain (r : Result) (s : State) : (complete r s).gain = s.gain := rfl
@[simp] theorem complete_xtalFreq (r : Result) (s : State) : (complete r s).xtalFreq = s.xtalFreq := rfl
@[simp] theorem complete_filterCap (r : Result) (s : State) : (complete r s).filterCap = s.filterCap := rfl
@[simp] theorem complete_actualRate (r : Result) (s : State) : (complete r s).actualRate = s.actualRate := rfl
@[simp] theorem complete_shadow (r : Result) (s : State) : (complete r s).shadow = s.shadow := rfl
@[simp] theorem complete_mem (r : Result) (s : State) : (complete r s).mem = s.mem := rfl
@[simp] theorem complete_bridge (r : Result) (s : State) : (complete r s).bridge = s.bridge := rfl
@[simp] theorem complete_i2cPtr (r : Result) (s : State) : (complete r s).i2cPtr = s.i2cPtr := rfl
@[simp] theorem complete_fifoEpoch (r : Result) (s : State) : (complete r s).fifoEpoch = s.fifoEpoch := rfl
@[simp] theorem complete_streamPos (r : Result) (s : State) : (complete r s).streamPos = s.streamPos := rfl
@[simp] theorem complete_firs (r : Result) (s : State) : (complete r s).firs = s.firs := rfl
@[simp] theorem complete_dss (r : Result) (s : State) : (complete r s).dss = s.dss := rfl
@[simp] theorem complete_iqdss (r : Result) (s : State) : (complete r s).iqdss = s.iqdss := rfl
@[simp] theorem complete_fms (r : Result) (s : State) : (complete r s).fms = s.fms := rfl
@[simp] theorem complete_ams (r : Result) (s : State) : (complete r s).ams = s.ams := rfl
@[simp] theorem complete_avgs (r : Result) (s : State) : (complete r s).avgs = s.avgs := rfl
@[simp] theorem complete_sts (r : Result) (s : State) : (complete r s).sts = s.sts := rfl
@[simp] theorem complete_des (r : Result) (s : State) : (complete r s).des = s.des := rfl
@[simp] theorem complete_pipeline (r : Result) (s : State) : (complete r s).pipeline = s.pipeline := rfl
@[simp] theorem complete_messages (r : Result) (s : State) : (complete r s).messages = s.messages := rfl
@[simp] theorem complete_errors (r : Result) (s : State) : (complete r s).errors = s.errors := rfl
@[simp] theorem complete_handlerInstalled (r : Result) (s : State) :
    (complete r s).handlerInstalled = s.handlerInstalled := rfl
@[simp] theorem complete_ended (r : Result) (s : State) : (complete r s).ended = s.ended := rfl
@[simp] theorem complete_result (r : Result) (s : State) : (complete r s).result = r := rfl
@[simp] theorem complete_inbox (r : Result) (s : State) : (complete r s).inbox = s.inbox := rfl
@[simp] theorem complete_trace (r : Result) (s : State) : (complete r s).trace = s.trace := rfl
@[simp] theorem complete_plan (r : Result) (s : State) : (complete r s).plan = s.plan := rfl
@[simp] theorem complete_drawNo (r : Result) (s : State) : (complete r s).drawNo = s.drawNo := rfl

@[simp] theorem consumeStream_opened (n : Nat) (s : State) : (consumeStream n s).opened = s.opened := rfl
@[simp] theorem consumeStream_claimed (n : Nat) (s : State) : (consumeStream n s).claimed = s.claimed := rfl
@[simp] theorem consumeStream_i2cOpen (n : Nat) (s : State) : (consumeStream n s).i2cOpen = s.i2cOpen := rfl
@[simp] theorem consumeStream_tunerReady (n : Nat) (s : State) : (consumeStream n s).tunerReady = s.tunerReady := rfl
@[simp] theorem consumeStream_hasPllLock (n : Nat) (s : State) : (consumeStream n s).hasPllLock = s.hasPllLock := rfl
@[simp] theorem consumeStream_fault (n : Nat) (s : State) : (consumeStream n s).fault = s.fault := rfl
@[simp] theorem consumeStream_seq (n : Nat) (s : State) : (consumeStream n s).seq = s.seq := rfl
@[simp] theorem consumeStream_reads (n : Nat) (s : State) : (consumeStream n s).reads = s.reads := rfl
@[simp] theorem consumeStream_running (n : Nat) (s : State) : (consumeStream n s).running = s.running := rfl
@[simp] theorem consumeStream_todo (n : Nat) (s : State) : (consumeStream n s).todo = s.todo := rfl
@[simp] theorem consumeStream_handle (n : Nat) (s : State) : (consumeStream n s).handle = s.handle := rfl
@[simp] theorem consumeStream_ppm (n : Nat) (s : State) : (consumeStream n s).ppm = s.ppm := rfl
@[simp] theorem consumeStream_gain (n : Nat) (s : State) : (consumeStream n s).gain = s.gain := rfl
@[simp] theorem consumeStream_xtalFreq (n : Nat) (s : State) : (consumeStream n s).xtalFreq = s.xtalFreq := rfl
@[simp] theorem consumeStream_filterCap (n : Nat) (s : State) : (consumeStream n s).filterCap = s.filterCap := rfl
@[simp] theorem consumeStream_actualRate (n : Nat) (s : State) : (consumeStream n s).actualRate = s.actualRate := rfl
@[simp] theorem consumeStream_shadow (n : Nat) (s : State) : (consumeStream n s).shadow = s.shadow := rfl
@[simp] theorem consumeStream_mem (n : Nat) (s : State) : (consumeStream n s).mem = s.mem := rfl
@[simp] theorem consumeStream_bridge (n : Nat) (s : State) : (consumeStream n s).bridge = s.bridge := rfl
@[simp] theorem consumeStream_i2cPtr (n : Nat) (s : State) : (consumeStream n s).i2cPtr = s.i2cPtr := rfl
@[simp] theorem consumeStream_fifoEpoch (n : Nat) (s : State) : (consumeStream n s).fifoEpoch = s.fifoEpoch := rfl
@[simp] theorem consumeStream_streamPos (n : Nat) (s : State) : (consumeStream n s).streamPos = s.streamPos + n := rfl
@[simp] theorem consumeStream_firs (n : Nat) (s : State) : (consumeStream n s).firs = s.firs := rfl
@[simp] theorem consumeStream_dss (n : Nat) (s : State) : (consumeStream n s).dss = s.dss := rfl
@[simp] theorem consumeStream_iqdss (n : Nat) (s : State) : (consumeStream n s).iqdss = s.iqdss := rfl
@[simp] theorem consumeStream_fms (n : Nat) (s : State) : (consumeStream n s).fms = s.fms := rfl
@[simp] theorem consumeStream_ams (n : Nat) (s : State) : (consumeStream n s).ams = s.ams := rfl
@[simp] theorem consumeStream_avgs (n : Nat) (s : State) : (consumeStream n s).avgs = s.avgs := rfl
@[simp] theorem consumeStream_sts (n : Nat) (s : State) : (consumeStream n s).sts = s.sts := rfl
@[simp] theorem consumeStream_des (n : Nat) (s : State) : (consumeStream n s).des = s.des := rfl
@[simp] theorem consumeStream_pipeline (n : Nat) (s : State) : (consumeStream n s).pipeline = s.pipeline := rfl
@[simp] theorem consumeStream_messages (n : Nat) (s : State) : (consumeStream n s).messages = s.messages := rfl
@[simp] theorem consumeStream_errors (n : Nat) (s : State) : (consumeStream n s).errors = s.errors := rfl
@[simp] theorem consumeStream_handlerInstalled (n : Nat) (s : State) :
    (consumeStream n s).handlerInstalled = s.handlerInstalled := rfl
@[simp] theorem consumeStream_ended (n : Nat) (s : State) : (consumeStream n s).ended = s.ended := rfl
@[simp] theorem consumeStream_result (n : Nat) (s : State) : (consumeStream n s).result = s.result := rfl
@[simp] theorem consumeStream_inbox (n : Nat) (s : State) : (consumeStream n s).inbox = s.inbox := rfl
@[simp] theorem consumeStream_trace (n : Nat) (s : State) : (consumeStream n s).trace = s.trace := rfl
@[simp] theorem consumeStream_plan (n : Nat) (s : State) :
    (consumeStream n s).plan = { s.plan with samples := s.plan.samples.drop n } := rfl
@[simp] theorem consumeStream_drawNo (n : Nat) (s : State) : (consumeStream n s).drawNo = s.drawNo := rfl

@[simp] theorem deliver_opened (r : ErrRecord) (s : State) : (deliver r s).opened = s.opened := rfl
@[simp] theorem deliver_claimed (r : ErrRecord) (s : State) : (deliver r s).claimed = s.claimed := rfl
@[simp] theorem deliver_i2cOpen (r : ErrRecord) (s : State) : (deliver r s).i2cOpen = s.i2cOpen := rfl
@[simp] theorem deliver_tunerReady (r : ErrRecord) (s : State) : (deliver r s).tunerReady = s.tunerReady := rfl
@[simp] theorem deliver_hasPllLock (r : ErrRecord) (s : State) : (deliver r s).hasPllLock = s.hasPllLock := rfl
@[simp] theorem deliver_fault (r : ErrRecord) (s : State) : (deliver r s).fault = s.fault := rfl
@[simp] theorem deliver_seq (r : ErrRecord) (s : State) : (deliver r s).seq = s.seq := rfl
@[simp] theorem deliver_reads (r : ErrRecord) (s : State) : (deliver r s).reads = s.reads := rfl
@[simp] theorem deliver_running (r : ErrRecord) (s : State) : (deliver r s).running = s.running := rfl
@[simp] theorem deliver_todo (r : ErrRecord) (s : State) : (deliver r s).todo = s.todo := rfl
@[simp] theorem deliver_handle (r : ErrRecord) (s : State) : (deliver r s).handle = s.handle := rfl
@[simp] theorem deliver_ppm (r : ErrRecord) (s : State) : (deliver r s).ppm = s.ppm := rfl
@[simp] theorem deliver_gain (r : ErrRecord) (s : State) : (deliver r s).gain = s.gain := rfl
@[simp] theorem deliver_xtalFreq (r : ErrRecord) (s : State) : (deliver r s).xtalFreq = s.xtalFreq := rfl
@[simp] theorem deliver_filterCap (r : ErrRecord) (s : State) : (deliver r s).filterCap = s.filterCap := rfl
@[simp] theorem deliver_actualRate (r : ErrRecord) (s : State) : (deliver r s).actualRate = s.actualRate := rfl
@[simp] theorem deliver_shadow (r : ErrRecord) (s : State) : (deliver r s).shadow = s.shadow := rfl
@[simp] theorem deliver_mem (r : ErrRecord) (s : State) : (deliver r s).mem = s.mem := rfl
@[simp] theorem deliver_bridge (r : ErrRecord) (s : State) : (deliver r s).bridge = s.bridge := rfl
@[simp] theorem deliver_i2cPtr (r : ErrRecord) (s : State) : (deliver r s).i2cPtr = s.i2cPtr := rfl
@[simp] theorem deliver_fifoEpoch (r : ErrRecord) (s : State) : (deliver r s).fifoEpoch = s.fifoEpoch := rfl
@[simp] theorem deliver_streamPos (r : ErrRecord) (s : State) : (deliver r s).streamPos = s.streamPos := rfl
@[simp] theorem deliver_firs (r : ErrRecord) (s : State) : (deliver r s).firs = s.firs := rfl
@[simp] theorem deliver_dss (r : ErrRecord) (s : State) : (deliver r s).dss = s.dss := rfl
@[simp] theorem deliver_iqdss (r : ErrRecord) (s : State) : (deliver r s).iqdss = s.iqdss := rfl
@[simp] theorem deliver_fms (r : ErrRecord) (s : State) : (deliver r s).fms = s.fms := rfl
@[simp] theorem deliver_ams (r : ErrRecord) (s : State) : (deliver r s).ams = s.ams := rfl
@[simp] theorem deliver_avgs (r : ErrRecord) (s : State) : (deliver r s).avgs = s.avgs := rfl
@[simp] theorem deliver_sts (r : ErrRecord) (s : State) : (deliver r s).sts = s.sts := rfl
@[simp] theorem deliver_des (r : ErrRecord) (s : State) : (deliver r s).des = s.des := rfl
@[simp] theorem deliver_pipeline (r : ErrRecord) (s : State) : (deliver r s).pipeline = s.pipeline := rfl
@[simp] theorem deliver_messages (r : ErrRecord) (s : State) : (deliver r s).messages = s.messages := rfl
@[simp] theorem deliver_errors (r : ErrRecord) (s : State) : (deliver r s).errors = s.errors ++ [r] := rfl
@[simp] theorem deliver_handlerInstalled (r : ErrRecord) (s : State) :
    (deliver r s).handlerInstalled = s.handlerInstalled := rfl
@[simp] theorem deliver_ended (r : ErrRecord) (s : State) :
    (deliver r s).ended = (s.ended || (!s.handlerInstalled && r.kind.fatalUnhandled)) := rfl
@[simp] theorem deliver_result (r : ErrRecord) (s : State) : (deliver r s).result = s.result := rfl
@[simp] theorem deliver_inbox (r : ErrRecord) (s : State) : (deliver r s).inbox = s.inbox := rfl
@[simp] theorem deliver_trace (r : ErrRecord) (s : State) : (deliver r s).trace = s.trace := rfl
@[simp] theorem deliver_plan (r : ErrRecord) (s : State) : (deliver r s).plan = s.plan := rfl
@[simp] theorem deliver_drawNo (r : ErrRecord) (s : State) : (deliver r s).drawNo = s.drawNo := rfl

@[simp] theorem deviceClosed_opened (s : State) : (deviceClosed s).opened = false := rfl
@[simp] theorem deviceClosed_claimed (s : State) : (deviceClosed s).claimed = false := rfl
@[simp] theorem deviceClosed_i2cOpen (s : State) : (deviceClosed s).i2cOpen = false := rfl
@[simp] theorem deviceClosed_tunerReady (s : State) : (deviceClosed s).tunerReady = false := rfl
@[simp] theorem deviceClosed_hasPllLock (s : State) : (deviceClosed s).hasPllLock = false := rfl
@[simp] theorem deviceClosed_fault (s : State) : (deviceClosed s).fault = s.fault := rfl
@[simp] theorem deviceClosed_seq (s : State) : (deviceClosed s).seq = s.seq := rfl
@[simp] theorem deviceClosed_reads (s : State) : (deviceClosed s).reads = s.reads := rfl
@[simp] theorem deviceClosed_running (s : State) : (deviceClosed s).running = s.running := rfl
@[simp] theorem deviceClosed_todo (s : State) : (deviceClosed s).todo = s.todo := rfl
@[simp] theorem deviceClosed_handle (s : State) : (deviceClosed s).handle = none := rfl
@[simp] theorem deviceClosed_ppm (s : State) : (deviceClosed s).ppm = none := rfl
@[simp] theorem deviceClosed_gain (s : State) : (deviceClosed s).gain = none := rfl
@[simp] theorem deviceClosed_xtalFreq (s : State) : (deviceClosed s).xtalFreq = none := rfl
@[simp] theorem deviceClosed_filterCap (s : State) : (deviceClosed s).filterCap = none := rfl
@[simp] theorem deviceClosed_actualRate (s : State) : (deviceClosed s).actualRate = none := rfl
@[simp] theorem deviceClosed_shadow (s : State) : (deviceClosed s).shadow = none := rfl
@[simp] theorem deviceClosed_mem (s : State) : (deviceClosed s).mem = s.mem := rfl
@[simp] theorem deviceClosed_bridge (s : State) : (deviceClosed s).bridge = s.bridge := rfl
@[simp] theorem deviceClosed_i2cPtr (s : State) : (deviceClosed s).i2cPtr = s.i2cPtr := rfl
@[simp] theorem deviceClosed_fifoEpoch (s : State) : (deviceClosed s).fifoEpoch = s.fifoEpoch := rfl
@[simp] theorem deviceClosed_streamPos (s : State) : (deviceClosed s).streamPos = s.streamPos := rfl
@[simp] theorem deviceClosed_firs (s : State) : (deviceClosed s).firs = s.firs := rfl
@[simp] theorem deviceClosed_dss (s : State) : (deviceClosed s).dss = s.dss := rfl
@[simp] theorem deviceClosed_iqdss (s : State) : (deviceClosed s).iqdss = s.iqdss := rfl
@[simp] theorem deviceClosed_fms (s : State) : (deviceClosed s).fms = s.fms := rfl
@[simp] theorem deviceClosed_ams (s : State) : (deviceClosed s).ams = s.ams := rfl
@[simp] theorem deviceClosed_avgs (s : State) : (deviceClosed s).avgs = s.avgs := rfl
@[simp] theorem deviceClosed_sts (s : State) : (deviceClosed s).sts = s.sts := rfl
@[simp] theorem deviceClosed_des (s : State) : (deviceClosed s).des = s.des := rfl
@[simp] theorem deviceClosed_pipeline (s : State) : (deviceClosed s).pipeline = s.pipeline := rfl
@[simp] theorem deviceClosed_messages (s : State) : (deviceClosed s).messages = s.messages := rfl
@[simp] theorem deviceClosed_errors (s : State) : (deviceClosed s).errors = s.errors := rfl
@[simp] theorem deviceClosed_handlerInstalled (s : State) :
    (deviceClosed s).handlerInstalled = s.handlerInstalled := rfl
@[simp] theorem deviceClosed_ended (s : State) : (deviceClosed s).ended = s.ended := rfl
@[simp] theorem deviceClosed_result (s : State) : (deviceClosed s).result = s.result := rfl
@[simp] theorem deviceClosed_inbox (s : State) : (deviceClosed s).inbox = s.inbox := rfl
@[simp] theorem deviceClosed_trace (s : State) : (deviceClosed s).trace = s.trace := rfl
@[simp] theorem deviceClosed_plan (s : State) : (deviceClosed s).plan = s.plan := rfl
@[simp] theorem deviceClosed_drawNo (s : State) : (deviceClosed s).drawNo = s.drawNo := rfl

@[simp] theorem rtlClosed_opened (s : State) : (rtlClosed s).opened = s.opened := rfl
@[simp] theorem rtlClosed_claimed (s : State) : (rtlClosed s).claimed = false := rfl
@[simp] theorem rtlClosed_i2cOpen (s : State) : (rtlClosed s).i2cOpen = false := rfl
@[simp] theorem rtlClosed_tunerReady (s : State) : (rtlClosed s).tunerReady = false := rfl
@[simp] theorem rtlClosed_hasPllLock (s : State) : (rtlClosed s).hasPllLock = s.hasPllLock := rfl
@[simp] theorem rtlClosed_fault (s : State) : (rtlClosed s).fault = s.fault := rfl
@[simp] theorem rtlClosed_seq (s : State) : (rtlClosed s).seq = s.seq := rfl
@[simp] theorem rtlClosed_reads (s : State) : (rtlClosed s).reads = s.reads := rfl
@[simp] theorem rtlClosed_running (s : State) : (rtlClosed s).running = s.running := rfl
@[simp] theorem rtlClosed_todo (s : State) : (rtlClosed s).todo = s.todo := rfl
@[simp] theorem rtlClosed_handle (s : State) : (rtlClosed s).handle = s.handle := rfl
@[simp] theorem rtlClosed_ppm (s : State) : (rtlClosed s).ppm = none := rfl
@[simp] theorem rtlClosed_gain (s : State) : (rtlClosed s).gain = none := rfl
@[simp] theorem rtlClosed_xtalFreq (s : State) : (rtlClosed s).xtalFreq = none := rfl
@[simp] theorem rtlClosed_filterCap (s : State) : (rtlClosed s).filterCap = none := rfl
@[simp] theorem rtlClosed_actualRate (s : State) : (rtlClosed s).actualRate = none := rfl
@[simp] theorem rtlClosed_shadow (s : State) : (rtlClosed s).shadow = none := rfl
@[simp] theorem rtlClosed_mem (s : State) : (rtlClosed s).mem = s.mem := rfl
@[simp] theorem rtlClosed_bridge (s : State) : (rtlClosed s).bridge = s.bridge := rfl
@[simp] theorem rtlClosed_i2cPtr (s : State) : (rtlClosed s).i2cPtr = s.i2cPtr := rfl
@[simp] theorem rtlClosed_fifoEpoch (s : State) : (rtlClosed s).fifoEpoch = s.fifoEpoch := rfl
@[simp] theorem rtlClosed_streamPos (s : State) : (rtlClosed s).streamPos = s.streamPos := rfl
@[simp] theorem rtlClosed_firs (s : State) : (rtlClosed s).firs = s.firs := rfl
@[simp] theorem rtlClosed_dss (s : State) : (rtlClosed s).dss = s.dss := rfl
@[simp] theorem rtlClosed_iqdss (s : State) : (rtlClosed s).iqdss = s.iqdss := rfl
@[simp] theorem rtlClosed_fms (s : State) : (rtlClosed s).fms = s.fms := rfl
@[simp] theorem rtlClosed_ams (s : State) : (rtlClosed s).ams = s.ams := rfl
@[simp] theorem rtlClosed_avgs (s : State) : (rtlClosed s).avgs = s.avgs := rfl
@[simp] theorem rtlClosed_sts (s : State) : (rtlClosed s).sts = s.sts := rfl
@[simp] theorem rtlClosed_des (s : State) : (rtlClosed s).des = s.des := rfl
@[simp] theorem rtlClosed_pipeline (s : State) : (rtlClosed s).pipeline = s.pipeline := rfl
@[simp] theorem rtlClosed_messages (s : State) : (rtlClosed s).messages = s.messages := rfl
@[simp] theorem rtlClosed_errors (s : State) : (rtlClosed s).errors = s.errors := rfl
@[simp] theorem rtlClosed_handlerInstalled (s : State) : (rtlClosed s).handlerInstalled = s.handlerInstalled := rfl
@[simp] theorem rtlClosed_ended (s : State) : (rtlClosed s).ended = s.ended := rfl
@[simp] theorem rtlClosed_result (s : State) : (rtlClosed s).result = s.result := rfl
@[simp] theorem rtlClosed_inbox (s : State) : (rtlClosed s).inbox = s.inbox := rfl
@[simp] theorem rtlClosed_trace (s : State) : (rtlClosed s).trace = s.trace := rfl
@[simp] theorem rtlClosed_plan (s : State) : (rtlClosed s).plan = s.plan := rfl
@[simp] theorem rtlClosed_drawNo (s : State) : (rtlClosed s).drawNo = s.drawNo := rfl

@[simp] theorem destroyWords_opened (s : State) : (destroyWords s).opened = s.opened := rfl
@[simp] theorem destroyWords_claimed (s : State) : (destroyWords s).claimed = s.claimed := rfl
@[simp] theorem destroyWords_i2cOpen (s : State) : (destroyWords s).i2cOpen = s.i2cOpen := rfl
@[simp] theorem destroyWords_tunerReady (s : State) : (destroyWords s).tunerReady = s.tunerReady := rfl
@[simp] theorem destroyWords_hasPllLock (s : State) : (destroyWords s).hasPllLock = s.hasPllLock := rfl
@[simp] theorem destroyWords_fault (s : State) : (destroyWords s).fault = s.fault := rfl
@[simp] theorem destroyWords_seq (s : State) : (destroyWords s).seq = s.seq := rfl
@[simp] theorem destroyWords_reads (s : State) : (destroyWords s).reads = s.reads := rfl
@[simp] theorem destroyWords_running (s : State) : (destroyWords s).running = s.running := rfl
@[simp] theorem destroyWords_todo (s : State) : (destroyWords s).todo = s.todo := rfl
@[simp] theorem destroyWords_handle (s : State) : (destroyWords s).handle = s.handle := rfl
@[simp] theorem destroyWords_ppm (s : State) : (destroyWords s).ppm = none := rfl
@[simp] theorem destroyWords_gain (s : State) : (destroyWords s).gain = none := rfl
@[simp] theorem destroyWords_xtalFreq (s : State) : (destroyWords s).xtalFreq = none := rfl
@[simp] theorem destroyWords_filterCap (s : State) : (destroyWords s).filterCap = none := rfl
@[simp] theorem destroyWords_actualRate (s : State) : (destroyWords s).actualRate = none := rfl
@[simp] theorem destroyWords_shadow (s : State) : (destroyWords s).shadow = none := rfl
@[simp] theorem destroyWords_mem (s : State) : (destroyWords s).mem = s.mem := rfl
@[simp] theorem destroyWords_bridge (s : State) : (destroyWords s).bridge = s.bridge := rfl
@[simp] theorem destroyWords_i2cPtr (s : State) : (destroyWords s).i2cPtr = s.i2cPtr := rfl
@[simp] theorem destroyWords_fifoEpoch (s : State) : (destroyWords s).fifoEpoch = s.fifoEpoch := rfl
@[simp] theorem destroyWords_streamPos (s : State) : (destroyWords s).streamPos = s.streamPos := rfl
@[simp] theorem destroyWords_firs (s : State) : (destroyWords s).firs = s.firs := rfl
@[simp] theorem destroyWords_dss (s : State) : (destroyWords s).dss = s.dss := rfl
@[simp] theorem destroyWords_iqdss (s : State) : (destroyWords s).iqdss = s.iqdss := rfl
@[simp] theorem destroyWords_fms (s : State) : (destroyWords s).fms = s.fms := rfl
@[simp] theorem destroyWords_ams (s : State) : (destroyWords s).ams = s.ams := rfl
@[simp] theorem destroyWords_avgs (s : State) : (destroyWords s).avgs = s.avgs := rfl
@[simp] theorem destroyWords_sts (s : State) : (destroyWords s).sts = s.sts := rfl
@[simp] theorem destroyWords_des (s : State) : (destroyWords s).des = s.des := rfl
@[simp] theorem destroyWords_pipeline (s : State) : (destroyWords s).pipeline = s.pipeline := rfl
@[simp] theorem destroyWords_messages (s : State) : (destroyWords s).messages = s.messages := rfl
@[simp] theorem destroyWords_errors (s : State) : (destroyWords s).errors = s.errors := rfl
@[simp] theorem destroyWords_handlerInstalled (s : State) :
    (destroyWords s).handlerInstalled = s.handlerInstalled := rfl
@[simp] theorem destroyWords_ended (s : State) : (destroyWords s).ended = s.ended := rfl
@[simp] theorem destroyWords_result (s : State) : (destroyWords s).result = s.result := rfl
@[simp] theorem destroyWords_inbox (s : State) : (destroyWords s).inbox = s.inbox := rfl
@[simp] theorem destroyWords_trace (s : State) : (destroyWords s).trace = s.trace := rfl
@[simp] theorem destroyWords_plan (s : State) : (destroyWords s).plan = s.plan := rfl
@[simp] theorem destroyWords_drawNo (s : State) : (destroyWords s).drawNo = s.drawNo := rfl

@[simp] theorem deviceStore_opened (t : Target) (bytes : List Byte) (s : State) :
    (deviceStore t bytes s).opened = s.opened := by
  cases t with
  | register base room => rfl
  | tuner => cases bytes <;> rfl
  | absent => rfl
@[simp] theorem deviceStore_claimed (t : Target) (bytes : List Byte) (s : State) :
    (deviceStore t bytes s).claimed = s.claimed := by
  cases t with
  | register base room => rfl
  | tuner => cases bytes <;> rfl
  | absent => rfl
@[simp] theorem deviceStore_i2cOpen (t : Target) (bytes : List Byte) (s : State) :
    (deviceStore t bytes s).i2cOpen = s.i2cOpen := by
  cases t with
  | register base room => rfl
  | tuner => cases bytes <;> rfl
  | absent => rfl
@[simp] theorem deviceStore_tunerReady (t : Target) (bytes : List Byte) (s : State) :
    (deviceStore t bytes s).tunerReady = s.tunerReady := by
  cases t with
  | register base room => rfl
  | tuner => cases bytes <;> rfl
  | absent => rfl
@[simp] theorem deviceStore_hasPllLock (t : Target) (bytes : List Byte) (s : State) :
    (deviceStore t bytes s).hasPllLock = s.hasPllLock := by
  cases t with
  | register base room => rfl
  | tuner => cases bytes <;> rfl
  | absent => rfl
@[simp] theorem deviceStore_fault (t : Target) (bytes : List Byte) (s : State) :
    (deviceStore t bytes s).fault = s.fault := by
  cases t with
  | register base room => rfl
  | tuner => cases bytes <;> rfl
  | absent => rfl
@[simp] theorem deviceStore_seq (t : Target) (bytes : List Byte) (s : State) :
    (deviceStore t bytes s).seq = s.seq := by
  cases t with
  | register base room => rfl
  | tuner => cases bytes <;> rfl
  | absent => rfl
@[simp] theorem deviceStore_reads (t : Target) (bytes : List Byte) (s : State) :
    (deviceStore t bytes s).reads = s.reads := by
  cases t with
  | register base room => rfl
  | tuner => cases bytes <;> rfl
  | absent => rfl
@[simp] theorem deviceStore_running (t : Target) (bytes : List Byte) (s : State) :
    (deviceStore t bytes s).running = s.running := by
  cases t with
  | register base room => rfl
  | tuner => cases bytes <;> rfl
  | absent => rfl
@[simp] theorem deviceStore_todo (t : Target) (bytes : List Byte) (s : State) :
    (deviceStore t bytes s).todo = s.todo := by
  cases t with
  | register base room => rfl
  | tuner => cases bytes <;> rfl
  | absent => rfl
@[simp] theorem deviceStore_handle (t : Target) (bytes : List Byte) (s : State) :
    (deviceStore t bytes s).handle = s.handle := by
  cases t with
  | register base room => rfl
  | tuner => cases bytes <;> rfl
  | absent => rfl
@[simp] theorem deviceStore_ppm (t : Target) (bytes : List Byte) (s : State) :
    (deviceStore t bytes s).ppm = s.ppm := by
  cases t with
  | register base room => rfl
  | tuner => cases bytes <;> rfl
  | absent => rfl
@[simp] theorem deviceStore_gain (t : Target) (bytes : List Byte) (s : State) :
    (deviceStore t bytes s).gain = s.gain := by
  cases t with
  | register base room => rfl
  | tuner => cases bytes <;> rfl
  | absent => rfl
@[simp] theorem deviceStore_xtalFreq (t : Target) (bytes : List Byte) (s : State) :
    (deviceStore t bytes s).xtalFreq = s.xtalFreq := by
  cases t with
  | register base room => rfl
  | tuner => cases bytes <;> rfl
  | absent => rfl
@[simp] theorem deviceStore_filterCap (t : Target) (bytes : List Byte) (s : State) :
    (deviceStore t bytes s).filterCap = s.filterCap := by
  cases t with
  | register base room => rfl
  | tuner => cases bytes <;> rfl
  | absent => rfl
@[simp] theorem deviceStore_actualRate (t : Target) (bytes : List Byte) (s : State) :
    (deviceStore t bytes s).actualRate = s.actualRate := by
  cases t with
  | register base room => rfl
  | tuner => cases bytes <;> rfl
  | absent => rfl
@[simp] theorem deviceStore_shadow (t : Target) (bytes : List Byte) (s : State) :
    (deviceStore t bytes s).shadow = s.shadow := by
  cases t with
  | register base room => rfl
  | tuner => cases bytes <;> rfl
  | absent => rfl
@[simp] theorem deviceStore_firs (t : Target) (bytes : List Byte) (s : State) :
    (deviceStore t bytes s).firs = s.firs := by
  cases t with
  | register base room => rfl
  | tuner => cases bytes <;> rfl
  | absent => rfl
@[simp] theorem deviceStore_dss (t : Target) (bytes : List Byte) (s : State) :
    (deviceStore t bytes s).dss = s.dss := by
  cases t with
  | register base room => rfl
  | tuner => cases bytes <;> rfl
  | absent => rfl
@[simp] theorem deviceStore_iqdss (t : Target) (bytes : List Byte) (s : State) :
    (deviceStore t bytes s).iqdss = s.iqdss := by
  cases t with
  | register base room => rfl
  | tuner => cases bytes <;> rfl
  | absent => rfl
@[simp] theorem deviceStore_fms (t : Target) (bytes : List Byte) (s : State) :
    (deviceStore t bytes s).fms = s.fms := by
  cases t with
  | register base room => rfl
  | tuner => cases bytes <;> rfl
  | absent => rfl
@[simp] theorem deviceStore_ams (t : Target) (bytes : List Byte) (s : State) :
    (deviceStore t bytes s).ams = s.ams := by
  cases t with
  | register base room => rfl
  | tuner => cases bytes <;> rfl
  | absent => rfl
@[simp] theorem deviceStore_avgs (t : Target) (bytes : List Byte) (s : State) :
    (deviceStore t bytes s).avgs = s.avgs := by
  cases t with
  | register base room => rfl
  | tuner => cases bytes <;> rfl
  | absent => rfl
@[simp] theorem deviceStore_sts (t : Target) (bytes : List Byte) (s : State) :
    (deviceStore t bytes s).sts = s.sts := by
  cases t with
  | register base room => rfl
  | tuner => cases bytes <;> rfl
  | absent => rfl
@[simp] theorem deviceStore_des (t : Target) (bytes : List Byte) (s : State) :
    (deviceStore t bytes s).des = s.des := by
  cases t with
  | register base room => rfl
  | tuner => cases bytes <;> rfl
  | absent => rfl
@[simp] theorem deviceStore_pipeline (t : Target) (bytes : List Byte) (s : State) :
    (deviceStore t bytes s).pipeline = s.pipeline := by
  cases t with
  | register base room => rfl
  | tuner => cases bytes <;> rfl
  | absent => rfl
@[simp] theorem deviceStore_messages (t : Target) (bytes : List Byte) (s : State) :
    (deviceStore t bytes s).messages = s.messages := by
  cases t with
  | register base room => rfl
  | tuner => cases bytes <;> rfl
  | absent => rfl
@[simp] theorem deviceStore_errors (t : Target) (bytes : List Byte) (s : State) :
    (deviceStore t bytes s).errors = s.errors := by
  cases t with
  | register base room => rfl
  | tuner => cases bytes <;> rfl
  | absent => rfl
@[simp] theorem deviceStore_handlerInstalled (t : Target) (bytes : List Byte) (s : State) :
    (deviceStore t bytes s).handlerInstalled = s.handlerInstalled := by
  cases t with
  | register base room => rfl
  | tuner => cases bytes <;> rfl
  | absent => rfl
@[simp] theorem deviceStore_ended (t : Target) (bytes : List Byte) (s : State) :
    (deviceStore t bytes s).ended = s.ended := by
  cases t with
  | register base room => rfl
  | tuner => cases bytes <;> rfl
  | absent => rfl
@[simp] theorem deviceStore_result (t : Target) (bytes : List Byte) (s : State) :
    (deviceStore t bytes s).result = s.result := by
  cases t with
  | register base room => rfl
  | tuner => cases bytes <;> rfl
  | absent => rfl
@[simp] theorem deviceStore_inbox (t : Target) (bytes : List Byte) (s : State) :
    (deviceStore t bytes s).inbox = s.inbox := by
  cases t with
  | register base room => rfl
  | tuner => cases bytes <;> rfl
  | absent => rfl
@[simp] theorem deviceStore_trace (t : Target) (bytes : List Byte) (s : State) :
    (deviceStore t bytes s).trace = s.trace := by
  cases t with
  | register base room => rfl
  | tuner => cases bytes <;> rfl
  | absent => rfl
@[simp] theorem deviceStore_plan (t : Target) (bytes : List Byte) (s : State) :
    (deviceStore t bytes s).plan = s.plan := by
  cases t with
  | register base room => rfl
  | tuner => cases bytes <;> rfl
  | absent => rfl
@[simp] theorem deviceStore_drawNo (t : Target) (bytes : List Byte) (s : State) :
    (deviceStore t bytes s).drawNo = s.drawNo := by
  cases t with
  | register base room => rfl
  | tuner => cases bytes <;> rfl
  | absent => rfl

@[simp] theorem deviceForget_opened (t : Target) (bytes : List Byte) (draw : Nat) (s : State) :
    (deviceForget t bytes draw s).opened = s.opened := by
  cases t with
  | register base room => rfl
  | tuner => cases bytes <;> rfl
  | absent => rfl
@[simp] theorem deviceForget_claimed (t : Target) (bytes : List Byte) (draw : Nat) (s : State) :
    (deviceForget t bytes draw s).claimed = s.claimed := by
  cases t with
  | register base room => rfl
  | tuner => cases bytes <;> rfl
  | absent => rfl
@[simp] theorem deviceForget_i2cOpen (t : Target) (bytes : List Byte) (draw : Nat) (s : State) :
    (deviceForget t bytes draw s).i2cOpen = s.i2cOpen := by
  cases t with
  | register base room => rfl
  | tuner => cases bytes <;> rfl
  | absent => rfl
@[simp] theorem deviceForget_tunerReady (t : Target) (bytes : List Byte) (draw : Nat) (s : State) :
    (deviceForget t bytes draw s).tunerReady = s.tunerReady := by
  cases t with
  | register base room => rfl
  | tuner => cases bytes <;> rfl
  | absent => rfl
@[simp] theorem deviceForget_hasPllLock (t : Target) (bytes : List Byte) (draw : Nat) (s : State) :
    (deviceForget t bytes draw s).hasPllLock = s.hasPllLock := by
  cases t with
  | register base room => rfl
  | tuner => cases bytes <;> rfl
  | absent => rfl
@[simp] theorem deviceForget_fault (t : Target) (bytes : List Byte) (draw : Nat) (s : State) :
    (deviceForget t bytes draw s).fault = s.fault := by
  cases t with
  | register base room => rfl
  | tuner => cases bytes <;> rfl
  | absent => rfl
@[simp] theorem deviceForget_seq (t : Target) (bytes : List Byte) (draw : Nat) (s : State) :
    (deviceForget t bytes draw s).seq = s.seq := by
  cases t with
  | register base room => rfl
  | tuner => cases bytes <;> rfl
  | absent => rfl
@[simp] theorem deviceForget_reads (t : Target) (bytes : List Byte) (draw : Nat) (s : State) :
    (deviceForget t bytes draw s).reads = s.reads := by
  cases t with
  | register base room => rfl
  | tuner => cases bytes <;> rfl
  | absent => rfl
@[simp] theorem deviceForget_running (t : Target) (bytes : List Byte) (draw : Nat) (s : State) :
    (deviceForget t bytes draw s).running = s.running := by
  cases t with
  | register base room => rfl
  | tuner => cases bytes <;> rfl
  | absent => rfl
@[simp] theorem deviceForget_todo (t : Target) (bytes : List Byte) (draw : Nat) (s : State) :
    (deviceForget t bytes draw s).todo = s.todo := by
  cases t with
  | register base room => rfl
  | tuner => cases bytes <;> rfl
  | absent => rfl
@[simp] theorem deviceForget_handle (t : Target) (bytes : List Byte) (draw : Nat) (s : State) :
    (deviceForget t bytes draw s).handle = s.handle := by
  cases t with
  | register base room => rfl
  | tuner => cases bytes <;> rfl
  | absent => rfl
@[simp] theorem deviceForget_ppm (t : Target) (bytes : List Byte) (draw : Nat) (s : State) :
    (deviceForget t bytes draw s).ppm = s.ppm := by
  cases t with
  | register base room => rfl
  | tuner => cases bytes <;> rfl
  | absent => rfl
@[simp] theorem deviceForget_gain (t : Target) (bytes : List Byte) (draw : Nat) (s : State) :
    (deviceForget t bytes draw s).gain = s.gain := by
  cases t with
  | register base room => rfl
  | tuner => cases bytes <;> rfl
  | absent => rfl
@[simp] theorem deviceForget_xtalFreq (t : Target) (bytes : List Byte) (draw : Nat) (s : State) :
    (deviceForget t bytes draw s).xtalFreq = s.xtalFreq := by
  cases t with
  | register base room => rfl
  | tuner => cases bytes <;> rfl
  | absent => rfl
@[simp] theorem deviceForget_filterCap (t : Target) (bytes : List Byte) (draw : Nat) (s : State) :
    (deviceForget t bytes draw s).filterCap = s.filterCap := by
  cases t with
  | register base room => rfl
  | tuner => cases bytes <;> rfl
  | absent => rfl
@[simp] theorem deviceForget_actualRate (t : Target) (bytes : List Byte) (draw : Nat) (s : State) :
    (deviceForget t bytes draw s).actualRate = s.actualRate := by
  cases t with
  | register base room => rfl
  | tuner => cases bytes <;> rfl
  | absent => rfl
@[simp] theorem deviceForget_shadow (t : Target) (bytes : List Byte) (draw : Nat) (s : State) :
    (deviceForget t bytes draw s).shadow = s.shadow := by
  cases t with
  | register base room => rfl
  | tuner => cases bytes <;> rfl
  | absent => rfl
@[simp] theorem deviceForget_fifoEpoch (t : Target) (bytes : List Byte) (draw : Nat) (s : State) :
    (deviceForget t bytes draw s).fifoEpoch = s.fifoEpoch := by
  cases t with
  | register base room => rfl
  | tuner => cases bytes <;> rfl
  | absent => rfl
@[simp] theorem deviceForget_streamPos (t : Target) (bytes : List Byte) (draw : Nat) (s : State) :
    (deviceForget t bytes draw s).streamPos = s.streamPos := by
  cases t with
  | register base room => rfl
  | tuner => cases bytes <;> rfl
  | absent => rfl
@[simp] theorem deviceForget_firs (t : Target) (bytes : List Byte) (draw : Nat) (s : State) :
    (deviceForget t bytes draw s).firs = s.firs := by
  cases t with
  | register base room => rfl
  | tuner => cases bytes <;> rfl
  | absent => rfl
@[simp] theorem deviceForget_dss (t : Target) (bytes : List Byte) (draw : Nat) (s : State) :
    (deviceForget t bytes draw s).dss = s.dss := by
  cases t with
  | register base room => rfl
  | tuner => cases bytes <;> rfl
  | absent => rfl
@[simp] theorem deviceForget_iqdss (t : Target) (bytes : List Byte) (draw : Nat) (s : State) :
    (deviceForget t bytes draw s).iqdss = s.iqdss := by
  cases t with
  | register base room => rfl
  | tuner => cases bytes <;> rfl
  | absent => rfl
@[simp] theorem deviceForget_fms (t : Target) (bytes : List Byte) (draw : Nat) (s : State) :
    (deviceForget t bytes draw s).fms = s.fms := by
  cases t with
  | register base room => rfl
  | tuner => cases bytes <;> rfl
  | absent => rfl
@[simp] theorem deviceForget_ams (t : Target) (bytes : List Byte) (draw : Nat) (s : State) :
    (deviceForget t bytes draw s).ams = s.ams := by
  cases t with
  | register base room => rfl
  | tuner => cases bytes <;> rfl
  | absent => rfl
@[simp] theorem deviceForget_avgs (t : Target) (bytes : List Byte) (draw : Nat) (s : State) :
    (deviceForget t bytes draw s).avgs = s.avgs := by
  cases t with
  | register base room => rfl
  | tuner => cases bytes <;> rfl
  | absent => rfl
@[simp] theorem deviceForget_sts (t : Target) (bytes : List Byte) (draw : Nat) (s : State) :
    (deviceForget t bytes draw s).sts = s.sts := by
  cases t with
  | register base room => rfl
  | tuner => cases bytes <;> rfl
  | absent => rfl
@[simp] theorem deviceForget_des (t : Target) (bytes : List Byte) (draw : Nat) (s : State) :
    (deviceForget t bytes draw s).des = s.des := by
  cases t with
  | register base room => rfl
  | tuner => cases bytes <;> rfl
  | absent => rfl
@[simp] theorem deviceForget_pipeline (t : Target) (bytes : List Byte) (draw : Nat) (s : State) :
    (deviceForget t bytes draw s).pipeline = s.pipeline := by
  cases t with
  | register base room => rfl
  | tuner => cases bytes <;> rfl
  | absent => rfl
@[simp] theorem deviceForget_messages (t : Target) (bytes : List Byte) (draw : Nat) (s : State) :
    (deviceForget t bytes draw s).messages = s.messages := by
  cases t with
  | register base room => rfl
  | tuner => cases bytes <;> rfl
  | absent => rfl
@[simp] theorem deviceForget_errors (t : Target) (bytes : List Byte) (draw : Nat) (s : State) :
    (deviceForget t bytes draw s).errors = s.errors := by
  cases t with
  | register base room => rfl
  | tuner => cases bytes <;> rfl
  | absent => rfl
@[simp] theorem deviceForget_handlerInstalled (t : Target) (bytes : List Byte) (draw : Nat) (s : State) :
    (deviceForget t bytes draw s).handlerInstalled = s.handlerInstalled := by
  cases t with
  | register base room => rfl
  | tuner => cases bytes <;> rfl
  | absent => rfl
@[simp] theorem deviceForget_ended (t : Target) (bytes : List Byte) (draw : Nat) (s : State) :
    (deviceForget t bytes draw s).ended = s.ended := by
  cases t with
  | register base room => rfl
  | tuner => cases bytes <;> rfl
  | absent => rfl
@[simp] theorem deviceForget_result (t : Target) (bytes : List Byte) (draw : Nat) (s : State) :
    (deviceForget t bytes draw s).result = s.result := by
  cases t with
  | register base room => rfl
  | tuner => cases bytes <;> rfl
  | absent => rfl
@[simp] theorem deviceForget_inbox (t : Target) (bytes : List Byte) (draw : Nat) (s : State) :
    (deviceForget t bytes draw s).inbox = s.inbox := by
  cases t with
  | register base room => rfl
  | tuner => cases bytes <;> rfl
  | absent => rfl
@[simp] theorem deviceForget_trace (t : Target) (bytes : List Byte) (draw : Nat) (s : State) :
    (deviceForget t bytes draw s).trace = s.trace := by
  cases t with
  | register base room => rfl
  | tuner => cases bytes <;> rfl
  | absent => rfl
@[simp] theorem deviceForget_plan (t : Target) (bytes : List Byte) (draw : Nat) (s : State) :
    (deviceForget t bytes draw s).plan = s.plan := by
  cases t with
  | register base room => rfl
  | tuner => cases bytes <;> rfl
  | absent => rfl
@[simp] theorem deviceForget_drawNo (t : Target) (bytes : List Byte) (draw : Nat) (s : State) :
    (deviceForget t bytes draw s).drawNo = s.drawNo := by
  cases t with
  | register base room => rfl
  | tuner => cases bytes <;> rfl
  | absent => rfl

@[simp] theorem deviceAfterRead_opened (t : Target) (s : State) : (deviceAfterRead t s).opened = s.opened := by
  cases t <;> rfl
@[simp] theorem deviceAfterRead_claimed (t : Target) (s : State) : (deviceAfterRead t s).claimed = s.claimed := by
  cases t <;> rfl
@[simp] theorem deviceAfterRead_i2cOpen (t : Target) (s : State) : (deviceAfterRead t s).i2cOpen = s.i2cOpen := by
  cases t <;> rfl
@[simp] theorem deviceAfterRead_tunerReady (t : Target) (s : State) :
    (deviceAfterRead t s).tunerReady = s.tunerReady := by
  cases t <;> rfl
@[simp] theorem deviceAfterRead_hasPllLock (t : Target) (s : State) :
    (deviceAfterRead t s).hasPllLock = s.hasPllLock := by
  cases t <;> rfl
@[simp] theorem deviceAfterRead_fault (t : Target) (s : State) : (deviceAfterRead t s).fault = s.fault := by
  cases t <;> rfl
@[simp] theorem deviceAfterRead_seq (t : Target) (s : State) : (deviceAfterRead t s).seq = s.seq := by
  cases t <;> rfl
@[simp] theorem deviceAfterRead_reads (t : Target) (s : State) : (deviceAfterRead t s).reads = s.reads := by
  cases t <;> rfl
@[simp] theorem deviceAfterRead_running (t : Target) (s : State) : (deviceAfterRead t s).running = s.running := by
  cases t <;> rfl
@[simp] theorem deviceAfterRead_todo (t : Target) (s : State) : (deviceAfterRead t s).todo = s.todo := by
  cases t <;> rfl
@[simp] theorem deviceAfterRead_handle (t : Target) (s : State) : (deviceAfterRead t s).handle = s.handle := by
  cases t <;> rfl
@[simp] theorem deviceAfterRead_ppm (t : Target) (s : State) : (deviceAfterRead t s).ppm = s.ppm := by
  cases t <;> rfl
@[simp] theorem deviceAfterRead_gain (t : Target) (s : State) : (deviceAfterRead t s).gain = s.gain := by
  cases t <;> rfl
@[simp] theorem deviceAfterRead_xtalFreq (t : Target) (s : State) : (deviceAfterRead t s).xtalFreq = s.xtalFreq := by
  cases t <;> rfl
@[simp] theorem deviceAfterRead_filterCap (t : Target) (s : State) :
    (deviceAfterRead t s).filterCap = s.filterCap := by
  cases t <;> rfl
@[simp] theorem deviceAfterRead_actualRate (t : Target) (s : State) :
    (deviceAfterRead t s).actualRate = s.actualRate := by
  cases t <;> rfl
@[simp] theorem deviceAfterRead_shadow (t : Target) (s : State) : (deviceAfterRead t s).shadow = s.shadow := by
  cases t <;> rfl
@[simp] theorem deviceAfterRead_mem (t : Target) (s : State) : (deviceAfterRead t s).mem = s.mem := by
  cases t <;> rfl
@[simp] theorem deviceAfterRead_bridge (t : Target) (s : State) : (deviceAfterRead t s).bridge = s.bridge := by
  cases t <;> rfl
@[simp] theorem deviceAfterRead_i2cPtr (t : Target) (s : State) : (deviceAfterRead t s).i2cPtr = s.i2cPtr := by
  cases t <;> rfl
@[simp] theorem deviceAfterRead_fifoEpoch (t : Target) (s : State) :
    (deviceAfterRead t s).fifoEpoch = s.fifoEpoch := by
  cases t <;> rfl
@[simp] theorem deviceAfterRead_streamPos (t : Target) (s : State) :
    (deviceAfterRead t s).streamPos = s.streamPos := by
  cases t <;> rfl
@[simp] theorem deviceAfterRead_firs (t : Target) (s : State) : (deviceAfterRead t s).firs = s.firs := by
  cases t <;> rfl
@[simp] theorem deviceAfterRead_dss (t : Target) (s : State) : (deviceAfterRead t s).dss = s.dss := by
  cases t <;> rfl
@[simp] theorem deviceAfterRead_iqdss (t : Target) (s : State) : (deviceAfterRead t s).iqdss = s.iqdss := by
  cases t <;> rfl
@[simp] theorem deviceAfterRead_fms (t : Target) (s : State) : (deviceAfterRead t s).fms = s.fms := by
  cases t <;> rfl
@[simp] theorem deviceAfterRead_ams (t : Target) (s : State) : (deviceAfterRead t s).ams = s.ams := by
  cases t <;> rfl
@[simp] theorem deviceAfterRead_avgs (t : Target) (s : State) : (deviceAfterRead t s).avgs = s.avgs := by
  cases t <;> rfl
@[simp] theorem deviceAfterRead_sts (t : Target) (s : State) : (deviceAfterRead t s).sts = s.sts := by
  cases t <;> rfl
@[simp] theorem deviceAfterRead_des (t : Target) (s : State) : (deviceAfterRead t s).des = s.des := by
  cases t <;> rfl
@[simp] theorem deviceAfterRead_pipeline (t : Target) (s : State) : (deviceAfterRead t s).pipeline = s.pipeline := by
  cases t <;> rfl
@[simp] theorem deviceAfterRead_messages (t : Target) (s : State) : (deviceAfterRead t s).messages = s.messages := by
  cases t <;> rfl
@[simp] theorem deviceAfterRead_errors (t : Target) (s : State) : (deviceAfterRead t s).errors = s.errors := by
  cases t <;> rfl
@[simp] theorem deviceAfterRead_handlerInstalled (t : Target) (s : State) :
    (deviceAfterRead t s).handlerInstalled = s.handlerInstalled := by
  cases t <;> rfl
@[simp] theorem deviceAfterRead_ended (t : Target) (s : State) : (deviceAfterRead t s).ended = s.ended := by
  cases t <;> rfl
@[simp] theorem deviceAfterRead_result (t : Target) (s : State) : (deviceAfterRead t s).result = s.result := by
  cases t <;> rfl
@[simp] theorem deviceAfterRead_inbox (t : Target) (s : State) : (deviceAfterRead t s).inbox = s.inbox := by
  cases t <;> rfl
@[simp] theorem deviceAfterRead_trace (t : Target) (s : State) : (deviceAfterRead t s).trace = s.trace := by
  cases t <;> rfl
@[simp] theorem deviceAfterRead_drawNo (t : Target) (s : State) : (deviceAfterRead t s).drawNo = s.drawNo := by
  cases t <;> rfl

@[simp] theorem takeError_opened (e : Err) (s : State) : (takeError e s).opened = s.opened := by
  unfold takeError
  split <;> rfl
@[simp] theorem takeError_claimed (e : Err) (s : State) : (takeError e s).claimed = s.claimed := by
  unfold takeError
  split <;> rfl
@[simp] theorem takeError_i2cOpen (e : Err) (s : State) : (takeError e s).i2cOpen = s.i2cOpen := by
  unfold takeError
  split <;> rfl
@[simp] theorem takeError_tunerReady (e : Err) (s : State) : (takeError e s).tunerReady = s.tunerReady := by
  unfold takeError
  split <;> rfl
@[simp] theorem takeError_hasPllLock (e : Err) (s : State) : (takeError e s).hasPllLock = s.hasPllLock := by
  unfold takeError
  split <;> rfl
@[simp] theorem takeError_reads (e : Err) (s : State) : (takeError e s).reads = s.reads := by
  unfold takeError
  split <;> rfl
@[simp] theorem takeError_running (e : Err) (s : State) : (takeError e s).running = s.running := by
  unfold takeError
  split <;> rfl
@[simp] theorem takeError_todo (e : Err) (s : State) : (takeError e s).todo = s.todo := by
  unfold takeError
  split <;> rfl
@[simp] theorem takeError_handle (e : Err) (s : State) : (takeError e s).handle = s.handle := by
  unfold takeError
  split <;> rfl
@[simp] theorem takeError_ppm (e : Err) (s : State) : (takeError e s).ppm = s.ppm := by
  unfold takeError
  split <;> rfl
@[simp] theorem takeError_gain (e : Err) (s : State) : (takeError e s).gain = s.gain := by
  unfold takeError
  split <;> rfl
@[simp] theorem takeError_xtalFreq (e : Err) (s : State) : (takeError e s).xtalFreq = s.xtalFreq := by
  unfold takeError
  split <;> rfl
@[simp] theorem takeError_filterCap (e : Err) (s : State) : (takeError e s).filterCap = s.filterCap := by
  unfold takeError
  split <;> rfl
@[simp] theorem takeError_actualRate (e : Err) (s : State) : (takeError e s).actualRate = s.actualRate := by
  unfold takeError
  split <;> rfl
@[simp] theorem takeError_shadow (e : Err) (s : State) : (takeError e s).shadow = s.shadow := by
  unfold takeError
  split <;> rfl
@[simp] theorem takeError_mem (e : Err) (s : State) : (takeError e s).mem = s.mem := by
  unfold takeError
  split <;> rfl
@[simp] theorem takeError_bridge (e : Err) (s : State) : (takeError e s).bridge = s.bridge := by
  unfold takeError
  split <;> rfl
@[simp] theorem takeError_i2cPtr (e : Err) (s : State) : (takeError e s).i2cPtr = s.i2cPtr := by
  unfold takeError
  split <;> rfl
@[simp] theorem takeError_fifoEpoch (e : Err) (s : State) : (takeError e s).fifoEpoch = s.fifoEpoch := by
  unfold takeError
  split <;> rfl
@[simp] theorem takeError_streamPos (e : Err) (s : State) : (takeError e s).streamPos = s.streamPos := by
  unfold takeError
  split <;> rfl
@[simp] theorem takeError_firs (e : Err) (s : State) : (takeError e s).firs = s.firs := by
  unfold takeError
  split <;> rfl
@[simp] theorem takeError_dss (e : Err) (s : State) : (takeError e s).dss = s.dss := by
  unfold takeError
  split <;> rfl
@[simp] theorem takeError_iqdss (e : Err) (s : State) : (takeError e s).iqdss = s.iqdss := by
  unfold takeError
  split <;> rfl
@[simp] theorem takeError_fms (e : Err) (s : State) : (takeError e s).fms = s.fms := by
  unfold takeError
  split <;> rfl
@[simp] theorem takeError_ams (e : Err) (s : State) : (takeError e s).ams = s.ams := by
  unfold takeError
  split <;> rfl
@[simp] theorem takeError_avgs (e : Err) (s : State) : (takeError e s).avgs = s.avgs := by
  unfold takeError
  split <;> rfl
@[simp] theorem takeError_sts (e : Err) (s : State) : (takeError e s).sts = s.sts := by
  unfold takeError
  split <;> rfl
@[simp] theorem takeError_des (e : Err) (s : State) : (takeError e s).des = s.des := by
  unfold takeError
  split <;> rfl
@[simp] theorem takeError_pipeline (e : Err) (s : State) : (takeError e s).pipeline = s.pipeline := by
  unfold takeError
  split <;> rfl
@[simp] theorem takeError_messages (e : Err) (s : State) : (takeError e s).messages = s.messages := by
  unfold takeError
  split <;> rfl
@[simp] theorem takeError_handlerInstalled (e : Err) (s : State) :
    (takeError e s).handlerInstalled = s.handlerInstalled := by
  unfold takeError
  split <;> rfl
@[simp] theorem takeError_result (e : Err) (s : State) : (takeError e s).result = s.result := by
  unfold takeError
  split <;> rfl
@[simp] theorem takeError_inbox (e : Err) (s : State) : (takeError e s).inbox = s.inbox := by
  unfold takeError
  split <;> rfl
@[simp] theorem takeError_trace (e : Err) (s : State) : (takeError e s).trace = s.trace := by
  unfold takeError
  split <;> rfl
@[simp] theorem takeError_plan (e : Err) (s : State) : (takeError e s).plan = s.plan := by
  unfold takeError
  split <;> rfl
@[simp] theorem takeError_drawNo (e : Err) (s : State) : (takeError e s).drawNo = s.drawNo := by
  unfold takeError
  split <;> rfl

end Sys2Proof.Machine
end

