-- ==== Sys2Proof/Laws/Transfers.lean ====
section
/-! SUPPORT. What one transfer does: an equation for the transfer that succeeds and one for the transfer that fails, and
what a transfer keeps. -/

namespace Sys2Proof.Machine

/-! ## The device's side and the sequencer do not meet -/

theorem deviceStore_advanced (t : Target) (bytes : List Byte) (s : State) :
    (deviceStore t bytes s).advanced = deviceStore t bytes s.advanced := by
  cases t with
  | register base room => rfl
  | tuner => cases bytes <;> rfl
  | absent => rfl

theorem deviceAfterRead_advanced (t : Target) (s : State) :
    (deviceAfterRead t s).advanced = deviceAfterRead t s.advanced := by
  cases t <;> rfl

/-! ## `control_write` (R142) -/

/-- What an access needs, given. -/
theorem access_ok {t : Target} {s : State} (h : reaches t s) : access t s = .ok () s := by
  cases t with
  | register base room => rfl
  | tuner | absent =>
    simp only [access, Ctl.run_bind, Ctl.run_get, show s.bridge = .forwarding from h, beq_self_eq_true, require_true]

theorem stage_ok {bytes : List Byte} (h0 : 0 < bytes.length) (h1 : bytes.length < 2 ^ 16) :
    (decide (0 < bytes.length) && decide (bytes.length < 2 ^ 16)) = true := by
  rw [decide_eq_true h0, decide_eq_true h1]; rfl

/-- A write whose result code is 0. -/
theorem controlWrite_code {value index : Word16} {bytes : List Byte} {t : Target} {s : State} (ho : s.opened = true)
    (h0 : 0 < bytes.length) (h1 : bytes.length < 2 ^ 16) (ht : targetOf value (index &&& ~~~Config.writeFlag) = .ok t)
    (hw : reaches t s) (hc : (answerOf s.plan s.drawNo).code = 0) :
    controlWrite value index bytes s = .ok () (afterWrite value index bytes t s) := by
  simp only [controlWrite, sendWrite, Ctl.run_bind, Ctl.run_get, require_ok ho, target_ok ht, access_ok hw,
    require_ok (stage_ok h0 h1), issue_run, hc, ne_eq, not_true_eq_false, if_false, Ctl.run_modify, advance_run,
    deviceStore_advanced]
  rfl

theorem nextSucceeds.code {s : State} (h : nextSucceeds s) : (answerOf s.plan s.drawNo).code = 0 := by
  rw [show answerOf s.plan s.drawNo = _ from h]; rfl

/-- A write that succeeds. -/
theorem controlWrite_ok {value index : Word16} {bytes : List Byte} {t : Target} {s : State} (ho : s.opened = true)
    (h0 : 0 < bytes.length) (h1 : bytes.length < 2 ^ 16) (ht : targetOf value (index &&& ~~~Config.writeFlag) = .ok t)
    (hw : reaches t s) (ha : nextSucceeds s) :
    controlWrite value index bytes s = .ok () (afterWrite value index bytes t s) :=
  controlWrite_code ho h0 h1 ht hw ha.code

/-- A write that fails: nothing is known of the registers it named, and the error is raised (R142, G2). -/
theorem controlWrite_fails {value index : Word16} {bytes : List Byte} {t : Target} {s : State}
    (ho : s.opened = true) (h0 : 0 < bytes.length) (h1 : bytes.length < 2 ^ 16)
    (ht : targetOf value (index &&& ~~~Config.writeFlag) = .ok t) (hw : reaches t s)
    (ha : (answerOf s.plan s.drawNo).code ≠ 0) :
    controlWrite value index bytes s =
      .error (.raised (transportError .controlWrite value (index ||| Config.writeFlag) s.drawNo
          (answerOf s.plan s.drawNo)))
        (deviceForget t bytes s.drawNo (s.issued (writeTransfer value index bytes))) := by
  simp only [controlWrite, sendWrite, Ctl.run_bind, Ctl.run_get, require_ok ho, target_ok ht, access_ok hw,
    require_ok (stage_ok h0 h1), issue_run, ha, ne_eq, not_false_eq_true, if_true, Ctl.run_modify, raise_run]
  rfl

/-- The tuner's address words select the tuner. -/
theorem targetOf_tuner : targetOf tunerBus Config.blockI2c = .ok .tuner := by decide

theorem tunerIndex_noFlag : Config.blockI2c &&& ~~~Config.writeFlag = Config.blockI2c := by decide

/-- A write to the tuner that succeeds (R74, R142). -/
theorem controlWrite_tuner {reg : Byte} {data : List Byte} {s : State} (ho : s.opened = true)
    (hb : s.bridge = .forwarding) (hr : data.length < 2 ^ 16 - 1) (ha : nextSucceeds s) :
    controlWrite tunerBus Config.blockI2c (reg :: data) s = .ok () (afterTunerWrite reg data s) :=
  controlWrite_ok ho (Nat.zero_lt_succ _) (by rw [List.length_cons]; omega)
    (by rw [tunerIndex_noFlag]; exact targetOf_tuner) hb ha

/-! ## `control_read` (R141) -/

/-- A read that succeeds delivers the whole data stage. -/
theorem delivered_ok {t : Target} {n : Nat} {s : State} (hl : (deviceBytes t n s.drawNo s).length = n)
    (ha : nextSucceeds s) : delivered t n s = deviceBytes t n s.drawNo s := by
  have hc : answerOf s.plan s.drawNo = Answer.success := ha
  unfold delivered
  rw [hc]
  simp [Answer.success, List.take_of_length_le (Nat.le_of_eq hl)]

@[simp] theorem deviceBytes_length (t : Target) (n draw : Nat) (s : State) : (deviceBytes t n draw s).length = n := by
  cases t <;> simp [deviceBytes]

/-- A read that succeeds. -/
theorem controlRead_ok {value index length : Word16} {t : Target} {s : State} (ho : s.opened = true)
    (h0 : length ≠ 0) (ht : targetOf value index = .ok t) (hr : reaches t s) (ha : nextSucceeds s) :
    controlRead value index length s = .ok (readBytes t length s) (afterRead value index length t s) := by
  have hc : answerOf s.plan s.drawNo = Answer.success := ha
  simp only [controlRead, Ctl.run_bind, Ctl.run_get, require_ok ho, target_ok ht, access_ok hr, issue_run,
    require_ok (bne_iff_ne.mpr h0), delivered_ok (deviceBytes_length _ _ _ _) ha, hc, Answer.success, ne_eq,
    not_true_eq_false, or_self, if_false, Ctl.run_modify, advance_run, deviceAfterRead_advanced, Ctl.run_pure]
  rfl

theorem answer_fails {a : Answer} (h : a ≠ Answer.success) : a.code ≠ 0 ∨ a.missing ≠ 0 := by
  by_contra hn
  simp only [ne_eq, not_or, not_not] at hn
  apply h
  cases a with
  | mk c m => cases hn.1; cases hn.2; rfl

/-- A read that fails or falls short: the bytes that came are on the wire, the error is raised, nothing else changes
(R141, D21). -/
theorem controlRead_fails {value index length : Word16} {t : Target} {s : State} (ho : s.opened = true)
    (h0 : length ≠ 0) (ht : targetOf value index = .ok t) (hr : reaches t s) (ha : ¬ nextSucceeds s) :
    controlRead value index length s =
      .error (.raised (transportError .controlRead value index s.drawNo (answerOf s.plan s.drawNo)))
        (s.issued (readTransfer value index length (delivered t length.toNat s))) := by
  simp only [controlRead, Ctl.run_bind, Ctl.run_get, require_ok ho, target_ok ht, access_ok hr, issue_run,
    require_ok (bne_iff_ne.mpr h0)]
  rw [if_pos (answer_fails ha)]
  rfl

/-- A read of the tuner at its pointer that succeeds (R74, R141). -/
theorem controlRead_tuner {length : Word16} {s : State} (ho : s.opened = true) (h0 : length ≠ 0)
    (hb : s.bridge = .forwarding) (ha : nextSucceeds s) :
    controlRead tunerBus Config.blockI2c length s =
      .ok (deviceBytes .tuner length.toNat s.drawNo s) (afterRead tunerBus Config.blockI2c length .tuner s) :=
  controlRead_ok ho h0 targetOf_tuner hb ha

/-! ## The other transfers (R143 to R145) -/

/-- A bulk read that succeeds. -/
theorem bulkRead_succeeds {n : Nat} {s : State} (ho : s.opened = true) (hc : s.claimed = true) (h0 : 0 < n)
    (h2 : n % 2 = 0) (ha : nextSucceeds s) :
    bulkRead n s = .ok (streamBytes s n) (consumeStream n (transferred (.bulk n) s)) := by
  have hx : answerOf s.plan s.drawNo = Answer.success := ha
  have h2' : n % Config.bytesPerSample = 0 := h2
  simp only [bulkRead, bulkAnswer, Ctl.run_bind, Ctl.run_get, require_ok ho, require_ok hc, h0, h2', decide_true,
    beq_self_eq_true, Bool.and_self, require_true, issue_run, hx, Answer.success, ne_eq, not_true_eq_false, if_false,
    Ctl.run_modify, Ctl.run_pure, advance_run]
  rfl

/-- The claim that succeeds. -/
theorem claimInterface_succeeds {s : State} (ho : s.opened = true) (hc : s.claimed = false) (ha : nextSucceeds s) :
    claimInterface Config.usbInterface s = .ok () (transferred (.claim Config.usbInterface) (s.setClaimed true)) := by
  have hx : answerOf s.plan s.drawNo = Answer.success := ha
  simp only [claimInterface, Ctl.run_bind, Ctl.run_get, require_ok ho, beq_self_eq_true, require_true, hc, Bool.not_false,
    issue_run, hx, Answer.success, ne_eq, not_true_eq_false, if_false, Ctl.run_modify, advance_run]
  rfl

/-- The release that succeeds. -/
theorem releaseInterface_succeeds {s : State} (hc : s.claimed = true) (ha : nextSucceeds s) :
    releaseInterface Config.usbInterface s =
      .ok () (transferred (.release Config.usbInterface) (s.setClaimed false)) := by
  have hx : answerOf s.plan s.drawNo = Answer.success := ha
  simp only [releaseInterface, Ctl.run_bind, Ctl.run_get, require_ok hc, beq_self_eq_true, require_true,
    issue_run, hx, Answer.success, ne_eq, not_true_eq_false, if_false, Ctl.run_modify, advance_run]
  rfl

/-! ## A read in flight completes (R88, R143, R313) -/

/-- All a completion can do: the error of a failed or short read at the read's own position, or its bytes. -/
theorem completeRead_eq (r : ReadInFlight) (rest : List ReadInFlight) (s : State) :
    completeRead r rest s =
      if (answerOf s.plan s.drawNo).code ≠ 0 ∨ (answerOf s.plan s.drawNo).missing ≠ 0 then
        takeError (transportError .bulkRead 0 0 s.drawNo (answerOf s.plan s.drawNo))
          { consumeStream (lostBytes r.length s.drawNo) { s with reads := rest, drawNo := s.drawNo + 1 } with seq := r.pos }
      else complete (.raw (streamBytes s r.length) s.actualRate)
        (consumeStream r.length { s with reads := rest, drawNo := s.drawNo + 1 }) := by
  unfold completeRead
  simp only [bulkAnswer, Ctl.run_bind, Ctl.run_get]
  by_cases h : (answerOf s.plan s.drawNo).code ≠ 0 ∨ (answerOf s.plan s.drawNo).missing ≠ 0
  · simp only [if_pos h, Ctl.run_bind, Ctl.run_modify, raise_run]
  · simp only [if_neg h, Ctl.run_bind, Ctl.run_modify, Ctl.run_pure]
    rfl

@[simp] theorem completeRead_reads (r : ReadInFlight) (rest : List ReadInFlight) (s : State) :
    (completeRead r rest s).reads = rest := by
  rw [completeRead_eq]
  split <;> rfl

/-- A failed bulk read uses up whole pairs. -/
theorem lostBytes_even (n draw : Nat) : lostBytes n draw % 2 = 0 := by
  unfold lostBytes Config.bytesPerSample
  omega

/-- What one completion keeps, all completions keep. -/
theorem completeAll_keeps {P : State → Prop} (hP : ∀ r rest s, P s → P (completeRead r rest s)) :
    ∀ (l : List ReadInFlight) (s : State), P s → P (completeAll l s)
  | [], _, h => h
  | r :: rest, s, h => by
    unfold completeAll
    split
    · exact hP r rest s h
    · exact completeAll_keeps hP rest _ (hP r rest s h)

theorem completeAll_reads : ∀ (l : List ReadInFlight) (s : State), s.reads = l →
    (completeAll l s).ended = false → (completeAll l s).reads = []
  | [], _, h, _ => h
  | r :: rest, s, _, he => by
    unfold completeAll at he ⊢
    split at he
    · rename_i h; exact absurd h (by rw [he]; decide)
    · rename_i h; rw [if_neg h]; exact completeAll_reads rest _ (completeRead_reads r rest s) he

/-- After the reads in flight have completed none is left. -/
theorem drained_reads {s : State} (h : (drained s).ended = false) : (drained s).reads = [] := completeAll_reads _ _ rfl h

theorem completeRead_flags (r : ReadInFlight) (rest : List ReadInFlight) (s : State) :
    (completeRead r rest s).mem = s.mem ∧ (completeRead r rest s).opened = s.opened ∧
      (completeRead r rest s).claimed = s.claimed := by
  rw [completeRead_eq]
  split <;> exact ⟨rfl, rfl, rfl⟩

/-- Completing the reads in flight leaves the registers and the flags of the interface as they are. -/
theorem drained_flags (s : State) :
    (drained s).mem = s.mem ∧ (drained s).opened = s.opened ∧ (drained s).claimed = s.claimed :=
  completeAll_keeps (P := fun t => t.mem = s.mem ∧ t.opened = s.opened ∧ t.claimed = s.claimed)
    (fun r rest u h => by
      have hf := completeRead_flags r rest u
      exact ⟨hf.1.trans h.1, hf.2.1.trans h.2.1, hf.2.2.trans h.2.2⟩) _ _ ⟨rfl, rfl, rfl⟩

/-! ## What the device's side keeps -/

theorem deviceStore_wf (t : Target) (bytes : List Byte) {s : State} (h : s.mem.wf = true) :
    (deviceStore t bytes s).mem.wf = true := by
  cases t with
  | register base room => exact Mem.wf_putBytes _ _ h
  | tuner =>
    cases bytes with
    | nil => exact h
    | cons reg data => exact Mem.wf_putBytes _ _ h
  | absent => exact h

theorem deviceForget_wf (t : Target) (bytes : List Byte) (draw : Nat) {s : State} (h : s.mem.wf = true) :
    (deviceForget t bytes draw s).mem.wf = true := by
  cases t with
  | register base room => exact Mem.wf_forgetBytes _ _ h
  | tuner =>
    cases bytes with
    | nil => exact h
    | cons reg data => exact Mem.wf_forgetBytes _ _ h
  | absent => exact h

end Sys2Proof.Machine
end

