-- ==== Sys2Proof/Laws/Tuner.lean ====
section
/-! SUPPORT. The operations of U2 and U3 where every transfer succeeds: each is one equation, and each leaves the tuner
reachable. -/

namespace Sys2Proof.Machine

/-! ## What a tuner operation leaves alone -/

/-- The fields every tuner operation reads and none of its transfers writes. -/
structure TunerKeeps (s t : State) : Prop where
  opened     : t.opened = s.opened
  claimed    : t.claimed = s.claimed
  i2cOpen    : t.i2cOpen = s.i2cOpen
  bridge     : t.bridge = s.bridge
  answers    : t.plan.answers = s.plan.answers
  xtalFreq   : t.xtalFreq = s.xtalFreq
  tunerReady : t.tunerReady = s.tunerReady
  shadowed   : s.shadow.isSome = true → t.shadow.isSome = true

theorem TunerKeeps.refl (s : State) : TunerKeeps s s := ⟨rfl, rfl, rfl, rfl, rfl, rfl, rfl, id⟩

theorem TunerKeeps.trans {s t u : State} (h : TunerKeeps s t) (g : TunerKeeps t u) : TunerKeeps s u :=
  ⟨g.opened.trans h.opened, g.claimed.trans h.claimed, g.i2cOpen.trans h.i2cOpen, g.bridge.trans h.bridge,
    g.answers.trans h.answers, g.xtalFreq.trans h.xtalFreq, g.tunerReady.trans h.tunerReady,
    fun x => g.shadowed (h.shadowed x)⟩

theorem TunerKeeps.reachable {s t : State} (h : TunerKeeps s t) (hs : tunerReachable s) : tunerReachable t :=
  ⟨h.opened.trans hs.1, h.i2cOpen.trans hs.2.1, h.bridge.trans hs.2.2⟩

theorem allSucceed_of_answers {s t : State} (h : t.plan.answers = s.plan.answers) (hs : allSucceed s) :
    allSucceed t := by
  intro n
  have hn := hs n
  unfold answerOf at hn ⊢
  rw [h]
  exact hn

theorem TunerKeeps.succeed {s t : State} (h : TunerKeeps s t) (hs : allSucceed s) : allSucceed t :=
  allSucceed_of_answers h.answers hs

theorem allSucceed.next {s : State} (h : allSucceed s) : nextSucceeds s := h s.drawNo

/-! ## I2C transfers (R158 to R161) -/

theorem requireI2c_ok {s : State} (h : tunerReachable s) : requireI2c s = .ok () s := by
  simp only [requireI2c, Ctl.run_bind, Ctl.run_get, require_ok h.2.1]

theorem i2cWrite_ok {reg : Byte} {data : List Byte} {s : State} (h : tunerReachable s)
    (hr : data.length < 2 ^ 16 - 1) (ha : nextSucceeds s) :
    i2cWrite tunerBus reg data s = .ok () (afterTunerWrite reg data s) := by
  simp only [i2cWrite, Ctl.run_bind, requireI2c_ok h, controlWrite_tuner h.1 h.2.2 hr ha]

theorem keeps_afterTunerWrite (reg : Byte) (data : List Byte) (s : State) :
    TunerKeeps s (afterTunerWrite reg data s) := ⟨rfl, rfl, rfl, rfl, rfl, rfl, rfl, id⟩

theorem keeps_deviceAfterRead (t : Target) (s : State) : TunerKeeps s (deviceAfterRead t s) := by
  cases t <;> exact ⟨rfl, rfl, rfl, rfl, rfl, rfl, rfl, id⟩

theorem keeps_transferred (t : Transfer) (s : State) : TunerKeeps s (transferred t s) :=
  ⟨rfl, rfl, rfl, rfl, rfl, rfl, rfl, id⟩

theorem keeps_afterTunerRead (reg : Byte) (n : Nat) (s : State) : TunerKeeps s (afterTunerRead reg n s) := by
  unfold afterTunerRead afterRead
  exact (keeps_afterTunerWrite reg [] s).trans ((keeps_transferred _ _).trans (keeps_deviceAfterRead _ _))

theorem i2cRead_ok {reg : Byte} {n : Nat} {s : State} (h : tunerReachable s) (h0 : 0 < n)
    (hr : n < 2 ^ 16) (ha : allSucceed s) :
    i2cRead tunerBus reg n s = .ok (tunerBytes reg n s) (afterTunerRead reg n s) := by
  have hk := keeps_afterTunerWrite reg [] s
  have hn : (BitVec.ofNat 16 n).toNat = n := by
    rw [BitVec.toNat_ofNat]
    exact Nat.mod_eq_of_lt hr
  have hz : BitVec.ofNat 16 n ≠ 0 := by
    intro hx
    have : (BitVec.ofNat 16 n).toNat = 0 := by rw [hx]; rfl
    omega
  have hq : (decide (0 < n) && decide (n < 2 ^ 16)) = true := by
    simp only [h0, decide_true, Bool.true_and, decide_eq_true_eq]
    omega
  have hw : controlWrite tunerBus Config.blockI2c [reg] s = .ok () (afterTunerWrite reg [] s) :=
    controlWrite_tuner h.1 h.2.2 (by simp only [List.length_nil]; omega) ha.next
  have hr2 := controlRead_tuner (s := afterTunerWrite reg [] s) (length := BitVec.ofNat 16 n)
    (hk.reachable h).1 hz (hk.reachable h).2.2 (hk.succeed ha).next
  rw [hn] at hr2
  simp only [i2cRead, i2cPoint, Ctl.run_bind, requireI2c_ok h, require_ok hq, hw, hr2]
  rfl

/-! ## Masked writes (R171, R173) -/

theorem shadowIndex_legal {t : Triple} (h : t.legal = true) : ∃ k, shadowIndex t.reg = some k := by
  simp only [Triple.legal, Bool.and_eq_true, decide_eq_true_eq] at h
  unfold shadowIndex
  exact ⟨_, dif_pos h⟩

theorem legal_reg {r : Byte} (v m : Byte) (h : Config.shadowBase ≤ r.toNat ∧ r.toNat < Config.r820tRegs) :
    Triple.legal ⟨r, v, m⟩ = true := by
  simp only [Triple.legal, h.1, h.2, decide_true, Bool.and_self]

theorem writeMask_ok {t : Triple} {s : State} (h : tunerReachable s) (hl : t.legal = true)
    (hs : s.shadow.isSome = true) (ha : allSucceed s) : writeMask t s = .ok () (afterMask t s) := by
  obtain ⟨k, hk⟩ := shadowIndex_legal hl
  obtain ⟨sh, hsh⟩ := Option.isSome_iff_exists.mp hs
  simp only [writeMask, Ctl.run_bind, requireI2c_ok h, hk, Ctl.run_get, hsh, Ctl.run_modify, afterMask]
  exact i2cWrite_ok (s := s.setShadow _) h (by simp) (ha _)

theorem keeps_afterMask (t : Triple) (s : State) : TunerKeeps s (afterMask t s) := by
  unfold afterMask
  split
  · exact ⟨rfl, rfl, rfl, rfl, rfl, rfl, rfl, fun _ => rfl⟩
  · exact TunerKeeps.refl s

theorem keeps_afterMasks : ∀ (l : List Triple) (s : State), TunerKeeps s (afterMasks l s)
  | [], s => TunerKeeps.refl s
  | t :: ts, s => (keeps_afterMask t s).trans (keeps_afterMasks ts _)

theorem writeEach_ok : ∀ {l : List Triple} {s : State}, tunerReachable s → (∀ t ∈ l, t.legal = true) →
    s.shadow.isSome = true → allSucceed s → writeEach l s = .ok () (afterMasks l s)
  | [], s, h, _, _, _ => requireI2c_ok h
  | t :: ts, s, h, hl, hs, ha => by
    have hk := keeps_afterMask t s
    simp only [writeEach, Ctl.run_bind, writeMask_ok h (hl t List.mem_cons_self) hs ha]
    exact writeEach_ok (hk.reachable h) (fun u hu => hl u (List.mem_cons_of_mem _ hu)) (hk.shadowed hs) (hk.succeed ha)

theorem tripleOf_legal (t : Config.TableTriple) : (tripleOf t).legal = true := by
  have : t.offset.val < 27 := t.offset.isLt
  simp only [Triple.legal, tripleOf, BitVec.toNat_ofNat, Bool.and_eq_true, decide_eq_true_eq, Config.shadowBase,
    Config.r820tRegs]
  omega

theorem writeTable_ok {l : List Config.TableTriple} {s : State} (h : tunerReachable s) (hs : s.shadow.isSome = true)
    (ha : allSucceed s) : writeTable l s = .ok () (afterMasks (triplesOf l) s) := by
  refine writeEach_ok h ?_ hs ha
  intro t ht
  obtain ⟨u, -, rfl⟩ := List.mem_map.mp ht
  exact tripleOf_legal u

/-! ## The status read (R172) -/

theorem tunerRead_ok {n : Nat} {s : State} (h : tunerReachable s) (h1 : 1 ≤ n) (h5 : n ≤ Config.statusLen) (ha : allSucceed s) :
    tunerRead n s = .ok ((tunerBytes 0x00 n s).map bitrev8) (afterTunerRead 0x00 n s) := by
  have hq : isStatusLen n = true := by simp [isStatusLen, h1, h5]
  simp only [tunerRead, Config.regStatus, Ctl.run_bind, requireI2c_ok h, require_ok hq,
    i2cRead_ok (reg := 0x00) h (by omega : 0 < n) (by simp only [Config.statusLen] at h5; omega) ha, Ctl.run_pure]

theorem tunerRead_status {s : State} (h : tunerReachable s) (ha : allSucceed s) :
    tunerRead Config.statusLen s = .ok (statusOf s) (afterStatus s) := tunerRead_ok h (by decide) (Nat.le_refl _) ha

theorem keeps_afterStatus (s : State) : TunerKeeps s (afterStatus s) := keeps_afterTunerRead _ _ _

theorem keeps_setLock (b : Bool) (s : State) : TunerKeeps s (s.setLock b) := ⟨rfl, rfl, rfl, rfl, rfl, rfl, rfl, id⟩

/-! ## The lock poll and the synthesizer (R181 to R183) -/

theorem getPllLock_ok {c : Config.Params} {firstTry : Bool} {s : State} (h : tunerReachable s) (hs : s.shadow.isSome = true)
    (ha : allSucceed s) : getPllLock c firstTry s = .ok () (afterPoll c firstTry s) := by
  have k1 := keeps_afterStatus s
  have hm := writeMask_ok (t := bumpTriple c) (k1.reachable h)
    (legal_reg _ _ (by decide)) (k1.shadowed hs) (k1.succeed ha)
  have k2 := k1.trans (keeps_afterMask (bumpTriple c) (afterStatus s))
  simp only [getPllLock, Ctl.run_bind, tunerRead_status h ha, afterPoll]
  cases hlk : lockBit (statusOf s)
  · cases firstTry
    · rfl
    · simp only [Bool.false_eq_true, if_false, if_true, Ctl.run_bind, hm,
        tunerRead_status (k2.reachable h) (k2.succeed ha)]
      rfl
  · rfl

theorem keeps_afterPoll (c : Config.Params) (firstTry : Bool) (s : State) : TunerKeeps s (afterPoll c firstTry s) := by
  have k1 := keeps_afterStatus s
  unfold afterPoll
  split
  · exact k1.trans (keeps_setLock _ _)
  · split
    · exact ((k1.trans (keeps_afterMask _ _)).trans (keeps_afterStatus _)).trans (keeps_setLock _ _)
    · exact k1.trans (keeps_setLock _ _)

theorem keeps_pllStart (c : Config.Params) (s : State) : TunerKeeps s (pllStart c s) := keeps_afterMasks _ _

theorem writeMasks_ok : ∀ {l : List Triple} {s : State}, tunerReachable s → (∀ t ∈ l, t.legal = true) →
    s.shadow.isSome = true → allSucceed s → writeMasks l s = .ok () (afterMasks l s)
  | [], _, _, _, _, _ => rfl
  | t :: ts, s, h, hl, hs, ha => by
    have hk := keeps_afterMask t s
    simp only [writeMasks, Ctl.run_bind, writeMask_ok h (hl t List.mem_cons_self) hs ha]
    exact writeMasks_ok (hk.reachable h) (fun u hu => hl u (List.mem_cons_of_mem _ hu)) (hk.shadowed hs) (hk.succeed ha)

theorem dividerTriples_legal (nint sdm : Int) : ∀ t ∈ dividerTriples nint sdm, t.legal = true := by
  simp only [dividerTriples, List.mem_cons, List.not_mem_nil, or_false, forall_eq_or_imp, forall_eq]
  exact ⟨legal_reg _ _ (by decide), legal_reg _ _ (by decide), legal_reg _ _ (by decide)⟩

theorem pllReference_ok {freq : Nat} {r : Int} {s : State} (h : s.i2cOpen = true) (hx : s.xtalFreq = some r)
    (hf : 0 < freq) : pllReference freq s = .ok r s := by
  simp only [pllReference, requireI2c, Ctl.run_bind, Ctl.run_get, require_ok h, require_ok (decide_eq_true hf), hx, word_some]

theorem pllExponent_ok {c : Config.Params} {freq : Nat} {d : List Byte} {s : State}
    (h0 : 0 ≤ divNumAdjusted c freq (vcoFine d)) (h7 : divNumAdjusted c freq (vcoFine d) ≤ Config.divNumMax) :
    pllExponent c freq d s = .ok (divNumAdjusted c freq (vcoFine d)).toNat s := by
  simp only [pllExponent, Ctl.run_bind, h0, h7, decide_true, Bool.and_self, require_true, Ctl.run_pure]

theorem setPll_ok {c : Config.Params} {freq : Nat} {r : Int} {s : State} (h : tunerReachable s)
    (hs : s.shadow.isSome = true) (ha : allSucceed s) (hx : s.xtalFreq = some r) (hf : 0 < freq)
    (hr : pllInRange c freq r s) : setPll c freq s = .ok () (afterPll c freq r s) := by
  have k0 := keeps_pllStart c s
  have k1 := k0.trans (keeps_afterStatus (pllStart c s))
  have k2 := k1.trans (keeps_afterMask (vcoTriple (pllDivider c freq s).toNat) _)
  have hw0 : writeTable c.r820tPllPre s = .ok () (pllStart c s) := writeTable_ok h hs ha
  have he : pllExponent c freq (statusOf (pllStart c s)) (afterStatus (pllStart c s)) =
      .ok (pllDivider c freq s).toNat (afterStatus (pllStart c s)) := pllExponent_ok hr.1 hr.2.1
  have hm := writeMask_ok (t := vcoTriple (pllDivider c freq s).toNat) (k1.reachable h)
    (legal_reg _ _ (by decide)) (k1.shadowed hs) (k1.succeed ha)
  have hw' : pllDividers freq (pllDivider c freq s).toNat r = pllWords c freq r s := rfl
  simp only [setPll, Ctl.run_bind, pllReference_ok h.2.1 hx hf, hw0, tunerRead_status (k0.reachable h) (k0.succeed ha), he,
    hm, hw', afterPll, setDividers]
  split
  · rfl
  · have k3 := k2.trans (keeps_afterMasks (dividerTriples (pllWords c freq r s).1 (pllWords c freq r s).2) _)
    simp only [Ctl.run_bind, require_ok (decide_eq_true hr.2.2), writeDividers,
      writeMasks_ok (k2.reachable h) (dividerTriples_legal _ _) (k2.shadowed hs) (k2.succeed ha)]
    exact getPllLock_ok (k3.reachable h) (k3.shadowed hs) (k3.succeed ha)

theorem keeps_afterPll (c : Config.Params) (freq : Nat) (r : Int) (s : State) :
    TunerKeeps s (afterPll c freq r s) := by
  have k2 := ((keeps_pllStart c s).trans (keeps_afterStatus (pllStart c s))).trans
    (keeps_afterMask (vcoTriple (pllDivider c freq s).toNat) _)
  unfold afterPll
  simp only
  split
  · exact k2.trans (keeps_setLock _ _)
  · exact (k2.trans (keeps_afterMasks _ _)).trans (keeps_afterPoll _ _ _)

/-! ## Calibration and initialization (R174, R178) -/

theorem keeps_calStart (c : Config.Params) (s : State) : TunerKeeps s (calStart c s) := keeps_afterMasks _ _

theorem keeps_calReady (c : Config.Params) (r : Int) (s : State) : TunerKeeps s (calReady c r s) :=
  (((keeps_calStart c s).trans (keeps_afterPll _ _ _ _)).trans (keeps_afterMasks _ _)).trans (keeps_afterMasks _ _)

theorem keeps_afterCalRun (c : Config.Params) (r : Int) (s : State) : TunerKeeps s (afterCalRun c r s) :=
  (keeps_calReady c r s).trans (keeps_afterStatus _)

theorem calibrateOnce_ok {c : Config.Params} {r : Int} {s : State} (h : tunerReachable s)
    (hs : s.shadow.isSome = true) (ha : allSucceed s) (hx : s.xtalFreq = some r) (hc : calRuns c r s) :
    calibrateOnce c s = .ok (calCode c r s) (afterCalRun c r s) := by
  have k0 := keeps_calStart c s
  have k1 := k0.trans (keeps_afterPll c Config.calFreq r (calStart c s))
  have k2 := k1.trans (keeps_afterMasks (triplesOf c.r820tCalStart) _)
  have k3 := k2.trans (keeps_afterMasks (triplesOf c.r820tCalStop) _)
  have w0 : writeTable c.r820tCalPre s = .ok () (calStart c s) := writeTable_ok h hs ha
  have w1 := setPll_ok (k0.reachable h) (k0.shadowed hs) (k0.succeed ha) (k0.xtalFreq.trans hx) (by decide) hc.1
  have w2 := writeTable_ok (l := c.r820tCalStart) (k1.reachable h) (k1.shadowed hs) (k1.succeed ha)
  have w3 := writeTable_ok (l := c.r820tCalStop) (k2.reachable h) (k2.shadowed hs) (k2.succeed ha)
  have w4 := tunerRead_status (k3.reachable h) (k3.succeed ha)
  simp only [calibrateOnce, calibrationLocked, Ctl.run_bind, w0, w1, Ctl.run_get, hc.2, if_true, w2, w3, w4, Ctl.run_pure]
  rfl

theorem keeps_setFilterCap (cap : BitVec 4) (s : State) : TunerKeeps s (s.setFilterCap cap) :=
  ⟨rfl, rfl, rfl, rfl, rfl, rfl, rfl, id⟩

theorem keeps_afterFilterCap (cap : BitVec 4) (s : State) : TunerKeeps s (afterFilterCap cap s) := by
  unfold afterFilterCap
  split
  · exact TunerKeeps.refl s
  · exact (keeps_setFilterCap _ _).trans (keeps_afterMask _ _)

theorem acceptFilterCap_ok {cap : BitVec 4} {s : State} (h : tunerReachable s) (hs : s.shadow.isSome = true)
    (ha : allSucceed s) : acceptFilterCap cap s = .ok () (afterFilterCap cap s) := by
  obtain ⟨sh, hsh⟩ := Option.isSome_iff_exists.mp hs
  have k := keeps_setFilterCap cap s
  simp only [acceptFilterCap, filterAccepted, Ctl.run_bind, Ctl.run_get, hsh, Ctl.run_modify, afterFilterCap]
  exact writeMask_ok (k.reachable h) (legal_reg _ _ (by decide)) (k.shadowed hs) (k.succeed ha)

theorem keeps_afterCalibration (c : Config.Params) (r : Int) (firstAttempt : Bool) (s : State) :
    TunerKeeps s (afterCalibration c r firstAttempt s) := by
  unfold afterCalibration
  split
  · exact ((keeps_afterCalRun c r s).trans (keeps_afterCalRun c r _)).trans (keeps_afterFilterCap _ _)
  · exact (keeps_afterCalRun c r s).trans (keeps_afterFilterCap _ _)

theorem calibrateFilter_ok {c : Config.Params} {r : Int} {firstAttempt : Bool} {s : State} (h : tunerReachable s)
    (hs : s.shadow.isSome = true) (ha : allSucceed s) (hx : s.xtalFreq = some r)
    (hc : calibrates c r firstAttempt s) :
    calibrateFilter c firstAttempt s = .ok () (afterCalibration c r firstAttempt s) := by
  have k1 := keeps_afterCalRun c r s
  have k2 := k1.trans (keeps_afterCalRun c r (afterCalRun c r s))
  simp only [calibrateFilter, Ctl.run_bind, requireI2c_ok h, calibrateOnce_ok h hs ha hx hc.1, afterCalibration]
  cases hrt : calRetries c r firstAttempt s with
  | false =>
    have hn : ¬ (calCode c r s ≠ 0 ∧ firstAttempt = true) := by
      rintro ⟨h1, h2⟩
      rw [calRetries, h2, bne_iff_ne.mpr h1] at hrt
      exact absurd hrt (by decide)
    rw [if_neg hn]
    exact acceptFilterCap_ok (k1.reachable h) (k1.shadowed hs) (k1.succeed ha)
  | true =>
    have hp : calCode c r s ≠ 0 ∧ firstAttempt = true := by
      simpa [calRetries] using hrt
    rw [if_pos hp]
    simp only [Ctl.run_bind, calibrateOnce_ok (k1.reachable h) (k1.shadowed hs) (k1.succeed ha)
      (k1.xtalFreq.trans hx) (hc.2 hrt), if_true]
    exact acceptFilterCap_ok (k2.reachable h) (k2.shadowed hs) (k2.succeed ha)

theorem keeps_setShadow (sh : Vector Byte Config.shadowLen) (s : State) : TunerKeeps s (s.setShadow sh) :=
  ⟨rfl, rfl, rfl, rfl, rfl, rfl, rfl, fun _ => rfl⟩

theorem keeps_initStart (c : Config.Params) (s : State) : TunerKeeps s (initStart c s) :=
  ((keeps_setShadow _ _).trans (keeps_afterTunerWrite _ _ _)).trans (keeps_afterMasks _ _)

theorem initStart_shadowed (c : Config.Params) (s : State) : (initStart c s).shadow.isSome = true :=
  ((keeps_afterTunerWrite (BitVec.ofNat 8 Config.shadowBase) c.r820tDefaults.toList (s.setShadow c.r820tDefaults)).trans
    (keeps_afterMasks _ _)).shadowed rfl

theorem tunerInit_ok {c : Config.Params} {r : Int} {s : State} (h : tunerReachable s) (ha : allSucceed s)
    (hx : s.xtalFreq = some r) (hc : calibrates c r true (initStart c s)) :
    tunerInit c s = .ok () (afterInit c r s) := by
  have k0 := keeps_setShadow c.r820tDefaults s
  have k1 := k0.trans (keeps_afterTunerWrite (BitVec.ofNat 8 Config.shadowBase) c.r820tDefaults.toList _)
  have k2 := keeps_initStart c s
  have s2 := initStart_shadowed c s
  have k3 := k2.trans (keeps_afterCalibration c r true _)
  have s3 := (keeps_afterCalibration c r true (initStart c s)).shadowed s2
  have w0 := i2cWrite_ok (reg := BitVec.ofNat 8 Config.shadowBase) (data := c.r820tDefaults.toList) (k0.reachable h)
    (by rw [Vector.length_toList]; decide) (k0.succeed ha).next
  have w1 : writeTable c.r820tInitElec _ = .ok () (initStart c s) :=
    writeTable_ok (k1.reachable h) rfl (k1.succeed ha)
  have w2 := calibrateFilter_ok (k2.reachable h) s2 (k2.succeed ha) (k2.xtalFreq.trans hx) hc
  have w3 := writeTable_ok (l := c.r820tInitPost) (k3.reachable h) s3 (k3.succeed ha)
  have s4 := (keeps_afterMasks (triplesOf c.r820tInitPost) (afterCalibration c r true (initStart c s))).shadowed s3
  simp only [tunerInit, writeDefaults, tunerInitialized, Ctl.run_bind, requireI2c_ok h, Ctl.run_modify, w0, w1, w2, w3,
    Ctl.run_get, require_ok s4]
  rfl

/-- `r820t.set_mux(freq)` (R179). -/
theorem setMux_ok {c : Config.Params} {freq : Nat} {s : State} (h : tunerReachable s)
    (hs : s.shadow.isSome = true) (ha : allSucceed s) :
    setMux c freq s = .ok () (afterMasks (muxTriples c freq) s) := by
  simp only [setMux, Ctl.run_bind, requireI2c_ok h]
  exact writeTable_ok h hs ha

/-- `r820t.set_frequency(freq)` (R180). -/
theorem setFrequency_ok {c : Config.Params} {freq : Nat} {r : Int} {s : State} (h : tunerReachable s)
    (hs : s.shadow.isSome = true) (ha : allSucceed s) (hx : s.xtalFreq = some r) (ht : s.tunerReady = true)
    (hf : 0 < freq) (hr : pllInRange c freq r (afterMasks (muxTriples c freq) s)) :
    setFrequency c freq s = .ok (afterPll c freq r (afterMasks (muxTriples c freq) s)).hasPllLock
      (afterPll c freq r (afterMasks (muxTriples c freq) s)) := by
  have k := keeps_afterMasks (muxTriples c freq) s
  have w := setPll_ok (k.reachable h) (k.shadowed hs) (k.succeed ha) (k.xtalFreq.trans hx) hf hr
  have w0 : requireReady s = .ok () s := by
    simp only [requireReady, Ctl.run_bind, requireI2c_ok h, Ctl.run_get, require_ok ht]
  unfold setFrequency
  rw [Ctl.run_bind_ok w0, Ctl.run_bind_ok (setMux_ok h hs ha), Ctl.run_bind_ok w]
  rfl

end Sys2Proof.Machine
end

