-- ==== Sys2Proof/Laws/Registers.lean ====
section
/-! SUPPORT. The register layer U2 where the transfer succeeds: each operation is one equation. -/

namespace Sys2Proof.Machine

/-! ## Byte sequences -/

@[simp] theorem leBytes_length (n v : Nat) : (leBytes n v).length = n := by
  induction n generalizing v with
  | zero => rfl
  | succ n ih => simp [leBytes, ih]

@[simp] theorem beBytes_length (n v : Nat) : (beBytes n v).length = n := by simp [beBytes]

/-- Reading little-endian what was written little-endian gives the value modulo its width (R110). -/
theorem leValue_leBytes (n v : Nat) : leValue (leBytes n v) = v % 256 ^ n := by
  induction n generalizing v with
  | zero => simp [leBytes, leValue, Nat.mod_one]
  | succ n ih =>
    simp only [leBytes, leValue, ih, BitVec.toNat_ofNat]
    have h : v % 256 ^ (n + 1) = v % 256 + 256 * (v / 256 % 256 ^ n) := by
      rw [Nat.pow_succ', Nat.mod_mul]
    rw [h]

theorem isRegLen_bounds {n : Nat} (h : isRegLen n = true) : 0 < n ∧ n < 2 ^ 16 := by
  simp only [isRegLen, Config.RegLen.bytes, Bool.or_eq_true, beq_iff_eq] at h
  omega

/-! ## Register accesses (R151 to R155) -/

/-- The blocks of a register access (R71, R151). -/
theorem legalBlock_cases {b : Word16} (h : legalBlock b = true) :
    b = Config.blockDemod ∨ b = Config.blockDemod1 ∨ b = Config.blockUsb ∨ b = Config.blockSys ∨ b = Config.blockI2c := by
  simp only [legalBlock, isDemodPage, Bool.or_eq_true, beq_iff_eq] at h
  tauto

theorem legalBlock_noFlag {b : Word16} (h : legalBlock b = true) : b &&& ~~~Config.writeFlag = b := by
  rcases legalBlock_cases h with h | h | h | h | h <;> subst h <;> decide

theorem regAccess_ok {block reg : Word16} {len : Nat} {s : State} (hb : legalBlock block = true)
    (hl : isRegLen len = true) (hw : Config.widthOk (Config.namedWidth block reg) len = true) :
    regAccess block reg len s = .ok () s := by
  simp only [regAccess, Ctl.run_bind, require_ok hb, hl, hw, Bool.and_self, require_true]

/-- `write_reg` (R151). -/
theorem writeReg_ok {block reg : Word16} {value len : Nat} {t : Target} {s : State} (ho : s.opened = true)
    (hb : legalBlock block = true) (hl : isRegLen len = true)
    (hw : Config.widthOk (Config.namedWidth block reg) len = true) (ht : targetOf reg block = .ok t)
    (hr : reaches t s) (ha : nextSucceeds s) :
    writeReg block reg value len s = .ok () (afterWrite reg block (leBytes len value) t s) := by
  have hn := isRegLen_bounds hl
  simp only [writeReg, Ctl.run_bind, regAccess_ok hb hl hw]
  exact controlWrite_ok ho (by rw [leBytes_length]; exact hn.1) (by rw [leBytes_length]; exact hn.2)
    (by rw [legalBlock_noFlag hb]; exact ht) hr ha

theorem ofNat16_toNat {n : Nat} (h : n < 2 ^ 16) : (BitVec.ofNat 16 n).toNat = n := by
  rw [BitVec.toNat_ofNat]; exact Nat.mod_eq_of_lt h

theorem ofNat16_ne {n : Nat} (h0 : 0 < n) (h : n < 2 ^ 16) : BitVec.ofNat 16 n ≠ 0 := by
  intro hx
  have : (BitVec.ofNat 16 n).toNat = 0 := by rw [hx]; rfl
  rw [ofNat16_toNat h] at this
  omega

/-- `read_reg` (R152). -/
theorem readReg_ok {block reg : Word16} {len : Nat} {t : Target} {s : State} (ho : s.opened = true)
    (hb : legalBlock block = true) (hl : isRegLen len = true)
    (hw : Config.widthOk (Config.namedWidth block reg) len = true) (ht : targetOf reg block = .ok t)
    (hr : reaches t s) (ha : nextSucceeds s) :
    readReg block reg len s =
      .ok (leValue (deviceBytes t len s.drawNo s)) (afterRead reg block (BitVec.ofNat 16 len) t s) := by
  have hn := isRegLen_bounds hl
  have hc := controlRead_ok (length := BitVec.ofNat 16 len) ho (ofNat16_ne hn.1 hn.2) ht
    hr ha
  simp only [readBytes, ofNat16_toNat hn.2] at hc
  simp only [readReg, Ctl.run_bind, regAccess_ok hb hl hw, hc, Ctl.run_pure]

/-- The address word of a DEMOD register selects that register. -/
@[simp] theorem demodAddr_demodValue (addr : Byte) : demodAddr (demodValue addr) = addr := by
  unfold demodAddr demodValue
  apply BitVec.eq_of_getLsbD_eq
  intro i hi
  simp [hi, show 8 + i < 16 by omega]

/-- The target of a DEMOD register (R73, R102). -/
theorem targetOf_demod (page1 : Bool) (addr : Byte) :
    targetOf (demodValue addr) (pageIndex page1) =
      .ok (.register (cellAddr (pageIndex page1) addr.toNat) (Config.pageSize - addr.toNat)) := by
  have h1 : isDemodPage (pageIndex page1) = true := by cases page1 <;> decide
  have h2 : demodAddr (demodValue addr) = addr := demodAddr_demodValue addr
  have h3 : ¬ (pageIndex page1 = Config.blockUsb ∨ pageIndex page1 = Config.blockSys) := by
    cases page1 <;> decide
  have h4 : pageIndex page1 ≠ Config.blockI2c := by cases page1 <;> decide
  unfold targetOf
  rw [if_neg h3, if_neg h4, if_pos h1, h2]

theorem pageIndex_noFlag (page1 : Bool) : pageIndex page1 &&& ~~~Config.writeFlag = pageIndex page1 := by
  cases page1 <;> decide

/-- `write_demod_reg` (R154). -/
theorem writeDemodReg_ok {page1 : Bool} {addr : Byte} {value len : Nat} {s : State} (ho : s.opened = true)
    (hl : isRegLen len = true) (hw : Config.widthOk (Config.namedDemodWidth page1 addr) len = true)
    (ha : nextSucceeds s) :
    writeDemodReg page1 addr value len s =
      .ok () (afterDemodWrite page1 addr value len s) := by
  have hn := isRegLen_bounds hl
  simp only [writeDemodReg, Ctl.run_bind, hl, hw, Bool.and_self, require_true]
  exact controlWrite_ok ho (by rw [beBytes_length]; exact hn.1) (by rw [beBytes_length]; exact hn.2)
    (by rw [pageIndex_noFlag]; exact targetOf_demod page1 addr) trivial ha

/-- `read_demod_reg` (R155). -/
theorem readDemodReg_ok {page1 : Bool} {addr : Byte} {s : State} (ho : s.opened = true) (ha : nextSucceeds s) :
    readDemodReg page1 addr s =
      .ok ((deviceBytes (demodWindow page1 addr) 1 s.drawNo s).headD 0).toNat
        (afterRead (demodValue addr) (pageIndex page1) 1 (demodWindow page1 addr) s) := by
  have hc := controlRead_ok (length := 1) ho (by decide) (targetOf_demod page1 addr) trivial ha
  unfold readDemodReg
  rw [Ctl.run_bind, show BitVec.ofNat 16 Config.demodReadLen = 1 from rfl, hc]
  rfl

/-! ## The bridge (R156, R157) -/

/-- `open_i2c` (R156). -/
theorem openI2c_ok {s : State} (ho : s.opened = true) (ha : nextSucceeds s) :
    openI2c s =
      .ok () (afterOpenI2c s) := by
  have h := writeDemodReg_ok (page1 := true) (addr := Config.regBridge) (value := Config.bridgeOpenValue)
    (len := Config.demodRegLen.bytes) ho (by decide) (by decide) ha
  simp only [openI2c, Ctl.run_bind, h, Ctl.run_modify]
  rfl

/-- `close_i2c` (R157). -/
theorem closeI2c_ok {s : State} (ho : s.opened = true) (ha : nextSucceeds s) :
    closeI2c s =
      .ok () (afterCloseI2c s) := by
  have h := writeDemodReg_ok (page1 := true) (addr := Config.regBridge) (value := Config.bridgeCloseValue)
    (len := Config.demodRegLen.bytes) ho (by decide) (by decide) ha
  simp only [closeI2c, Ctl.run_bind, h, Ctl.run_modify]
  rfl

end Sys2Proof.Machine
end

