-- ==== Sys2Proof/Laws/Demod.lean ====
section
/-! SUPPORT. The host's control-path operations where every transfer succeeds: each is one equation. -/

namespace Sys2Proof.Machine

/-! ## What a register write leaves alone -/

/-- The fields a sequence of register writes reads and never writes. -/
structure RegKeeps (s t : State) : Prop where
  opened     : t.opened = s.opened
  claimed    : t.claimed = s.claimed
  i2cOpen    : t.i2cOpen = s.i2cOpen
  tunerReady : t.tunerReady = s.tunerReady
  answers    : t.plan.answers = s.plan.answers
  ppm        : t.ppm = s.ppm
  gain       : t.gain = s.gain
  xtalFreq   : t.xtalFreq = s.xtalFreq
  shadow     : t.shadow = s.shadow

theorem RegKeeps.refl (s : State) : RegKeeps s s := ⟨rfl, rfl, rfl, rfl, rfl, rfl, rfl, rfl, rfl⟩

theorem RegKeeps.trans {s t u : State} (h : RegKeeps s t) (g : RegKeeps t u) : RegKeeps s u :=
  ⟨g.opened.trans h.opened, g.claimed.trans h.claimed, g.i2cOpen.trans h.i2cOpen, g.tunerReady.trans h.tunerReady,
    g.answers.trans h.answers, g.ppm.trans h.ppm, g.gain.trans h.gain, g.xtalFreq.trans h.xtalFreq,
    g.shadow.trans h.shadow⟩

theorem RegKeeps.succeed {s t : State} (h : RegKeeps s t) (hs : allSucceed s) : allSucceed t :=
  allSucceed_of_answers h.answers hs

theorem regKeeps_afterWrite (value index : Word16) (bytes : List Byte) (t : Target) (s : State) :
    RegKeeps s (afterWrite value index bytes t s) := by
  unfold afterWrite
  cases t with
  | register base room => exact ⟨rfl, rfl, rfl, rfl, rfl, rfl, rfl, rfl, rfl⟩
  | tuner => cases bytes <;> exact ⟨rfl, rfl, rfl, rfl, rfl, rfl, rfl, rfl, rfl⟩
  | absent => exact ⟨rfl, rfl, rfl, rfl, rfl, rfl, rfl, rfl, rfl⟩

theorem regKeeps_afterDemodWrite (page1 : Bool) (addr : Byte) (value len : Nat) (s : State) :
    RegKeeps s (afterDemodWrite page1 addr value len s) := regKeeps_afterWrite _ _ _ _ _

theorem regKeeps_afterRegWrite (block reg : Word16) (value len : Nat) (s : State) :
    RegKeeps s (afterRegWrite block reg value len s) := regKeeps_afterWrite _ _ _ _ _

theorem regKeeps_atPos (p : SeqPos) (s : State) : RegKeeps s (s.atPos p) :=
  ⟨rfl, rfl, rfl, rfl, rfl, rfl, rfl, rfl, rfl⟩

/-! ## Registers of the blocks USB, SYS and DEMOD -/

theorem targetOf_block {block reg : Word16} (h : legalBlock block = true) :
    targetOf reg block = .ok (blockWindow block reg) := by
  rcases legalBlock_cases h with h | h | h | h | h <;> subst h <;> rfl

theorem writeReg_block {block reg : Word16} {value len : Nat} {s : State} (ho : s.opened = true)
    (hb : legalBlock block = true) (hr : block = Config.blockI2c → s.bridge = .forwarding) (hl : isRegLen len = true)
    (hw : Config.widthOk (Config.namedWidth block reg) len = true) (ha : nextSucceeds s) :
    writeReg block reg value len s = .ok () (afterRegWrite block reg value len s) := by
  refine writeReg_ok ho hb hl hw (targetOf_block hb) ?_ ha
  unfold blockWindow
  split
  · exact trivial
  · split
    · rename_i h; split <;> exact hr h
    · exact trivial

/-- One-byte writes to DEMOD page 1, all successful. -/
def afterBytes1 : List (Byte × Nat) → State → State
  | [], s => s
  | (addr, value) :: rest, s => afterBytes1 rest (afterDemodWrite true addr value Config.demodRegLen.bytes s)

theorem regKeeps_afterBytes1 : ∀ (l : List (Byte × Nat)) (s : State), RegKeeps s (afterBytes1 l s)
  | [], s => RegKeeps.refl s
  | w :: ws, s => (regKeeps_afterDemodWrite true w.1 w.2 Config.demodRegLen.bytes s).trans (regKeeps_afterBytes1 ws _)

theorem writeBytes1_ok : ∀ {l : List (Byte × Nat)} {s : State}, s.opened = true → allSucceed s →
    (∀ w ∈ l, Config.widthOk (Config.namedDemodWidth true w.1) Config.demodRegLen.bytes = true) → writeBytes1 l s = .ok () (afterBytes1 l s)
  | [], s, _, _, _ => rfl
  | w :: ws, s, ho, ha, hw => by
    have k := regKeeps_afterDemodWrite true w.1 w.2 Config.demodRegLen.bytes s
    have h1 := writeDemodReg_ok (value := w.2) ho (by decide : isRegLen Config.demodRegLen.bytes = true) (hw w List.mem_cons_self) ha.next
    simp only [writeBytes1, Ctl.run_bind, h1]
    exact writeBytes1_ok (k.opened.trans ho) (k.succeed ha) (fun x hx => hw x (List.mem_cons_of_mem _ hx))

/-! ## `rtl.open` (R202) -/

theorem regLen_bytes (l : Config.RegLen) : isRegLen l.bytes = true := by cases l <;> rfl

theorem initEntry_ok {e : Config.InitEntry} (he : e.legal = true) {s : State} (ho : s.opened = true)
    (hr : entryReaches e s) (ha : nextSucceeds s) : initEntry e s = .ok () (afterEntry e s) := by
  cases e with
  | reg block reg value len =>
    refine writeReg_block ho (by cases block <;> decide) ?_ (regLen_bytes len) he ha
    cases block
    case i2c => exact fun _ => hr
    all_goals exact fun h => absurd h (by decide)
  | demod page1 addr value len => exact writeDemodReg_ok ho (regLen_bytes len) he ha

/-- An entry that does not reach its register is refused (R347, G16). -/
theorem initEntry_refused {e : Config.InitEntry} (he : e.legal = true) {s : State} (ho : s.opened = true)
    (hr : ¬ entryReaches e s) : initEntry e s = .error (.refused .bridgeClosed) s := by
  cases e with
  | reg block reg value len =>
    cases block
    case i2c =>
      have hn := isRegLen_bounds (regLen_bytes len)
      have hb : (s.bridge == .forwarding) = false := beq_false_of_ne hr
      have hl : legalBlock Config.InitBlock.i2c.word = true := by decide
      have ht : targetOf reg (Config.InitBlock.i2c.word &&& ~~~Config.writeFlag) =
          .ok (if reg = Config.r820tI2cAddr then .tuner else .absent) := by
        rw [legalBlock_noFlag hl]
        rfl
      have h0 : (decide (0 < (leBytes len.bytes value).length) && decide ((leBytes len.bytes value).length < 2 ^ 16)) =
          true := by
        rw [leBytes_length, Bool.and_eq_true, decide_eq_true_eq, decide_eq_true_eq]
        exact hn
      have hx : access (if reg = Config.r820tI2cAddr then Target.tuner else Target.absent) s =
          .error (.refused .bridgeClosed) s := by
        split <;> simp only [access, Ctl.run_bind, Ctl.run_get, hb, require_false]
      simp only [initEntry, writeReg, controlWrite, Ctl.run_bind, regAccess_ok hl (regLen_bytes len) he, Ctl.run_get,
        require_ok ho, require_ok h0, target_ok ht, hx]
    all_goals exact absurd trivial hr
  | demod page1 addr value len => exact absurd trivial hr

theorem regKeeps_afterEntry (e : Config.InitEntry) (s : State) : RegKeeps s (afterEntry e s) := by
  cases e
  · exact regKeeps_afterRegWrite _ _ _ _ _
  · exact regKeeps_afterDemodWrite _ _ _ _ _

theorem regKeeps_afterEntries : ∀ (l : List Config.InitEntry) (s : State), RegKeeps s (afterEntries l s)
  | [], s => RegKeeps.refl s
  | e :: es, s => (regKeeps_afterEntry e s).trans (regKeeps_afterEntries es _)

/-- A table whose entries all reach their registers is written to its end. -/
theorem initEntries_ok : ∀ {l : List Config.InitEntry} {s : State}, (∀ e ∈ l, e.legal = true) → s.opened = true →
    allSucceed s → entriesReach l s → initEntries l s = .ok () (afterEntries l s)
  | [], s, _, _, _, _ => rfl
  | e :: es, s, hl, ho, ha, hr => by
    have k := regKeeps_afterEntry e s
    simp only [initEntries, Ctl.run_bind, initEntry_ok (hl e List.mem_cons_self) ho hr.1 ha.next]
    exact initEntries_ok (fun x hx => hl x (List.mem_cons_of_mem _ hx)) (k.opened.trans ho) (k.succeed ha) hr.2

/-- A table with an entry that does not reach its register is refused there. -/
theorem initEntries_refused : ∀ {l : List Config.InitEntry} {s : State}, (∀ e ∈ l, e.legal = true) → s.opened = true →
    allSucceed s → ¬ entriesReach l s → ∃ s', initEntries l s = .error (.refused .bridgeClosed) s'
  | [], s, _, _, _, hr => absurd trivial hr
  | e :: es, s, hl, ho, ha, hr => by
    have k := regKeeps_afterEntry e s
    by_cases he : entryReaches e s
    · obtain ⟨s', h⟩ := initEntries_refused (l := es) (fun x hx => hl x (List.mem_cons_of_mem _ hx)) (k.opened.trans ho)
        (k.succeed ha) fun h => hr ⟨he, h⟩
      exact ⟨s', by simp only [initEntries, Ctl.run_bind, initEntry_ok (hl e List.mem_cons_self) ho he ha.next, h]⟩
    · exact ⟨s, by simp only [initEntries, Ctl.run_bind, initEntry_refused (hl e List.mem_cons_self) ho he]⟩

/-- Every entry of `RTL_INIT` accesses a named register with its own width. -/
theorem rtlInit_legal (t : Config.RtlInit) : ∀ e ∈ t.entries, e.legal = true := by
  intro e he
  unfold Config.RtlInit.entries at he
  simp only [List.mem_append, List.mem_map, List.mem_singleton] at he
  rcases he with (((⟨x, -, rfl⟩ | h) | ⟨x, -, rfl⟩) | h) | ⟨x, -, rfl⟩
  · exact x.property
  · rw [h]; split <;> decide
  · exact x.property
  · rw [h]; split <;> decide
  · exact x.property

theorem regKeeps_openPrepared (s : State) : RegKeeps s (openPrepared s) :=
  ((regKeeps_atPos _ s).trans (regKeeps_afterRegWrite _ _ _ _ _)).trans (regKeeps_afterRegWrite _ _ _ _ _)

theorem openPrelude_ok {s : State} (ho : s.opened = true) (hc : s.claimed = false) (ha : allSucceed s) :
    openPrelude (s.atPos { op := .opening, step := 0 }) = .ok () (openClaimed s) := by
  have k0 := regKeeps_atPos { op := .opening, step := 0 } s
  have k1 := k0.trans (regKeeps_afterRegWrite Config.blockUsb Config.regSysctl Config.sysctlInit Config.sysctlLen.bytes _)
  have k2 := regKeeps_openPrepared s
  have w1 := writeReg_block (block := Config.blockUsb) (reg := Config.regSysctl) (value := Config.sysctlInit) (len := Config.sysctlLen.bytes)
    (k0.opened.trans ho) (by decide) (fun h => absurd h (by decide)) (by decide) (by decide) (k0.succeed ha).next
  have w2 := writeReg_block (block := Config.blockUsb) (reg := Config.regEpaMaxpkt) (value := Config.epaMaxpktInit)
    (len := Config.epaMaxpktLen.bytes)
    (k1.opened.trans ho) (by decide) (fun h => absurd h (by decide)) (by decide) (by decide) (k1.succeed ha).next
  have w3 := claimInterface_succeeds (s := openPrepared s) (k2.opened.trans ho) (k2.claimed.trans hc)
    (k2.succeed ha).next
  simp only [openPrelude, Ctl.run_bind, w1, w2]
  exact w3

theorem openProbing_opened (c : Config.Params) (ppm : Int) (s : State) :
    (openProbing c ppm s).opened = s.opened :=
  (regKeeps_afterDemodWrite true Config.regBridge Config.bridgeOpenValue Config.demodRegLen.bytes _).opened.trans
    ((regKeeps_afterEntries c.rtlInit.entries (openClaimed s)).opened.trans (regKeeps_openPrepared s).opened)

theorem openProbing_answers (c : Config.Params) (ppm : Int) (s : State) :
    (openProbing c ppm s).plan.answers = s.plan.answers :=
  (regKeeps_afterDemodWrite true Config.regBridge Config.bridgeOpenValue Config.demodRegLen.bytes _).answers.trans
    ((regKeeps_afterEntries c.rtlInit.entries (openClaimed s)).answers.trans (regKeeps_openPrepared s).answers)

theorem deviceStore_register_bridge (base room : Nat) (bytes : List Byte) (s : State) :
    (deviceStore (.register base room) bytes s).bridge =
      if covers base (bytes.take room).length bridgeAddr then
        bridgeAfter ((bytes.take room).getD (bridgeAddr - base) 0)
      else s.bridge := rfl

/-- A one-byte write of the bridge register sets the bridge (R37, R39 (a)). -/
theorem bridge_afterBridgeWrite (value : Nat) (s : State) :
    (afterDemodWrite true Config.regBridge value Config.demodRegLen.bytes s).bridge = bridgeAfter (BitVec.ofNat 8 value) := by
  have h1 : (beBytes Config.demodRegLen.bytes value).take (Config.pageSize - Config.regBridge.toNat) = [BitVec.ofNat 8 value] :=
    List.take_of_length_le (by rw [beBytes_length]; decide : (beBytes Config.demodRegLen.bytes value).length ≤ _)
  have h2 : cellAddr (pageIndex true) Config.regBridge.toNat = bridgeAddr := by decide
  have h3 : covers bridgeAddr 1 bridgeAddr = true := by decide
  unfold afterDemodWrite afterWrite demodWindow
  rw [deviceStore_register_bridge, h1, h2, Nat.sub_self]
  simp only [List.length_singleton, h3, if_true, List.getD_cons_zero]

/-- After `open_i2c` the device forwards. -/
theorem afterOpenI2c_bridge (s : State) : (afterOpenI2c s).bridge = .forwarding := by
  unfold afterOpenI2c
  rw [State.setI2cOpen_bridge, bridge_afterBridgeWrite]
  decide

/-- After `close_i2c` it does not. -/
theorem afterCloseI2c_bridge (s : State) : (afterCloseI2c s).bridge = .blocked := by
  unfold afterCloseI2c
  rw [State.setI2cOpen_bridge, bridge_afterBridgeWrite]
  decide

theorem openProbing_reachable {c : Config.Params} {ppm : Int} {s : State} (ho : s.opened = true) :
    tunerReachable (openProbing c ppm s) :=
  ⟨(openProbing_opened c ppm s).trans ho, rfl, afterOpenI2c_bridge _⟩

theorem openProbing_xtal (c : Config.Params) (ppm : Int) (s : State) :
    (openProbing c ppm s).xtalFreq = some (correctedXtal ppm) :=
  (regKeeps_afterDemodWrite true Config.regBridge Config.bridgeOpenValue Config.demodRegLen.bytes _).xtalFreq

/-- A DEMOD register that is not the bridge's, one byte wide, leaves the bridge alone. -/
theorem bridge_afterDemodWrite {page1 : Bool} {addr : Byte} (value : Nat) (s : State)
    (h : cellAddr (pageIndex page1) addr.toNat ≠ bridgeAddr) :
    (afterDemodWrite page1 addr value Config.demodRegLen.bytes s).bridge = s.bridge := by
  have hl : ((beBytes Config.demodRegLen.bytes value).take (Config.pageSize - addr.toNat)).length = 1 := by
    have := addr.isLt
    rw [List.length_take, beBytes_length, Config.pageSize, show Config.demodRegLen.bytes = 1 from rfl]
    omega
  have hc : covers (cellAddr (pageIndex page1) addr.toNat) 1 bridgeAddr = false := by
    simp only [covers, Bool.and_eq_false_iff, decide_eq_false_iff_not]
    omega
  unfold afterDemodWrite afterWrite demodWindow
  rw [deviceStore_register_bridge, hl, hc]
  rfl

theorem regKeeps_afterIfOffset (c : Config.Params) (xtal : Int) (s : State) : RegKeeps s (afterIfOffset c xtal s) := by
  unfold afterIfOffset
  exact ((regKeeps_afterDemodWrite true Config.regIfMultHi (ifMultiplierWord xtal / 65536 &&& c.ifMultTopMask) Config.demodRegLen.bytes s).trans
    (regKeeps_afterDemodWrite true Config.regIfMultMid (ifMultiplierWord xtal / 256 % 256) Config.demodRegLen.bytes _)).trans
    (regKeeps_afterDemodWrite true Config.regIfMultLo (ifMultiplierWord xtal % 256) Config.demodRegLen.bytes _)

theorem keeps_afterIfOffset (c : Config.Params) (xtal : Int) (s : State) : TunerKeeps s (afterIfOffset c xtal s) := by
  have k := regKeeps_afterIfOffset c xtal s
  have hb : (afterIfOffset c xtal s).bridge = s.bridge := by
    unfold afterIfOffset
    rw [bridge_afterDemodWrite _ _ (by decide), bridge_afterDemodWrite _ _ (by decide),
      bridge_afterDemodWrite _ _ (by decide)]
  exact ⟨k.opened, k.claimed, k.i2cOpen, hb, k.answers, k.xtalFreq, k.tunerReady, fun h => by
    rw [show (afterIfOffset c xtal s).shadow = s.shadow from k.shadow]; exact h⟩

theorem writeIfOffset_ok {c : Config.Params} {s : State} {xtal : Int} (ho : s.opened = true) (hx : s.xtalFreq = some xtal)
    (ha : allSucceed s) : writeIfOffset c s = .ok () (afterIfOffset c xtal s) := by
  have hw : ∀ w ∈ ifOffsetWrites c xtal, Config.widthOk (Config.namedDemodWidth true w.1) Config.demodRegLen.bytes = true := by
    simp only [ifOffsetWrites, List.mem_cons, List.not_mem_nil, or_false, forall_eq_or_imp, forall_eq]
    exact ⟨by decide, by decide, by decide⟩
  simp only [writeIfOffset, Ctl.run_bind, Ctl.run_get, hx, word_some]
  exact writeBytes1_ok ho ha hw

/-- The gain of U4 (R184, R185). -/
theorem applyGain_ok {c : Config.Params} {g : Gain} {s : State} (h : tunerReachable s)
    (hs : s.shadow.isSome = true) (ha : allSucceed s) (hg : s.gain = some g) :
    applyGain c s = .ok () (afterMasks (gainTriples c g) s) := by
  simp only [applyGain, Ctl.run_bind, Ctl.run_get, hg, word_some]
  exact writeTable_ok h hs ha

theorem keeps_openTuning (c : Config.Params) (ppm : Int) (s : State) :
    TunerKeeps (openProbing c ppm s) (openTuning c ppm s) :=
  (keeps_afterTunerRead 0x00 1 _).trans (keeps_afterIfOffset _ _ _)

/-! `gain` and `ppm` through the tuner's operations -/

theorem gain_afterMask (t : Triple) (s : State) : (afterMask t s).gain = s.gain := by
  unfold afterMask
  split <;> rfl

theorem gain_afterMasks : ∀ (l : List Triple) (s : State), (afterMasks l s).gain = s.gain
  | [], _ => rfl
  | t :: ts, s => (gain_afterMasks ts _).trans (gain_afterMask t s)

theorem gain_afterTunerRead (reg : Byte) (n : Nat) (s : State) : (afterTunerRead reg n s).gain = s.gain := by
  unfold afterTunerRead afterRead
  rw [deviceAfterRead_gain]
  rfl

theorem gain_afterPoll (c : Config.Params) (b : Bool) (s : State) : (afterPoll c b s).gain = s.gain := by
  unfold afterPoll afterStatus
  split
  · simp [gain_afterTunerRead]
  · split
    · simp [gain_afterTunerRead, gain_afterMask]
    · simp [gain_afterTunerRead]

theorem gain_afterPll (c : Config.Params) (f : Nat) (r : Int) (s : State) : (afterPll c f r s).gain = s.gain := by
  unfold afterPll pllStart afterStatus
  simp only
  split
  · simp [gain_afterTunerRead, gain_afterMask, gain_afterMasks]
  · simp [gain_afterTunerRead, gain_afterMask, gain_afterMasks, gain_afterPoll]

theorem gain_afterCalRun (c : Config.Params) (r : Int) (s : State) : (afterCalRun c r s).gain = s.gain := by
  unfold afterCalRun afterStatus calReady calStart
  simp [gain_afterTunerRead, gain_afterMasks, gain_afterPll]

theorem gain_afterFilterCap (cap : BitVec Config.filCalWidth) (s : State) : (afterFilterCap cap s).gain = s.gain := by
  unfold afterFilterCap
  split
  · rfl
  · simp [gain_afterMask]

theorem gain_afterInit (c : Config.Params) (r : Int) (s : State) : (afterInit c r s).gain = s.gain := by
  unfold afterInit initStart afterCalibration
  split <;> simp [gain_afterMasks, gain_afterFilterCap, gain_afterCalRun] <;> rfl

theorem gain_openProbing (c : Config.Params) (ppm : Int) (s : State) : (openProbing c ppm s).gain = s.gain := by
  unfold openProbing afterOpenI2c
  rw [State.setI2cOpen_gain, (regKeeps_afterDemodWrite _ _ _ _ _).gain, State.setXtal_gain,
    (regKeeps_afterEntries _ _).gain]
  unfold openClaimed transferred
  rw [State.advanced_gain, State.issued_gain, State.setClaimed_gain, (regKeeps_openPrepared s).gain]

theorem gain_openTuning (c : Config.Params) (ppm : Int) (s : State) : (openTuning c ppm s).gain = s.gain := by
  unfold openTuning
  rw [(regKeeps_afterIfOffset _ _ _).gain, gain_afterTunerRead, gain_openProbing]

theorem keeps_afterInitBody (c : Config.Params) (r : Int) (s : State) :
    TunerKeeps s (afterMasks (triplesOf c.r820tInitPost) (afterCalibration c r true (initStart c s))) :=
  ((keeps_initStart c s).trans (keeps_afterCalibration c r true _)).trans (keeps_afterMasks _ _)

theorem afterInit_reachable {c : Config.Params} {r : Int} {s : State} (h : tunerReachable s) :
    tunerReachable (afterInit c r s) := (keeps_afterInitBody c r s).reachable h

theorem afterInit_succeed {c : Config.Params} {r : Int} {s : State} (h : allSucceed s) :
    allSucceed (afterInit c r s) := by
  refine allSucceed_of_answers ?_ h
  unfold afterInit
  rw [State.setReady_plan]
  exact (keeps_afterInitBody c r s).answers

theorem afterInit_shadowed (c : Config.Params) (r : Int) (s : State) : (afterInit c r s).shadow.isSome = true := by
  unfold afterInit
  rw [State.setReady_shadow]
  exact ((keeps_afterCalibration c r true (initStart c s)).trans (keeps_afterMasks _ _)).shadowed
    (initStart_shadowed c s)

/-- `rtl.open()` (R202), its transfers all successful, the probe answered and the calibration complete. -/
theorem rtlOpen_ok {c : Config.Params} {ppm : Int} {g : Gain} {s : State} (ho : s.opened = true)
    (hc : s.claimed = false) (ha : allSucceed s) (hp : s.ppm = some ppm) (hg : s.gain = some g)
    (ht : tableReaches c s) (h : opens c ppm s) : rtlOpen c s = .ok () (afterRtlOpen c ppm g s) := by
  have e1 := regKeeps_openPrepared s
  have oc : (openClaimed s).opened = true := e1.opened.trans ho
  have ac : allSucceed (openClaimed s) := allSucceed_of_answers e1.answers ha
  have k2 := regKeeps_afterEntries c.rtlInit.entries (openClaimed s)
  have w2 : initEntries c.rtlInit.entries (openClaimed s) = .ok () (afterEntries c.rtlInit.entries (openClaimed s)) :=
    initEntries_ok (rtlInit_legal c.rtlInit) oc ac ht
  have p2 : (afterEntries c.rtlInit.entries (openClaimed s)).ppm = some ppm :=
    k2.ppm.trans (e1.ppm.trans hp)
  have o3 : ((afterEntries c.rtlInit.entries (openClaimed s)).setXtal (correctedXtal ppm)).opened = true :=
    k2.opened.trans oc
  have a3 : allSucceed ((afterEntries c.rtlInit.entries (openClaimed s)).setXtal (correctedXtal ppm)) :=
    allSucceed_of_answers (s := s) (k2.answers.trans e1.answers) ha
  have w3 := openI2c_ok o3 a3.next
  have r4 := openProbing_reachable (c := c) (ppm := ppm) ho
  have a4 : allSucceed (openProbing c ppm s) := allSucceed_of_answers (openProbing_answers c ppm s) ha
  have w4 : i2cRead tunerBus 0x00 Config.i2cRegLen (openProbing c ppm s) = _ :=
    i2cRead_ok (n := 1) r4 (by omega) (by decide) a4
  have k5 := keeps_afterTunerRead 0x00 1 (openProbing c ppm s)
  have w5 := writeIfOffset_ok (c := c) (k5.reachable r4).1 (k5.xtalFreq.trans (openProbing_xtal c ppm s)) (k5.succeed a4)
  have k6 := keeps_openTuning c ppm s
  have w6 := tunerInit_ok (k6.reachable r4) (k6.succeed a4) (k6.xtalFreq.trans (openProbing_xtal c ppm s)) h.2
  have r7 := afterInit_reachable (c := c) (r := correctedXtal ppm) (k6.reachable r4)
  have a7 := afterInit_succeed (c := c) (r := correctedXtal ppm) (k6.succeed a4)
  have s7 := afterInit_shadowed c (correctedXtal ppm) (openTuning c ppm s)
  have g7 : (afterInit c (correctedXtal ppm) (openTuning c ppm s)).gain = some g := by
    rw [gain_afterInit, gain_openTuning]
    exact hg
  have w7 := applyGain_ok (c := c) r7 s7 a7 g7
  have k8 := keeps_afterMasks (gainTriples c g) (afterInit c (correctedXtal ppm) (openTuning c ppm s))
  have w8 := closeI2c_ok (k8.reachable r7).1 (k8.succeed a7).next
  have hid : (tunerBytes 0x00 1 (openProbing c ppm s)).headD 0 = Config.r820tId := h.1
  simp only [rtlOpen, Ctl.run_bind, seqAt_run, openPrelude_ok ho hc ha, w2, computeXtal, Ctl.run_get, p2, word_some,
    Ctl.run_modify, w3]
  rw [show afterOpenI2c ((afterEntries c.rtlInit.entries (openClaimed s)).setXtal (correctedXtal ppm)) =
    openProbing c ppm s from rfl]
  simp only [probe, checkId, Config.regStatus, Ctl.run_bind, w4, hid, if_true, Ctl.run_pure, w5]
  rw [show afterIfOffset c (correctedXtal ppm) (afterTunerRead 0x00 1 (openProbing c ppm s)) = openTuning c ppm s from rfl]
  simp only [w6, w7, w8, seqDone_run]
  rfl

/-! ## Sample rate, centre frequency, buffer (R205 to R210) -/

theorem ratioWrites_ok : ∀ {l : List Config.DemodWrite} {s : State}, (∀ w ∈ l, w.legal = true) → s.opened = true →
    allSucceed s → ratioWrites l s = .ok () (afterDemodWrites l s)
  | [], s, _, _, _ => rfl
  | w :: ws, s, hl, ho, ha => by
    have k := regKeeps_afterDemodWrite w.page1 w.addr w.value w.len.bytes s
    have hw := writeDemodReg_ok (value := w.value) ho (regLen_bytes w.len) (hl w List.mem_cons_self) ha.next
    simp only [ratioWrites, Ctl.run_bind, hw]
    exact ratioWrites_ok (fun x hx => hl x (List.mem_cons_of_mem _ hx)) (k.opened.trans ho) (k.succeed ha)

theorem regKeeps_afterDemodWrites : ∀ (l : List Config.DemodWrite) (s : State), RegKeeps s (afterDemodWrites l s)
  | [], s => RegKeeps.refl s
  | _ :: ws, s => (regKeeps_afterDemodWrite _ _ _ _ s).trans (regKeeps_afterDemodWrites ws _)

theorem rtlSetSampleRate_ok {c : Config.Params} {rate : Nat} {ppm : Int} {s : State} (ho : s.opened = true)
    (ha : allSucceed s) (hp : s.ppm = some ppm) (hr : 0 < rate) (h0 : resamplingRatio rate ≠ 0) :
    rtlSetSampleRate c rate s = .ok (actualRateOf (resamplingRatio rate)) (afterSampleRate c ppm rate s) := by
  have k0 := regKeeps_atPos { op := .setSampleRate, step := 0 } s
  have hl : ∀ w ∈ ratioTable c (resamplingRatio rate), w.legal = true := by
    intro w hw
    obtain ⟨x, -, rfl⟩ := List.mem_map.mp hw
    exact x.property
  have w1 := ratioWrites_ok hl (k0.opened.trans ho) (k0.succeed ha)
  have k1 := k0.trans (regKeeps_afterDemodWrites (ratioTable c (resamplingRatio rate)) _)
  have hw : ∀ w ∈ ppmOffsetWrites c ppm ++ demodResetWrites,
      Config.widthOk (Config.namedDemodWidth true w.1) Config.demodRegLen.bytes = true := by
    simp only [ppmOffsetWrites, demodResetWrites, List.cons_append, List.nil_append, List.mem_cons, List.not_mem_nil,
      or_false, forall_eq_or_imp, forall_eq]
    exact ⟨by decide, by decide, by decide, by decide⟩
  have w2 := writeBytes1_ok (k1.opened.trans ho) (k1.succeed ha) hw
  simp only [rtlSetSampleRate, rateRatio, Ctl.run_bind, require_ok (decide_eq_true hr), require_ok (bne_iff_ne.mpr h0),
    Ctl.run_pure, seqAt_run, Ctl.run_get, State.atPos_ppm, hp, word_some, w1, w2, Ctl.run_modify, seqDone_run]
  rfl

/-- `rtl.set_center_frequency(hz)` up to its last transfer (R209). -/
theorem setCenter_ok {c : Config.Params} {hz : Nat} {r : Int} {s : State} (ho : s.opened = true)
    (hs : s.shadow.isSome = true) (ha : allSucceed s) (hx : s.xtalFreq = some r) (ht : s.tunerReady = true)
    (hz0 : 0 < hz) (hr : pllInRange c (hz + Config.ifFreq) r (tuneStart c hz s)) :
    rtlSetCenterFrequency c hz s =
      if (tuned c hz r s).hasPllLock then .ok () ((afterCloseI2c (tuned c hz r s)).atPos SeqPos.rest)
      else .error (.raised { kind := .pllNotLocked, info := .pll .tune hz }) (afterCloseI2c (tuned c hz r s)) := by
  have hz' : decide (0 < hz) = true := by simp [hz0]
  have k0 := regKeeps_atPos { op := .setCenterFrequency, step := 0 } s
  have w0 := openI2c_ok (k0.opened.trans ho) (k0.succeed ha).next
  have k1 := k0.trans (regKeeps_afterDemodWrite true Config.regBridge Config.bridgeOpenValue Config.demodRegLen.bytes _)
  have r1 : tunerReachable (afterOpenI2c (s.atPos { op := .setCenterFrequency, step := 0 })) :=
    ⟨k1.opened.trans ho, rfl, afterOpenI2c_bridge _⟩
  have s1 : (afterOpenI2c (s.atPos { op := .setCenterFrequency, step := 0 })).shadow.isSome = true := by
    rw [show (afterOpenI2c (s.atPos { op := .setCenterFrequency, step := 0 })).shadow = s.shadow from k1.shadow]
    exact hs
  have a1 : allSucceed (afterOpenI2c (s.atPos { op := .setCenterFrequency, step := 0 })) :=
    allSucceed_of_answers k1.answers ha
  have w1 := setFrequency_ok (freq := hz + Config.ifFreq) r1 s1 a1 (k1.xtalFreq.trans hx) (k1.tunerReady.trans ht)
    (by omega) hr
  have k2 : TunerKeeps _ (tuned c hz r s) := (keeps_afterMasks (muxTriples c (hz + Config.ifFreq)) _).trans
    (keeps_afterPll c (hz + Config.ifFreq) r _)
  have w2 := closeI2c_ok (k2.reachable r1).1 (k2.succeed a1).next
  simp only [rtlSetCenterFrequency, Ctl.run_bind, require_ok hz', seqAt_run, w0, w1]
  rw [show afterPll c (hz + Config.ifFreq) r (afterMasks (muxTriples c (hz + Config.ifFreq))
    (afterOpenI2c (s.atPos { op := .setCenterFrequency, step := 0 }))) = tuned c hz r s from rfl, w2]
  cases h : (tuned c hz r s).hasPllLock <;> rfl

theorem rtlResetBuffer_ok {s : State} (ho : s.opened = true) (ha : allSucceed s) :
    rtlResetBuffer s = .ok () (afterResetBuffer s) := by
  have k0 := regKeeps_atPos { op := .resetBuffer, step := 0 } s
  have w1 := writeReg_block (block := Config.blockUsb) (reg := Config.regEpaCtl) (value := Config.epaCtlReset)
    (len := Config.epaCtlLen.bytes)
    (k0.opened.trans ho) (by decide) (fun h => absurd h (by decide)) (by decide) (by decide) (k0.succeed ha).next
  have k1 := k0.trans (regKeeps_afterRegWrite Config.blockUsb Config.regEpaCtl Config.epaCtlReset Config.epaCtlLen.bytes _)
  have w2 := writeReg_block (block := Config.blockUsb) (reg := Config.regEpaCtl) (value := Config.epaCtlRun)
    (len := Config.epaCtlLen.bytes)
    (k1.opened.trans ho) (by decide) (fun h => absurd h (by decide)) (by decide) (by decide) (k1.succeed ha).next
  simp only [rtlResetBuffer, Ctl.run_bind, seqAt_run, w1, w2, seqDone_run]
  rfl

end Sys2Proof.Machine
end

