-- ==== Sys2Proof/Laws/Programs.lean ====
section
/-! SUPPORT. What every program of the control path keeps: a property that survives each of the sequencer's elementary
changes of the state survives every program of U1 to U4 and every task, and every error they raise sets `FAULT`
(60_exceptions R308, R310). -/

namespace Sys2Proof.Machine

/-! ## Elementary changes -/

/-- `P` survives each elementary change that a program of U1 to U3 makes to the state. -/
structure Stable (P : State → Prop) : Prop where
  issued   : ∀ t s, P s → P (s.issued t)
  advanced : ∀ s, P s → P s.advanced
  stored   : ∀ t bytes s, P s → P (deviceStore t bytes s)
  forgot   : ∀ t bytes draw s, P s → P (deviceForget t bytes draw s)
  read     : ∀ t s, P s → P (deviceAfterRead t s)
  even     : ∀ n s, n % 2 = 0 → P s → P (consumeStream n s)
  claim    : ∀ s, s.opened = true → P s → P (s.setClaimed true)
  release  : ∀ s, P s → P (s.setClaimed false)
  bridge   : ∀ s, s.opened = true → P s → P (s.setI2cOpen true)
  noBridge : ∀ s, P s → P (s.setI2cOpen false)
  shadow   : ∀ sh s, P s → P (s.setShadow sh)
  lock     : ∀ b s, P s → P (s.setLock b)
  notReady : ∀ s, P s → P (s.setReady false)
  ready    : ∀ s, s.shadow.isSome = true → P s → P (s.setReady true)
  filter   : ∀ cap s, P s → P (s.setFilterCap cap)
  xtal     : ∀ f s, P s → P (s.setXtal f)
  rate     : ∀ r s, P s → P (s.setActualRate r)

/-- A target is found or refused. -/
theorem Ctl.Keeps.target {P : State → Prop} (value index : Word16) :
    Ctl.Keeps P (Sys2Proof.Machine.target value index) := by
  intro s h
  unfold Sys2Proof.Machine.target
  cases ht : targetOf value index with
  | ok t => exact h
  | error e =>
    unfold targetOf at ht
    repeat' split at ht
    all_goals first | cases ht | skip
    all_goals trivial

theorem Ctl.Keeps.access {P : State → Prop} (t : Target) : Ctl.Keeps P (Sys2Proof.Machine.access t) := by
  cases t
  · exact Ctl.Keeps.pure _
  all_goals exact Ctl.Keeps.get.bind fun _ => Ctl.Keeps.require _ _

/-- A program followed by one that ends in a value of it. -/
theorem Ctl.Keeps.result {α β : Type} {P : State → Prop} {m : Ctl α} {g : α → β} (hm : Ctl.Keeps P m) :
    Ctl.Keeps P (m >>= fun a => Pure.pure (g a)) := hm.bind fun _ => Ctl.Keeps.pure _

namespace Stable

variable {P : State → Prop} (h : Stable P)

/-- What survives the elementary changes survives them while a device is open. -/
theorem whileOpen (h : Stable P) : Stable fun s => P s ∧ s.opened = true where
  issued t s hs := ⟨h.issued t s hs.1, hs.2⟩
  advanced s hs := ⟨h.advanced s hs.1, hs.2⟩
  stored t b s hs := ⟨h.stored t b s hs.1, by rw [deviceStore_opened]; exact hs.2⟩
  forgot t b d s hs := ⟨h.forgot t b d s hs.1, by rw [deviceForget_opened]; exact hs.2⟩
  read t s hs := ⟨h.read t s hs.1, by rw [deviceAfterRead_opened]; exact hs.2⟩
  even n s hn hs := ⟨h.even n s hn hs.1, hs.2⟩
  claim s ho hs := ⟨h.claim s ho hs.1, hs.2⟩
  release s hs := ⟨h.release s hs.1, hs.2⟩
  bridge s ho hs := ⟨h.bridge s ho hs.1, hs.2⟩
  noBridge s hs := ⟨h.noBridge s hs.1, hs.2⟩
  shadow sh s hs := ⟨h.shadow sh s hs.1, hs.2⟩
  lock b s hs := ⟨h.lock b s hs.1, hs.2⟩
  notReady s hs := ⟨h.notReady s hs.1, hs.2⟩
  ready s hx hs := ⟨h.ready s hx hs.1, hs.2⟩
  filter cap s hs := ⟨h.filter cap s hs.1, hs.2⟩
  xtal f s hs := ⟨h.xtal f s hs.1, hs.2⟩
  rate r s hs := ⟨h.rate r s hs.1, hs.2⟩

include h

/-! ## U1 -/

theorem issue (t : Transfer) : Ctl.Keeps P (Sys2Proof.Machine.issue t) := fun s hs => h.issued t s hs

theorem advance : Ctl.Keeps P Sys2Proof.Machine.advance := Ctl.Keeps.modify h.advanced

theorem sendWrite (value index : Word16) (bytes : List Byte) (t : Target) {accept : Nat → State → State}
    (ha : ∀ d s, P s → P (accept d s)) : Ctl.Keeps P (Sys2Proof.Machine.sendWrite value index bytes t accept) := by
  refine (h.issue _).bind fun p => Ctl.Keeps.ite ?_ ?_
  · exact (Ctl.Keeps.modify (h.forgot _ _ _)).bind fun _ => Ctl.Keeps.raise rfl
  · exact (Ctl.Keeps.modify (ha _)).bind fun _ => h.advance

theorem controlWrite (value index : Word16) (bytes : List Byte) :
    Ctl.Keeps P (Sys2Proof.Machine.controlWrite value index bytes) :=
  Ctl.Keeps.get.bind fun _ => (Ctl.Keeps.require _ _).bind fun _ => (Ctl.Keeps.require _ _).bind fun _ =>
    (Ctl.Keeps.target _ _).bind fun _ => (Ctl.Keeps.access _).bind fun _ => h.sendWrite _ _ _ _ fun _ => h.stored _ _

theorem controlRead (value index length : Word16) :
    Ctl.Keeps P (Sys2Proof.Machine.controlRead value index length) :=
  Ctl.Keeps.get.bind fun _ => (Ctl.Keeps.require _ _).bind fun _ => (Ctl.Keeps.require _ _).bind fun _ =>
    (Ctl.Keeps.target _ _).bind fun _ => (Ctl.Keeps.access _).bind fun _ => (h.issue _).bind fun _ =>
    Ctl.Keeps.ite (Ctl.Keeps.raise rfl)
      ((Ctl.Keeps.modify (h.read _)).bind fun _ => h.advance.bind fun _ => Ctl.Keeps.pure _)

theorem bulkAnswer {length : Nat} (hl : length % 2 = 0) (draw : Nat) (a : Answer) :
    Ctl.Keeps P (Sys2Proof.Machine.bulkAnswer length draw a) := by
  refine Ctl.Keeps.get.bind fun s => Ctl.Keeps.ite ?_ ?_
  · refine (Ctl.Keeps.modify fun s => h.even _ s ?_).bind fun _ => Ctl.Keeps.raise rfl
    unfold lostBytes Config.bytesPerSample
    omega
  · exact (Ctl.Keeps.modify fun s => h.even _ s hl).bind fun _ => Ctl.Keeps.pure _

theorem bulkRead (length : Nat) : Ctl.Keeps P (Sys2Proof.Machine.bulkRead length) := by
  refine Ctl.Keeps.get.bind fun _ => (Ctl.Keeps.require _ _).bind fun _ => (Ctl.Keeps.require _ _).bind fun _ => ?_
  by_cases hl : length % 2 = 0
  · exact (Ctl.Keeps.require _ _).bind fun _ => (h.issue _).bind fun _ => (h.bulkAnswer hl _ _).bind fun _ =>
      h.advance.bind fun _ => Ctl.Keeps.pure _
  · rw [show (decide (0 < length) && length % Config.bytesPerSample == 0) = false from by
      rw [Bool.and_eq_false_iff]; exact .inr (beq_false_of_ne hl)]
    exact fun s _ => trivial

omit h in
/-- A program that is refused where no device is open keeps `P` if it does so where one is. -/
theorem open_only {α : Type} {m : Ctl α} (hc : ∀ s, s.opened = false → ∃ r s', m s = .error (.refused r) s')
    (ho : Ctl.Keeps (fun s => P s ∧ s.opened = true) m) : Ctl.Keeps P m := by
  intro s hs
  cases hx : s.opened with
  | false =>
    obtain ⟨r, s', hm⟩ := hc s hx
    rw [hm]
    trivial
  | true =>
    have hk := ho s ⟨hs, hx⟩
    revert hk
    cases m s with
    | ok a s' => exact fun hk => hk.1
    | error e s' =>
      cases e with
      | raised e => exact fun hk => ⟨hk.1.1, hk.2⟩
      | ended => exact fun hk => ⟨hk.1.1, hk.2⟩
      | refused r => exact id
      | fault f => exact id

theorem claimInterface (iface : Byte) : Ctl.Keeps P (Sys2Proof.Machine.claimInterface iface) := by
  refine open_only (fun s hs => ?_) ?_
  · cases hi : iface == Config.usbInterface <;>
      simp only [Sys2Proof.Machine.claimInterface, Ctl.run_bind, Ctl.run_get, hi, hs, require_true, require_false]
    · exact ⟨_, _, rfl⟩
    · exact ⟨_, _, rfl⟩
  · exact Ctl.Keeps.get.bind fun _ => (Ctl.Keeps.require _ _).bind fun _ => (Ctl.Keeps.require _ _).bind fun _ =>
      (Ctl.Keeps.require _ _).bind fun _ => (h.whileOpen.issue _).bind fun _ => Ctl.Keeps.ite (Ctl.Keeps.raise rfl)
        ((Ctl.Keeps.modify fun s hs => h.whileOpen.claim s hs.2 hs).bind fun _ => h.whileOpen.advance)

theorem releaseInterface (iface : Byte) : Ctl.Keeps P (Sys2Proof.Machine.releaseInterface iface) :=
  Ctl.Keeps.get.bind fun _ => (Ctl.Keeps.require _ _).bind fun _ => (Ctl.Keeps.require _ _).bind fun _ =>
    (h.issue _).bind fun _ => (Ctl.Keeps.modify h.release).bind fun _ =>
    Ctl.Keeps.ite (Ctl.Keeps.raise rfl) h.advance

/-! ## U2 -/

theorem writeReg (block reg : Word16) (value len : Nat) :
    Ctl.Keeps P (Sys2Proof.Machine.writeReg block reg value len) :=
  ((Ctl.Keeps.require _ _).bind fun _ => Ctl.Keeps.require _ _).bind fun _ => h.controlWrite _ _ _

theorem readReg (block reg : Word16) (len : Nat) : Ctl.Keeps P (Sys2Proof.Machine.readReg block reg len) :=
  ((Ctl.Keeps.require _ _).bind fun _ => Ctl.Keeps.require _ _).bind fun _ => (h.controlRead _ _ _).result

theorem writeRegMask (block reg : Word16) (value mask : Byte) :
    Ctl.Keeps P (Sys2Proof.Machine.writeRegMask block reg value mask) :=
  Ctl.Keeps.ite (h.writeReg _ _ _ _) ((h.readReg _ _ _).bind fun _ => h.writeReg _ _ _ _)

theorem writeDemodReg (page1 : Bool) (addr : Byte) (value len : Nat) :
    Ctl.Keeps P (Sys2Proof.Machine.writeDemodReg page1 addr value len) :=
  (Ctl.Keeps.require _ _).bind fun _ => h.controlWrite _ _ _

theorem readDemodReg (page1 : Bool) (addr : Byte) : Ctl.Keeps P (Sys2Proof.Machine.readDemodReg page1 addr) :=
  (h.controlRead _ _ _).result

theorem openI2c : Ctl.Keeps P Sys2Proof.Machine.openI2c := by
  refine open_only (fun s hs => ?_) ?_
  · have hw : (isRegLen Config.demodRegLen.bytes &&
        Config.widthOk (Config.namedDemodWidth true Config.regBridge) Config.demodRegLen.bytes) = true := by decide
    simp only [Sys2Proof.Machine.openI2c, Sys2Proof.Machine.writeDemodReg, Sys2Proof.Machine.controlWrite, Ctl.run_bind,
      Ctl.run_get, require_ok hw, hs, require_false]
    exact ⟨_, _, rfl⟩
  · exact (h.whileOpen.writeDemodReg _ _ _ _).bind fun _ => Ctl.Keeps.modify fun s hs => h.whileOpen.bridge s hs.2 hs

theorem closeI2c : Ctl.Keeps P Sys2Proof.Machine.closeI2c :=
  (h.writeDemodReg _ _ _ _).bind fun _ => Ctl.Keeps.modify h.noBridge

omit h in
theorem requireI2c : Ctl.Keeps P Sys2Proof.Machine.requireI2c := Ctl.Keeps.get.bind fun _ => Ctl.Keeps.require _ _

theorem i2cWrite (addr : Word16) (reg : Byte) (bytes : List Byte) :
    Ctl.Keeps P (Sys2Proof.Machine.i2cWrite addr reg bytes) := requireI2c.bind fun _ => h.controlWrite _ _ _

theorem i2cPoint (addr : Word16) (reg : Byte) (n : Nat) : Ctl.Keeps P (Sys2Proof.Machine.i2cPoint addr reg n) :=
  requireI2c.bind fun _ => (Ctl.Keeps.require _ _).bind fun _ => h.controlWrite _ _ _

theorem i2cRead (addr : Word16) (reg : Byte) (n : Nat) : Ctl.Keeps P (Sys2Proof.Machine.i2cRead addr reg n) :=
  (h.i2cPoint _ _ _).bind fun _ => h.controlRead _ _ _

/-! ## U3 -/

theorem writeMask (t : Triple) : Ctl.Keeps P (Sys2Proof.Machine.writeMask t) := by
  refine requireI2c.bind fun _ => ?_
  cases shadowIndex t.reg
  · exact Ctl.Keeps.refuse _
  · refine Ctl.Keeps.get.bind fun s => ?_
    cases s.shadow
    · exact Ctl.Keeps.refuse _
    · exact (Ctl.Keeps.modify (h.shadow _)).bind fun _ => h.i2cWrite _ _ _

theorem writeMasks : ∀ l, Ctl.Keeps P (Sys2Proof.Machine.writeMasks l)
  | [] => Ctl.Keeps.pure _
  | _ :: ts => (h.writeMask _).bind fun _ => writeMasks ts

theorem writeEach : ∀ l, Ctl.Keeps P (Sys2Proof.Machine.writeEach l)
  | [] => requireI2c
  | _ :: ts => (h.writeMask _).bind fun _ => writeEach ts

theorem writeTable (l : List Config.TableTriple) : Ctl.Keeps P (Sys2Proof.Machine.writeTable l) := h.writeEach _

theorem tunerRead (n : Nat) : Ctl.Keeps P (Sys2Proof.Machine.tunerRead n) :=
  requireI2c.bind fun _ => (Ctl.Keeps.require _ _).bind fun _ => (h.i2cRead _ _ _).result

theorem setLock (b : Bool) : Ctl.Keeps P (Sys2Proof.Machine.setLock b) := Ctl.Keeps.modify (h.lock b)

theorem getPllLock (c : Config.Params) (firstTry : Bool) : Ctl.Keeps P (Sys2Proof.Machine.getPllLock c firstTry) :=
  (h.tunerRead _).bind fun _ => Ctl.Keeps.ite (h.setLock _) (Ctl.Keeps.ite
    ((h.writeMask _).bind fun _ => (h.tunerRead _).bind fun _ => h.setLock _) (h.setLock _))

omit h in
theorem pllReference (freq : Nat) : Ctl.Keeps P (Sys2Proof.Machine.pllReference freq) :=
  requireI2c.bind fun _ => (Ctl.Keeps.require _ _).bind fun _ => Ctl.Keeps.get.bind fun _ => Ctl.Keeps.word _

omit h in
theorem pllExponent (c : Config.Params) (freq : Nat) (d : List Byte) :
    Ctl.Keeps P (Sys2Proof.Machine.pllExponent c freq d) := (Ctl.Keeps.require _ _).bind fun _ => Ctl.Keeps.pure _

theorem setDividers (c : Config.Params) (nint sdm : Int) : Ctl.Keeps P (Sys2Proof.Machine.setDividers c nint sdm) :=
  Ctl.Keeps.ite (h.setLock _) ((Ctl.Keeps.require _ _).bind fun _ => (h.writeMasks _).bind fun _ => h.getPllLock _ _)

theorem setPll (c : Config.Params) (freq : Nat) : Ctl.Keeps P (Sys2Proof.Machine.setPll c freq) :=
  (pllReference _).bind fun _ => (h.writeTable _).bind fun _ => (h.tunerRead _).bind fun _ =>
    (pllExponent _ _ _).bind fun _ => (h.writeMask _).bind fun _ => h.setDividers _ _ _

omit h in
theorem calibrationLocked : Ctl.Keeps P Sys2Proof.Machine.calibrationLocked :=
  Ctl.Keeps.get.bind fun _ => Ctl.Keeps.ite (Ctl.Keeps.pure _) (Ctl.Keeps.raise rfl)

theorem calibrateOnce (c : Config.Params) : Ctl.Keeps P (Sys2Proof.Machine.calibrateOnce c) :=
  (h.writeTable _).bind fun _ => (h.setPll _ _).bind fun _ => calibrationLocked.bind fun _ =>
    (h.writeTable _).bind fun _ => (h.writeTable _).bind fun _ => (h.tunerRead _).result

theorem filterAccepted (cap : BitVec Config.filCalWidth) : Ctl.Keeps P (Sys2Proof.Machine.filterAccepted cap) := by
  refine Ctl.Keeps.get.bind fun s => ?_
  cases s.shadow
  · exact Ctl.Keeps.refuse _
  · exact (Ctl.Keeps.modify (h.filter cap)).result

theorem acceptFilterCap (cap : BitVec Config.filCalWidth) : Ctl.Keeps P (Sys2Proof.Machine.acceptFilterCap cap) :=
  (h.filterAccepted _).bind fun _ => h.writeMask _

theorem calibrateFilter (c : Config.Params) (firstAttempt : Bool) :
    Ctl.Keeps P (Sys2Proof.Machine.calibrateFilter c firstAttempt) :=
  requireI2c.bind fun _ => (h.calibrateOnce _).bind fun _ => Ctl.Keeps.ite
    ((h.calibrateOnce _).bind fun _ => h.acceptFilterCap _) (h.acceptFilterCap _)

theorem setMux (c : Config.Params) (freq : Nat) : Ctl.Keeps P (Sys2Proof.Machine.setMux c freq) :=
  requireI2c.bind fun _ => h.writeTable _

omit h in
theorem requireReady : Ctl.Keeps P Sys2Proof.Machine.requireReady :=
  requireI2c.bind fun _ => Ctl.Keeps.get.bind fun _ => Ctl.Keeps.require _ _

theorem setFrequency (c : Config.Params) (freq : Nat) : Ctl.Keeps P (Sys2Proof.Machine.setFrequency c freq) :=
  requireReady.bind fun _ => (h.setMux _ _).bind fun _ => (h.setPll _ _).bind fun _ => Ctl.Keeps.get.result

theorem writeDefaults (c : Config.Params) : Ctl.Keeps P (Sys2Proof.Machine.writeDefaults c) :=
  requireI2c.bind fun _ => (Ctl.Keeps.modify (h.shadow _)).bind fun _ => h.i2cWrite _ _ _

theorem tunerInitialized : Ctl.Keeps P Sys2Proof.Machine.tunerInitialized := by
  refine Ctl.Keeps.getBind fun s hs => ?_
  rw [Ctl.run_bind]
  cases hx : s.shadow.isSome
  · exact trivial
  · exact h.ready s hx hs

theorem tunerInit (c : Config.Params) : Ctl.Keeps P (Sys2Proof.Machine.tunerInit c) :=
  (h.writeDefaults _).bind fun _ => (h.writeTable _).bind fun _ => (h.calibrateFilter _ _).bind fun _ =>
    (h.writeTable _).bind fun _ => h.tunerInitialized

theorem setManualGain (c : Config.Params) (dB : Rat) : Ctl.Keeps P (Sys2Proof.Machine.setManualGain c dB) :=
  h.writeTable _

theorem setAutoGain (c : Config.Params) : Ctl.Keeps P (Sys2Proof.Machine.setAutoGain c) := h.writeTable _

theorem tunerClose (c : Config.Params) : Ctl.Keeps P (Sys2Proof.Machine.tunerClose c) :=
  (h.writeTable _).bind fun _ => Ctl.Keeps.modify h.notReady

theorem closingMask (t : Config.TableTriple) : Ctl.Keeps P (Sys2Proof.Machine.closingMask t) := by
  refine Ctl.Keeps.get.bind fun s => (Ctl.Keeps.modify (h.shadow _)).bind fun _ => ?_
  unfold i2cWriteClosing controlWriteClosing
  refine h.sendWrite _ _ _ _ fun d u hu => ?_
  split
  · exact h.stored _ _ _ hu
  · exact h.forgot _ _ _ _ hu

theorem closingTable : ∀ l, Ctl.Keeps P (Sys2Proof.Machine.closingTable l)
  | [] => Ctl.Keeps.pure _
  | _ :: ts => (h.closingMask _).bind fun _ => closingTable ts

theorem tunerClosing (c : Config.Params) : Ctl.Keeps P (Sys2Proof.Machine.tunerClosing c) :=
  (h.closingTable _).bind fun _ => Ctl.Keeps.modify h.notReady

/-! ## U4, between its first transaction and its last -/

theorem initEntry (e : Config.InitEntry) : Ctl.Keeps P (Sys2Proof.Machine.initEntry e) := by
  cases e
  · exact h.writeReg _ _ _ _
  · exact h.writeDemodReg _ _ _ _

theorem initEntries : ∀ l, Ctl.Keeps P (Sys2Proof.Machine.initEntries l)
  | [] => Ctl.Keeps.pure _
  | _ :: es => (h.initEntry _).bind fun _ => initEntries es

theorem openPrelude : Ctl.Keeps P Sys2Proof.Machine.openPrelude :=
  (h.writeReg _ _ _ _).bind fun _ => (h.writeReg _ _ _ _).bind fun _ => h.claimInterface _

theorem computeXtal : Ctl.Keeps P Sys2Proof.Machine.computeXtal :=
  Ctl.Keeps.get.bind fun _ => (Ctl.Keeps.word _).bind fun _ => Ctl.Keeps.modify (h.xtal _)

omit h in
theorem checkId (bs : List Byte) : Ctl.Keeps P (Sys2Proof.Machine.checkId bs) :=
  Ctl.Keeps.ite (Ctl.Keeps.pure _) (Ctl.Keeps.raise rfl)

theorem probe : Ctl.Keeps P Sys2Proof.Machine.probe := (h.i2cRead _ _ _).bind fun _ => checkId _

theorem writeBytes1 : ∀ l, Ctl.Keeps P (Sys2Proof.Machine.writeBytes1 l)
  | [] => Ctl.Keeps.pure _
  | _ :: ws => (h.writeDemodReg _ _ _ _).bind fun _ => writeBytes1 ws

theorem writeIfOffset (c : Config.Params) : Ctl.Keeps P (Sys2Proof.Machine.writeIfOffset c) :=
  Ctl.Keeps.get.bind fun _ => (Ctl.Keeps.word _).bind fun _ => h.writeBytes1 _

theorem applyGain (c : Config.Params) : Ctl.Keeps P (Sys2Proof.Machine.applyGain c) :=
  Ctl.Keeps.get.bind fun _ => (Ctl.Keeps.word _).bind fun _ => h.writeTable _

theorem ratioWrites : ∀ l, Ctl.Keeps P (Sys2Proof.Machine.ratioWrites l)
  | [] => Ctl.Keeps.pure _
  | _ :: ws => (h.writeDemodReg _ _ _ _).bind fun _ => ratioWrites ws

omit h in
theorem rateRatio (rate : Nat) : Ctl.Keeps P (Sys2Proof.Machine.rateRatio rate) :=
  (Ctl.Keeps.require _ _).bind fun _ => (Ctl.Keeps.require _ _).bind fun _ => Ctl.Keeps.pure _

omit h in
theorem tuneLocked (hz : Nat) (ok : Bool) : Ctl.Keeps P (Sys2Proof.Machine.tuneLocked hz ok) :=
  Ctl.Keeps.ite (Ctl.Keeps.pure _) (Ctl.Keeps.raise rfl)

theorem releaseClaimed : Ctl.Keeps P Sys2Proof.Machine.releaseClaimed :=
  Ctl.Keeps.get.bind fun _ => Ctl.Keeps.ite (h.releaseInterface _) (Ctl.Keeps.pure _)

end Stable

/-! ## Tasks -/

/-- `P` survives the changes that the tasks of the sequencer make besides. -/
structure StableTasks (P : State → Prop) : Prop extends Stable P where
  goto   : ∀ k s, P s → P (s.goto k)
  closed : ∀ s, P s → P (rtlClosed s)
  device : ∀ s, P s → P (deviceClosed s)

namespace StableTasks

variable {P : State → Prop} (h : StableTasks P)

include h

theorem useStatus (c : Config.Params) (bs : List Byte) (use : StatusUse) :
    Ctl.Keeps P (Sys2Proof.Machine.useStatus c bs use) := by
  cases use with
  | probe => exact (Stable.checkId _).result
  | fineTune freq r => exact (Stable.pllExponent _ _ _).result
  | lock firstTry =>
    exact Ctl.Keeps.ite (h.setLock _).result (Ctl.Keeps.ite (Ctl.Keeps.pure _) (h.setLock _).result)
  | code firstAttempt => exact Ctl.Keeps.ite (Ctl.Keeps.pure _) (h.filterAccepted _).result

theorem closeDevice : Ctl.Keeps P Sys2Proof.Machine.closeDevice :=
  (h.issue _).bind fun _ => (Ctl.Keeps.modify h.device).bind fun _ => Ctl.Keeps.ite (Ctl.Keeps.raise rfl) (Ctl.Keeps.pure _)

/-- Every task keeps `P`. -/
theorem run (c : Config.Params) (t : Task) : Ctl.Keeps P (t.run c) := by
  cases t with
  | reg block reg value len => exact (h.writeReg _ _ _ _).result
  | demod page1 addr value len => exact (h.writeDemodReg _ _ _ _).result
  | claim => exact (h.claimInterface _).result
  | openBridge => exact h.openI2c.result
  | closeBridge => exact h.closeI2c.result
  | mask t => exact (h.writeMask _).result
  | each l =>
    cases l with
    | nil => exact Stable.requireI2c.result
    | cons t ts => exact (h.writeMask _).result
  | defaults => exact (h.writeDefaults _).result
  | point n => exact (h.i2cPoint _ _ _).result
  | fetch n use => exact (h.controlRead _ _ _).bind fun _ => h.useStatus _ _ _
  | closingMask t => exact (h.closingMask _).result
  | unready => exact (Ctl.Keeps.modify h.notReady).result
  | release => exact h.releaseClaimed.result
  | device => exact h.closeDevice.result
  | xtal => exact h.computeXtal.result
  | ifOffset => exact Ctl.Keeps.get.bind fun _ => (Ctl.Keeps.word _).result
  | init => exact Ctl.Keeps.pure _
  | ready => exact h.tunerInitialized.result
  | gain => exact Ctl.Keeps.get.bind fun _ => (Ctl.Keeps.word _).result
  | pll freq => exact (Stable.pllReference _).result
  | dividers nint sdm =>
    exact Ctl.Keeps.ite (h.setLock _).result ((Ctl.Keeps.require _ _).bind fun _ => Ctl.Keeps.pure _)
  | calibrate firstAttempt => exact Stable.requireI2c.result
  | calibrated firstAttempt => exact Stable.calibrationLocked.result
  | ratio rate =>
    exact (Stable.rateRatio _).bind fun _ => Ctl.Keeps.get.bind fun _ => (Ctl.Keeps.word _).result
  | rated actual => exact (Ctl.Keeps.modify fun s hs => h.rate _ _ (h.noBridge _ hs)).result
  | tune hz => exact (Ctl.Keeps.require _ _).bind fun _ => Ctl.Keeps.pure _
  | frequency freq => exact Stable.requireReady.result
  | settled hz => exact Ctl.Keeps.get.result
  | tuned hz locked => exact (Stable.tuneLocked _ _).result
  | mark k => exact (Ctl.Keeps.modify (h.goto k)).result
  | closed => exact (Ctl.Keeps.modify h.closed).result

end StableTasks

end Sys2Proof.Machine
end

