-- ==== Sys2Proof/Laws/Sequencer.lean ====
section
/-! SUPPORT. An operation of the host carried out one transaction at a time ends as its meaning says: a list of tasks stands
for a program of the control path (`Stands`), and running the tasks, move after move, does what the program does
(00_scope R16 (a), 10_state R24, 60_exceptions R313). -/

namespace Sys2Proof.Machine

/-! ## Moves -/

/-- What a sequence of tasks is carried out in: nothing in progress beside it, no event waiting. -/
def Quiet (s : State) : Prop :=
  s.running = none ∧ s.todo = [] ∧ s.inbox = [] ∧ s.reads = [] ∧ s.ended = false

theorem Quiet.same {s t : State} (h : Quiet s) (h1 : t.running = s.running) (h2 : t.todo = s.todo)
    (h3 : t.inbox = s.inbox) (h4 : t.reads = s.reads) (h5 : t.ended = s.ended) : Quiet t := by
  unfold Quiet
  rw [h1, h2, h3, h4, h5]
  exact h

theorem quiet_stable : StableTasks Quiet where
  issued _ _ h := h
  advanced _ h := h
  stored t b s h := h.same (deviceStore_running t b s) (deviceStore_todo t b s) (deviceStore_inbox t b s)
    (deviceStore_reads t b s) (deviceStore_ended t b s)
  forgot t b d s h := h.same (deviceForget_running t b d s) (deviceForget_todo t b d s) (deviceForget_inbox t b d s)
    (deviceForget_reads t b d s) (deviceForget_ended t b d s)
  read t s h := h.same (deviceAfterRead_running t s) (deviceAfterRead_todo t s) (deviceAfterRead_inbox t s)
    (deviceAfterRead_reads t s) (deviceAfterRead_ended t s)
  even _ _ _ h := h
  claim _ _ h := h
  release _ h := h
  bridge _ _ h := h
  noBridge _ h := h
  shadow _ _ h := h
  lock _ _ h := h
  notReady _ h := h
  ready _ _ h := h
  filter _ _ h := h
  xtal _ _ h := h
  rate _ _ h := h
  goto _ _ h := h
  closed _ h := h
  device _ h := h

theorem Quiet.bare {s : State} (h : Quiet s) (op : Instr) (t : Task) (ts : List Task) :
    (s.carry op (t :: ts)).bare = s := by
  unfold State.carry State.bare
  obtain ⟨h1, h2, -⟩ := h
  cases s
  cases h1
  cases h2
  rfl

/-- With an operation in progress and nothing else, a step is a move. -/
theorem step_move {u : State} {op : Instr} (he : u.ended = false) (hi : u.inbox = []) (hr : u.running = some op)
    (hq : u.reads = []) : step u = move Config.chip u := by
  unfold step
  rw [he, if_neg (by decide), hi]
  dsimp only
  unfold idleStep proceed
  rw [hr, hq]
  rfl

/-- What a move makes of its task's outcome. -/
def moved (op : Instr) (rest : List Task) : EStateM.Result Stop State (List Task) → Host.Outcome State Fault Refusal
  | .ok ts s' => .next (s'.carry op (ts ++ rest))
  | .error (.raised e) s' => .next (recover op e rest s')
  | .error (.refused r) _ => .refused r
  | .error (.fault f) _ => .fault f
  | .error .ended s' => .next s'

/-- One step of an operation in progress is its next task. -/
theorem step_carry {s : State} (h : Quiet s) (op : Instr) (t : Task) (rest : List Task) :
    step (s.carry op (t :: rest)) = moved op rest (t.run Config.chip s) := by
  rw [step_move (u := s.carry op (t :: rest)) h.2.2.2.2 h.2.2.1 rfl h.2.2.2.1]
  unfold move
  rw [show (s.carry op (t :: rest)).running = some op from rfl, show (s.carry op (t :: rest)).todo = t :: rest from rfl,
    h.bare op t rest]
  dsimp only
  rcases t.run Config.chip s with ⟨ts, s'⟩ | ⟨e, s'⟩
  · rfl
  · cases e <;> rfl

/-! ## Lists of tasks and the programs they stand for -/

/-- A task is no end of a step of `rtl.close`. -/
def Task.inStep : Task → Bool
  | .mark _ => false
  | _ => true

/-- What `k` steps more make of a program's outcome, with `rest` still to do. -/
def carriedOn (op : Instr) (rest : List Task) (k : Nat) : EStateM.Result Stop State Unit → Host.Outcome State Fault Refusal
  | .ok _ s' => runSteps k (s'.carry op rest)
  | .error (.raised e) s' => runSteps k (recover op e rest s')
  | .error (.refused r) _ => .refused r
  | .error (.fault f) _ => .fault f
  | .error .ended s' => runSteps k s'

/-- Carried out move after move from every state of `P`, the tasks `ts` do what the program `m` does. -/
structure Runs (P : State → Prop) (ts : List Task) (m : Ctl Unit) : Prop where
  leaves : ∀ s a s', P s → m s = .ok a s' → P s'
  runs   : ∀ (op : Instr) (s : State) (rest : List Task), P s → ∃ n, ∀ k,
    runSteps (n + k) (s.carry op (ts ++ rest)) = carriedOn op rest k (m s)

/-- The tasks `ts` stand for the program `m`, within a step of `rtl.close` or outside it. -/
structure Stands (P : State → Prop) (ts : List Task) (m : Ctl Unit) : Prop extends Runs P ts m where
  inStep : ∀ t ∈ ts, t.inStep = true

/-- What a task adds stands for what its program goes on with. -/
def Follows (P : State → Prop) (g : Ctl (List Task)) (m : Ctl Unit) : Prop :=
  ∀ s, P s → match g s with
    | .ok ts s' => ∃ m', Stands P ts m' ∧ m s = m' s'
    | .error e s' => m s = .error e s'

theorem nextMark_append {ts : List Task} (h : ∀ t ∈ ts, t.inStep = true) (rest : List Task) :
    nextMark (ts ++ rest) = nextMark rest := by
  induction ts with
  | nil => rfl
  | cons t ts ih =>
    have ht := h t List.mem_cons_self
    have hi := ih fun x hx => h x (List.mem_cons_of_mem _ hx)
    cases t
    case mark => cases ht
    all_goals exact hi

theorem recover_append {ts : List Task} (h : ∀ t ∈ ts, t.inStep = true) (op : Instr) (e : Err) (rest : List Task)
    (s : State) : recover op e (ts ++ rest) s = recover op e rest s := by
  unfold recover
  rw [nextMark_append h]

variable {P : State → Prop}

/-- One list after another runs one program after another, where the tasks that an error leaves out end no step of
`rtl.close`, or the first program raises none. -/
theorem Runs.append {ts us : List Task} {m m' : Ctl Unit} (h : Runs P ts m) (h' : Runs P us m')
    (hx : (∀ t ∈ us, t.inStep = true) ∨ ∀ s e s', P s → m s ≠ .error (.raised e) s') :
    Runs P (ts ++ us) (m >>= fun _ => m') where
  leaves s a s' hs hm := by
    rw [Ctl.run_bind] at hm
    cases hr : m s with
    | ok b u => rw [hr] at hm; exact h'.leaves u a s' (h.leaves s b u hs hr) hm
    | error e u => rw [hr] at hm; cases hm
  runs op s rest hs := by
    obtain ⟨n, hn⟩ := h.runs op s (us ++ rest) hs
    rw [Ctl.run_bind, List.append_assoc]
    cases hr : m s with
    | ok a s' =>
      rw [hr] at hn
      obtain ⟨n', hn'⟩ := h'.runs op s' rest (h.leaves s a s' hs hr)
      exact ⟨n + n', fun k => by rw [Nat.add_assoc, hn]; exact hn' k⟩
    | error e s' =>
      rw [hr] at hn
      refine ⟨n, fun k => ?_⟩
      rw [hn]
      cases e with
      | raised e =>
        rcases hx with hx | hx
        · simp only [carriedOn, recover_append hx]
        · exact absurd hr (hx s e s' hs)
      | refused r => rfl
      | fault f => rfl
      | ended => rfl

/-- A program that a run program equals. -/
theorem Runs.congr {ts : List Task} {m m' : Ctl Unit} (h : Runs P ts m) (hm : ∀ s, P s → m' s = m s) : Runs P ts m' where
  leaves s a s' hs hr := h.leaves s a s' hs (by rw [← hm s hs]; exact hr)
  runs op s rest hs := by rw [hm s hs]; exact h.runs op s rest hs

theorem Stands.nil : Stands P [] (Pure.pure ()) where
  inStep := nofun
  leaves s a s' hs hr := by cases hr; exact hs
  runs op s rest _ := ⟨0, fun k => by rw [Nat.zero_add]; rfl⟩

theorem Stands.append {ts us : List Task} {m m' : Ctl Unit} (h : Stands P ts m) (h' : Stands P us m') :
    Stands P (ts ++ us) (m >>= fun _ => m') where
  toRuns := h.toRuns.append h'.toRuns (.inl h'.inStep)
  inStep t ht := (List.mem_append.mp ht).elim (h.inStep t) (h'.inStep t)

theorem Stands.congr {ts : List Task} {m m' : Ctl Unit} (h : Stands P ts m) (hm : ∀ s, P s → m' s = m s) :
    Stands P ts m' where
  toRuns := h.toRuns.congr hm
  inStep := h.inStep

theorem Follows.pure {ts : List Task} {m : Ctl Unit} (h : Stands P ts m) : Follows P (Pure.pure ts) m :=
  fun _ _ => ⟨m, h, rfl⟩

theorem Follows.bind {α : Type} {x : Ctl α} {g : α → Ctl (List Task)} {m : α → Ctl Unit} (hx : Ctl.Keeps P x)
    (h : ∀ a, Follows P (g a) (m a)) : Follows P (x >>= g) (x >>= m) := by
  intro s hs
  have hk := hx s hs
  rw [Ctl.run_bind, Ctl.run_bind]
  revert hk
  cases x s with
  | ok a s' => exact fun hk => h a s' hk
  | error e s' => exact fun _ => rfl

theorem Follows.only (m : Ctl Unit) : Follows P (Task.only m) m := by
  intro s _
  unfold Task.only
  rw [Ctl.run_bind]
  cases hx : m s with
  | ok a s' => exact ⟨_, Stands.nil, rfl⟩
  | error e s' => rfl

theorem Follows.ite {c : Prop} [Decidable c] {g g' : Ctl (List Task)} {m m' : Ctl Unit} (h : Follows P g m)
    (h' : Follows P g' m') : Follows P (if c then g else g') (if c then m else m') := by
  split
  · exact h
  · exact h'

/-- A task stands for the program that what it adds follows. -/
theorem Stands.task (hP : ∀ s, P s → Quiet s) {t : Task} {m : Ctl Unit} (ht : t.inStep = true)
    (hg : Ctl.Keeps P (t.run Config.chip)) (hm : Ctl.Keeps P m) (h : Follows P (t.run Config.chip) m) :
    Stands P [t] m where
  inStep u hu := by rw [List.mem_singleton.mp hu]; exact ht
  leaves s a s' hs hr := by
    have hk := hm s hs
    rw [hr] at hk
    exact hk
  runs op s rest hs := by
    have h1 := h s hs
    have h2 := hg s hs
    have h3 : ∀ k, runSteps (k + 1) (s.carry op ([t] ++ rest)) = match moved op rest (t.run Config.chip s) with
        | .next u => runSteps k u
        | .fault f => .fault f
        | .refused r => .refused r := by
      intro k
      rw [← step_carry (hP s hs)]
      rfl
    revert h1 h2 h3
    cases t.run Config.chip s with
    | ok ts s' =>
      rintro ⟨m', hm', he⟩ h2 h3
      obtain ⟨n, hn⟩ := hm'.runs op s' rest h2
      refine ⟨n + 1, fun k => ?_⟩
      rw [he, ← hn, Nat.add_right_comm]
      exact h3 _
    | error e s' =>
      intro he _ h3
      refine ⟨1, fun k => ?_⟩
      rw [he, Nat.add_comm 1 k, h3]
      cases e <;> rfl

/-! ## Programs of the tuner -/

section Tuner

variable (hP : ∀ s, P s → Quiet s) (h : StableTasks P)

include hP h

theorem Stands.only {t : Task} {m : Ctl Unit} (ht : t.inStep = true) (hm : Ctl.Keeps P m)
    (hr : t.run Config.chip = Task.only m) : Stands P [t] m :=
  Stands.task hP ht (h.run _ _) hm (by rw [hr]; exact Follows.only m)

theorem stands_mask (t : Triple) : Stands P [.mask t] (writeMask t) := Stands.only hP h rfl (h.writeMask t) rfl

theorem stands_masks : ∀ l : List Triple, Stands P (l.map Task.mask) (writeMasks l)
  | [] => Stands.nil
  | t :: ts => (stands_mask hP h t).append (stands_masks ts)

theorem stands_each : ∀ l : List Triple, Stands P [.each l] (writeEach l)
  | [] => Stands.only hP h rfl Stable.requireI2c rfl
  | t :: ts => Stands.task hP rfl (h.run _ _) (h.writeEach _)
      (Follows.bind (h.writeMask t) fun _ => Follows.pure (stands_each ts))

theorem stands_table (l : List Config.TableTriple) : Stands P [Task.table l] (writeTable l) := stands_each hP h _

/-- A read of status bytes: the pointer write, the read, and what follows from the bytes. -/
theorem stands_point (n : Nat) {use : StatusUse} {f : List Byte → Ctl Unit} (hf : ∀ bs, Ctl.Keeps P (f bs))
    (hu : ∀ bs, Follows P (useStatus Config.chip bs use) (f bs)) :
    Stands P (Task.status n use) (i2cRead tunerBus Config.regStatus n >>= f) := by
  have h1 : Stands P [.point n] (i2cPoint tunerBus Config.regStatus n) := Stands.only hP h rfl (h.i2cPoint _ _ _) rfl
  have h2 : Stands P [.fetch n use] (controlRead tunerBus Config.blockI2c (BitVec.ofNat 16 n) >>= f) :=
    Stands.task hP rfl (h.run _ _) ((h.controlRead _ _ _).bind hf) (Follows.bind (h.controlRead _ _ _) hu)
  refine (h1.append h2).congr fun s _ => ?_
  rw [i2cRead, bind_assoc]

omit hP h in
theorem requireI2c_twice {α : Type} (m : Ctl α) :
    (requireI2c >>= fun _ => requireI2c >>= fun _ => m) = requireI2c >>= fun _ => m := by
  funext s
  cases hi : s.i2cOpen <;>
    simp only [requireI2c, Ctl.run_bind, Ctl.run_get, hi, require_true, require_false]

omit hP h in
/-- A read of the status bytes checks the bridge once. -/
theorem tunerRead_eq {α : Type} (f : List Byte → Ctl α) :
    (tunerRead Config.statusLen >>= f) =
      (i2cRead tunerBus Config.regStatus Config.statusLen >>= fun bs => f (bs.map bitrev8)) := by
  have hr : ∀ r : Refusal, require (isStatusLen Config.statusLen) r = (Pure.pure () : Ctl Unit) := fun _ => rfl
  unfold tunerRead i2cRead i2cPoint
  simp only [hr, pure_bind, bind_assoc, requireI2c_twice]

theorem stands_status {use : StatusUse} {f : List Byte → Ctl Unit} (hf : ∀ bs, Ctl.Keeps P (f bs))
    (hu : ∀ bs, Follows P (useStatus Config.chip bs use) (f (bs.map bitrev8))) :
    Stands P (Task.status Config.statusLen use) (tunerRead Config.statusLen >>= f) := by
  rw [tunerRead_eq]
  exact stands_point hP h _ (fun bs => hf _) hu

/-- What `r820t.get_pll_lock` does with its first reading (R183). -/
theorem stands_poll (firstTry : Bool) : Stands P (Task.status Config.statusLen (.lock firstTry)) (getPllLock Config.chip firstTry) := by
  have h0 : ∀ d : List Byte, (if lockBit d then setLock true else setLock false) = setLock (lockBit d) := by
    intro d; cases lockBit d <;> rfl
  have hk : ∀ b, Ctl.Keeps P (setLock b) := h.setLock
  have h1 : Stands P (Task.status Config.statusLen (.lock false)) (getPllLock Config.chip false) := by
    refine stands_status hP h (fun d => ?_) fun bs => ?_
    · exact Ctl.Keeps.ite (hk _) (Ctl.Keeps.ite ((h.writeMask _).bind fun _ => (h.tunerRead _).bind fun _ => hk _) (hk _))
    · exact Follows.ite (Follows.only _) (Follows.only _)
  cases firstTry with
  | false => exact h1
  | true =>
    refine stands_status hP h (fun d => ?_) fun bs => ?_
    · exact Ctl.Keeps.ite (hk _) (Ctl.Keeps.ite ((h.writeMask _).bind fun _ => (h.tunerRead _).bind fun _ => hk _) (hk _))
    · refine Follows.ite (Follows.only _) (Follows.pure ?_)
      have e : getPllLock Config.chip false = tunerRead Config.statusLen >>= fun d' => setLock (lockBit d') := by
        unfold getPllLock
        simp only [Bool.false_eq_true, if_false, h0]
      rw [← e]
      exact (stands_mask hP h (bumpTriple Config.chip)).append h1

/-- `r820t.set_pll` (R181 to R183). -/
theorem stands_pll (freq : Nat) : Stands P [.pll freq] (setPll Config.chip freq) := by
  have hd : ∀ nint sdm, Stands P [.dividers nint sdm] (setDividers Config.chip nint sdm) := fun nint sdm =>
    Stands.task hP rfl (h.run _ _) (h.setDividers _ _ _)
      (Follows.ite (Follows.only _) (Follows.bind (Ctl.Keeps.require _ _) fun _ =>
        Follows.pure ((stands_masks hP h _).append (stands_poll hP h true))))
  refine Stands.task hP rfl (h.run _ _) (h.setPll _ _) (Follows.bind (Stable.pllReference _) fun r => Follows.pure ?_)
  refine (stands_table hP h Config.chip.r820tPllPre).append (stands_status hP h (fun d => ?_) fun bs => ?_)
  · exact (Stable.pllExponent _ _ _).bind fun _ => (h.writeMask _).bind fun _ => h.setDividers _ _ _
  · exact Follows.bind (Stable.pllExponent _ _ _) fun _ => Follows.pure ((stands_mask hP h _).append (hd _ _))

/-- One run of the calibration, and what follows from its code (R178). -/
theorem stands_calibrated (firstAttempt : Bool) {f : BitVec Config.filCalWidth → Ctl Unit} (hf : ∀ cap, Ctl.Keeps P (f cap))
    (hu : ∀ cap, Follows P (codeTasks firstAttempt cap) (f cap)) :
    Stands P [.calibrate firstAttempt] (requireI2c >>= fun _ => calibrateOnce Config.chip >>= f) := by
  have h1 : Stands P [.calibrated firstAttempt] (calibrationLocked >>= fun _ => writeTable Config.chip.r820tCalStart >>= fun _ =>
      writeTable Config.chip.r820tCalStop >>= fun _ => tunerRead Config.statusLen >>= fun d => f (filterCode d)) := by
    refine Stands.task hP rfl (h.run _ _) (Stable.calibrationLocked.bind fun _ => (h.writeTable _).bind fun _ =>
      (h.writeTable _).bind fun _ => (h.tunerRead _).bind fun _ => hf _) (Follows.bind Stable.calibrationLocked fun _ =>
      Follows.pure ?_)
    exact (stands_table hP h _).append ((stands_table hP h _).append
      (stands_status hP h (fun d => hf _) fun bs => hu _))
  refine Stands.task hP rfl (h.run _ _) (Stable.requireI2c.bind fun _ => (h.calibrateOnce _).bind hf)
    (Follows.bind Stable.requireI2c fun _ => Follows.pure ?_)
  have e : calibrateOnce Config.chip >>= f = writeTable Config.chip.r820tCalPre >>= fun _ => setPll Config.chip Config.calFreq >>=
      fun _ => calibrationLocked >>= fun _ => writeTable Config.chip.r820tCalStart >>= fun _ =>
      writeTable Config.chip.r820tCalStop >>= fun _ => tunerRead Config.statusLen >>= fun d => f (filterCode d) := by
    unfold calibrateOnce
    simp only [bind_assoc, pure_bind]
  rw [e]
  exact (stands_table hP h _).append ((stands_pll hP h _).append h1)

theorem stands_accept (cap : BitVec Config.filCalWidth) : Follows P (filterAccepted cap >>= fun t => Pure.pure [Task.mask t]) (acceptFilterCap cap) :=
  Follows.bind (h.filterAccepted _) fun _ => Follows.pure (stands_mask hP h _)

omit hP h in
theorem requireI2c_writeEach (l : List Triple) : (requireI2c >>= fun _ => writeEach l) = writeEach l := by
  cases l with
  | nil =>
    funext s
    cases hi : s.i2cOpen <;> simp only [writeEach, requireI2c, Ctl.run_bind, Ctl.run_get, hi, require_true, require_false]
  | cons t ts =>
    unfold writeEach writeMask
    simp only [bind_assoc, requireI2c_twice]

/-- `r820t.calibrate_filter` (R178). -/
theorem stands_calibrate (firstAttempt : Bool) :
    Stands P [.calibrate firstAttempt] (calibrateFilter Config.chip firstAttempt) := by
  have h1 : Stands P [.calibrate false] (requireI2c >>= fun _ => calibrateOnce Config.chip >>= acceptFilterCap) := by
    refine stands_calibrated hP h false h.acceptFilterCap fun cap => ?_
    have e : codeTasks false cap = filterAccepted cap >>= fun t => Pure.pure [Task.mask t] := by
      unfold codeTasks
      exact if_neg (by simp)
    rw [e]
    exact stands_accept hP h cap
  have h2 : Stands P [.calibrate false] (calibrateOnce Config.chip >>= acceptFilterCap) := by
    refine h1.congr fun s _ => ?_
    unfold calibrateOnce writeTable
    simp only [bind_assoc]
    rw [← bind_assoc requireI2c, requireI2c_writeEach]
  refine stands_calibrated hP h firstAttempt (fun cap => Ctl.Keeps.ite ((h.calibrateOnce _).bind fun _ => h.acceptFilterCap _)
    (h.acceptFilterCap _)) fun cap => ?_
  exact Follows.ite (Follows.pure h2) (stands_accept hP h cap)

/-- `r820t.init` (R174). -/
theorem stands_init : Stands P [.init] (tunerInit Config.chip) := by
  refine Stands.task hP rfl (h.run _ _) (h.tunerInit _) (Follows.pure ?_)
  have h1 : Stands P [.defaults] (writeDefaults Config.chip) := Stands.only hP h rfl (h.writeDefaults _) rfl
  have h2 : Stands P [.ready] tunerInitialized := Stands.only hP h rfl h.tunerInitialized rfl
  exact h1.append ((stands_table hP h _).append ((stands_calibrate hP h true).append ((stands_table hP h _).append h2)))

/-! ## Programs of U4 -/

theorem stands_bytes1 : ∀ l : List (Byte × Nat), Stands P (l.map Task.byte1) (writeBytes1 l)
  | [] => Stands.nil
  | w :: ws => (Stands.only (t := Task.byte1 w) hP h rfl (h.writeDemodReg true w.1 w.2 1) rfl).append (stands_bytes1 ws)

theorem stands_entries : ∀ l : List Config.InitEntry, Stands P (l.map Task.entry) (initEntries l)
  | [] => Stands.nil
  | e :: es => by
    refine Stands.append (ts := [Task.entry e]) ?_ (stands_entries es)
    cases e
    · exact Stands.only hP h rfl (h.writeReg _ _ _ _) rfl
    · exact Stands.only hP h rfl (h.writeDemodReg _ _ _ _) rfl

theorem stands_ratio : ∀ l : List Config.DemodWrite, Stands P (l.map Task.ratioWrite) (ratioWrites l)
  | [] => Stands.nil
  | w :: ws => (Stands.only (t := Task.ratioWrite w) hP h rfl (h.writeDemodReg _ _ _ _) rfl).append (stands_ratio ws)

/-- `rtl.open` between its start and its end (R202). -/
theorem stands_open : Stands P (programOf Config.chip .rtlOpen) (openPrelude >>= fun _ =>
    initEntries Config.chip.rtlInit.entries >>= fun _ => computeXtal >>= fun _ => openI2c >>= fun _ => probe >>= fun _ =>
    writeIfOffset Config.chip >>= fun _ => tunerInit Config.chip >>= fun _ => applyGain Config.chip >>= fun _ => closeI2c) := by
  have h1 : ∀ b r v n, Stands P [.reg b r v n] (writeReg b r v n) := fun b r v n =>
    Stands.only hP h rfl (h.writeReg _ _ _ _) rfl
  have h2 : Stands P [.claim] (claimInterface Config.usbInterface) := Stands.only hP h rfl (h.claimInterface _) rfl
  have h3 : Stands P [.xtal] computeXtal := Stands.only hP h rfl h.computeXtal rfl
  have h4 : Stands P [.openBridge] openI2c := Stands.only hP h rfl h.openI2c rfl
  have h5 : Stands P (Task.status 1 .probe) probe :=
    stands_point hP h 1 (fun _ => Stable.checkId _) fun bs => Follows.only (checkId bs)
  have h6 : Stands P [.ifOffset] (writeIfOffset Config.chip) := Stands.task hP rfl (h.run _ _) (h.writeIfOffset _)
    (Follows.bind Ctl.Keeps.get fun _ => Follows.bind (Ctl.Keeps.word _) fun _ => Follows.pure (stands_bytes1 hP h _))
  have h7 : Stands P [.gain] (applyGain Config.chip) := Stands.task hP rfl (h.run _ _) (h.applyGain _)
    (Follows.bind Ctl.Keeps.get fun _ => Follows.bind (Ctl.Keeps.word _) fun _ => Follows.pure (stands_table hP h _))
  have h8 : Stands P [.closeBridge] closeI2c := Stands.only hP h rfl h.closeI2c rfl
  have hall := ((h1 Config.blockUsb Config.regSysctl Config.sysctlInit Config.sysctlLen.bytes).append
    ((h1 Config.blockUsb Config.regEpaMaxpkt Config.epaMaxpktInit Config.epaMaxpktLen.bytes).append h2)).append ((stands_entries hP h Config.chip.rtlInit.entries).append
    (h3.append (h4.append (h5.append (h6.append ((stands_init hP h).append (h7.append h8)))))))
  unfold programOf
  simp only [List.append_assoc, List.cons_append, List.nil_append] at hall ⊢
  exact hall

/-- `rtl.set_sample_rate` (R205). -/
theorem stands_rate (rate : Nat) : Stands P (programOf Config.chip (.rtlSetSampleRate rate)) (rateRatio rate >>= fun ratio =>
    (get : Ctl State) >>= fun s => word s.ppm >>= fun ppm => ratioWrites (ratioTable Config.chip ratio) >>= fun _ =>
    writeBytes1 (ppmOffsetWrites Config.chip ppm ++ demodResetWrites) >>= fun _ =>
    modify (State.setRated (actualRateOf ratio))) := by
  have hk : ∀ a, Ctl.Keeps P (modify (State.setRated a) : Ctl PUnit) := fun a =>
    Ctl.Keeps.modify fun s hs => h.rate _ _ (h.noBridge _ hs)
  refine Stands.task hP rfl (h.run _ _) ((Stable.rateRatio _).bind fun _ => Ctl.Keeps.get.bind fun _ =>
    (Ctl.Keeps.word _).bind fun _ => (h.ratioWrites _).bind fun _ => (h.writeBytes1 _).bind fun _ => hk _)
    (Follows.bind (Stable.rateRatio _) fun ratio => Follows.bind Ctl.Keeps.get fun s => Follows.bind (Ctl.Keeps.word _) fun ppm =>
      Follows.pure ?_)
  have h1 : Stands P [.rated (actualRateOf ratio)] (modify (State.setRated (actualRateOf ratio))) :=
    Stands.only hP h rfl (hk _) rfl
  rw [List.append_assoc]
  exact (stands_ratio hP h _).append ((stands_bytes1 hP h _).append h1)

/-- `rtl.set_center_frequency` (R209). -/
theorem stands_tune (hz : Nat) : Stands P (programOf Config.chip (.rtlSetCenterFrequency hz))
    (require (decide (0 < hz)) .badOperand >>= fun _ => openI2c >>= fun _ =>
    setFrequency Config.chip (hz + Config.ifFreq) >>= fun ok => closeI2c >>= fun _ => tuneLocked hz ok) := by
  have h1 : Stands P [.openBridge] openI2c := Stands.only hP h rfl h.openI2c rfl
  have h2 : Stands P [.closeBridge] closeI2c := Stands.only hP h rfl h.closeI2c rfl
  have h3 : ∀ ok, Stands P [.tuned hz ok] (tuneLocked hz ok) := fun ok => Stands.only hP h rfl (Stable.tuneLocked _ _) rfl
  have h4 : Stands P [.settled hz] ((get : Ctl State) >>= fun s => closeI2c >>= fun _ => tuneLocked hz s.hasPllLock) :=
    Stands.task hP rfl (h.run _ _) (Ctl.Keeps.get.bind fun _ => h.closeI2c.bind fun _ => Stable.tuneLocked _ _)
      (Follows.bind Ctl.Keeps.get fun s => Follows.pure (h2.append (h3 _)))
  have h5 : Stands P [.frequency (hz + Config.ifFreq)] (requireReady >>= fun _ => setMux Config.chip (hz + Config.ifFreq)
      >>= fun _ => setPll Config.chip (hz + Config.ifFreq)) := by
    refine Stands.task hP rfl (h.run _ _) (Stable.requireReady.bind fun _ => (h.setMux _ _).bind fun _ => h.setPll _ _)
      (Follows.bind Stable.requireReady fun _ => Follows.pure ?_)
    have e : setMux Config.chip (hz + Config.ifFreq) = writeTable (muxTable Config.chip (hz + Config.ifFreq)) :=
      requireI2c_writeEach _
    rw [e]
    exact (stands_table hP h _).append (stands_pll hP h _)
  refine Stands.task hP rfl (h.run _ _) ((Ctl.Keeps.require _ _).bind fun _ => h.openI2c.bind fun _ =>
    (h.setFrequency _ _).bind fun _ => h.closeI2c.bind fun _ => Stable.tuneLocked _ _)
    (Follows.bind (Ctl.Keeps.require _ _) fun _ => Follows.pure ?_)
  refine (h1.append (h5.append h4)).congr fun s _ => ?_
  unfold setFrequency
  simp only [bind_assoc, pure_bind]

/-- `rtl.reset_buffer` (R210). -/
theorem stands_reset : Stands P (programOf Config.chip .rtlResetBuffer)
    (writeReg Config.blockUsb Config.regEpaCtl Config.epaCtlReset Config.epaCtlLen.bytes >>= fun _ =>
    writeReg Config.blockUsb Config.regEpaCtl Config.epaCtlRun Config.epaCtlLen.bytes) :=
  (Stands.only (t := .reg Config.blockUsb Config.regEpaCtl Config.epaCtlReset Config.epaCtlLen.bytes) hP h rfl (h.writeReg _ _ _ _) rfl).append
    (Stands.only (t := .reg Config.blockUsb Config.regEpaCtl Config.epaCtlRun Config.epaCtlLen.bytes) hP h rfl (h.writeReg _ _ _ _) rfl)

/-- `close_device` (R146). -/
theorem stands_device : Stands P (programOf Config.chip .closeDevice) closeDevice :=
  Stands.only hP h rfl h.closeDevice rfl

end Tuner

end Sys2Proof.Machine
end

