-- ==== Sys2Proof/Laws/Issued.lean ====
section
/-! SUPPORT. An operation of the host that is in progress ends, one transaction at a time, as its meaning says: the steps of
`rtl.close`, and the theorem for every operation (00_scope R16 (a), 10_state R24, 60_exceptions R313, R317). -/

namespace Sys2Proof.Machine

/-! ## Operations of the host -/

/-- A quiet state with the sequencer at operation `q`. -/
def QuietAt (q : SeqOp) (s : State) : Prop := Quiet s ∧ s.seq.op = q

theorem advance_op (p : SeqPos) : p.advance.op = p.op := by
  unfold SeqPos.advance
  split <;> rfl

theorem goto_op (k : Nat) (p : SeqPos) : (p.goto k).op = p.op := by
  unfold SeqPos.goto
  split <;> rfl

theorem quietAt_stable (q : SeqOp) : StableTasks (QuietAt q) where
  issued t s h := ⟨quiet_stable.issued t s h.1, h.2⟩
  advanced s h := ⟨quiet_stable.advanced s h.1, (advance_op _).trans h.2⟩
  stored t b s h := ⟨quiet_stable.stored t b s h.1, by rw [deviceStore_seq]; exact h.2⟩
  forgot t b d s h := ⟨quiet_stable.forgot t b d s h.1, by rw [deviceForget_seq]; exact h.2⟩
  read t s h := ⟨quiet_stable.read t s h.1, by rw [deviceAfterRead_seq]; exact h.2⟩
  even n s hn h := ⟨quiet_stable.even n s hn h.1, h.2⟩
  claim s ho h := ⟨quiet_stable.claim s ho h.1, h.2⟩
  release s h := ⟨quiet_stable.release s h.1, h.2⟩
  bridge s ho h := ⟨quiet_stable.bridge s ho h.1, h.2⟩
  noBridge s h := ⟨quiet_stable.noBridge s h.1, h.2⟩
  shadow sh s h := ⟨quiet_stable.shadow sh s h.1, h.2⟩
  lock b s h := ⟨quiet_stable.lock b s h.1, h.2⟩
  notReady s h := ⟨quiet_stable.notReady s h.1, h.2⟩
  ready s hx h := ⟨quiet_stable.ready s hx h.1, h.2⟩
  filter cap s h := ⟨quiet_stable.filter cap s h.1, h.2⟩
  xtal f s h := ⟨quiet_stable.xtal f s h.1, h.2⟩
  rate r s h := ⟨quiet_stable.rate r s h.1, h.2⟩
  goto k s h := ⟨quiet_stable.goto k s h.1, (goto_op _ _).trans h.2⟩
  closed s h := ⟨quiet_stable.closed s h.1, h.2⟩
  device s h := ⟨quiet_stable.device s h.1, h.2⟩

/-- A step of `rtl.close` that goes on. -/
theorem attempt_leaves {next : Nat} {m : Ctl Unit} (hm : Ctl.Keeps (QuietAt .closing) m) {s s' : State} {a : Unit}
    (hs : QuietAt .closing s) (h : attempt next m s = .ok a s') : QuietAt .closing s' := by
  have hk := hm s hs
  unfold attempt at h
  revert hk h
  cases m s with
  | ok b u => intro h hk; cases h; exact ⟨hk.1, rfl⟩
  | error e u =>
    cases e with
    | raised e =>
      intro h hk
      dsimp only [closingError] at h
      split at h
      · cases h
      · rename_i hne
        cases h
        have hq : Quiet (takeError e u) := hk.1.1.same (takeError_running e u) (takeError_todo e u) (takeError_inbox e u)
          (takeError_reads e u) (by rw [hk.1.1.2.2.2.2]; exact Bool.eq_false_iff.mpr hne)
        exact ⟨hq, rfl⟩
    | refused r => intro h; cases h
    | fault f => intro h; cases h
    | ended => intro h; cases h

/-- A step of `rtl.close` raises nothing. -/
theorem attempt_never_raises (next : Nat) (m : Ctl Unit) (s : State) (e : Err) (s' : State) :
    attempt next m s ≠ .error (.raised e) s' := by
  unfold attempt closingError
  intro h
  split at h
  · cases h
  · split at h <;> cases h
  · rename_i hx _
    cases h
    exact hx e rfl

/-- A step of `rtl.close`: its tasks, and the mark at which the next one begins (R317). -/
theorem runs_attempt {ts : List Task} {m : Ctl Unit} (k : Nat) (h : Stands (QuietAt .closing) ts m)
    (hm : Ctl.Keeps (QuietAt .closing) m) : Runs (QuietAt .closing) (ts ++ [.mark k]) (attempt k m) where
  leaves s a s' hs hr := attempt_leaves hm hs hr
  runs op s rest hs := by
    obtain ⟨n, hn⟩ := h.runs op s (.mark k :: rest) hs
    have hk := hm s hs
    rw [List.append_assoc]
    unfold attempt
    revert hn hk
    cases m s with
    | ok a u =>
      intro hn hk
      refine ⟨n + 1, fun j => ?_⟩
      have h1 : step (u.carry op (.mark k :: rest)) = .next ((u.goto k).carry op rest) := step_carry hk.1 op (.mark k) rest
      have h2 : u.goto k = u.atPos { op := .closing, step := k } := by
        unfold State.goto SeqPos.goto
        rw [hk.2]
        rfl
      rw [Nat.add_assoc, Nat.add_comm 1 j, List.singleton_append, hn (j + 1)]
      show runSteps (j + 1) (u.carry op (.mark k :: rest)) = runSteps j ((u.atPos { op := .closing, step := k }).carry op rest)
      rw [← h2]
      show (match step (u.carry op (.mark k :: rest)) with
        | .next t => runSteps j t
        | .fault f => .fault f
        | .refused r => .refused r) = _
      rw [h1]
    | error e u =>
      intro hn hk
      refine ⟨n, fun j => ?_⟩
      rw [List.singleton_append, hn j]
      cases e with
      | raised e =>
        dsimp only [carriedOn, closingError]
        unfold recover
        split
        · rfl
        · dsimp only [nextMark]
          rw [show u.seq.goto k = { op := .closing, step := k } from by
            unfold SeqPos.goto
            rw [hk.1.2]
            rfl]
      | refused r => rfl
      | fault f => rfl
      | ended => rfl

/-- The power-down inside `rtl.close`. -/
theorem stands_closing {P : State → Prop} (hP : ∀ s, P s → Quiet s) (h : StableTasks P) :
    ∀ l : List Config.TableTriple, Stands P (l.map Task.closingMask) (closingTable l)
  | [] => Stands.nil
  | t :: ts => (Stands.only (t := .closingMask t) hP h rfl (h.closingMask t) rfl).append (stands_closing hP h ts)

/-- `rtl.close` (R212, R317). -/
theorem runs_close : Runs (QuietAt .closing) (programOf Config.chip .rtlClose)
    (attempt closingPowerDown openI2c >>= fun _ => attempt closingBridge (tunerClosing Config.chip) >>= fun _ =>
      attempt closingRelease closeI2c >>= fun _ => attempt closingEnd releaseClaimed >>= fun _ => modify rtlClosed) := by
  have hP : ∀ s, QuietAt .closing s → Quiet s := fun _ hs => hs.1
  have h := quietAt_stable .closing
  have never : ∀ {us : List Task} {next m}, (∀ t ∈ us, t.inStep = true) ∨
      ∀ s e s', QuietAt .closing s → attempt next m s ≠ .error (.raised e) s' :=
    .inr fun s e s' _ => attempt_never_raises _ _ s e s'
  have h1 := runs_attempt closingPowerDown (Stands.only (t := .openBridge) hP h rfl h.openI2c rfl) h.openI2c
  have h2 := runs_attempt closingBridge (m := tunerClosing Config.chip)
    ((stands_closing hP h Config.chip.r820tPowerdown.toList).append
      (Stands.only (t := .unready) hP h rfl (Ctl.Keeps.modify h.notReady) rfl)) (h.tunerClosing _)
  have h3 := runs_attempt closingRelease (Stands.only (t := .closeBridge) hP h rfl h.closeI2c rfl) h.closeI2c
  have h4 := runs_attempt closingEnd (Stands.only (t := .release) hP h rfl h.releaseClaimed rfl) h.releaseClaimed
  have h5 := (Stands.only (t := .closed) hP h rfl (Ctl.Keeps.modify h.closed) rfl).toRuns
  have hall := h1.append (h2.append (h3.append (h4.append h5 never) never) never) never
  unfold programOf
  simp only [List.append_assoc, List.cons_append, List.nil_append] at hall ⊢
  exact hall

/-- An operation whose tasks run its program ends as its meaning says. -/
theorem Runs.completes {q : SeqOp} {m : Ctl Unit} {i : Instr} (h : Runs (QuietAt q) (programOf Config.chip i) m)
    (hne : programOf Config.chip i ≠ []) {s : State} (hs : Quiet s) :
    ∃ n, runSteps n (s.started Config.chip i q) =
      runOp (seqAt q 0 >>= fun _ => m >>= fun _ => seqDone >>= fun _ => Pure.pure (resultOf i)) s := by
  have hq : QuietAt q (s.atPos { op := q, step := 0 }) := ⟨hs, rfl⟩
  obtain ⟨n, hn⟩ := h.runs i _ [] hq
  have h1 : s.started Config.chip i q = (s.atPos { op := q, step := 0 }).carry i (programOf Config.chip i ++ []) := by
    unfold State.carry
    rw [List.append_nil, if_neg (by simpa using hne)]
    rfl
  refine ⟨n, ?_⟩
  have h2 := hn 0
  rw [Nat.add_zero] at h2
  rw [h1, h2]
  unfold runOp
  rw [Ctl.run_bind, seqAt_run]
  dsimp only
  rw [Ctl.run_bind]
  cases hm : m (s.atPos { op := q, step := 0 }) with
  | ok a u =>
    have hu := (h.leaves _ a u hq hm).1
    show Host.Outcome.next (u.carry i []) = Host.Outcome.next _
    unfold State.carry
    obtain ⟨h1, h2, -⟩ := hu
    cases u
    cases h1
    cases h2
    rfl
  | error e u =>
    cases e with
    | raised e =>
      show Host.Outcome.next (recover i e [] u) = Host.Outcome.next (takeError e u)
      unfold recover
      split <;> rfl
    | refused r => rfl
    | fault f => rfl
    | ended => rfl

/-- The ratio of a rate that can be set is `resamplingRatio` (R205). -/
theorem rateRatio_bind {α : Type} (rate : Nat) (f : Nat → Ctl α) :
    rateRatio rate >>= f = rateRatio rate >>= fun _ => f (resamplingRatio rate) := by
  simp only [rateRatio, bind_assoc, pure_bind]

/-- An operation of the host that is in progress ends, move after move, as its meaning says (R16 (a), R24, R313). -/
theorem issued_completes {i : Instr} {q : SeqOp} {op : HostOp} {s : State} (hi : sequenceOf i = some q)
    (ho : hostOpOf i = some op) (ha : op.allowed s = true) (hs : Quiet s) (hr : s.seq = SeqPos.rest) :
    ∃ n, runSteps n (s.started Config.chip i q) = exec i s := by
  have run : ∀ {m : Ctl Unit} {m' : Ctl Result}, Runs (QuietAt q) (programOf Config.chip i) m →
      programOf Config.chip i ≠ [] → exec i s = runHostOp op m' s →
      m' s = (seqAt q 0 >>= fun _ => m >>= fun _ => seqDone >>= fun _ => Pure.pure (resultOf i)) s →
      ∃ n, runSteps n (s.started Config.chip i q) = exec i s := by
    intro m m' h hne he hm
    obtain ⟨n, hn⟩ := h.completes hne hs
    refine ⟨n, ?_⟩
    rw [hn, he]
    unfold runHostOp runOp
    rw [if_pos ha, hm]
  have hP : ∀ s, QuietAt q s → Quiet s := fun _ hs => hs.1
  have h := quietAt_stable q
  cases i
  all_goals cases hi
  all_goals cases ho
  case rtlOpen => exact run (stands_open hP h).toRuns nofun rfl (by
    simp only [rtlOpen, bind_assoc, resultOf])
  case rtlSetSampleRate rate => exact run (stands_rate hP h rate).toRuns nofun rfl (by
    simp only [rtlSetSampleRate, bind_assoc, pure_bind, resultOf]
    rw [rateRatio_bind, rateRatio_bind (f := fun ratio => (get : Ctl State) >>= fun s => word s.ppm >>= fun ppm =>
      ratioWrites (ratioTable Config.chip ratio) >>= fun _ =>
      writeBytes1 (ppmOffsetWrites Config.chip ppm ++ demodResetWrites) >>= fun _ =>
      modify (State.setRated (actualRateOf ratio)) >>= fun _ => seqDone >>= fun _ =>
      Pure.pure (Result.uint (actualRateOf (resamplingRatio rate))))])
  case rtlSetCenterFrequency hz => exact run (stands_tune hP h hz).toRuns nofun rfl (by
    simp only [rtlSetCenterFrequency, bind_assoc, resultOf])
  case rtlResetBuffer => exact run (stands_reset hP h).toRuns nofun rfl (by
    simp only [rtlResetBuffer, bind_assoc, resultOf])
  case rtlClose => exact run runs_close nofun rfl (by
    simp only [rtlClose, rtlCloseSteps, bind_assoc, resultOf])
  case closeDevice => exact run (stands_device hP h).toRuns nofun rfl (by
    have e : s.atPos { op := .idle, step := 0 } = s := by
      unfold State.atPos
      cases s
      cases hr
      rfl
    rw [Ctl.run_bind_ok (seqAt_run _ _ _), e]
    rfl)

end Sys2Proof.Machine
end

