-- ==== Sys2Proof/Laws/Kept.lean ====
section
/-! SUPPORT. What every operation of the control path keeps: a property that survives the elementary changes survives the
operations of U1 to U3 and the transfers of the test bench, the operations of the host, and every move of the sequencer
(10_state R24, 60_exceptions R310). -/

namespace Sys2Proof.Machine

/-- `P` survives what completing, taking an error and completing a read in flight change. -/
structure Settles (P : State → Prop) : Prop where
  result : ∀ r s, P s → P (complete r s)
  taken  : ∀ e s, e.kind.setsFault = true → P s → P (takeError e s)
  oldest : ∀ r rest s, s.reads = r :: rest → P s → P (completeRead r rest s)

namespace Settles

variable {P : State → Prop} (w : Settles P)

include w

theorem run {m : Ctl Result} (hm : Ctl.Keeps P m) {s t : State} (hs : P s) (ht : runOp m s = .next t) : P t :=
  runOp_keeps hm w.result (fun e s h he => w.taken e s he h) hs ht

theorem runUnit {m : Ctl Unit} (hm : Ctl.Keeps P m) {s t : State} (hs : P s)
    (ht : runOp (m >>= fun _ => Pure.pure Result.nothing) s = .next t) : P t := w.run hm.result hs ht

theorem drained {s : State} (hs : P s) : P (Sys2Proof.Machine.drained s) := by
  have all : ∀ (l : List ReadInFlight) (u : State), u.reads = l → P u → P (completeAll l u) := by
    intro l
    induction l with
    | nil => exact fun _ _ h => h
    | cons r rest ih =>
      intro u hu h
      have hr := w.oldest r rest u hu h
      unfold completeAll
      split
      · exact hr
      · exact ih _ (completeRead_reads r rest u) hr
  exact all _ _ rfl hs

/-- A `bulk_read` behind the reads in flight. -/
theorem bulk (h : Stable P) {n : Nat} {s t : State} (hs : P s) (ht : bulkBehind n s = .next t) : P t := by
  unfold bulkBehind at ht
  split at ht
  · cases ht
    exact w.drained hs
  · exact w.run (h.bulkRead n).result (w.drained hs) ht

end Settles

/-- What survives the elementary changes survives the operations of U1 to U3 and the transfers of the test bench. -/
theorem Stable.exec {P : State → Prop} (h : Stable P) (w : Settles P) {i : Instr} {s t : State}
    (hi : isDataPath i = false) (ho : hostOpOf i = none) (hs : P s) (ht : exec i s = .next t) : P t := by
  have page : ∀ p a, Ctl.Keeps P (demodPage p a) := by
    intro p a
    unfold demodPage
    split
    · exact Ctl.Keeps.pure _
    · exact Ctl.Keeps.refuse _
  cases i
  case controlRead => exact w.run (h.controlRead _ _ _).result hs ht
  case controlWrite => exact w.runUnit (h.controlWrite _ _ _) hs ht
  case bulkRead => exact w.bulk h hs ht
  case claimInterface => exact w.runUnit (h.claimInterface _) hs ht
  case releaseInterface => exact w.runUnit (h.releaseInterface _) hs ht
  case writeReg => exact w.runUnit (h.writeReg _ _ _ _) hs ht
  case readReg => exact w.run (h.readReg _ _ _).result hs ht
  case writeRegMask => exact w.runUnit (h.writeRegMask _ _ _ _) hs ht
  case writeDemodReg => exact w.run ((page _ _).bind fun _ => (h.writeDemodReg _ _ _ _).result) hs ht
  case readDemodReg => exact w.run ((page _ _).bind fun _ => (h.readDemodReg _ _).result) hs ht
  case openI2c => exact w.runUnit h.openI2c hs ht
  case closeI2c => exact w.runUnit h.closeI2c hs ht
  case i2cWriteReg => exact w.runUnit (h.i2cWrite _ _ _) hs ht
  case i2cReadReg => exact w.run (h.i2cRead _ _ _).result hs ht
  case i2cWriteBuf => exact w.run ((Ctl.Keeps.require _ _).bind fun _ => (h.i2cWrite _ _ _).result) hs ht
  case i2cReadBuf => exact w.run (h.i2cRead _ _ _).result hs ht
  case r820tWriteMask => exact w.runUnit (h.writeMask _) hs ht
  case r820tRead => exact w.run (h.tunerRead _).result hs ht
  case r820tWriteEach => exact w.runUnit (h.writeEach _) hs ht
  case r820tInit => exact w.runUnit (h.tunerInit _) hs ht
  case r820tCalibrateFilter => exact w.runUnit (h.calibrateFilter _ _) hs ht
  case r820tSetMux => exact w.runUnit (h.setMux _ _) hs ht
  case r820tSetFrequency => exact w.run (h.setFrequency _ _).result hs ht
  case r820tSetPll => exact w.runUnit (h.setPll _ _) hs ht
  case r820tGetPllLock => exact w.runUnit (h.getPllLock _ _) hs ht
  case r820tSetManualGain => exact w.runUnit (h.setManualGain _ _) hs ht
  case r820tSetAutoGain => exact w.runUnit (h.setAutoGain _) hs ht
  case r820tClose => exact w.runUnit (h.tunerClose _) hs ht
  case setupControlRead => exact w.run (h.controlRead _ _ _).result hs ht
  case setupRegRead => exact w.run (h.controlRead _ _ _).result hs ht
  case setupDemodRead => exact w.run (h.controlRead _ _ _).result hs ht
  case setupI2cRead => exact w.run (h.controlRead _ _ _).result hs ht
  case bulkIn => exact w.bulk h hs ht
  all_goals first
    | exact w.runUnit (h.controlWrite _ _ _) hs ht
    | (cases hi; done)
    | (cases ho; done)

/-- `P` survives besides what the operations of the host change. -/
structure StableHost (P : State → Prop) : Prop extends StableTasks P, Settles P where
  at'     : ∀ p s, P s → P (s.atPos p)
  invalid : ∀ op s, P s → P (takeError (invalidState op) s)
  issue   : ∀ n s, 0 < n → HostOp.rtlReadSamples.allowed s = true → P s → P (readIssued n s)

namespace StableHost

variable {P : State → Prop} (h : StableHost P)

include h

theorem host {op : HostOp} {m : Ctl Result} (hm : Ctl.Keeps P m) {s t : State} (hs : P s)
    (ht : runHostOp op m s = .next t) : P t := by
  unfold runHostOp at ht
  split at ht
  · exact h.toSettles.run hm hs ht
  · cases ht
    exact h.invalid _ _ hs

theorem seqAt (op : SeqOp) (k : Nat) : Ctl.Keeps P (Sys2Proof.Machine.seqAt op k) := Ctl.Keeps.modify (h.at' _)

theorem seqDone : Ctl.Keeps P Sys2Proof.Machine.seqDone := Ctl.Keeps.modify (h.at' _)

theorem attempt (k : Nat) {m : Ctl Unit} (hm : Ctl.Keeps P m) : Ctl.Keeps P (Sys2Proof.Machine.attempt k m) := by
  intro s hs
  have hk := hm s hs
  unfold Sys2Proof.Machine.attempt
  revert hk
  cases m s with
  | ok a u => exact h.at' _ _
  | error e u =>
    cases e with
    | raised e =>
      rintro ⟨hu, he⟩
      have ht := h.taken e u he hu
      dsimp only [closingError]
      cases hx : (takeError e u).ended with
      | true => exact ⟨ht, hx⟩
      | false => exact h.at' _ _ ht
    | ended => exact id
    | refused r => exact id
    | fault f => exact id

/-- Every operation of the host keeps `P`; `rtl.new` from the closed state has to be looked at. -/
theorem exec {i : Instr} {op : HostOp} {s t : State} (hi : isDataPath i = false) (ho : hostOpOf i = some op)
    (hn : ∀ handle ppm gain, i = .rtlNew handle ppm gain → s.opened = false → P s → P (rtlConstructed handle ppm gain s))
    (hs : P s) (ht : Sys2Proof.Machine.exec i s = .next t) : P t := by
  have k := h.toStable
  have word : ∀ {α : Type} (o : Option α), Ctl.Keeps P (Sys2Proof.Machine.word o) := Ctl.Keeps.word
  cases i
  case rtlNew handle ppm gain =>
    change runHostOp .rtlNew _ s = _ at ht
    unfold runHostOp at ht
    split at ht
    · rename_i ha
      cases ht
      exact h.result _ _ (hn _ _ _ rfl (by simpa [HostOp.allowed] using ha) hs)
    · cases ht
      exact h.invalid _ _ hs
  case rtlOpen =>
    exact h.host (((h.seqAt _ _).bind fun _ => k.openPrelude.bind fun _ => (k.initEntries _).bind fun _ =>
      k.computeXtal.bind fun _ => k.openI2c.bind fun _ => k.probe.bind fun _ => (k.writeIfOffset _).bind fun _ =>
      (k.tunerInit _).bind fun _ => (k.applyGain _).bind fun _ => k.closeI2c.bind fun _ => h.seqDone).result) hs ht
  case rtlSetSampleRate rate =>
    exact h.host (((h.seqAt _ _).bind fun _ => (Stable.rateRatio _).bind fun _ => Ctl.Keeps.get.bind fun _ =>
      (word _).bind fun _ => (k.ratioWrites _).bind fun _ => (k.writeBytes1 _).bind fun _ =>
      (Ctl.Keeps.modify fun s hs => k.rate _ _ (k.noBridge _ hs)).bind fun _ => h.seqDone.result).result) hs ht
  case rtlSetCenterFrequency hz =>
    exact h.host (((h.seqAt _ _).bind fun _ => (Ctl.Keeps.require _ _).bind fun _ => k.openI2c.bind fun _ =>
      (k.setFrequency _ _).bind fun _ => k.closeI2c.bind fun _ => (Stable.tuneLocked _ _).bind fun _ => h.seqDone).result) hs ht
  case rtlResetBuffer =>
    exact h.host (((h.seqAt _ _).bind fun _ => (k.writeReg _ _ _ _).bind fun _ => (k.writeReg _ _ _ _).bind fun _ =>
      h.seqDone).result) hs ht
  case rtlReadSamples n =>
    change execRtlReadSamples n s = _ at ht
    unfold execRtlReadSamples at ht
    split at ht
    · rename_i ha
      split at ht
      · cases ht
      · cases ht
        exact h.issue _ _ (Nat.pos_of_ne_zero (by assumption)) ha hs
    · cases ht
      exact h.invalid _ _ hs
  case rtlClose =>
    exact h.host ((((h.seqAt _ _).bind fun _ => (h.attempt _ k.openI2c).bind fun _ =>
      (h.attempt _ (k.tunerClosing _)).bind fun _ => (h.attempt _ k.closeI2c).bind fun _ =>
      h.attempt _ k.releaseClaimed).bind fun _ => (Ctl.Keeps.modify h.closed).bind fun _ => h.seqDone).result) hs ht
  case closeDevice => exact h.host (h.toStableTasks.closeDevice.bind fun _ => h.seqDone.result) hs ht
  all_goals first
    | (cases hi; done)
    | (cases ho; done)

/-- Every operation of the control path keeps `P`; `rtl.new` from the closed state has to be looked at. -/
theorem control {i : Instr} {s t : State} (hi : isDataPath i = false)
    (hn : ∀ handle ppm gain, i = .rtlNew handle ppm gain → s.opened = false → P s → P (rtlConstructed handle ppm gain s))
    (hs : P s) (ht : Sys2Proof.Machine.exec i s = .next t) : P t := by
  cases ho : hostOpOf i with
  | none => exact h.toStable.exec h.toSettles hi ho hs ht
  | some op => exact h.exec hi ho hn hs ht

end StableHost

/-- `P` survives elementary changes while the host program has not ended. -/
theorem StableTasks.notEnded {P : State → Prop} (h : StableTasks P) : StableTasks fun s => P s ∧ s.ended = false where
  issued t s hs := ⟨h.issued t s hs.1, hs.2⟩
  advanced s hs := ⟨h.advanced s hs.1, hs.2⟩
  stored t b s hs := ⟨h.stored t b s hs.1, by rw [deviceStore_ended]; exact hs.2⟩
  forgot t b d s hs := ⟨h.forgot t b d s hs.1, by rw [deviceForget_ended]; exact hs.2⟩
  read t s hs := ⟨h.read t s hs.1, by rw [deviceAfterRead_ended]; exact hs.2⟩
  even n s hn hs := ⟨h.even n s hn hs.1, hs.2⟩
  claim s ho hs := ⟨h.claim s ho hs.1, hs.2⟩
  release s hs := ⟨h.release s hs.1, hs.2⟩
  bridge s ho hs := ⟨h.bridge s ho hs.1, hs.2⟩
  noBridge s hs := ⟨h.noBridge s hs.1, hs.2⟩
  shadow sh s hs := ⟨h.shadow sh s hs.1, hs.2⟩
  lock b s hs := ⟨h.lock b s hs.1, hs.2⟩
  notReady s hs := ⟨h.notReady s hs.1, hs.2⟩
  ready s hx hs := ⟨h.ready s hx hs.1, hs.2⟩
  filter cap s hs := ⟨h.filter cap s hs.1, hs.2⟩
  xtal f s hs := ⟨h.xtal f s hs.1, hs.2⟩
  rate r s hs := ⟨h.rate r s hs.1, hs.2⟩
  goto k s hs := ⟨h.goto k s hs.1, hs.2⟩
  closed s hs := ⟨h.closed s hs.1, hs.2⟩
  device s hs := ⟨h.device s hs.1, hs.2⟩

/-- What one move can do: with nothing in progress, nothing; else its task leaves a state that keeps `P`, in which the
operation goes on, or in which the task's error is taken. -/
theorem move_cases {P : State → Prop} (h : StableTasks P) {s t : State} (hs : P s.bare) (he : s.ended = false)
    (ht : move Config.chip s = .next t) :
    (t = s ∧ (s.running = none ∨ s.todo = [])) ∨ ∃ op x rest, s.running = some op ∧ s.todo = x :: rest ∧
      ((∃ ts u, t = u.carry op (ts ++ rest) ∧ P u) ∨
        ∃ e u, t = recover op e rest u ∧ e.kind.setsFault = true ∧ P u) := by
  unfold move at ht
  split at ht
  · rename_i op x rest hr hx
    refine .inr ⟨op, x, rest, hr, hx, ?_⟩
    have hk := h.notEnded.run Config.chip x s.bare ⟨hs, he⟩
    revert hk ht
    cases x.run Config.chip s.bare with
    | ok ts u => intro ht hk; cases ht; exact .inl ⟨ts, u, rfl, hk.1⟩
    | error e u =>
      cases e with
      | raised e => intro ht hk; cases ht; exact .inr ⟨e, u, rfl, hk.2, hk.1.1⟩
      | ended => exact fun _ hk => absurd (hk.1.2.symm.trans hk.2) nofun
      | refused r => intro ht; cases ht
      | fault f => intro ht; cases ht
  · rename_i hn
    cases ht
    refine .inl ⟨rfl, ?_⟩
    cases hr : s.running with
    | none => exact .inl rfl
    | some op =>
      cases hx : s.todo with
      | nil => exact .inr rfl
      | cons x rest => exact absurd hx (hn op x rest hr)

end Sys2Proof.Machine
end

