-- ==== Sys2Proof/Laws/PerInstr.lean ====
section
/-! SUPPORT. One lemma for each operation: its encoding begins with the byte the opcode table fixes for it (spec
30_encoding R100, R104, R118, R120). -/

namespace Sys2Proof.Laws

open Sys2Proof.Machine

/-- The first byte of each operation's row: the operation number (R120), the message tag (R118), the direction byte of a
setup packet (R100), the endpoint of a bulk transfer (R104). -/
def OpByte.table : Instr → Byte
  | .controlRead .. => 0x00
  | .controlWrite .. => 0x01
  | .bulkRead .. => 0x02
  | .claimInterface .. => 0x03
  | .releaseInterface .. => 0x04
  | .closeDevice => 0x05
  | .writeReg .. => 0x10
  | .readReg .. => 0x11
  | .writeRegMask .. => 0x12
  | .writeDemodReg .. => 0x13
  | .readDemodReg .. => 0x14
  | .openI2c => 0x15
  | .closeI2c => 0x16
  | .i2cWriteReg .. => 0x17
  | .i2cReadReg .. => 0x18
  | .i2cWriteBuf .. => 0x19
  | .i2cReadBuf .. => 0x1A
  | .r820tWriteMask .. => 0x20
  | .r820tRead .. => 0x21
  | .r820tWriteEach .. => 0x22
  | .r820tInit => 0x23
  | .r820tCalibrateFilter .. => 0x24
  | .r820tSetMux .. => 0x25
  | .r820tSetFrequency .. => 0x26
  | .r820tSetPll .. => 0x27
  | .r820tGetPllLock .. => 0x28
  | .r820tSetManualGain .. => 0x29
  | .r820tSetAutoGain => 0x2A
  | .r820tClose => 0x2B
  | .rtlNew .. => 0x30
  | .rtlOpen => 0x31
  | .rtlSetSampleRate .. => 0x32
  | .rtlSetCenterFrequency .. => 0x33
  | .rtlResetBuffer => 0x34
  | .rtlReadSamples .. => 0x35
  | .rtlClose => 0x36
  | .getLowpassFirCoeffs .. => 0x40
  | .firNew .. => 0x41
  | .firLoad .. => 0x42
  | .firGet .. => 0x43
  | .dsNew .. => 0x50
  | .dsDownsample .. => 0x51
  | .iqdsNew .. => 0x52
  | .iqdsDownsample .. => 0x53
  | .fmNew .. => 0x60
  | .fmDemodulate .. => 0x61
  | .amNew .. => 0x62
  | .amDemodulate .. => 0x63
  | .avgNew .. => 0x70
  | .avgAdd .. => 0x71
  | .stNew .. => 0x73
  | .stSeparate .. => 0x74
  | .deNew .. => 0x75
  | .deRun .. => 0x76
  | .iqConvert .. => 0x80
  | .setMode .. => 0x81
  | .process .. => 0x82
  | .msgProcess .. => 0x00
  | .msgSetMode .. => 0x01
  | .setupControlRead .. => 0xC0
  | .setupControlWrite .. => 0x40
  | .setupRegRead .. => 0xC0
  | .setupRegWrite .. => 0x40
  | .setupDemodRead .. => 0xC0
  | .setupDemodWrite .. => 0x40
  | .setupI2cRead .. => 0xC0
  | .setupI2cWrite .. => 0x40
  | .setupSysctlWrite .. => 0x40
  | .setupEpaMaxpktWrite .. => 0x40
  | .setupEpaCtlWrite .. => 0x40
  | .setupDemodCtlWrite .. => 0x40
  | .setupDemodCtl1Write .. => 0x40
  | .setupI2cBridgeWrite .. => 0x40
  | .setupIfMultHiWrite .. => 0x40
  | .setupIfMultMidWrite .. => 0x40
  | .setupIfMultLoWrite .. => 0x40
  | .setupPpmOffHiWrite .. => 0x40
  | .setupPpmOffLoWrite .. => 0x40
  | .bulkIn .. => 0x01

/-- The encoding of `i` begins with the byte of its row. -/
def OpByte.Statement (i : Instr) : Prop := (encode i).head? = some (OpByte.table i)

theorem putSetupRead_head (value index length : Word16) : (putSetupRead value index length).head? = some 0xC0 := by
  rw [putSetupRead, setupRead, setupPacket_bytes]
  rfl

theorem putSetupWrite_head (value index : Word16) (bytes : List Byte) :
    (putSetupWrite value index bytes).head? = some 0x40 := by
  rw [putSetupWrite, setupWrite, setupPacket_bytes]
  rfl

theorem OpByte.controlRead (value index length : Word16) : OpByte.Statement (.controlRead value index length) := rfl
theorem OpByte.controlWrite (value index : Word16) (bytes : List Byte) :
    OpByte.Statement (.controlWrite value index bytes) := rfl
theorem OpByte.bulkRead (length : Nat) : OpByte.Statement (.bulkRead length) := rfl
theorem OpByte.claimInterface (iface : Byte) : OpByte.Statement (.claimInterface iface) := rfl
theorem OpByte.releaseInterface (iface : Byte) : OpByte.Statement (.releaseInterface iface) := rfl
theorem OpByte.closeDevice : OpByte.Statement .closeDevice := rfl
theorem OpByte.writeReg (block reg : Word16) (value len : Nat) :
    OpByte.Statement (.writeReg block reg value len) := rfl
theorem OpByte.readReg (block reg : Word16) (len : Nat) : OpByte.Statement (.readReg block reg len) := rfl
theorem OpByte.writeRegMask (block reg : Word16) (value mask : Byte) :
    OpByte.Statement (.writeRegMask block reg value mask) := rfl
theorem OpByte.writeDemodReg (page addr : Byte) (value len : Nat) :
    OpByte.Statement (.writeDemodReg page addr value len) := rfl
theorem OpByte.readDemodReg (page addr : Byte) : OpByte.Statement (.readDemodReg page addr) := rfl
theorem OpByte.openI2c : OpByte.Statement .openI2c := rfl
theorem OpByte.closeI2c : OpByte.Statement .closeI2c := rfl
theorem OpByte.i2cWriteReg (addr : Word16) (reg value : Byte) : OpByte.Statement (.i2cWriteReg addr reg value) := rfl
theorem OpByte.i2cReadReg (addr : Word16) (reg : Byte) : OpByte.Statement (.i2cReadReg addr reg) := rfl
theorem OpByte.i2cWriteBuf (addr : Word16) (reg : Byte) (bytes : List Byte) :
    OpByte.Statement (.i2cWriteBuf addr reg bytes) := rfl
theorem OpByte.i2cReadBuf (addr : Word16) (reg : Byte) (n : Nat) : OpByte.Statement (.i2cReadBuf addr reg n) := rfl
theorem OpByte.r820tWriteMask (reg value mask : Byte) : OpByte.Statement (.r820tWriteMask reg value mask) := rfl
theorem OpByte.r820tRead (n : Nat) : OpByte.Statement (.r820tRead n) := rfl
theorem OpByte.r820tWriteEach (list : List Triple) : OpByte.Statement (.r820tWriteEach list) := rfl
theorem OpByte.r820tInit : OpByte.Statement .r820tInit := rfl
theorem OpByte.r820tCalibrateFilter (firstAttempt : Bool) :
    OpByte.Statement (.r820tCalibrateFilter firstAttempt) := rfl
theorem OpByte.r820tSetMux (freq : Nat) : OpByte.Statement (.r820tSetMux freq) := rfl
theorem OpByte.r820tSetFrequency (freq : Nat) : OpByte.Statement (.r820tSetFrequency freq) := rfl
theorem OpByte.r820tSetPll (freq : Nat) : OpByte.Statement (.r820tSetPll freq) := rfl
theorem OpByte.r820tGetPllLock (firstTry : Bool) : OpByte.Statement (.r820tGetPllLock firstTry) := rfl
theorem OpByte.r820tSetManualGain (dB : Rat) : OpByte.Statement (.r820tSetManualGain dB) := rfl
theorem OpByte.r820tSetAutoGain : OpByte.Statement .r820tSetAutoGain := rfl
theorem OpByte.r820tClose : OpByte.Statement .r820tClose := rfl
theorem OpByte.rtlNew (handle : Nat) (ppm : Int) (gain : Gain) : OpByte.Statement (.rtlNew handle ppm gain) := rfl
theorem OpByte.rtlOpen : OpByte.Statement .rtlOpen := rfl
theorem OpByte.rtlSetSampleRate (rate : Nat) : OpByte.Statement (.rtlSetSampleRate rate) := rfl
theorem OpByte.rtlSetCenterFrequency (hz : Nat) : OpByte.Statement (.rtlSetCenterFrequency hz) := rfl
theorem OpByte.rtlResetBuffer : OpByte.Statement .rtlResetBuffer := rfl
theorem OpByte.rtlReadSamples (n : Nat) : OpByte.Statement (.rtlReadSamples n) := rfl
theorem OpByte.rtlClose : OpByte.Statement .rtlClose := rfl
theorem OpByte.getLowpassFirCoeffs (rate f : Rat) (n : Nat) : OpByte.Statement (.getLowpassFirCoeffs rate f n) := rfl
theorem OpByte.firNew (coefs : List Rat) (step : Nat) : OpByte.Statement (.firNew coefs step) := rfl
theorem OpByte.firLoad (fir : Nat) (samples : List Rat) : OpByte.Statement (.firLoad fir samples) := rfl
theorem OpByte.firGet (fir : Nat) (i : Int) : OpByte.Statement (.firGet fir i) := rfl
theorem OpByte.dsNew (inRate outRate : Rat) (coefs : List Rat) : OpByte.Statement (.dsNew inRate outRate coefs) := rfl
theorem OpByte.dsDownsample (ds : Nat) (samples : List Rat) (rate : Rat) :
    OpByte.Statement (.dsDownsample ds samples rate) := rfl
theorem OpByte.iqdsNew (inRate outRate : Rat) (coefs : List Rat) :
    OpByte.Statement (.iqdsNew inRate outRate coefs) := rfl
theorem OpByte.iqdsDownsample (iqds : Nat) (iq : List (Rat × Rat)) (rate : Rat) :
    OpByte.Statement (.iqdsDownsample iqds iq rate) := rfl
theorem OpByte.fmNew (inRate outRate maxF filterFreq : Rat) (kernelLen : Nat) :
    OpByte.Statement (.fmNew inRate outRate maxF filterFreq kernelLen) := rfl
theorem OpByte.fmDemodulate (fm : Nat) (iq : List (Rat × Rat)) (rate : Rat) :
    OpByte.Statement (.fmDemodulate fm iq rate) := rfl
theorem OpByte.amNew (inRate outRate filterFreq : Rat) (kernelLen : Nat) :
    OpByte.Statement (.amNew inRate outRate filterFreq kernelLen) := rfl
theorem OpByte.amDemodulate (am : Nat) (iq : List (Rat × Rat)) (rate : Rat) :
    OpByte.Statement (.amDemodulate am iq rate) := rfl
theorem OpByte.avgNew (w : Rat) (withVariance : Bool) : OpByte.Statement (.avgNew w withVariance) := rfl
theorem OpByte.avgAdd (avg : Nat) (x : Rat) : OpByte.Statement (.avgAdd avg x) := rfl
theorem OpByte.stNew (sampleRate pilotFreq : Rat) : OpByte.Statement (.stNew sampleRate pilotFreq) := rfl
theorem OpByte.stSeparate (st : Nat) (samples : List Rat) : OpByte.Statement (.stSeparate st samples) := rfl
theorem OpByte.deNew (rate tau : Rat) : OpByte.Statement (.deNew rate tau) := rfl
theorem OpByte.deRun (de : Nat) (samples : List Rat) (rate : Rat) : OpByte.Statement (.deRun de samples rate) := rfl
theorem OpByte.iqConvert (bytes : List Byte) : OpByte.Statement (.iqConvert bytes) := rfl
theorem OpByte.setMode (mode : Mode) : OpByte.Statement (.setMode mode) := rfl
theorem OpByte.process (bytes : List Byte) (inStereo : Bool) (freqOffset : Rat) (echo : List Byte) :
    OpByte.Statement (.process bytes inStereo freqOffset echo) := rfl
theorem OpByte.msgProcess (bytes : List Byte) (inStereo : Bool) (freqOffset : Rat) (echo : List Byte) :
    OpByte.Statement (.msgProcess bytes inStereo freqOffset echo) := rfl
theorem OpByte.msgSetMode (mode : Mode) : OpByte.Statement (.msgSetMode mode) := rfl
theorem OpByte.setupControlRead (value index length : Word16) :
    OpByte.Statement (.setupControlRead value index length) := putSetupRead_head _ _ _
theorem OpByte.setupControlWrite (value index : Word16) (bytes : List Byte) :
    OpByte.Statement (.setupControlWrite value index bytes) := putSetupWrite_head _ _ _
theorem OpByte.setupRegRead (block reg : Word16) (length : Word16) :
    OpByte.Statement (.setupRegRead block reg length) := putSetupRead_head _ _ _
theorem OpByte.setupRegWrite (block reg : Word16) (bytes : List Byte) :
    OpByte.Statement (.setupRegWrite block reg bytes) := putSetupWrite_head _ _ _
theorem OpByte.setupDemodRead (page1 : Bool) (addr : Byte) (length : Word16) :
    OpByte.Statement (.setupDemodRead page1 addr length) := putSetupRead_head _ _ _
theorem OpByte.setupDemodWrite (page1 : Bool) (addr : Byte) (bytes : List Byte) :
    OpByte.Statement (.setupDemodWrite page1 addr bytes) := putSetupWrite_head _ _ _
theorem OpByte.setupI2cRead (length : Word16) : OpByte.Statement (.setupI2cRead length) := putSetupRead_head _ _ _
theorem OpByte.setupI2cWrite (reg : Byte) (bytes : List Byte) :
    OpByte.Statement (.setupI2cWrite reg bytes) := putSetupWrite_head _ _ _
theorem OpByte.setupSysctlWrite (data : Byte) : OpByte.Statement (.setupSysctlWrite data) := putSetupWrite_head _ _ _
theorem OpByte.setupEpaMaxpktWrite (data0 data1 : Byte) :
    OpByte.Statement (.setupEpaMaxpktWrite data0 data1) := putSetupWrite_head _ _ _
theorem OpByte.setupEpaCtlWrite (data0 data1 : Byte) :
    OpByte.Statement (.setupEpaCtlWrite data0 data1) := putSetupWrite_head _ _ _
theorem OpByte.setupDemodCtlWrite (data : Byte) :
    OpByte.Statement (.setupDemodCtlWrite data) := putSetupWrite_head _ _ _
theorem OpByte.setupDemodCtl1Write (data : Byte) :
    OpByte.Statement (.setupDemodCtl1Write data) := putSetupWrite_head _ _ _
theorem OpByte.setupI2cBridgeWrite (data : Byte) :
    OpByte.Statement (.setupI2cBridgeWrite data) := putSetupWrite_head _ _ _
theorem OpByte.setupIfMultHiWrite (data : Byte) :
    OpByte.Statement (.setupIfMultHiWrite data) := putSetupWrite_head _ _ _
theorem OpByte.setupIfMultMidWrite (data : Byte) :
    OpByte.Statement (.setupIfMultMidWrite data) := putSetupWrite_head _ _ _
theorem OpByte.setupIfMultLoWrite (data : Byte) :
    OpByte.Statement (.setupIfMultLoWrite data) := putSetupWrite_head _ _ _
theorem OpByte.setupPpmOffHiWrite (data : Byte) :
    OpByte.Statement (.setupPpmOffHiWrite data) := putSetupWrite_head _ _ _
theorem OpByte.setupPpmOffLoWrite (data : Byte) :
    OpByte.Statement (.setupPpmOffLoWrite data) := putSetupWrite_head _ _ _
theorem OpByte.bulkIn (length : Nat) : OpByte.Statement (.bulkIn length) := rfl

end Sys2Proof.Laws
end

