-- ==== Sys2Proof/Laws/Script.lean ====
section
/-! SUPPORT. What the device's status script gives through the sequences of the tuner and of `rtl.open`: writes leave
the script as it is, every read of the tuner takes its head. The witnesses of Tests/Slice0.lean rest on these. -/

namespace Sys2Proof.Machine

open Sys2Proof.Config (Params)

/-! ## Writes leave the script -/

theorem plan_afterWrite (value index : Word16) (bytes : List Byte) (t : Target) (s : State) :
    (afterWrite value index bytes t s).plan = s.plan := by
  cases t <;> cases bytes <;> rfl

theorem plan_afterMask (t : Triple) (s : State) : (afterMask t s).plan = s.plan := by
  unfold afterMask
  split
  · exact plan_afterWrite _ _ _ _ _
  · rfl

theorem plan_afterMasks : ∀ (l : List Triple) (s : State), (afterMasks l s).plan = s.plan
  | [], _ => rfl
  | t :: ts, s => (plan_afterMasks ts (afterMask t s)).trans (plan_afterMask t s)

theorem plan_afterEntry (e : Config.InitEntry) (s : State) : (afterEntry e s).plan = s.plan := by
  cases e <;> exact plan_afterWrite _ _ _ _ _

theorem plan_afterEntries : ∀ (l : List Config.InitEntry) (s : State), (afterEntries l s).plan = s.plan
  | [], _ => rfl
  | e :: es, s => (plan_afterEntries es (afterEntry e s)).trans (plan_afterEntry e s)

theorem plan_afterDemodWrite (page1 : Bool) (addr : Byte) (value len : Nat) (s : State) :
    (afterDemodWrite page1 addr value len s).plan = s.plan := plan_afterWrite _ _ _ _ _

theorem plan_afterOpenI2c (s : State) : (afterOpenI2c s).plan = s.plan := plan_afterWrite _ _ _ _ _

theorem plan_afterIfOffset (c : Params) (xtal : Int) (s : State) : (afterIfOffset c xtal s).plan = s.plan := by
  unfold afterIfOffset
  simp only [plan_afterDemodWrite]

/-! ## Reads take the script's head -/

theorem plan_afterTunerRead (reg : Byte) (n : Nat) (s : State) :
    (afterTunerRead reg n s).plan = { s.plan with status := s.plan.status.tail } := rfl

theorem status_afterStatus (s : State) : (afterStatus s).plan.status = s.plan.status.tail := rfl

/-- The bytes of a read from register 0x00 are the script's. -/
theorem tunerBytes_script {n : Nat} {bs : List Byte} {rest : List (List Byte)} {s : State} (hn : n ≤ Config.shadowBase)
    (hb : bs.length = n) (h : s.plan.status = bs :: rest) : tunerBytes Config.regStatus n s = bs := by
  have hp : (afterTunerWrite Config.regStatus [] s).i2cPtr = 0x00 := rfl
  have hq : (afterTunerWrite Config.regStatus [] s).plan = s.plan := plan_afterWrite _ _ _ _ _
  unfold tunerBytes deviceBytes
  simp only [hp, hq, h, List.headD_cons]
  apply List.ext_getElem (by simp [hb])
  intro k hk hk'
  have h5 : k < Config.shadowBase := Nat.lt_of_lt_of_le (hb ▸ hk') hn
  simp [tunerByte, h5, hk']

theorem statusOf_script {bs : List Byte} {rest : List (List Byte)} {s : State} (hb : bs.length = 5)
    (h : s.plan.status = bs :: rest) : statusOf s = bs.map bitrev8 := by
  unfold statusOf
  rw [tunerBytes_script (n := Config.statusLen) (Nat.le_refl _) hb h]

/-! ## The synthesizer under a script -/

/-- The status bytes a script of five bytes stands for: `lock` in register 0x02, `fine` and `code` in register 0x04. -/
def statusBytes (lock : Bool) (fine : BitVec 2) (code : BitVec 4) : List Byte :=
  [0x69, 0x00, bitrev8 (if lock then 0x40 else 0x00), 0x00, bitrev8 ((fine.setWidth 8 <<< 4) ||| code.setWidth 8)]

theorem statusBytes_length (lock : Bool) (fine : BitVec 2) (code : BitVec 4) :
    (statusBytes lock fine code).length = 5 := rfl

theorem statusBytes_lock : ∀ (lock : Bool) (fine : BitVec 2) (code : BitVec 4),
    lockBit ((statusBytes lock fine code).map bitrev8) = lock := by decide +kernel

theorem statusBytes_fine : ∀ (lock : Bool) (fine : BitVec 2) (code : BitVec 4),
    vcoFine ((statusBytes lock fine code).map bitrev8) = fine.toNat := by decide +kernel

theorem statusBytes_code : ∀ (lock : Bool) (fine : BitVec 2) (code : BitVec 4),
    filterCode ((statusBytes lock fine code).map bitrev8) = if code = 0xF then 0 else code := by decide +kernel

section Pll

variable {c : Params} {s : State} {l m : Bool} {f g : BitVec 2} {k j : BitVec 4} {rest : List (List Byte)}

/-- The divider the first status bytes lead to. -/
theorem pllDivider_script (freq : Nat) (h : s.plan.status = statusBytes l f k :: rest) :
    pllDivider c freq s = divNumAdjusted c freq f.toNat := by
  have hp : (pllStart c s).plan.status = statusBytes l f k :: rest := by
    rw [pllStart, plan_afterMasks, h]
  rw [pllDivider, statusOf_script rfl hp, statusBytes_fine]

theorem pllInRange_script {freq : Nat} {r : Int} (h : s.plan.status = statusBytes l f k :: rest)
    (h0 : 0 ≤ divNumAdjusted c freq f.toNat)
    (h7 : divNumAdjusted c freq f.toNat ≤ Config.divNumMax)
    (hn : Config.nintMin ≤ (pllDividers freq (divNumAdjusted c freq f.toNat).toNat r).1) :
    pllInRange c freq r s := by
  refine ⟨?_, ?_, ?_⟩
  · rw [pllDivider_script freq h]; exact h0
  · rw [pllDivider_script freq h]; exact h7
  · rw [pllWords, pllDivider_script freq h]; exact hn

/-- A first poll that reports lock. -/
theorem afterPoll_script (firstTry : Bool) (h : s.plan.status = statusBytes true f k :: rest) :
    (afterPoll c firstTry s).hasPllLock = true ∧ (afterPoll c firstTry s).plan.status = rest := by
  have hl : lockBit (statusOf s) = true := by rw [statusOf_script rfl h, statusBytes_lock]
  unfold afterPoll
  rw [if_pos hl]
  refine ⟨rfl, ?_⟩
  rw [State.setLock_plan, status_afterStatus, h, List.tail_cons]

/-- Two polls that report none. -/
theorem afterPoll_unlocked (h : s.plan.status = statusBytes false f k :: statusBytes false g j :: rest) :
    (afterPoll c true s).hasPllLock = false ∧ (afterPoll c true s).plan.status = rest := by
  have hl : lockBit (statusOf s) = false := by rw [statusOf_script rfl h, statusBytes_lock]
  have h1 : (afterMask (bumpTriple c) (afterStatus s)).plan.status =
      statusBytes false g j :: rest := by
    rw [plan_afterMask, status_afterStatus, h, List.tail_cons]
  have hm : lockBit (statusOf (afterMask (bumpTriple c) (afterStatus s))) = false := by
    rw [statusOf_script rfl h1, statusBytes_lock]
  unfold afterPoll
  rw [if_neg (by simp [hl]), if_pos rfl]
  refine ⟨?_, ?_⟩
  · rw [State.setLock_hasPllLock, hm]
  · rw [State.setLock_plan, status_afterStatus, h1, List.tail_cons]

/-- `r820t.set_pll` under a script: the fine-tune bits, then the polls. -/
theorem afterPll_script {freq : Nat} {r : Int} (h : s.plan.status = statusBytes l f k :: rest)
    (h63 : (pllDividers freq (divNumAdjusted c freq f.toNat).toNat r).1 ≤ Config.nintMax) :
    ∃ u : State, afterPll c freq r s = afterPoll c true u ∧ u.plan.status = rest := by
  have hp : (pllStart c s).plan.status = statusBytes l f k :: rest := by
    rw [pllStart, plan_afterMasks, h]
  refine ⟨afterMasks (dividerTriples (pllWords c freq r s).1 (pllWords c freq r s).2)
    (afterMask (vcoTriple (pllDivider c freq s).toNat) (afterStatus (pllStart c s))), ?_, ?_⟩
  · have hle : ¬ Config.nintMax < (pllWords c freq r s).1 := by
      rw [pllWords, pllDivider_script freq h]
      omega
    unfold afterPll
    exact if_neg hle
  · simp only [plan_afterMasks, plan_afterMask, status_afterStatus, hp, List.tail_cons]

/-- `r820t.set_pll` that locks. -/
theorem afterPll_locks {freq : Nat} {r : Int}
    (h : s.plan.status = statusBytes l f k :: statusBytes true g j :: rest)
    (h63 : (pllDividers freq (divNumAdjusted c freq f.toNat).toNat r).1 ≤ Config.nintMax) :
    (afterPll c freq r s).hasPllLock = true ∧ (afterPll c freq r s).plan.status = rest := by
  obtain ⟨u, hu, hr⟩ := afterPll_script (c := c) h h63
  rw [hu]
  exact afterPoll_script true hr

/-- `r820t.set_pll` that does not lock. -/
theorem afterPll_fails {freq : Nat} {r : Int} {a b : BitVec 2} {x y : BitVec 4}
    (h : s.plan.status = statusBytes l f k :: statusBytes false a x :: statusBytes false b y :: rest)
    (h63 : (pllDividers freq (divNumAdjusted c freq f.toNat).toNat r).1 ≤ Config.nintMax) :
    (afterPll c freq r s).hasPllLock = false := by
  obtain ⟨u, hu, hr⟩ := afterPll_script (c := c) h h63
  rw [hu]
  exact (afterPoll_unlocked hr).1

end Pll

/-! ## The calibration under a script -/

/-- One run of the calibration reads three status blocks: fine-tune bits, lock, code. -/
def calScript (code : BitVec 4) (rest : List (List Byte)) : List (List Byte) :=
  statusBytes false 2 0 :: statusBytes true 2 0 :: statusBytes true 2 code :: rest

/-- The PLL words at CAL_FREQ with a fine-tune reading of 2 are in range. -/
def calRefOk (r : Int) : Bool :=
  decide (Config.nintMin ≤ (pllDividers Config.calFreq 4 r).1) && decide ((pllDividers Config.calFreq 4 r).1 ≤ Config.nintMax)

theorem cal_script {c : Params} {s : State} {r : Int} {code : BitVec 4} {rest : List (List Byte)}
    (h : s.plan.status = calScript code rest) (hr : calRefOk r = true)
    (hc : divNumAdjusted c Config.calFreq (2 : BitVec 2).toNat = 4 := by decide +kernel) :
    calRuns c r s ∧ calCode c r s = (if code = 0xF then 0 else code) ∧
      (afterCalRun c r s).plan.status = rest := by
  simp only [calRefOk, Bool.and_eq_true, decide_eq_true_eq] at hr
  have h0 : (calStart c s).plan.status = calScript code rest := by rw [calStart, plan_afterMasks, h]
  have hin : pllInRange c Config.calFreq r (calStart c s) :=
    pllInRange_script h0 (by rw [hc]; decide) (by rw [hc]; decide) (by rw [hc]; exact hr.1)
  have hlock := afterPll_locks (c := c) (r := r) h0 (by rw [hc]; exact hr.2)
  have h1 : (calReady c r s).plan.status = statusBytes true 2 code :: rest := by
    simp only [calReady, plan_afterMasks, hlock.2]
  refine ⟨⟨hin, hlock.1⟩, ?_, ?_⟩
  · rw [calCode, statusOf_script rfl h1, statusBytes_code]
  · rw [afterCalRun, status_afterStatus, h1, List.tail_cons]

/-- A calibration whose first code is 0 completes. -/
theorem calibrates_zero {c : Params} {s : State} {r : Int} {first : Bool} {rest : List (List Byte)}
    (h : s.plan.status = calScript 0 rest) (hr : calRefOk r = true)
    (hc : divNumAdjusted c Config.calFreq (2 : BitVec 2).toNat = 4 := by decide +kernel) : calibrates c r first s := by
  obtain ⟨h1, h2, -⟩ := cal_script h hr hc
  refine ⟨h1, fun hx => ?_⟩
  rw [calRetries, h2] at hx
  exact absurd hx (by simp)

/-- A calibration whose first code is not 0 completes on the second run. -/
theorem calibrates_twice {c : Params} {s : State} {r : Int} {first : Bool} {code code' : BitVec 4}
    {rest : List (List Byte)} (h : s.plan.status = calScript code (calScript code' rest)) (hr : calRefOk r = true)
    (hc : divNumAdjusted c Config.calFreq (2 : BitVec 2).toNat = 4 := by decide +kernel) :
    calibrates c r first s := by
  obtain ⟨h1, -, h3⟩ := cal_script h hr hc
  exact ⟨h1, fun _ => (cal_script h3 hr hc).1⟩

/-! ## `rtl.open` under a script -/

theorem plan_openClaimed (s : State) : (openClaimed s).plan = s.plan := by
  show (openPrepared s).plan = s.plan
  rw [openPrepared]
  exact (plan_afterWrite _ _ _ _ _).trans (plan_afterWrite _ _ _ _ _)

theorem plan_openProbing (c : Params) (ppm : Int) (s : State) : (openProbing c ppm s).plan = s.plan := by
  rw [openProbing, plan_afterOpenI2c, State.setXtal_plan, plan_afterEntries, plan_openClaimed]

theorem plan_openTuning (c : Params) (ppm : Int) (s : State) :
    (openTuning c ppm s).plan = { s.plan with status := s.plan.status.tail } := by
  rw [openTuning, plan_afterIfOffset, plan_afterTunerRead, plan_openProbing]

theorem plan_initStart (c : Params) (s : State) : (initStart c s).plan = s.plan := by
  rw [initStart, plan_afterMasks]
  exact plan_afterWrite _ _ _ _ _

theorem plan_tuneStart (c : Params) (hz : Nat) (s : State) : (tuneStart c hz s).plan = s.plan := by
  rw [tuneStart, plan_afterMasks, plan_afterOpenI2c]
  rfl

/-- The probe reads the script's first byte. -/
theorem probedId_script {c : Params} {ppm : Int} {s : State} {b : Byte} {rest : List (List Byte)}
    (h : s.plan.status = [b] :: rest) : probedId c ppm s = b := by
  have hp : (openProbing c ppm s).plan.status = [b] :: rest := by rw [plan_openProbing, h]
  have hb := tunerBytes_script (n := Config.i2cRegLen) (by decide) rfl hp
  rw [probedId, hb]
  rfl

/-- `rtl.open` completes under a script with the R820T's identity and a calibration. -/
theorem opens_script {ppm : Int} {s : State} {rest : List (List Byte)}
    (h : s.plan.status = [0x69] :: calScript 0 rest) (hr : calRefOk (correctedXtal ppm) = true)
    (hc : divNumAdjusted c Config.calFreq (2 : BitVec 2).toNat = 4 := by decide +kernel) : opens c ppm s := by
  refine ⟨probedId_script h, calibrates_zero (rest := rest) ?_ hr hc⟩
  rw [plan_initStart, plan_openTuning, h]
  rfl

end Sys2Proof.Machine
end

