-- ==== Sys2Proof/Laws/Wire.lean ====
section
/-! SUPPORT. What goes on the wire: every task of the sequencer issues at most one transfer, so one move of an operation in
progress does (00_scope R16 (a), 40_usb_transport R140). -/

namespace Sys2Proof.Machine

/-- A program puts at most `n` transfers on the wire. -/
def Ctl.Issues {α : Type} (n : Nat) (m : Ctl α) : Prop :=
  ∀ s, match m s with
    | .ok _ s' => ∃ l : List Transfer, l.length ≤ n ∧ s'.trace = s.trace ++ l
    | .error (.raised _) s' => ∃ l : List Transfer, l.length ≤ n ∧ s'.trace = s.trace ++ l
    | .error .ended s' => ∃ l : List Transfer, l.length ≤ n ∧ s'.trace = s.trace ++ l
    | .error (.refused _) _ => True
    | .error (.fault _) _ => True

theorem Ctl.Issues.modify {g : State → State} (hg : ∀ s, (g s).trace = s.trace) :
    Ctl.Issues 0 (modify g : Ctl PUnit) := fun s => ⟨[], Nat.le_refl _, by rw [List.append_nil]; exact hg s⟩

namespace Ctl.Issues

variable {α β : Type}

theorem pure (a : α) : Ctl.Issues 0 (Pure.pure a : Ctl α) := fun _ => ⟨[], Nat.le_refl _, by simp⟩

theorem mono {n k : Nat} {m : Ctl α} (h : Ctl.Issues n m) (hk : n ≤ k) : Ctl.Issues k m := by
  intro s
  have hs := h s
  revert hs
  cases m s with
  | ok a s' => exact fun ⟨l, hl, ht⟩ => ⟨l, Nat.le_trans hl hk, ht⟩
  | error e s' =>
    cases e with
    | raised e => exact fun ⟨l, hl, ht⟩ => ⟨l, Nat.le_trans hl hk, ht⟩
    | ended => exact fun ⟨l, hl, ht⟩ => ⟨l, Nat.le_trans hl hk, ht⟩
    | refused r => exact id
    | fault f => exact id

theorem bind {n k : Nat} {m : Ctl α} {f : α → Ctl β} (hm : Ctl.Issues n m) (hf : ∀ a, Ctl.Issues k (f a)) :
    Ctl.Issues (n + k) (m >>= f) := by
  intro s
  have hs := hm s
  rw [Ctl.run_bind]
  revert hs
  cases m s with
  | ok a s' =>
    rintro ⟨l, hl, ht⟩
    have hs' := hf a s'
    dsimp only
    revert hs'
    have more : ∀ u : State, (∃ l' : List Transfer, l'.length ≤ k ∧ u.trace = s'.trace ++ l') →
        ∃ l' : List Transfer, l'.length ≤ n + k ∧ u.trace = s.trace ++ l' := by
      rintro u ⟨l', hl', ht'⟩
      exact ⟨l ++ l', by rw [List.length_append]; exact Nat.add_le_add hl hl', by rw [ht', ht, List.append_assoc]⟩
    cases f a s' with
    | ok b u => exact more u
    | error e u =>
      cases e with
      | raised e => exact more u
      | ended => exact more u
      | refused r => exact id
      | fault g => exact id
  | error e s' =>
    cases e with
    | raised e => exact fun ⟨l, hl, ht⟩ => ⟨l, Nat.le_trans hl (Nat.le_add_right _ _), ht⟩
    | ended => exact fun ⟨l, hl, ht⟩ => ⟨l, Nat.le_trans hl (Nat.le_add_right _ _), ht⟩
    | refused r => exact id
    | fault g => exact id

theorem seq {n : Nat} {m : Ctl α} {f : α → Ctl β} (hm : Ctl.Issues 0 m) (hf : ∀ a, Ctl.Issues n (f a)) :
    Ctl.Issues n (m >>= f) := (hm.bind hf).mono (Nat.zero_add n).le

theorem get : Ctl.Issues 0 (MonadState.get : Ctl State) := fun _ => ⟨[], Nat.le_refl _, by simp⟩


theorem raise (e : Err) : Ctl.Issues 0 (Sys2Proof.Machine.raise e : Ctl α) := fun _ => ⟨[], Nat.le_refl _, by simp⟩

theorem refuse (r : Refusal) : Ctl.Issues 0 (Sys2Proof.Machine.refuse r : Ctl α) := fun _ => trivial

theorem require (b : Bool) (r : Refusal) : Ctl.Issues 0 (Sys2Proof.Machine.require b r) := by
  cases b
  · exact fun _ => trivial
  · exact pure ()

theorem word (o : Option α) : Ctl.Issues 0 (Sys2Proof.Machine.word o) := by
  cases o
  · exact refuse _
  · exact pure _

theorem ite {n : Nat} {c : Prop} [Decidable c] {m m' : Ctl α} (hm : Ctl.Issues n m) (hm' : Ctl.Issues n m') :
    Ctl.Issues n (if c then m else m') := by
  split
  · exact hm
  · exact hm'

theorem issue (t : Transfer) : Ctl.Issues 1 (Sys2Proof.Machine.issue t) := fun _ => ⟨[t], Nat.le_refl _, rfl⟩

/-- A transfer first, and nothing more on the wire. -/
theorem one {t : Transfer} {f : Nat × Answer → Ctl α} (hf : ∀ p, Ctl.Issues 0 (f p)) :
    Ctl.Issues 1 (Sys2Proof.Machine.issue t >>= f) := (issue t).bind hf

theorem andThen {n : Nat} {m : Ctl α} {f : α → Ctl β} (hm : Ctl.Issues n m) (hf : ∀ a, Ctl.Issues 0 (f a)) :
    Ctl.Issues n (m >>= f) := hm.bind hf

theorem target (value index : Word16) : Ctl.Issues 0 (Sys2Proof.Machine.target value index) := by
  intro s
  unfold Sys2Proof.Machine.target
  cases ht : targetOf value index with
  | ok t => exact pure t s
  | error e =>
    unfold targetOf at ht
    repeat' split at ht
    all_goals first | cases ht | skip
    all_goals trivial

theorem access (t : Target) : Ctl.Issues 0 (Sys2Proof.Machine.access t) := by
  cases t
  · exact pure _
  all_goals exact get.seq fun _ => require _ _

theorem advance : Ctl.Issues 0 Sys2Proof.Machine.advance := modify fun _ => rfl

theorem sendWrite (value index : Word16) (bytes : List Byte) (t : Target) {accept : Nat → State → State}
    (ha : ∀ d s, (accept d s).trace = s.trace) : Ctl.Issues 1 (Sys2Proof.Machine.sendWrite value index bytes t accept) :=
  one fun _ => ite ((modify fun s => deviceForget_trace _ _ _ s).seq fun _ => raise _)
    ((modify (ha _)).seq fun _ => advance)

theorem controlWrite (value index : Word16) (bytes : List Byte) :
    Ctl.Issues 1 (Sys2Proof.Machine.controlWrite value index bytes) :=
  get.seq fun _ => (require _ _).seq fun _ => (require _ _).seq fun _ => (target _ _).seq fun _ => (access _).seq fun _ =>
    sendWrite _ _ _ _ fun _ s => deviceStore_trace _ _ s

theorem controlRead (value index length : Word16) : Ctl.Issues 1 (Sys2Proof.Machine.controlRead value index length) :=
  get.seq fun _ => (require _ _).seq fun _ => (require _ _).seq fun _ => (target _ _).seq fun _ => (access _).seq fun _ =>
    one fun _ => ite (raise _) ((modify fun s => deviceAfterRead_trace _ s).seq fun _ => advance.seq fun _ => pure _)

theorem writeReg (block reg : Word16) (value len : Nat) : Ctl.Issues 1 (Sys2Proof.Machine.writeReg block reg value len) :=
  ((require _ _).seq fun _ => require _ _).seq fun _ => controlWrite _ _ _

theorem writeDemodReg (page1 : Bool) (addr : Byte) (value len : Nat) :
    Ctl.Issues 1 (Sys2Proof.Machine.writeDemodReg page1 addr value len) := (require _ _).seq fun _ => controlWrite _ _ _

theorem requireI2c : Ctl.Issues 0 Sys2Proof.Machine.requireI2c := get.seq fun _ => require _ _

theorem i2cWrite (addr : Word16) (reg : Byte) (bytes : List Byte) :
    Ctl.Issues 1 (Sys2Proof.Machine.i2cWrite addr reg bytes) := requireI2c.seq fun _ => controlWrite _ _ _

theorem writeMask (t : Triple) : Ctl.Issues 1 (Sys2Proof.Machine.writeMask t) := by
  refine requireI2c.seq fun _ => ?_
  cases shadowIndex t.reg
  · exact (refuse _).mono (Nat.zero_le 1)
  · refine get.seq fun s => ?_
    cases s.shadow
    · exact (refuse _).mono (Nat.zero_le 1)
    · exact (modify (g := State.setShadow _) fun _ => rfl).seq fun _ => i2cWrite _ _ _

theorem closingMask (t : Config.TableTriple) : Ctl.Issues 1 (Sys2Proof.Machine.closingMask t) := by
  refine get.seq fun s => (modify (g := State.setShadow _) fun _ => rfl).seq fun _ => ?_
  unfold i2cWriteClosing controlWriteClosing
  refine sendWrite _ _ _ _ fun d u => ?_
  split
  · exact deviceStore_trace _ _ u
  · exact deviceForget_trace _ _ _ u

theorem releaseClaimed : Ctl.Issues 1 Sys2Proof.Machine.releaseClaimed :=
  get.seq fun _ => ite (get.seq fun _ => (require _ _).seq fun _ => (require _ _).seq fun _ => one fun _ =>
    (modify (g := State.setClaimed false) fun _ => rfl).seq fun _ => ite (raise _) advance) ((pure _).mono (Nat.zero_le 1))

theorem filterAccepted (cap : BitVec 4) : Ctl.Issues 0 (Sys2Proof.Machine.filterAccepted cap) := by
  refine get.seq fun s => ?_
  cases s.shadow
  · exact refuse _
  · exact (modify (g := State.setFilterCap cap) fun _ => rfl).seq fun _ => pure _

theorem pllExponent (c : Config.Params) (freq : Nat) (d : List Byte) :
    Ctl.Issues 0 (Sys2Proof.Machine.pllExponent c freq d) := (require _ _).seq fun _ => pure _

theorem setLock (b : Bool) : Ctl.Issues 0 (Sys2Proof.Machine.setLock b) := modify fun _ => rfl

theorem useStatus (c : Config.Params) (bs : List Byte) (use : StatusUse) :
    Ctl.Issues 0 (Sys2Proof.Machine.useStatus c bs use) := by
  cases use with
  | probe => exact (ite (pure _) (raise _)).seq fun _ => pure _
  | fineTune freq r => exact (pllExponent _ _ _).seq fun _ => pure _
  | lock firstTry =>
    exact ite ((setLock _).seq fun _ => pure _) (ite (pure _) ((setLock _).seq fun _ => pure _))
  | code firstAttempt => exact ite (pure _) ((filterAccepted _).seq fun _ => pure _)

/-- A program that puts nothing on the wire, as a task. -/
theorem none {m : Ctl Unit} (h : Ctl.Issues 0 m) : Ctl.Issues 1 (Task.only m) :=
  (h.seq fun _ => pure _).mono (Nat.zero_le 1)

/-- A program of one transfer, as a task. -/
theorem only {m : Ctl Unit} (h : Ctl.Issues 1 m) : Ctl.Issues 1 (Task.only m) := h.andThen fun _ => pure _

/-- Every task puts at most one transfer on the wire. -/
theorem run (c : Config.Params) (t : Task) : Ctl.Issues 1 (t.run c) := by
  have h0 : ∀ {β : Type} {m : Ctl β}, Ctl.Issues 0 m → Ctl.Issues 1 m := fun h => h.mono (Nat.zero_le 1)
  cases t with
  | reg block reg value len => exact only (writeReg _ _ _ _)
  | demod page1 addr value len => exact only (writeDemodReg _ _ _ _)
  | claim => exact only (get.seq fun _ => (require _ _).seq fun _ => (require _ _).seq fun _ => (require _ _).seq fun _ =>
      one fun _ => ite (raise _) ((modify (g := State.setClaimed true) fun _ => rfl).seq fun _ => advance))
  | openBridge => exact only ((writeDemodReg _ _ _ _).andThen fun _ => modify fun _ => rfl)
  | closeBridge => exact only ((writeDemodReg _ _ _ _).andThen fun _ => modify fun _ => rfl)
  | mask t => exact only (writeMask _)
  | each l =>
    cases l with
    | nil => exact none requireI2c
    | cons t ts => exact (writeMask _).andThen fun _ => pure _
  | defaults => exact only (requireI2c.seq fun _ => (modify (g := State.setShadow _) fun _ => rfl).seq fun _ => i2cWrite _ _ _)
  | point n => exact only (requireI2c.seq fun _ => (require _ _).seq fun _ => controlWrite _ _ _)
  | fetch n use => exact (controlRead _ _ _).andThen fun _ => useStatus _ _ _
  | closingMask t => exact only (closingMask _)
  | unready => exact none (modify fun _ => rfl)
  | release => exact only releaseClaimed
  | device => exact only (one fun _ => (modify (g := deviceClosed) fun _ => rfl).seq fun _ => ite (raise _) (pure _))
  | xtal => exact none (get.seq fun _ => (word _).seq fun _ => modify fun _ => rfl)
  | ifOffset => exact h0 (get.seq fun _ => (word _).seq fun _ => pure _)
  | init => exact h0 (pure _)
  | ready => exact none (get.seq fun _ => (require _ _).seq fun _ => modify fun _ => rfl)
  | gain => exact h0 (get.seq fun _ => (word _).seq fun _ => pure _)
  | pll freq => exact h0 ((requireI2c.seq fun _ => (require _ _).seq fun _ => get.seq fun _ => word _).seq fun _ => pure _)
  | dividers nint sdm =>
    exact h0 (ite ((setLock _).seq fun _ => pure _) ((require _ _).seq fun _ => pure _))
  | calibrate firstAttempt => exact h0 (requireI2c.seq fun _ => pure _)
  | calibrated firstAttempt => exact h0 ((get.seq fun _ => ite (pure _) (raise _)).seq fun _ => pure _)
  | ratio rate =>
    exact h0 (((require _ _).seq fun _ => (require _ _).seq fun _ => pure _).seq fun _ => get.seq fun _ =>
      (word _).seq fun _ => pure _)
  | rated actual => exact none (modify fun _ => rfl)
  | tune hz => exact h0 ((require _ _).seq fun _ => pure _)
  | frequency freq => exact h0 ((requireI2c.seq fun _ => get.seq fun _ => require _ _).seq fun _ => pure _)
  | settled hz => exact h0 (get.seq fun _ => pure _)
  | tuned hz locked => exact none (ite (pure _) (raise _))
  | mark k => exact none (modify fun _ => rfl)
  | closed => exact none (modify fun _ => rfl)

end Ctl.Issues

/-- Carrying on puts nothing on the wire. -/
theorem carry_trace (op : Instr) (ts : List Task) (s : State) : (s.carry op ts).trace = s.trace := by
  unfold State.carry
  split <;> rfl

theorem recover_trace (op : Instr) (e : Err) (rest : List Task) (s : State) : (recover op e rest s).trace = s.trace := by
  unfold recover
  split
  · exact takeError_trace e s
  · split
    · rw [carry_trace]
      exact takeError_trace e s
    · exact takeError_trace e s

/-- One move puts at most one transfer on the wire (R16 (a), R140). -/
theorem move_one {s t : State} (h : move Config.chip s = .next t) : atMostOneTransfer s t := by
  have done : ∀ u : State, (∃ l : List Transfer, l.length ≤ 1 ∧ u.trace = s.trace ++ l) → t.trace = u.trace →
      atMostOneTransfer s t := by
    rintro u ⟨l, hl, hu⟩ ht
    match l, hl with
    | [], _ => exact .inl (by rw [ht, hu, List.append_nil])
    | [x], _ => exact .inr ⟨x, by rw [ht, hu]⟩
  unfold move at h
  split at h
  · rename_i op task rest _ _
    have hk := Ctl.Issues.run Config.chip task s.bare
    revert hk h
    cases task.run Config.chip s.bare with
    | ok ts u => intro h hk; cases h; exact done u hk (carry_trace _ _ _)
    | error e u =>
      cases e with
      | raised e => intro h hk; cases h; exact done u hk (recover_trace _ _ _ _)
      | ended => intro h hk; cases h; exact done _ hk rfl
      | refused r => intro h; cases h
      | fault g => intro h; cases h
  · cases h
    exact .inl rfl

end Sys2Proof.Machine
end

