-- ==== Sys2Proof/Tests/Slice0.lean ====
section
/-! SUPPORT. Tests: ill-formed operations are refused by each check of WellFormed.lean; words written out from the spec's
encodings decode to their operations; single steps give the values of spec 95_test_vectors; and for every obligation with
hypotheses a concrete state and operands that meet them. -/

set_option Elab.async false

namespace Sys2Proof.Tests

open Sys2Proof Sys2Proof.Machine

/-! ## WellFormed refuses -/

theorem test_wf_flag_in_read_index : (Instr.controlRead 0x2148 0x0110 2).legal = false := by decide
theorem test_wf_empty_read : (Instr.controlRead 0x2148 0x0100 0).legal = false := by decide
theorem test_wf_empty_write : (Instr.controlWrite 0x2148 0x0100 []).legal = false := by decide
theorem test_wf_odd_bulk : (Instr.bulkRead 7).legal = false ∧ (Instr.bulkIn 0).legal = false := by decide
theorem test_wf_interface : (Instr.claimInterface 0).legal = false ∧ (Instr.releaseInterface 2).legal = false := by decide
theorem test_wf_block : (Instr.writeReg 0x0300 0x2000 9 1).legal = false ∧ (Instr.writeRegMask 0x0700 0 0 0).legal = false := by
  decide
theorem test_wf_width : (Instr.writeReg 0x0100 0x2000 9 3).legal = false ∧ (Instr.readReg 0x0100 0x2000 0).legal = false := by
  decide
theorem test_wf_page : (Instr.writeDemodReg 2 0x01 0 1).legal = false ∧ (Instr.readDemodReg 0xFF 0x01).legal = false := by
  decide
theorem test_wf_i2c_device : (Instr.i2cWriteReg 0x36 0x05 0).legal = false ∧ (Instr.i2cReadReg 0x35 0).legal = false := by
  decide
theorem test_wf_i2c_empty : (Instr.i2cWriteBuf 0x34 0x05 []).legal = false ∧ (Instr.i2cReadBuf 0x34 0 0).legal = false := by
  decide
theorem test_wf_no_shadow_register : (Instr.r820tWriteMask 0x04 0 0).legal = false ∧
    (Instr.r820tWriteEach [⟨0x20, 0, 0⟩]).legal = false := by decide
theorem test_wf_status_length : (Instr.r820tRead 0).legal = false ∧ (Instr.r820tRead 6).legal = false := by decide
theorem test_wf_zero_frequency : (Instr.r820tSetPll 0).legal = false ∧ (Instr.r820tSetMux 0).legal = false ∧
    (Instr.r820tSetFrequency 0).legal = false ∧ (Instr.rtlSetCenterFrequency 0).legal = false := by decide
theorem test_wf_zero_rate : (Instr.rtlSetSampleRate 0).legal = false ∧ (Instr.rtlReadSamples 0).legal = false := by decide
theorem test_wf_filter : (Instr.getLowpassFirCoeffs 0 1 1).legal = false ∧ (Instr.firNew [] 1).legal = false ∧
    (Instr.firNew [1] 0).legal = false ∧ (Instr.firGet 0 (-1)).legal = false := by decide +kernel
theorem test_wf_rates : (Instr.dsNew 0 1 [1]).legal = false ∧ (Instr.iqdsNew 1 0 [1]).legal = false ∧
    (Instr.fmNew 1 1 0 1 1).legal = false ∧ (Instr.amNew 1 1 0 1).legal = false ∧ (Instr.stNew 0 1).legal = false ∧
    (Instr.deNew 1 0).legal = false := by decide +kernel
theorem test_wf_weight : (Instr.avgNew (-1) true).legal = false := by decide +kernel
theorem test_wf_odd_iq : (Instr.iqConvert [0, 1, 2]).legal = false := by decide
theorem test_wf_mode : (Instr.setMode (.nbfm (1 / 2))).legal = false ∧ (Instr.setMode (.am 0)).legal = false ∧
    (Instr.setMode (.wbfm (some 0))).legal = false ∧ (Instr.msgSetMode (.ssb 2700 true)).legal = false := by decide +kernel
theorem test_wf_frequency_offset : (Instr.process [] true 200000 []).legal = false ∧
    (Instr.msgProcess [1] true 0 []).legal = false := by decide +kernel
theorem test_wf_demod_packet : (Instr.setupDemodWrite true 0x70 [1, 2, 3]).legal = false ∧
    (Instr.setupDemodRead true 0x70 2).legal = false := by decide
theorem test_wf_empty_packet : (Instr.setupControlRead 0x2000 0x0300 0).legal = false ∧
    (Instr.setupControlWrite 0x2000 0x0300 []).legal = false ∧ (Instr.setupI2cRead 0).legal = false := by decide
theorem test_wf_too_wide : (Instr.bulkRead (2 ^ 64)).encodable = false ∧ (Instr.firGet 0 (2 ^ 63)).encodable = false ∧
    (Instr.avgNew (2 ^ 159) true).encodable = false ∧ (Instr.rtlNew 0 (-2 ^ 63 - 1) .auto).encodable = false := by
  decide +kernel
theorem test_wf_other_packet : (Instr.setupRegWrite 0x0100 0x2000 [9]).encodable = false ∧
    (Instr.setupControlRead 0x0034 0x0600 1).encodable = false ∧
    (Instr.setupDemodWrite true 0x01 [0x18]).encodable = false := by decide

/-! ## Words from the spec's encodings

Operation numbers R120, tags R118, mode descriptors R119, setup packets R100 to R103 and R37; the operands after a number
or tag in the byte layout of notes/assumptions/1.md, written out with these three. -/

/-- A natural or small signed operand below 256. -/
def num (b : Byte) : List Byte := b :: List.replicate 7 0
/-- A real operand: numerator below 128 and denominator less one below 256. -/
def real (n d : Byte) : List Byte := n :: List.replicate 19 0 ++ d :: List.replicate 19 0
/-- The length of a sequence. -/
def count (b : Byte) : List Byte := [b, 0, 0, 0]

theorem test_decode_transport :
    decode .cmd [0x00, 0x34, 0x00, 0x00, 0x06, 0x05, 0x00] = .ok (.controlRead 0x0034 0x0600 5) ∧
    decode .cmd ([0x01, 0x48, 0x21, 0x00, 0x01] ++ count 2 ++ [0x10, 0x02]) =
      .ok (.controlWrite 0x2148 0x0100 [0x10, 0x02]) ∧
    decode .cmd (0x02 :: num 8) = .ok (.bulkRead 8) ∧ decode .cmd [0x03, 0x01] = .ok (.claimInterface 1) ∧
    decode .cmd [0x04, 0x01] = .ok (.releaseInterface 1) ∧ decode .cmd [0x05] = .ok .closeDevice := by decide +kernel

theorem test_decode_registers :
    decode .cmd ([0x10, 0x00, 0x01, 0x00, 0x20] ++ num 9 ++ num 1) = .ok (.writeReg 0x0100 0x2000 9 1) ∧
    decode .cmd ([0x11, 0x00, 0x01, 0x48, 0x21] ++ num 2) = .ok (.readReg 0x0100 0x2148 2) ∧
    decode .cmd ([0x12, 0x00, 0x02, 0x0B, 0x30] ++ num 0x3C ++ num 0x0F) = .ok (.writeRegMask 0x0200 0x300B 0x3C 0x0F) ∧
    decode .cmd ([0x13, 0x01, 0x70] ++ num 7 ++ num 2) = .ok (.writeDemodReg 1 0x70 7 2) ∧
    decode .cmd [0x14, 0x01, 0x3E] = .ok (.readDemodReg 1 0x3E) ∧ decode .cmd [0x15] = .ok .openI2c ∧
    decode .cmd [0x16] = .ok .closeI2c ∧ decode .cmd ([0x17, 0x34, 0x00, 0x10] ++ num 0x80) = .ok (.i2cWriteReg 0x34 0x10 0x80) ∧
    decode .cmd [0x18, 0x34, 0x00, 0x02] = .ok (.i2cReadReg 0x34 0x02) ∧
    decode .cmd ([0x19, 0x34, 0x00, 0x05] ++ count 2 ++ [0xAA, 0xBB]) = .ok (.i2cWriteBuf 0x34 0x05 [0xAA, 0xBB]) ∧
    decode .cmd ([0x1A, 0x34, 0x00, 0x00] ++ num 5) = .ok (.i2cReadBuf 0x34 0x00 5) := by decide +kernel

theorem test_decode_tuner :
    decode .cmd ([0x20, 0x10] ++ num 0x80 ++ num 0xE0) = .ok (.r820tWriteMask 0x10 0x80 0xE0) ∧
    decode .cmd (0x21 :: num 5) = .ok (.r820tRead 5) ∧
    decode .cmd (0x22 :: (count 2 ++ 0x05 :: (num 0x10 ++ num 0x10) ++ 0x1F :: ([0x01, 0x01] ++ List.replicate 6 0 ++ num 0xFF))) =
      .ok (.r820tWriteEach [⟨0x05, 0x10, 0x10⟩, ⟨0x1F, 0x01, 0xFF⟩]) ∧
    decode .cmd [0x23] = .ok .r820tInit ∧ decode .cmd [0x24, 1] = .ok (.r820tCalibrateFilter true) ∧
    decode .cmd (0x25 :: num 100) = .ok (.r820tSetMux 100) ∧ decode .cmd (0x26 :: num 101) = .ok (.r820tSetFrequency 101) ∧
    decode .cmd (0x27 :: num 102) = .ok (.r820tSetPll 102) ∧ decode .cmd [0x28, 0] = .ok (.r820tGetPllLock false) ∧
    decode .cmd (0x29 :: real 7 1) = .ok (.r820tSetManualGain (7 / 2)) ∧ decode .cmd [0x2A] = .ok .r820tSetAutoGain ∧
    decode .cmd [0x2B] = .ok .r820tClose := by decide +kernel

theorem test_decode_demod :
    decode .cmd (0x30 :: (num 9 ++ num 50 ++ [0])) = .ok (.rtlNew 9 50 .auto) ∧
    decode .cmd (0x30 :: (num 9 ++ List.replicate 8 0xFF ++ 1 :: real 3 0)) = .ok (.rtlNew 9 (-1) (.manual 3)) ∧
    decode .cmd [0x31] = .ok .rtlOpen ∧ decode .cmd (0x32 :: [0, 0xA0, 0x0F, 0, 0, 0, 0, 0]) = .ok (.rtlSetSampleRate 1024000) ∧
    decode .cmd (0x33 :: num 7) = .ok (.rtlSetCenterFrequency 7) ∧ decode .cmd [0x34] = .ok .rtlResetBuffer ∧
    decode .cmd (0x35 :: num 4) = .ok (.rtlReadSamples 4) ∧ decode .cmd [0x36] = .ok .rtlClose := by decide +kernel

theorem test_decode_filters :
    decode .cmd (0x40 :: (real 8 0 ++ real 2 0 ++ num 3)) = .ok (.getLowpassFirCoeffs 8 2 3) ∧
    decode .cmd (0x41 :: (count 2 ++ real 1 0 ++ real 1 1 ++ num 1)) = .ok (.firNew [1, 1 / 2] 1) ∧
    decode .cmd (0x42 :: (num 0 ++ count 1 ++ real 5 0)) = .ok (.firLoad 0 [5]) ∧
    decode .cmd (0x43 :: (num 0 ++ num 3)) = .ok (.firGet 0 3) ∧
    decode .cmd (0x50 :: (real 4 0 ++ real 2 0 ++ count 1 ++ real 1 0)) = .ok (.dsNew 4 2 [1]) ∧
    decode .cmd (0x51 :: (num 1 ++ count 1 ++ real 1 0 ++ real 4 0)) = .ok (.dsDownsample 1 [1] 4) ∧
    decode .cmd (0x52 :: (real 2 0 ++ real 1 0 ++ count 1 ++ real 1 0)) = .ok (.iqdsNew 2 1 [1]) ∧
    decode .cmd (0x53 :: (num 0 ++ count 1 ++ real 1 0 ++ real 10 0 ++ real 2 0)) = .ok (.iqdsDownsample 0 [(1, 10)] 2) := by
  decide +kernel

theorem test_decode_demodulators :
    decode .cmd (0x60 :: (real 4 0 ++ real 5 0 ++ real 1 0 ++ real 2 0 ++ num 7)) = .ok (.fmNew 4 5 1 2 7) ∧
    decode .cmd (0x61 :: (num 0 ++ count 1 ++ real 1 0 ++ real 0 0 ++ real 4 0)) = .ok (.fmDemodulate 0 [(1, 0)] 4) ∧
    decode .cmd (0x62 :: (real 8 0 ++ real 2 0 ++ real 3 0 ++ num 5)) = .ok (.amNew 8 2 3 5) ∧
    decode .cmd (0x63 :: (num 0 ++ count 1 ++ real 3 0 ++ real 0 0 ++ real 4 0)) = .ok (.amDemodulate 0 [(3, 0)] 4) ∧
    decode .cmd (0x70 :: (real 3 0 ++ [1])) = .ok (.avgNew 3 true) ∧
    decode .cmd (0x71 :: (num 0 ++ real 4 0)) = .ok (.avgAdd 0 4) ∧
    decode .cmd (0x73 :: (real 100 0 ++ real 19 0)) = .ok (.stNew 100 19) ∧
    decode .cmd (0x74 :: (num 0 ++ count 1 ++ real 1 0)) = .ok (.stSeparate 0 [1]) ∧
    decode .cmd (0x75 :: (real 48 0 ++ real 50 0)) = .ok (.deNew 48 50) ∧
    decode .cmd (0x76 :: (num 0 ++ count 1 ++ real 1 1 ++ real 2 0)) = .ok (.deRun 0 [1 / 2] 2) := by decide +kernel

theorem test_decode_data_path :
    decode .cmd (0x80 :: (count 2 ++ [0x00, 0x7F])) = .ok (.iqConvert [0x00, 0x7F]) ∧
    decode .cmd [0x81, 0, 0] = .ok (.setMode (.wbfm none)) ∧
    decode .cmd (0x81 :: 1 :: real 9 0) = .ok (.setMode (.nbfm 9)) ∧
    decode .cmd (0x82 :: (count 2 ++ [0x80, 0x81] ++ [1] ++ real 0 0 ++ count 1 ++ [0x55])) =
      .ok (.process [0x80, 0x81] true 0 [0x55]) ∧
    decode .msg (0 :: (count 2 ++ [0x80, 0x81] ++ [0] ++ real 0 0 ++ count 0)) =
      .ok (.msgProcess [0x80, 0x81] false 0 []) ∧
    decode .msg (1 :: 2 :: real 10 0) = .ok (.msgSetMode (.am 10)) ∧
    decode .msg (1 :: 3 :: (real 27 0 ++ [1])) = .ok (.msgSetMode (.ssb 27 true)) := by decide +kernel

theorem test_decode_packets :
    decode .setup [0xC0, 0x00, 0x34, 0x12, 0x00, 0x03, 0x04, 0x00] = .ok (.setupControlRead 0x1234 0x0300 4) ∧
    decode .setup [0x40, 0x00, 0x34, 0x12, 0x10, 0x03, 0x01, 0x00, 0xAA] = .ok (.setupControlWrite 0x1234 0x0300 [0xAA]) ∧
    decode .setup [0xC0, 0x00, 0x48, 0x21, 0x00, 0x01, 0x02, 0x00] = .ok (.setupRegRead 0x0100 0x2148 2) ∧
    decode .setup [0x40, 0x00, 0x00, 0x20, 0x10, 0x01, 0x04, 0x00, 0x44, 0x33, 0x22, 0x11] =
      .ok (.setupRegWrite 0x0100 0x2000 [0x44, 0x33, 0x22, 0x11]) ∧
    decode .setup [0xC0, 0x00, 0x20, 0x01, 0x01, 0x00, 0x01, 0x00] = .ok (.setupDemodRead true 0x01 1) ∧
    decode .setup [0x40, 0x00, 0x20, 0x19, 0x10, 0x00, 0x01, 0x00, 0xF8] = .ok (.setupDemodWrite false 0x19 [0xF8]) ∧
    decode .setup [0xC0, 0x00, 0x34, 0x00, 0x00, 0x06, 0x05, 0x00] = .ok (.setupI2cRead 5) ∧
    decode .setup [0x40, 0x00, 0x34, 0x00, 0x10, 0x06, 0x02, 0x00, 0x10, 0x80] = .ok (.setupI2cWrite 0x10 [0x80]) ∧
    decode .bulk (0x01 :: num 8) = .ok (.bulkIn 8) := by decide +kernel

theorem test_decode_named_registers :
    decode .setup [0x40, 0x00, 0x00, 0x20, 0x10, 0x01, 0x01, 0x00, 0x09] = .ok (.setupSysctlWrite 0x09) ∧
    decode .setup [0x40, 0x00, 0x58, 0x21, 0x10, 0x01, 0x02, 0x00, 0x00, 0x02] = .ok (.setupEpaMaxpktWrite 0x00 0x02) ∧
    decode .setup [0x40, 0x00, 0x48, 0x21, 0x10, 0x01, 0x02, 0x00, 0x10, 0x02] = .ok (.setupEpaCtlWrite 0x10 0x02) ∧
    decode .setup [0x40, 0x00, 0x00, 0x30, 0x10, 0x02, 0x01, 0x00, 0xE8] = .ok (.setupDemodCtlWrite 0xE8) ∧
    decode .setup [0x40, 0x00, 0x0B, 0x30, 0x10, 0x02, 0x01, 0x00, 0x22] = .ok (.setupDemodCtl1Write 0x22) ∧
    decode .setup [0x40, 0x00, 0x20, 0x01, 0x11, 0x00, 0x01, 0x00, 0x18] = .ok (.setupI2cBridgeWrite 0x18) ∧
    decode .setup [0x40, 0x00, 0x20, 0x19, 0x11, 0x00, 0x01, 0x00, 0xF8] = .ok (.setupIfMultHiWrite 0xF8) ∧
    decode .setup [0x40, 0x00, 0x20, 0x1A, 0x11, 0x00, 0x01, 0x00, 0x11] = .ok (.setupIfMultMidWrite 0x11) ∧
    decode .setup [0x40, 0x00, 0x20, 0x1B, 0x11, 0x00, 0x01, 0x00, 0x2C] = .ok (.setupIfMultLoWrite 0x2C) ∧
    decode .setup [0x40, 0x00, 0x20, 0x3E, 0x11, 0x00, 0x01, 0x00, 0xFC] = .ok (.setupPpmOffHiWrite 0xFC) ∧
    decode .setup [0x40, 0x00, 0x20, 0x3F, 0x11, 0x00, 0x01, 0x00, 0xBA] = .ok (.setupPpmOffLoWrite 0xBA) := by
  decide +kernel

theorem test_decode_refuses :
    decode .cmd [0x06] = .error (.unknownOp 6) ∧ decode .cmd [0x72] = .error (.unknownOp 0x72) ∧
    decode .cmd [] = .error .truncated ∧ decode .cmd [0x15, 1] = .error .trailing ∧ decode .msg [2] = .error (.unknownTag 2) ∧
    decode .msg [1, 4] = .error (.unknownMode 4) ∧ decode .cmd [0x24, 2] = .error (.badFlag 2) ∧
    decode .setup [0x41, 0x00, 0x20, 0x01, 0x11, 0x00, 0x01, 0x00, 0x18] = .error .notVendorRequest ∧
    decode .setup [0x40, 0x01, 0x20, 0x01, 0x11, 0x00, 0x01, 0x00, 0x18] = .error .notVendorRequest ∧
    decode .setup [0xC0, 0x00, 0x20, 0x01, 0x11, 0x00, 0x01, 0x00] = .error .notVendorRequest ∧
    decode .bulk (0x02 :: num 8) = .error (.badEndpoint 2) := by decide +kernel

/-- At the host's control-path port only the host's own numbers stand (R121, R123). -/
theorem test_decode_host : decode .host [0x31] = .ok .rtlOpen ∧ decode .host [0x05] = .ok .closeDevice ∧
    decode .host [0x01, 0x48, 0x21, 0x00, 0x01] = .error (.internalOp 1) ∧ decode .host [0x15] = .error (.internalOp 0x15) ∧
    decode .host [0x2B] = .error (.internalOp 0x2B) ∧ decode .host [0x37] = .error (.internalOp 0x37) := by decide +kernel

/-- A trace lists setup packets with their data stages; a read's is the device's answer (R125). -/
theorem test_decode_read_with_data :
    decode .setup [0xC0, 0x00, 0x34, 0x00, 0x00, 0x06, 0x05, 0x00, 0x69, 0x00, 0x02, 0x00, 0xB4] = .ok (.setupI2cRead 5) := by
  decide +kernel

theorem test_encode_bridge : encode (.setupI2cBridgeWrite 0x18) = [0x40, 0x00, 0x20, 0x01, 0x11, 0x00, 0x01, 0x00, 0x18] := by
  decide +kernel

theorem test_fetch_bridge : decodeTableWord 72 0x180001001101200040 = some (.setupI2cBridgeWrite 0x18) := by decide +kernel


/-! ## Single steps: the values of spec 95_test_vectors -/

/-- Every transfer succeeds; the tuner's reads give the scripted bytes. -/
def plan (status : List (List Byte)) : DevicePlan := { answers := some [], status := status, samples := [] }

/-- The block at power-up, with a device that answers. -/
def idle : State := { State.reset with plan := plan [] }

/-- An open device, `ppm` 50, automatic gain. -/
def opened : State := { idle with opened := true, handle := some 7, ppm := some 50, gain := some .auto }

/-- An open device whose interface is claimed. -/
def claimed : State := { opened with claimed := true }

/-- A tuner that can be reached and has been initialised. -/
def tuned : State :=
  { claimed with
    i2cOpen := true
    bridge := .forwarding
    tunerReady := true
    shadow := some (Vector.replicate 27 0)
    xtalFreq := some 28801440 }

/-- The state of a next outcome. -/
def nextState : Host.Outcome State Fault Refusal → State
  | .next t => t
  | _ => default

/-- The refusal of a refused outcome. -/
def refusal : Host.Outcome State Fault Refusal → Option Refusal
  | .refused r => some r
  | _ => none

/-- The fault of a faulting outcome. -/
def faultOf : Host.Outcome State Fault Refusal → Option Fault
  | .fault f => some f
  | _ => none

/-- A control transfer in wire order: the setup packet, then what was sent; the answer to a read left out. -/
def wire : Transfer → List Byte
  | .control setup data => leBytes 8 setup.toNat ++ (if setup.getLsbD 7 then [] else data)
  | _ => []

/-- The transfers of a next outcome. -/
def sent (o : Host.Outcome State Fault Refusal) : List (List Byte) := (nextState o).trace.map wire

/-- What a program leaves. -/
def leaves {α : Type} (m : Ctl α) (s : State) : State :=
  match m s with
  | .ok _ t => t
  | .error _ t => t

theorem test_control_read : sent (exec (.controlRead 0x0034 0x0600 5) tuned) =
    [[0xC0, 0x00, 0x34, 0x00, 0x00, 0x06, 0x05, 0x00]] := by decide +kernel
theorem test_control_write : sent (exec (.controlWrite 0x2148 0x0100 [0x10, 0x02]) opened) =
    [[0x40, 0x00, 0x48, 0x21, 0x10, 0x01, 0x02, 0x00, 0x10, 0x02]] := by decide +kernel
theorem test_control_write_answer :
    (nextState (exec (.controlWrite 0x2148 0x0100 [0x10]) { opened with plan := { plan [] with answers := some [(0, ⟨-4, 0⟩)] } })).fault
      = true := by decide +kernel
theorem test_short_read_is_error :
    (nextState (exec (.controlRead 0x0034 0x0600 5) { tuned with plan := { plan [] with answers := some [(0, ⟨0, 1⟩)] } })).fault
      = true := by decide +kernel
theorem test_bulk_read : (nextState (exec (.bulkRead 4) { claimed with plan := { plan [] with samples := [1, 2, 3, 4, 5] } })).result
    = .bytes [1, 2, 3, 4] := by decide +kernel
theorem test_close_device_claimed : (nextState (exec .closeDevice claimed)).opened = true := by decide +kernel
theorem test_write_reg_high_bytes : sent (exec (.writeReg 0x100 0x2148 0x12340210 2) opened) =
    [[0x40, 0x00, 0x48, 0x21, 0x10, 0x01, 0x02, 0x00, 0x10, 0x02]] := by decide +kernel
theorem test_read_reg : (nextState (exec (.readReg 0x100 0x2148 2)
    { opened with mem := [(cellAddr 0x100 0x2148, 0x10), (cellAddr 0x100 0x2149, 0x02)] })).result = .uint 0x0210 := by
  decide +kernel
theorem test_write_reg_mask : sent (exec (.writeRegMask 0x200 0x300B 0x3C 0x0F)
    { opened with mem := [(cellAddr 0x200 0x300B, 0xA5)] }) =
    [[0xC0, 0x00, 0x0B, 0x30, 0x00, 0x02, 0x01, 0x00], [0x40, 0x00, 0x0B, 0x30, 0x10, 0x02, 0x01, 0x00, 0xAC]] := by
  decide +kernel
theorem test_write_reg_mask_full : sent (exec (.writeRegMask 0x200 0x300B 0x3C 0xFF) opened) =
    [[0x40, 0x00, 0x0B, 0x30, 0x10, 0x02, 0x01, 0x00, 0x3C]] := by decide +kernel
theorem test_write_demod_reg : sent (exec (.writeDemodReg 1 0x70 0x0708 2) opened) =
    [[0x40, 0x00, 0x20, 0x70, 0x11, 0x00, 0x02, 0x00, 0x07, 0x08]] := by decide +kernel
theorem test_write_demod_page0 : sent (exec (.writeDemodReg 0 0x19 0xF8 1) opened) =
    [[0x40, 0x00, 0x20, 0x19, 0x10, 0x00, 0x01, 0x00, 0xF8]] := by decide +kernel
theorem test_read_demod_reg : sent (exec (.readDemodReg 1 0x01) opened) =
    [[0xC0, 0x00, 0x20, 0x01, 0x01, 0x00, 0x01, 0x00]] := by decide +kernel
theorem test_open_i2c : sent (exec .openI2c opened) = [[0x40, 0x00, 0x20, 0x01, 0x11, 0x00, 0x01, 0x00, 0x18]] := by
  decide +kernel
theorem test_close_i2c : sent (exec .closeI2c opened) = [[0x40, 0x00, 0x20, 0x01, 0x11, 0x00, 0x01, 0x00, 0x10]] := by
  decide +kernel
theorem test_i2c_write_reg : sent (exec (.i2cWriteReg 0x34 0x10 0x80) tuned) =
    [[0x40, 0x00, 0x34, 0x00, 0x10, 0x06, 0x02, 0x00, 0x10, 0x80]] := by decide +kernel
theorem test_i2c_write_closed : refusal (exec (.i2cWriteReg 0x34 0x10 0x80) opened) = some .bridgeClosed := by decide +kernel
theorem test_i2c_read_buf : sent (exec (.i2cReadBuf 0x34 0x00 5) tuned) =
    [[0x40, 0x00, 0x34, 0x00, 0x10, 0x06, 0x01, 0x00, 0x00], [0xC0, 0x00, 0x34, 0x00, 0x00, 0x06, 0x05, 0x00]] := by
  decide +kernel
theorem test_i2c_read_reg : (nextState (exec (.i2cReadReg 0x34 0x00) { tuned with plan := plan [[0x69]] })).result =
    .uint 0x69 := by decide +kernel
theorem test_tuner_read : (nextState (exec (.r820tRead 5) { tuned with plan := plan [[0x69, 0x00, 0x02, 0x00, 0xB4]] })).result =
    .bytes [0x96, 0x00, 0x40, 0x00, 0x2D] := by decide +kernel
theorem test_tuner_mask : sent (exec (.r820tWriteMask 0x10 0x80 0xE0)
    { tuned with shadow := some (Vector.replicate 27 0x10) }) =
    [[0x40, 0x00, 0x34, 0x00, 0x10, 0x06, 0x02, 0x00, 0x10, 0x90]] := by decide +kernel

/-! ### Programs P1, P2, P5 with configuration TC -/

/-- A TRIPLE of TC. -/
def tcTriple (reg value mask : Nat) : Config.TableTriple :=
  ⟨Fin.ofNat 27 (reg - 5), BitVec.ofNat 8 value, BitVec.ofNat 8 mask⟩

/-- Configuration TC of spec 95_test_vectors. -/
def tcTables : Config.Tables :=
  { r820tDefaults := Vector.ofFn fun k => BitVec.ofNat 8 (5 + k.val)
    r820tInitElec := []
    r820tInitPost := []
    r820tCalPre := []
    r820tCalStart := [tcTriple 0x0B 0x10 0x10]
    r820tCalStop := [tcTriple 0x0B 0x00 0x10]
    r820tPllPre := []
    r820tMuxGaps := Vector.ofFn fun k =>
      ⟨if k.val = 0 then 0 else 99, tcTriple 0x17 k.val 0x0F, tcTriple 0x1A (k.val * 16) 0xF0, tcTriple 0x1B k.val 0xFF⟩
    r820tPowerdown := Vector.ofFn fun k => tcTriple (5 + k.val) 0x00 0xFF
    gainStep := fun _ => 0
    gainRegs := fun _ _ => []
    autoGainSeq := [tcTriple 0x05 0x10 0x10]
    rtlInit := ⟨[], [], [⟨.demod true 0x15 0x01 .one, by decide⟩], false⟩
    ratioRegs := fun r => [⟨⟨true, 0x70, r.toNat / 65536, .two⟩, rfl⟩, ⟨⟨true, 0x72, r.toNat % 65536, .two⟩, rfl⟩]
    wbfmCutoffNumLess1 := 15999
    wbfmCutoffDenLess1 := 0
    wbfmTapsLess1 := 40
    nbfmKernelLenLess1 := fun _ => 100
    signalLevelParts := fun _ => (0, 0)
    validComposite := fun m => m.carrier }

/-- TC with the reference numerics and the decided defaults. -/
def tc : Config.Params := { tcTables with num := referenceNum, relPowerAm := relativePower }

theorem test_tc_thresholds : (List.range 15).map (Config.muxThreshold tc.r820tMuxGaps) = (List.range 15).map (100 * ·) := by
  decide +kernel

/-- The first bytes and the last of a setup packet to the tuner's registers, a write of one byte. -/
def toTuner (reg value : Byte) : List Byte := [0x40, 0x00, 0x34, 0x00, 0x10, 0x06, 0x02, 0x00, reg, value]
/-- The pointer write to register 0x00. -/
def toStatus : List Byte := [0x40, 0x00, 0x34, 0x00, 0x10, 0x06, 0x01, 0x00, 0x00]
/-- The read of five status bytes. -/
def fromStatus : List Byte := [0xC0, 0x00, 0x34, 0x00, 0x00, 0x06, 0x05, 0x00]
/-- A write of one byte to a DEMOD register of page 1. -/
def toDemod (reg value : Byte) : List Byte := [0x40, 0x00, 0x20, reg, 0x11, 0x00, 0x01, 0x00, value]

/-- The shadow after P1, registers 0x05 to 0x1F. -/
def shadowP1 : Vector Byte 27 :=
  #v[0x15, 0x06, 0x07, 0x08, 0x09, 0x0A, 0x0B, 0x0C, 0x0D, 0x0E, 0x0F, 0x90, 0x11, 0x12, 0x13, 0x84, 0x0B, 0x1C, 0x17, 0x18,
     0x19, 0x1A, 0x1B, 0x1C, 0x1D, 0x1E, 0x1F]

/-- The end of P1, as far as the tests below read it. -/
def afterP1 : State := { tuned with i2cOpen := false, bridge := .blocked, shadow := some shadowP1 }

/-- P1's `rtl.open`. -/
def runP1 : State :=
  leaves (rtlOpen tc) { opened with plan := plan [[0x69], [0x69, 0, 0, 0, 0x04], [0x69, 0, 0x02, 0, 0x04], [0x69, 0, 0x02, 0, 0xF4]] }

theorem test_p1_trace : runP1.trace.map wire =
    [[0x40, 0x00, 0x00, 0x20, 0x10, 0x01, 0x01, 0x00, 0x09], [0x40, 0x00, 0x58, 0x21, 0x10, 0x01, 0x02, 0x00, 0x00, 0x02], [],
     [0x40, 0x00, 0x00, 0x30, 0x10, 0x02, 0x01, 0x00, 0xE8], [0x40, 0x00, 0x0B, 0x30, 0x10, 0x02, 0x01, 0x00, 0x22],
     toDemod 0x15 0x01, toDemod 0x01 0x18, toStatus, [0xC0, 0x00, 0x34, 0x00, 0x00, 0x06, 0x01, 0x00], toDemod 0x19 0xF8,
     toDemod 0x1A 0x11, toDemod 0x1B 0x2C,
     [0x40, 0x00, 0x34, 0x00, 0x10, 0x06, 0x1C, 0x00] ++ (List.range 28).map (fun k => if k = 0 then 5 else BitVec.ofNat 8 (k + 4)),
     toStatus, fromStatus, toTuner 0x10 0x90, toTuner 0x14 0x84, toTuner 0x16 0x1C, toTuner 0x15 0x0B, toStatus, fromStatus,
     toTuner 0x0B 0x1B, toTuner 0x0B 0x0B, toStatus, fromStatus, toTuner 0x0A 0x0A, toTuner 0x05 0x15, toDemod 0x01 0x10] := by
  decide +kernel
theorem test_p1_end : runP1.shadow = some shadowP1 ∧ runP1.filterCap = some 0 ∧ runP1.xtalFreq = some 28801440 ∧
    runP1.tunerReady = true ∧ runP1.hasPllLock = true ∧ runP1.i2cOpen = false ∧ runP1.seq = SeqPos.rest := by decide +kernel

theorem test_p2_rate : (leaves (rtlSetSampleRate tc 1024000) afterP1).trace.map wire =
    [[0x40, 0x00, 0x20, 0x70, 0x11, 0x00, 0x02, 0x00, 0x07, 0x08], [0x40, 0x00, 0x20, 0x72, 0x11, 0x00, 0x02, 0x00, 0x00, 0x00],
     toDemod 0x3E 0xFC, toDemod 0x3F 0xBA, toDemod 0x01 0x14, toDemod 0x01 0x10] := by decide +kernel
theorem test_p2_tune : (leaves (rtlSetCenterFrequency tc 88500000)
      { afterP1 with plan := plan [[0x69, 0, 0, 0, 0x04], [0x69, 0, 0, 0, 0x04], [0x69, 0, 0x02, 0, 0x04]] }).trace.map wire =
    [toDemod 0x01 0x18, toTuner 0x17 0x10, toTuner 0x1A 0x0A, toTuner 0x1B 0x00, toStatus, fromStatus, toTuner 0x10 0x90,
     toTuner 0x14 0x89, toTuner 0x16 0x25, toTuner 0x15 0xBE, toStatus, fromStatus, toTuner 0x12 0x72, toStatus, fromStatus,
     toDemod 0x01 0x10] := by decide +kernel
theorem test_p2_buffer : sent (exec .rtlResetBuffer claimed) =
    [[0x40, 0x00, 0x48, 0x21, 0x10, 0x01, 0x02, 0x00, 0x10, 0x02],
     [0x40, 0x00, 0x48, 0x21, 0x10, 0x01, 0x02, 0x00, 0x00, 0x00]] := by decide +kernel
theorem test_p2_read :
    (nextState (step { claimed with
      reads := [⟨8, ⟨.readSamples, 0⟩⟩], actualRate := some 1024000
      plan := { plan [] with samples := [0x00, 0x7F, 0x80, 0xFF, 0x80, 0x80, 0xFF, 0x00] } })).result =
    .raw [0x00, 0x7F, 0x80, 0xFF, 0x80, 0x80, 0xFF, 0x00] (some 1024000) := by decide +kernel

/-- P5's failed tune. -/
def runP5 : State :=
  nextState (runHostOp .rtlSetCenterFrequency (do
    rtlSetCenterFrequency tc 100100000
    pure .nothing) { afterP1 with plan := plan (List.replicate 3 [0x69, 0, 0, 0, 0x04]) })

theorem test_p5_error : runP5.errors =
    [{ kind := .pllNotLocked, info := .pll .tune 100100000, pos := some ⟨.setCenterFrequency, 16⟩ }] := by decide +kernel
theorem test_p5_state : runP5.fault = true ∧ runP5.hasPllLock = false ∧ runP5.i2cOpen = false ∧ runP5.tunerReady = true ∧
    runP5.seq = SeqPos.rest ∧ runP5.shadow.map (fun sh => sh.toList.drop 11) =
      some [0x90, 0x11, 0x72, 0x13, 0x0B, 0x6F, 0x97, 0x11, 0x18, 0x19, 0x1A, 0x01, 0x1C, 0x1D, 0x1E, 0x1F] := by decide +kernel
theorem test_p5_ignored : (nextState (exec (.rtlSetCenterFrequency 88500000) runP5)).trace = runP5.trace := by decide +kernel
theorem test_p5_close : (leaves (rtlClose tc) { runP5 with trace := [] }).trace.map wire =
    [toDemod 0x01 0x18] ++ (List.range 11).map (fun k => toTuner (BitVec.ofNat 8 (5 + k)) 0x00) ++ [toDemod 0x01 0x10, []] := by
  decide +kernel

/-! ### The data path -/

/-- A filter instance in place. -/
def withFir : State := nextState (exec (.firNew [1, 2, 3] 1) idle)

theorem test_p3_fir_new : withFir.firs = [{ c := [3, 2, 1], step := 1, buf := [0, 0], n := 0 }] := by decide +kernel
theorem test_p3_fir_load : (nextState (exec (.firLoad 0 [1, 0, 0, 0]) withFir)).firs =
    [{ c := [3, 2, 1], step := 1, buf := [0, 0, 1, 0, 0, 0], n := 4 }] := by decide +kernel
theorem test_p3_fir_get : (nextState (exec (.firGet 0 1)
    { idle with firs := [{ c := [3, 2, 1], step := 1, buf := [0, 0, 5, 6], n := 2 }] })).result = .real 16 := by decide +kernel
theorem test_fir_get_outside : refusal (exec (.firGet 0 2)
    { idle with firs := [{ c := [3, 2, 1], step := 1, buf := [0, 0, 5, 6], n := 2 }] }) = some (.getOutOfRange 2) := by decide +kernel
theorem test_p3_downsample : (nextState (exec (.dsDownsample 0 [1, 2, 3, 4, 5, 6] 4)
    (nextState (exec (.dsNew 4 2 [1 / 2, 1 / 2]) idle)))).result = .mono ⟨[1 / 2, 5 / 2, 9 / 2], 2⟩ := by decide +kernel
theorem test_downsample_positions : (nextState (exec (.dsDownsample 0 [10, 11, 12, 13, 14, 15] 3)
    (nextState (exec (.dsNew 3 2 [1]) idle)))).result = .mono ⟨[10, 11, 13, 14], 2⟩ := by decide +kernel
theorem test_iq_downsample : (nextState (exec (.iqdsDownsample 0 [(5, 50), (7, 70)] 2)
    (nextState (exec (.iqdsDownsample 0 [(1, 10), (3, 30)] 2)
      (nextState (exec (.iqdsNew 2 1 [1 / 2, 1 / 2]) idle)))))).result = .iq ⟨[(4, 40)], 1⟩ := by decide +kernel
theorem test_lowpass_one_tap : (nextState (exec (.getLowpassFirCoeffs 8 2 1) idle)).result = .reals [1] := by decide +kernel

/-- The demodulator of P6. -/
def withFm : State := nextState (exec (.fmNew 4 4 1 1 1) idle)

theorem test_p6_first : (nextState (exec (.fmDemodulate 0 [(1, 0), (0, 1), (-1, 0), (0, -1)] 4) withFm)).result =
    .demodulated ⟨[0, 1, 1, 1], 4⟩ true := by decide +kernel
theorem test_p6_second :
    (nextState (exec (.fmDemodulate 0 [(1, 0), (0, -1), (-1, 0), (0, 1)] 4)
      (nextState (exec (.fmDemodulate 0 [(1, 0), (0, 1), (-1, 0), (0, -1)] 4) withFm)))).result =
    .demodulated ⟨[1, -1, -1, -1], 4⟩ true := by decide +kernel

/-- An AM demodulator without filtering. -/
def withAm : State := nextState (exec (.amNew 4 4 1 1) idle)

theorem test_am_block : (nextState (exec (.amDemodulate 0 [(3, 0), (-3, 0), (1, 0), (-1, 0)] 4) withAm)).result =
    .demodulated ⟨[1 / 2, 1 / 2, -1 / 2, -1 / 2], 4⟩ true := by decide +kernel
theorem test_am_constant : (nextState (exec (.amDemodulate 0 [(2, 0), (2, 0), (2, 0), (2, 0)] 4) withAm)).ams.map Am.carrier =
    [false] := by decide +kernel
theorem test_averager : (((Averager.make 3 true).add Config.chip 4).add Config.chip 4).avg = 7 / 4 ∧
    (((Averager.make 3 true).add Config.chip 4).add Config.chip 4).vari = 189 / 64 := by
  decide +kernel
theorem test_averager_no_memory : ((Averager.make 0 false).add Config.chip 7).avg = 7 := by decide +kernel
theorem test_separator_first : (phaseError 0 (1 / 10000), tableIndex 4) = (4, 8000) := by decide +kernel
theorem test_deemphasis_alpha :
    (Deemphasis.make Config.chip 48000 50).alpha < 6592406303 / 10000000000 ∧
    6592406302 / 10000000000 < (Deemphasis.make Config.chip 48000 50).alpha := by
  decide +kernel
theorem test_iq_convert : (nextState (exec (.iqConvert [0x00, 0x7F, 0x80, 0xFF]) idle)).result =
    .iq ⟨[(rnd32 Config.chip (-995 / 1000), rnd32 Config.chip (-28125 / 10000000)),
      (rnd32 Config.chip (5 / 1000), rnd32 Config.chip (9971875 / 10000000))], 1024000⟩ := by decide +kernel
theorem test_nbfm_multiple : [1, 5000, 10000, 10715, 10716, 12500, 75000, 75001].map (fun x : Rat => nbfmMultiple x) =
    [1, 1, 1, 1, 2, 2, 7, 8] := by decide +kernel
theorem test_process_offset : refusal (exec (.process [] true 200000 [])
    { idle with pipeline := some ⟨.am 1, .am (Am.make Config.chip 1024000 48000 [1])⟩ }) = some (.freqOffset 200000) := by decide +kernel
theorem test_am_level : amLevel Config.chip { Am.make Config.chip 4 4 [1] with relPower := 1 / 25 } = rnd32 Config.chip (7 / 10) ∧
    amLevel Config.chip { Am.make Config.chip 4 4 [1] with relPower := 1 } = 7 / 2 := by decide +kernel
theorem test_alpha_small : 0 < (Deemphasis.make Config.chip 48 50).alpha ∧ (Deemphasis.make Config.chip 48 50).alpha < 1 ∧
    0 < (Deemphasis.make Config.chip 1 1).alpha := by decide +kernel
theorem test_lowpass_tiny_cutoff : lowpass Config.chip (2 ^ 100) (1 / 2 ^ 110) 1 = some [1] := by decide +kernel

/-! ### Operations in progress, order of reads, operands wider than a field -/

theorem test_issue_then_second :
    (nextState (step (nextState (step { opened with inbox := [.issue [0x31], .issue [0x36]] })))).errors =
      [{ kind := .invalidState, info := .operation .rtlClose, pos := none }] := by decide +kernel
/-- The states of `n` steps. -/
def after : Nat → State → State
  | 0, s => s
  | n + 1, s => after n (nextState (step s))

/-- An issued `rtl.reset_buffer` and what the host does next. -/
def issuedReset (rest : List Event) : State := { claimed with inbox := .issue [0x34] :: rest }

theorem test_issue_then_completion :
    [0, 1, 2, 3].map (fun n => ((after n (issuedReset [.completion])).trace.length, (after n (issuedReset [.completion])).inbox.length))
      = [(0, 2), (0, 1), (1, 1), (2, 0)] := by decide +kernel
theorem test_progress_is_one_transaction : (after 2 (issuedReset [.progress])).trace.length = 1 ∧
    (after 2 (issuedReset [.progress])).seq = ⟨.resetBuffer, 1⟩ ∧ (after 2 (issuedReset [.progress])).running = some .rtlResetBuffer := by
  decide +kernel
theorem test_issued_end_as_waited : after 3 (issuedReset []) = nextState (exec .rtlResetBuffer claimed) := by decide +kernel
theorem test_close_device_in_flight :
    (after 2 { opened with inbox := [.issue [0x05], .command .cmd (0x30 :: (num 9 ++ num 50 ++ [0]))] }).errors =
      [{ kind := .invalidState, info := .operation .rtlNew, pos := none }] ∧
    (after 2 { opened with inbox := [.issue [0x05]] }).opened = false := by decide +kernel
theorem test_data_path_during_sequence :
    (after 2 (issuedReset [.command .cmd (0x80 :: count 0)])).result = .iq ⟨[], 1024000⟩ ∧
    (after 2 (issuedReset [.command .cmd (0x80 :: count 0)])).running = some .rtlResetBuffer := by decide +kernel
theorem test_transfer_during_sequence : refusal (step (after 1 (issuedReset [.command .cmd [0x15]]))) = some .sequencerBusy := by
  decide +kernel
theorem test_i2c_value_reduced :
    decode .cmd ([0x17, 0x34, 0x00, 0x10] ++ [0x80, 0x01, 0, 0, 0, 0, 0, 0]) = .ok (.i2cWriteReg 0x34 0x10 0x80) := by
  decide +kernel

/-- An entry of `RTL_INIT` in block I2C. -/
def i2cEntry : Config.InitEntry := .reg .i2c 0x34 0x05 .one
/-- The entry that opens the bridge. -/
def bridgeEntry : Config.InitEntry := .demod true 0x01 0x18 .one

/-- An entry of block I2C is sent through an open bridge and refused at a closed one (R106, R347). -/
theorem test_init_table_i2c : (leaves (initEntries [bridgeEntry, i2cEntry]) claimed).trace.map wire =
    [toDemod 0x01 0x18, [0x40, 0x00, 0x34, 0x00, 0x10, 0x06, 0x01, 0x00, 0x05]] ∧
    refusal (runOp (do
      initEntries [i2cEntry, bridgeEntry]
      pure .nothing) claimed) = some .bridgeClosed := by decide +kernel

/-- `rtl.close` of a ready tuner without a handler, its transfer number `n` failing. -/
def closesAt (n : Nat) : State := leaves (rtlClose tc) { tuned with
  handlerInstalled := false, plan := { plan [] with answers := some [(n, ⟨-4, 0⟩)] } }

/-- `r820t.close` clears `tunerReady` after its eleven writes, whatever `rtl.close` meets afterwards (R186). -/
theorem test_close_clears_ready : (closesAt 12).ended = true ∧ (closesAt 12).trace.length = 13 ∧ (closesAt 12).tunerReady = false ∧
    (closesAt 11).trace.length = 12 ∧ (closesAt 11).tunerReady = true := by decide +kernel

/-- A `process` message with no samples. -/
def processBytes (echo : Byte) : List Byte := 0 :: (count 0 ++ [0] ++ real 0 0 ++ count 1 ++ [echo])
/-- The echo a state's result carries. -/
def echoOf (s : State) : List Byte :=
  match s.result with
  | .audio _ _ echo _ _ => echo
  | _ => []
/-- An AM pipeline, two messages put at the port without waiting, and what the host does next. -/
def streaming (rest : List Event) : State :=
  { idle with
    pipeline := some ⟨.am 10000, .am (Am.make Config.chip 1024000 48000 [1])⟩
    inbox := [.submit (processBytes 1), .submit (processBytes 2)] ++ rest }

/-- Two blocks in flight; their responses come one by one, in the order of the blocks (R313). -/
theorem test_process_in_flight : ((after 2 (streaming [])).messages.length, echoOf (after 2 (streaming []))) = (2, []) ∧
    ((after 3 (streaming [])).messages.length, echoOf (after 3 (streaming []))) = (1, [1]) ∧
    ((after 4 (streaming [])).messages.length, echoOf (after 4 (streaming []))) = (0, [2]) := by decide +kernel
/-- A command of the data path takes its turn behind the blocks in flight (R292). -/
theorem test_command_behind_messages :
    (after 4 (streaming [.command .cmd (0x80 :: count 0)])).inbox.length = 1 ∧
    echoOf (after 4 (streaming [.command .cmd (0x80 :: count 0)])) = [2] ∧
    (after 5 (streaming [.command .cmd (0x80 :: count 0)])).result = .iq ⟨[], 1024000⟩ := by decide +kernel
/-- The host waits for one response and goes on. -/
theorem test_response : (after 3 (streaming [.response, .command .cmd [0x15]])).inbox.length = 1 ∧
    (after 3 (streaming [.response, .command .cmd [0x15]])).messages.length = 1 ∧
    refusal (step { idle with messages := [.msgSetMode (.ssb 2700 true)], inbox := [.response] }) =
      some (.badMode (.ssb 2700 true)) := by decide +kernel

/-- `rtl.close` whose first transfer fails. -/
def closesBadly (handler : Bool) : State := leaves (rtlClose tc) { claimed with
  handlerInstalled := handler, plan := { plan [] with answers := some [(0, ⟨-4, 0⟩)] } }

theorem test_close_with_handler : (closesBadly true).claimed = false ∧ (closesBadly true).ended = false ∧
    (closesBadly true).trace.length = 14 := by decide +kernel
theorem test_close_without_handler : (closesBadly false).ended = true ∧ (closesBadly false).trace.length = 1 ∧
    (closesBadly false).claimed = true := by decide +kernel
theorem test_bulk_read_behind_fatal : (nextState (exec (.bulkRead 2) { claimed with
    handlerInstalled := false, reads := [⟨4, ⟨.readSamples, 0⟩⟩, ⟨2, ⟨.readSamples, 0⟩⟩]
    plan := { plan [] with answers := some [(0, ⟨-4, 0⟩)] } })).reads.length = 1 := by decide +kernel
theorem test_bulk_read_behind_read_in_flight : (nextState (exec (.bulkRead 2) { claimed with
    reads := [⟨4, ⟨.readSamples, 0⟩⟩], plan := { plan [] with samples := [1, 2, 3, 4, 5, 6] } })).result = .bytes [5, 6] := by
  decide +kernel
theorem test_mask_operands_reduced : decode .cmd ([0x12, 0x00, 0x02, 0x0B, 0x30] ++ [0x3C, 0x01, 0, 0, 0, 0, 0, 0] ++
    [0x0F, 0xFF, 0, 0, 0, 0, 0, 0]) = .ok (.writeRegMask 0x0200 0x300B 0x3C 0x0F) := by decide +kernel
theorem test_i2c_without_device : sent (exec (.i2cWriteReg 0x36 0x10 0x80) tuned) =
    [[0x40, 0x00, 0x36, 0x00, 0x10, 0x06, 0x02, 0x00, 0x10, 0x80]] := by decide +kernel

/-! ## Witnesses: a state and operands that meet the hypotheses of each obligation -/

/-- The next transfer fails with code -4. -/
def failing (s : State) : State := { s with plan := { s.plan with answers := some [(s.drawNo, ⟨-4, 0⟩)] } }

/-- The next transfer falls one byte short. -/
def short (s : State) : State := { s with plan := { s.plan with answers := some [(s.drawNo, ⟨0, 1⟩)] } }

theorem allSucceed_plain {s : State} (h : s.plan.answers = some []) : allSucceed s := by
  intro n
  unfold answerOf
  rw [h]
  rfl

theorem failing_fails (s : State) : ¬ nextSucceeds (failing s) ∧ (answerOf (failing s).plan (failing s).drawNo).code ≠ 0 := by
  simp [nextSucceeds, failing, answerOf, Answer.success]

theorem short_fails (s : State) : ¬ nextSucceeds (short s) := by
  simp [nextSucceeds, short, answerOf, Answer.success]

theorem tuned_reachable : tunerReachable tuned := ⟨rfl, rfl, rfl⟩

/-- A state with everything the invariant speaks of: two reads in flight, a tuner, a pipeline. -/
def busy : State :=
  { tuned with
    mem := [(bridgeAddr, 0x18)]
    reads := [⟨8, ⟨.readSamples, 0⟩⟩, ⟨2, ⟨.readSamples, 0⟩⟩]
    messages := [.msgProcess [] false 0 [1, 0, 2, 0]]
    pipeline := some ⟨.am 10000, .am (Am.make Config.chip 1024000 48000 [1])⟩ }

theorem busy_inv : BlockInv busy where
  memory := by decide
  sequencer := rfl
  idleStep := fun _ => rfl
  onIByte := rfl
  progress := by simp [busy, tuned, claimed, opened, idle, State.reset]
  readCount := by decide
  readShape := by decide
  claimOpen := fun _ => rfl
  bridgeOpen := fun _ => rfl
  shadowed := fun _ => rfl
  waiting := by
    intro m hm
    cases List.mem_singleton.mp hm
    rfl
  chainFits := by
    intro p hp
    cases hp
    exact ⟨rfl, rfl⟩

theorem witness_DecodeOfEncode : (Instr.bulkRead (2 ^ 64 - 1)).encodable = true ∧
    (Instr.setupControlWrite 0x1234 0x0300 [0xAA]).encodable = true ∧ (Instr.firGet 0 (-2 ^ 63)).encodable = true ∧
    (hostOpOf (.rtlNew 1 (-2 ^ 63) .auto) = some .rtlNew ∧ isDataPath (.rtlNew 1 (-2 ^ 63) .auto) = false ∧
      (Instr.rtlNew 1 (-2 ^ 63) .auto).encodable = true) ∧
    (∀ t ∈ [(setupPacket 0xC0 0x0034 0x0600 5, [(0x69 : Byte), 0, 2, 0, 0xB4]), (setupPacket 0x40 0x0034 0x0610 0, [])],
      t.2.length = t.1.toNat / 2 ^ 48) := by
  decide +kernel

/-- `rtl.open` is in progress, and the host's next events. -/
def opening (inbox : List Event) : State :=
  { opened with running := some .rtlOpen, todo := programOf Config.chip .rtlOpen, seq := ⟨.opening, 0⟩, inbox := inbox }

/-- `rtl.reset_buffer` is in progress, and the host's next events. -/
def resetting (inbox : List Event) : State :=
  { claimed with running := some .rtlResetBuffer, todo := programOf Config.chip .rtlResetBuffer, seq := ⟨.resetBuffer, 0⟩, inbox := inbox }

theorem next_of {o : Host.Outcome State Fault Refusal} (h : faultOf o = none) (h' : refusal o = none) : o = .next (nextState o) := by
  cases o with
  | next t => rfl
  | fault f => cases h
  | refused r => cases h'

theorem witness_StepRunsDecoded :
    (idle.ended = false ∧ idle.running = none ∧ idle.inbox = [] ∧ idle.reads = [] ∧ idle.messages = []) ∧
    ({ idle with inbox := [.command .cmd [0x15]] } : State).inbox = .command .cmd [0x15] :: [] ∧
    decode .cmd [0x15] = .ok .openI2c ∧ decodeTableWord 8 0x15 = some .openI2c ∧
    decode .cmd [0x06] = .error (.unknownOp 6) ∧ decode .host [0x15] = .error (.internalOp 0x15) := by decide +kernel

theorem witness_StepRunsDecoded_progress :
    (decode .host [0x31] = .ok .rtlOpen ∧ sequenceOf .rtlOpen = some .opening ∧ hostOpOf .rtlOpen = some .rtlOpen ∧
      HostOp.rtlOpen.allowed opened = true ∧ opened.ended = false ∧ opened.running = none ∧
      ({ opened with inbox := [.issue [0x31]] } : State).inbox = .issue [0x31] :: []) ∧
    ((opening []).ended = false ∧ (opening []).running = some .rtlOpen ∧ (opening []).reads = [] ∧ (opening []).inbox = [] ∧
      (opening [.completion]).inbox = .completion :: [] ∧ (opening [.progress]).inbox = .progress :: []) ∧
    (decode .cmd (0x80 :: count 0) = .ok (.iqConvert []) ∧ isDataPath (.iqConvert []) = true) ∧
    (decode .host [0x36] = .ok .rtlClose ∧ decode .cmd [0x36] = .ok .rtlClose ∧ isDataPath .rtlClose = false ∧
      hostOpOf .rtlClose = some .rtlClose) :=
  ⟨by decide +kernel, ⟨rfl, rfl, rfl, rfl, rfl, rfl⟩, by decide +kernel, by decide +kernel⟩

/-- A move that goes on and a move that is the last; and every event of an operation in progress has a next state. -/
theorem witness_StepRunsDecoded_moves :
    (∃ t, move Config.chip (resetting [.completion]) = .next t ∧ t.running ≠ none) ∧
    (∃ t, move Config.chip (nextState (move Config.chip (resetting [.completion]))) = .next t ∧ t.running = none) ∧
    (∃ t, step (resetting []) = .next t) ∧ (∃ t, step (resetting [.progress]) = .next t) ∧
    ∃ t, step (resetting [.completion]) = .next t :=
  ⟨⟨_, next_of (by decide +kernel) (by decide +kernel), by decide +kernel⟩,
    ⟨_, next_of (by decide +kernel) (by decide +kernel), by decide +kernel⟩, ⟨_, next_of (by decide +kernel) (by decide +kernel)⟩,
    ⟨_, next_of (by decide +kernel) (by decide +kernel)⟩, _, next_of (by decide +kernel) (by decide +kernel)⟩

/-- A tuner that has been initialised, its interface claimed and its bridge closed. -/
def quiet : State := { tuned with i2cOpen := false, bridge := .blocked }

theorem witness_StepRunsDecoded_ends :
    (∀ s ∈ [opened, claimed, quiet], s.ended = false ∧ s.running = none ∧ s.todo = [] ∧ s.inbox = [] ∧ s.reads = [] ∧
      s.seq = ⟨.idle, 0⟩) ∧
    HostOp.rtlOpen.allowed opened = true ∧ HostOp.closeDevice.allowed opened = true ∧ HostOp.rtlSetSampleRate.allowed claimed = true ∧
    HostOp.rtlResetBuffer.allowed claimed = true ∧ HostOp.rtlClose.allowed claimed = true ∧
    HostOp.rtlSetCenterFrequency.allowed quiet = true ∧ sequenceOf .closeDevice = some .idle ∧
    sequenceOf (.rtlSetCenterFrequency 1) = some .setCenterFrequency := by decide +kernel

/-- The host puts a block at the port, waits for a response, or gives a command of the data path, with messages in flight. -/
theorem witness_StepRunsDecoded_messages :
    (idle.ended = false ∧ idle.messages = [] ∧ decode .msg (processBytes 1) = .ok (.msgProcess [] false 0 [1]) ∧
      decode .msg [2] = .error (.unknownTag 2) ∧
      ({ idle with inbox := [.submit [2]] } : State).inbox = .submit [2] :: []) ∧
    ((after 2 (streaming [.response])).ended = false ∧
      (after 2 (streaming [.response])).messages = .msgProcess [] false 0 [1] :: [.msgProcess [] false 0 [2]] ∧
      (after 2 (streaming [.response])).inbox = .response :: [] ∧ (after 2 (streaming [])).inbox = [] ∧
      (after 2 (streaming [])).running = none ∧ (after 2 (streaming [])).reads = []) ∧
    (({ idle with messages := [.msgSetMode (.am 1)], inbox := [.response] } : State).messages = .msgSetMode (.am 1) :: [] ∧
      isDataPath (.iqConvert []) = true ∧ decode .cmd (0x80 :: count 0) = .ok (.iqConvert [])) := by decide +kernel

theorem witness_ReservedNumbersRefused : (0x06 : Byte) ∉ operationNumbers ∧ (0x72 : Byte) ∉ operationNumbers ∧
    (0xFF : Byte) ∉ operationNumbers ∧ (2 : Byte) ≠ 0 ∧ (2 : Byte) ≠ 1 ∧ decode .cmd [0x82, 0] ≠ .ok .openI2c ∧
    decode .cmd [0x15] = .ok .openI2c ∧ (0x2B : Byte) ≠ 0x05 ∧ ¬ (0x30 ≤ (0x2B : Byte).toNat ∧ (0x2B : Byte).toNat ≤ 0x36) ∧
    ¬ (0x30 ≤ (0x37 : Byte).toNat ∧ (0x37 : Byte).toNat ≤ 0x36) ∧ decode .host [0x36] = .ok .rtlClose := by decide +kernel

theorem ok_of {m : Ctl Unit} {s : State} (h : (match m s with | .ok _ _ => true | .error _ _ => false) = true) :
    m s = .ok () (leaves m s) := by
  unfold leaves
  cases hm : m s with
  | ok a t => rfl
  | error e t => rw [hm] at h; cases h

theorem witness_StepKeepsInv : BlockInv busy ∧ (∃ t, step busy = .next t) ∧
    (∃ t, step { busy with inbox := [.command .cmd [0x16]] } = .next t) ∧
    BlockInv (resetting []) ∧ ∃ t, step (resetting []) = .next t :=
  ⟨busy_inv, ⟨_, rfl⟩, ⟨_, next_of (by decide +kernel) (by decide +kernel)⟩,
    { memory := rfl, sequencer := rfl, idleStep := fun h => (by cases h), progress := by simp [resetting, programOf]
      readCount := by decide, readShape := by decide, onIByte := rfl, claimOpen := fun _ => rfl, bridgeOpen := fun _ => rfl
      shadowed := fun h => (by cases h), waiting := fun _ h => (by cases h), chainFits := fun _ h => (by cases h) },
    _, next_of (by decide +kernel) (by decide +kernel)⟩

theorem witness_CanonicalMemoryUnique : Mem.wf [(5, 1), (9, 2)] = true ∧ Mem.wf ([] : Mem) = true ∧
    (∀ a, Mem.get [(5, 1), (9, 2)] a = Mem.get [(5, 1), (9, 2)] a) ∧ 0 < [(7 : Byte)].length :=
  ⟨by decide, by decide, fun _ => rfl, by decide⟩

theorem witness_ControlReadRule :
    readOf (.setupRegRead 0x0100 0x2148 2) = some (0x2148, 0x0100, 2) ∧ idle.opened = false ∧ tuned.opened = true ∧
    readOf (.controlRead 0x2148 0x0100 0) = some (0x2148, 0x0100, 0) ∧
    targetOf 0x2148 0x0100 = .ok (.register (cellAddr 0x0100 0x2148) (65536 - 0x2148)) ∧ reaches (.register 0 1) tuned ∧
    readOf (.setupI2cRead 5) = some (0x0034, 0x0600, 5) ∧ targetOf 0x0034 0x0600 = .ok .tuner ∧ reaches .tuner tuned ∧
    targetOf 0x0036 0x0600 = .ok .absent ∧ reaches .absent tuned ∧ nextSucceeds tuned ∧ ¬ nextSucceeds (failing tuned) ∧
    (answerOf (failing tuned).plan (failing tuned).drawNo).code ≠ 0 ∧ ¬ nextSucceeds (short tuned) ∧
    (answerOf (short tuned).plan (short tuned).drawNo).code = 0 :=
  ⟨rfl, rfl, rfl, rfl, by decide, trivial, rfl, by decide, rfl, by decide, rfl, rfl, (failing_fails _).1,
    (failing_fails _).2, short_fails _, by decide +kernel⟩

/-- A stored byte at the last place of a read, and tuner registers 0x05 and 0x1F at the first. -/
theorem witness_ControlReadRule_bytes :
    (1 < (2 : Word16).toNat ∧ 1 < 65536 - 0x2148 ∧
      ({ tuned with mem := [(cellAddr 0x0100 0x2148 + 1, 7)] } : State).mem.get (cellAddr 0x0100 0x2148 + 1) = some 7) ∧
    ∀ ptr ∈ [(0x05 : Byte), 0x1F], 0 < (1 : Word16).toNat ∧ 0x05 ≤ ptr.toNat + 0 ∧ ptr.toNat + 0 < 32 ∧
      ({ tuned with i2cPtr := ptr, mem := [(tunerAddr (ptr.toNat + 0), 7)] } : State).mem.get (tunerAddr (ptr.toNat + 0)) =
        some 7 := by decide +kernel

theorem witness_ControlWriteRule :
    writeOf (.setupSysctlWrite 9) = some (0x2000, 0x0100, [9]) ∧ writeOf (.controlWrite 0x2000 0x0100 []) = some (0x2000, 0x0100, []) ∧
    idle.opened = false ∧ tuned.opened = true ∧ 0 < (List.replicate 65535 (0 : Byte)).length ∧
    (List.replicate 65535 (0 : Byte)).length < 2 ^ 16 ∧
    targetOf 0x2000 (0x0100 &&& ~~~Config.writeFlag) = .ok (.register (cellAddr 0x0100 0x2000) (65536 - 0x2000)) ∧
    reaches (.register 0 1) tuned ∧ writeOf (.setupI2cWrite 0x1F [1]) = some (0x0034, 0x0600, [0x1F, 1]) ∧
    targetOf 0x0034 (0x0600 &&& ~~~Config.writeFlag) = .ok .tuner ∧ reaches .tuner tuned ∧
    (answerOf tuned.plan tuned.drawNo).code = 0 ∧ (answerOf (failing tuned).plan (failing tuned).drawNo).code ≠ 0 := by
  refine ⟨rfl, rfl, rfl, rfl, ?_, ?_, by decide, trivial, rfl, by decide, rfl, rfl, (failing_fails _).2⟩
  · rw [List.length_replicate]; decide
  · rw [List.length_replicate]; decide

theorem witness_WriteFrame_registers :
    writeOf (.setupI2cBridgeWrite 0x18) = some (0x0120, 0x0001, [0x18]) ∧ opened.opened = true ∧
    targetOf 0x0120 (0x0001 &&& ~~~Config.writeFlag) = .ok (.register bridgeAddr 255) ∧
    [(0x18 : Byte)].head? = some 0x18 ∧ [(0x10 : Byte)].head? = some 0x10 ∧
    writeOf (.setupEpaCtlWrite 0 0) = some (0x2148, 0x0100, [0, 0]) ∧
    targetOf 0x2148 (0x0100 &&& ~~~Config.writeFlag) = .ok (.register epaCtlAddr 57016) ∧
    Mem.get [(epaCtlAddr, 0x10), (epaCtlAddr + 1, 0x02)] epaCtlAddr = some 0x10 ∧
    Mem.get [(epaCtlAddr, 0x10), (epaCtlAddr + 1, 0x02)] (epaCtlAddr + 1) = some 0x02 ∧
    targetOf 0xFFFF (0x0200 &&& ~~~Config.writeFlag) = .ok (.register (cellAddr 0x0200 0xFFFF) 1) ∧
    ¬ (cellAddr 0x0200 0xFFFF ≤ bridgeAddr ∧ bridgeAddr < cellAddr 0x0200 0xFFFF + min 2 1) ∧
    (answerOf opened.plan opened.drawNo).code = 0 := by decide +kernel

theorem witness_WriteFrame_tuner :
    writeOf (.setupI2cWrite 0x1F [1, 2]) = some (0x0034, 0x0600, 0x1F :: [1, 2]) ∧ tuned.opened = true ∧
    tuned.bridge = .forwarding ∧ [(1 : Byte), 2].length + 1 < 2 ^ 16 ∧ (0x1F : Byte).toNat + 0 < 32 ∧
    tunerAddr (0x1F : Byte).toNat + min [(1 : Byte), 2].length (32 - (0x1F : Byte).toNat) ≤ tunerAddr 0x20 ∧
    (answerOf tuned.plan tuned.drawNo).code = 0 := by decide +kernel

theorem witness_TransferStops :
    readOf (.controlRead 0x2000 0x0300 2) = some (0x2000, 0x0300, 2) ∧ opened.opened = true ∧
    ((0x0300 : Word16) ≠ 0x0100 ∧ (0x0300 : Word16) ≠ 0x0200 ∧ (0x0300 : Word16) ≠ 0x0600 ∧ (0x0300 : Word16) ≠ 0x0000 ∧
      (0x0300 : Word16) ≠ 0x0001) ∧
    readOf (.setupI2cRead 5) = some (0x0034, 0x0600, 5) ∧ opened.bridge ≠ .forwarding ∧
    (readOf (.controlRead 0x0036 0x0600 1) = some (0x0036, 0x0600, 1) ∧ (0x0036 : Word16) ≠ 0x0034 ∧
      tuned.bridge = .forwarding) ∧
    writeOf (.setupControlWrite 0x2000 0x0300 [9]) = some (0x2000, 0x0300, [9]) ∧ (0x0300 : Word16) &&& 0x10 = 0 ∧
    writeOf (.setupI2cWrite 0x20 []) = some (0x0034, 0x0600, [0x20]) ∧ (0x0600 : Word16) &&& 0x10 = 0 ∧
    writeOf (.controlWrite 0x0036 0x0600 [1]) = some (0x0036, 0x0600, [1]) ∧ nextSucceeds tuned :=
  ⟨rfl, rfl, by decide, rfl, by decide, by decide, rfl, by decide, rfl, by decide, rfl, rfl⟩

/-- Two reads in flight, and the transfer after theirs fails. -/
def busyFailing : State := { busy with plan := { plan [] with answers := some [(2, ⟨-4, 0⟩)] } }

/-- Two reads in flight, and the transfer after theirs falls short. -/
def busyShort : State := { busy with plan := { plan [] with answers := some [(2, ⟨0, 1⟩)] } }

theorem witness_BulkReadRule :
    idle.opened = false ∧ opened.opened = true ∧ opened.claimed = false ∧ claimed.claimed = true ∧ 1 % 2 = 1 ∧ 0 < 2 ∧ 2 % 2 = 0 ∧
    claimed.reads = [] ∧ nextSucceeds (drained claimed) ∧ ¬ nextSucceeds (drained (failing claimed)) ∧ busy.reads ≠ [] ∧
    busy.claimed = true ∧ nextSucceeds (drained busy) ∧ ¬ nextSucceeds (drained busyFailing) ∧
    ¬ nextSucceeds (drained busyShort) :=
  ⟨rfl, rfl, rfl, rfl, rfl, by decide, rfl, rfl, rfl, (failing_fails claimed).1, by decide, rfl,
    by unfold nextSucceeds; decide +kernel, by unfold nextSucceeds; decide +kernel, by unfold nextSucceeds; decide +kernel⟩

/-- Two reads in flight, the first of which fails, and no handler. -/
def busyFatal : State := { failing busy with handlerInstalled := false }

theorem witness_BulkReadRule_drained : (drained busyFatal).ended = true ∧ (drained busy).ended = false ∧
    busyFatal.reads ≠ [] ∧ (completeOldest busyFatal).ended = true ∧ busy.reads ≠ [] ∧ (completeOldest busy).ended = false ∧
    (drained { busy with claimed := false }).ended = false ∧ (drained { busy with opened := false }).ended = false := by
  decide +kernel

theorem witness_InterfaceRule :
    (0 : Byte) ≠ 1 ∧ idle.opened = false ∧ opened.opened = true ∧ opened.claimed = false ∧ claimed.claimed = true ∧
    (answerOf opened.plan opened.drawNo).code = 0 ∧ (answerOf (failing claimed).plan (failing claimed).drawNo).code ≠ 0 :=
  ⟨by decide, rfl, rfl, rfl, rfl, rfl, (failing_fails _).2⟩

theorem witness_CloseDeviceRule :
    opened.opened = true ∧ opened.claimed = false ∧ (answerOf opened.plan opened.drawNo).code = 0 ∧
    (answerOf (failing opened).plan (failing opened).drawNo).code ≠ 0 ∧ idle.opened = false ∧ claimed.claimed = true :=
  ⟨rfl, rfl, rfl, (failing_fails _).2, rfl, rfl⟩

theorem witness_RegisterAccessRule :
    legalBlock 0x0300 = false ∧ legalBlock 0x0100 = true ∧
    (isRegLen 3 && Config.widthOk (Config.namedWidth 0x0100 0x2000) 3) = false ∧
    (isRegLen 1 && Config.widthOk (Config.namedWidth 0x0100 0x2148) 1) = false ∧ isRegLen 4 = true ∧
    Config.widthOk (Config.namedWidth 0x0100 0x2148) 2 = true ∧ Config.widthOk (Config.namedWidth 0x0100 0x1000) 4 = true ∧
    targetOf 0x2148 0x0100 = .ok (.register epaCtlAddr 57016) ∧ reaches (.register epaCtlAddr 57016) opened ∧
    legalBlock 0x0001 = true ∧ legalBlock 0x0000 = true ∧ nextSucceeds opened ∧ ¬ nextSucceeds (failing opened) :=
  ⟨by decide, by decide, by decide, by decide, by decide, by decide, by decide, by decide +kernel, trivial, by decide, by decide, rfl,
    (failing_fails _).1⟩

theorem witness_MaskedRegisterRule :
    legalBlock 0x0200 = true ∧ Config.widthOk (Config.namedWidth 0x0200 0x300B) 1 = true ∧ opened.opened = true ∧
    targetOf 0x300B 0x0200 = .ok (.register (cellAddr 0x0200 0x300B) 53237) ∧ (0x0F : Byte) ≠ 0xFF ∧
    reaches (.register (cellAddr 0x0200 0x300B) 53237) opened ∧ nextSucceeds opened ∧ ¬ nextSucceeds (failing opened) ∧
    nextSucceeds (afterRead 0x300B 0x0200 1 (.register (cellAddr 0x0200 0x300B) 53237) opened) ∧
    (answerOf (some [(1, (⟨-4, 0⟩ : Answer))] |> fun l => ⟨l, [], []⟩) 1).code ≠ 0 ∧ allSucceed opened ∧
    Mem.get [(cellAddr 0x0200 0x300B, (0xA5 : Byte))] (cellAddr 0x0200 (0x300B : Word16).toNat) = some 0xA5 :=
  ⟨by decide, by decide, rfl, by decide +kernel, by decide, trivial, rfl, (failing_fails _).1, rfl, by decide,
    allSucceed_plain rfl, by decide +kernel⟩

theorem witness_DemodRegisterRule :
    (2 : Byte) ≠ 0 ∧ (2 : Byte) ≠ 1 ∧ (0 : Byte) = (if false then 1 else 0) ∧ (1 : Byte) = (if true then 1 else 0) ∧
    (isRegLen 2 && Config.widthOk (Config.namedDemodWidth true 0x3E) 2) = false ∧ isRegLen 2 = true ∧
    Config.widthOk (Config.namedDemodWidth true 0x70) 2 = true ∧ Config.widthOk (Config.namedDemodWidth false 0x19) 4 = true ∧
    opened.opened = true ∧ nextSucceeds opened ∧ ¬ nextSucceeds (failing opened) :=
  ⟨by decide, by decide, rfl, rfl, by decide, by decide, by decide, by decide, rfl, rfl, (failing_fails _).1⟩

theorem witness_BridgeRule : opened.opened = true ∧ nextSucceeds opened ∧
    (answerOf (failing opened).plan (failing opened).drawNo).code ≠ 0 := ⟨rfl, rfl, (failing_fails _).2⟩

theorem witness_I2cRule : tunerReachable tuned ∧ nextSucceeds tuned ∧ allSucceed tuned ∧ [(1 : Byte), 2] ≠ [] ∧
    [(1 : Byte), 2].length + 1 < 2 ^ 16 ∧ (0x1F : Byte).toNat + 0 < 32 ∧ ¬ (0x1F : Byte).toNat + 1 < 32 ∧
    (0x36 : Word16) ≠ 0x34 ∧ 0 < 5 ∧ 5 < 2 ^ 16 ∧ 0 < 2 ^ 16 - 1 :=
  ⟨tuned_reachable, rfl, allSucceed_plain rfl, by decide, by decide, by decide, by decide, by decide, by decide, by decide,
    by decide⟩

theorem witness_BridgeClosedRefused : isI2cOp (.i2cReadReg 0x34 0) = true ∧
    (∀ addr reg, Instr.i2cReadReg 0x34 0 ≠ .i2cWriteBuf addr reg []) ∧ isI2cOp (.i2cWriteBuf 0x34 5 [1]) = true ∧
    (∀ addr reg, Instr.i2cWriteBuf 0x34 5 [1] ≠ .i2cWriteBuf addr reg []) ∧ isTunerOp .r820tInit = true ∧ opened.i2cOpen = false :=
  ⟨rfl, by simp, rfl, by simp, rfl, rfl⟩

theorem witness_TunerMaskRule : tunerReachable tuned ∧ ¬ (0x05 ≤ (0x04 : Byte).toNat ∧ (0x04 : Byte).toNat ≤ 0x1F) ∧
    ¬ (0x05 ≤ (0x20 : Byte).toNat ∧ (0x20 : Byte).toNat ≤ 0x1F) ∧ (0x1F : Byte).toNat = 0x05 + (26 : Fin 27).val ∧
    (0x05 : Byte).toNat = 0x05 + (0 : Fin 27).val ∧ tunerReachable { tuned with shadow := none } ∧
    tuned.shadow = some (Vector.replicate 27 0) ∧ nextSucceeds tuned ∧ tunerReachable (failing tuned) ∧
    (answerOf (failing tuned).plan (failing tuned).drawNo).code ≠ 0 ∧ (failing tuned).mem.wf = true :=
  ⟨tuned_reachable, by decide, by decide, by decide, by decide, ⟨rfl, rfl, rfl⟩, rfl, rfl, ⟨rfl, rfl, rfl⟩, (failing_fails _).2, rfl⟩

theorem witness_TunerReadRule : tunerReachable tuned ∧ allSucceed tuned ∧ 5 < 6 ∧ 1 ≤ 5 ∧ 5 ≤ 5 :=
  ⟨tuned_reachable, allSucceed_plain rfl, by decide, by decide, by decide⟩

/-- A tuner whose second transfer fails. -/
def failsSecond : State := { tuned with plan := { plan [] with answers := some [(1, ⟨-4, 0⟩)] } }

theorem witness_WriteEachRule : tunerReachable tuned ∧ allSucceed tuned ∧ tuned.shadow.isSome = true ∧
    (∀ t ∈ [(⟨0x05, 1, 0xFF⟩ : Triple), ⟨0x1F, 2, 0x0F⟩], t.legal = true) ∧
    (∃ s1, writeEach [⟨0x05, 1, 0xFF⟩] failsSecond = .ok () s1 ∧ s1.i2cOpen = true ∧ (answerOf s1.plan s1.drawNo).code ≠ 0) :=
  ⟨tuned_reachable, allSucceed_plain rfl, rfl, by decide, leaves (writeEach [⟨0x05, 1, 0xFF⟩]) failsSecond, ok_of (by decide +kernel),
    by decide +kernel, by decide +kernel⟩

/-- The tuner with the status bytes of its next reads. -/
def scripted (script : List (List Byte)) : State := { tuned with plan := plan script }

theorem scripted_ready (script : List (List Byte)) : tunerReachable (scripted script) ∧ allSucceed (scripted script) ∧
    (scripted script).shadow.isSome = true ∧ (scripted script).xtalFreq = some 28801440 :=
  ⟨⟨rfl, rfl, rfl⟩, allSucceed_plain rfl, rfl, rfl⟩

/-- A tune to 92.07 MHz whose fine-tune bits read 2. -/
def lockScript (lock : Bool) : List (List Byte) := [statusBytes false 2 0, statusBytes lock 2 0, statusBytes lock 2 0]

theorem inRange_92 (lock : Bool) {s : State} (h : s.plan.status = lockScript lock) :
    pllInRange Config.chip 92070000 28801440 s :=
  pllInRange_script h (by decide +kernel) (by decide +kernel) (by decide +kernel)

theorem witness_MuxAndFrequencyRule : 0 < 92070000 ∧ ({ tuned with tunerReady := false } : State).tunerReady = false ∧
    tunerReachable { tuned with tunerReady := false } ∧ (scripted (lockScript true)).tunerReady = true ∧
    tunerReachable (scripted (lockScript true)) ∧ allSucceed (scripted (lockScript true)) ∧
    (scripted (lockScript true)).shadow.isSome = true ∧ (scripted (lockScript true)).xtalFreq = some 28801440 ∧
    pllInRange Config.chip 92070000 28801440 (afterMasks (muxTriples Config.chip 92070000) (scripted (lockScript true))) :=
  ⟨by decide, rfl, ⟨rfl, rfl, rfl⟩, rfl, (scripted_ready _).1, (scripted_ready _).2.1, rfl, rfl,
    inRange_92 true (by rw [plan_afterMasks]; rfl)⟩

theorem divider_script (freq : Nat) (f : BitVec 2) :
    pllDivider Config.chip freq (scripted [statusBytes false f 0]) = divNumAdjusted Config.chip freq f.toNat := pllDivider_script freq rfl

/-- A divider above 7 is never reached: it is at most 6, plus one (R181). -/
theorem witness_SetPllRule :
    (∀ script, tunerReachable (scripted script) ∧ allSucceed (scripted script) ∧ (scripted script).shadow.isSome = true ∧
      (scripted script).xtalFreq = some 28801440) ∧
    pllInRange Config.chip 92070000 28801440 (scripted (lockScript true)) ∧
    (pllInRange Config.chip 92070000 28801440 (scripted [statusBytes false 1 0]) ∧
      63 < (pllWords Config.chip 92070000 28801440 (scripted [statusBytes false 1 0])).1) ∧
    pllDivider Config.chip 1800000000 (scripted [statusBytes false 3 0]) < 0 ∧
    (pllDivider Config.chip 10000000 (scripted [statusBytes false 3 0]) = 5 ∧
      (pllWords Config.chip 10000000 28801440 (scripted [statusBytes false 3 0])).1 < 13) := by
  refine ⟨scripted_ready, inRange_92 true rfl, ⟨pllInRange_script rfl (by decide +kernel) (by decide +kernel) (by decide +kernel), ?_⟩, ?_, ?_, ?_⟩
  · rw [pllWords, divider_script]; decide +kernel
  · rw [divider_script]; decide +kernel
  · rw [divider_script]; decide +kernel
  · rw [pllWords, divider_script]; decide +kernel

/-- An integer part inside 13 to 63, and the two ends of that range. -/
theorem witness_SetPllRule_words :
    (pllWords Config.chip 92070000 28801440 (scripted (lockScript true))).1 ≤ 63 ∧
    (Int.fdiv (13 - 13) 4 = 0 ∧ (13 : Int) - 4 * 0 - 13 = 0 ∧ Int.fdiv (63 - 13) 4 = 12 ∧ (63 : Int) - 4 * 12 - 13 = 2) ∧
    (28801440 : Int) ≠ 0 := by
  refine ⟨?_, by decide, by decide⟩
  rw [pllWords, pllDivider_script (l := false) (f := 2) (k := 0) 92070000 rfl]
  decide +kernel

theorem lock_of {l : Bool} {f : BitVec 2} {k : BitVec 4} {rest : List (List Byte)} {s : State}
    (h : s.plan.status = statusBytes l f k :: rest) : ((statusOf s).getD 2 0).getLsbD 6 = l := by
  rw [statusOf_script rfl h]
  exact statusBytes_lock l f k

theorem witness_LockPollRule :
    (∀ script, tunerReachable (scripted script) ∧ allSucceed (scripted script) ∧ (scripted script).shadow.isSome = true ∧
      (scripted script).xtalFreq = some 28801440) ∧
    ((statusOf (scripted [statusBytes true 2 0])).getD 2 0).getLsbD 6 = true ∧
    ((statusOf (scripted [statusBytes false 2 0])).getD 2 0).getLsbD 6 = false := ⟨scripted_ready, lock_of rfl, lock_of rfl⟩

theorem refOk : calRefOk 28801440 = true := by decide +kernel

theorem witness_CalibrationRule :
    (∀ script, tunerReachable (scripted script) ∧ allSucceed (scripted script) ∧ (scripted script).shadow.isSome = true ∧
      (scripted script).xtalFreq = some 28801440) ∧
    (calibrates Config.chip 28801440 true (scripted (calScript 0 [])) ∧
      calCode Config.chip 28801440 (scripted (calScript 0 [])) = 0) ∧
    (calibrates Config.chip 28801440 true (scripted (calScript 3 (calScript 5 []))) ∧
      calCode Config.chip 28801440 (scripted (calScript 3 (calScript 5 []))) ≠ 0) ∧
    calibrates Config.chip 28801440 false (scripted (calScript 3 (calScript 5 []))) ∧
    (pllInRange Config.chip 56000000 28801440 (calStart Config.chip (scripted (lockScript false))) ∧
      (afterPll Config.chip 56000000 28801440 (calStart Config.chip (scripted (lockScript false)))).hasPllLock = false) := by
  have h : (calStart Config.chip (scripted (lockScript false))).plan.status = lockScript false := by
    rw [calStart, plan_afterMasks]
    rfl
  refine ⟨scripted_ready, ⟨calibrates_zero rfl refOk, ?_⟩, ⟨calibrates_twice rfl refOk, ?_⟩, calibrates_twice rfl refOk,
    pllInRange_script h (by decide +kernel) (by decide +kernel) (by decide +kernel), afterPll_fails h (by decide +kernel)⟩
  · rw [(cal_script (c := Config.chip) (s := scripted (calScript 0 [])) rfl refOk).2.1]
    decide
  · rw [(cal_script (c := Config.chip) (s := scripted (calScript 3 (calScript 5 []))) rfl refOk).2.1]
    decide

/-- A first run that gives code 3, and a second run whose PLL does not lock. -/
theorem witness_CalibrationRule_second_run :
    calRuns Config.chip 28801440 (scripted (calScript 3 (lockScript false))) ∧
    calCode Config.chip 28801440 (scripted (calScript 3 (lockScript false))) ≠ 0 ∧
    pllInRange Config.chip 56000000 28801440
      (calStart Config.chip (afterCalRun Config.chip 28801440 (scripted (calScript 3 (lockScript false))))) ∧
    (afterPll Config.chip 56000000 28801440
      (calStart Config.chip (afterCalRun Config.chip 28801440 (scripted (calScript 3 (lockScript false)))))).hasPllLock
      = false := by
  obtain ⟨h1, h2, h3⟩ := cal_script (c := Config.chip) (s := scripted (calScript 3 (lockScript false))) rfl refOk
  have h : (calStart Config.chip (afterCalRun Config.chip 28801440 (scripted (calScript 3 (lockScript false))))).plan.status
      = lockScript false := by rw [calStart, plan_afterMasks, h3]
  refine ⟨h1, by rw [h2]; decide, pllInRange_script h (by decide +kernel) (by decide +kernel) (by decide +kernel),
    afterPll_fails h (by decide +kernel)⟩

theorem witness_TunerInitRule : tunerReachable (scripted (calScript 0 [])) ∧ allSucceed (scripted (calScript 0 [])) ∧
    (scripted (calScript 0 [])).xtalFreq = some 28801440 ∧
    calibrates Config.chip 28801440 true (afterMasks (triplesOf Config.chip.r820tInitElec) (afterTunerWrite 0x05
      Config.chip.r820tDefaults.toList { scripted (calScript 0 []) with shadow := some Config.chip.r820tDefaults })) :=
  ⟨(scripted_ready _).1, (scripted_ready _).2.1, rfl,
    calibrates_zero (by rw [plan_afterMasks]; exact congrArg DevicePlan.status (plan_afterWrite _ _ _ _ _)) refOk⟩

theorem witness_GainAndPowerDownRule : tunerReachable tuned ∧ allSucceed tuned ∧ tuned.shadow.isSome = true ∧
    ∃ step : Nat, (step : Int) = max 0 (min 28 (Config.chip.gainStep 10)) :=
  ⟨tuned_reachable, allSucceed_plain rfl, rfl, (max 0 (min 28 (Config.chip.gainStep 10))).toNat, by omega⟩

/-- A tuner whose registers hold what the shadow holds. -/
def mirrored : State := { tuned with mem := (List.range 27).map fun k => (tunerAddr (0x05 + k), 0) }

theorem mirrored_mirrors : mirrors mirrored := by
  intro sh hsh
  cases hsh
  decide +kernel

theorem witness_ShadowMirrorsDevice :
    (isTunerOp (.r820tWriteMask 0x10 0x80 0xE0) = true ∧ allSucceed mirrored ∧ tunerReachable mirrored ∧ mirrors mirrored ∧
      ∃ t, exec (.r820tWriteMask 0x10 0x80 0xE0) mirrored = .next t) ∧
    (∃ t, exec .r820tInit (scripted (calScript 0 [])) = .next t) := by
  refine ⟨⟨rfl, allSucceed_plain rfl, ⟨rfl, rfl, rfl⟩, mirrored_mirrors, _, next_of (by decide +kernel) (by decide +kernel)⟩, ?_⟩
  have h := tunerInit_ok (c := Config.chip) (scripted_ready (calScript 0 [])).1 (scripted_ready (calScript 0 [])).2.1 rfl
    (calibrates_zero (rest := []) (by rw [plan_initStart]; rfl) refOk)
  exact ⟨_, runOp_ok (Ctl.run_bind_ok h)⟩

theorem witness_TunerFrame : isTunerOp (.r820tGetPllLock true) = true ∧
    ∃ t, exec (.r820tGetPllLock true) (scripted (lockScript true)) = .next t :=
  ⟨rfl, _, next_of (by decide +kernel) (by decide +kernel)⟩

theorem witness_RtlNewRule : idle.opened = false ∧ opened.opened = true := ⟨rfl, rfl⟩

/-- An open device that answers with `status`. -/
def answering (status : List (List Byte)) : State := { opened with plan := plan status }

/-- TC with an entry of block I2C, which no entry opens the bridge for. -/
def tcI2c : Config.Params := { tc with rtlInit := ⟨[], [], [⟨i2cEntry, by decide⟩], false⟩ }

theorem witness_RtlOpenRule :
    (∀ status, HostOp.rtlOpen.allowed (answering status) = true ∧ allSucceed (answering status) ∧
      (answering status).ppm = some 50 ∧ (answering status).gain = some .auto) ∧
    (tableReaches tc (answering ([0x69] :: calScript 0 [])) ∧ opens tc 50 (answering ([0x69] :: calScript 0 []))) ∧
    (tableReaches tc (answering [[0x96]]) ∧ probedId tc 50 (answering [[0x96]]) ≠ 0x69) ∧
    ¬ tableReaches tcI2c (answering []) ∧
    ∀ block reg value len, Config.InitEntry.reg block reg value len ∈ tc.rtlInit.entries → block ≠ .i2c := by
  refine ⟨fun _ => ⟨rfl, allSucceed_plain rfl, rfl, rfl⟩, ⟨⟨trivial, trivial, trivial, trivial⟩, opens_script rfl (by decide +kernel)⟩,
    ⟨⟨trivial, trivial, trivial, trivial⟩, ?_⟩, ?_, ?_⟩
  · rw [probedId_script (b := 0x96) (rest := []) rfl]
    decide
  · intro h
    exact absurd (show (afterEntry Config.demodCtl1Entry (afterEntry Config.demodCtlEntry (openClaimed (answering [])))).bridge
      = .forwarding from h.2.2.1) (by decide)
  · intro block reg value len h
    rcases h with _ | ⟨_, _ | ⟨_, _ | ⟨_, h⟩⟩⟩
    · decide
    · decide
    · cases h

theorem witness_SetSampleRateRule : HostOp.rtlSetSampleRate.allowed claimed = true ∧ claimed.opened = true ∧ allSucceed claimed ∧
    claimed.ppm = some 50 ∧ 0 < 2 ^ 60 ∧ 28800000 * 2 ^ 22 / 2 ^ 60 &&& 0x0FFFFFFC = 0 ∧
    (28800000 * 2 ^ 22 / (28800000 * 2 ^ 22) &&& 0x0FFFFFFC = 0) ∧ 28800000 * 2 ^ 22 / (28800000 * 2 ^ 20) &&& 0x0FFFFFFC ≠ 0 ∧
    28800000 * 2 ^ 22 / 1024000 &&& 0x0FFFFFFC ≠ 0 :=
  ⟨rfl, rfl, allSucceed_plain rfl, rfl, by decide, by decide, by decide, by decide, by decide⟩

theorem tuneStart_script (lock : Bool) :
    (tuneStart Config.chip 88500000 (scripted (lockScript lock))).plan.status = lockScript lock := by
  rw [plan_tuneStart]
  rfl

theorem witness_SetCenterFrequencyRule :
    (∀ lock, HostOp.rtlSetCenterFrequency.allowed (scripted (lockScript lock)) = true ∧
      (scripted (lockScript lock)).opened = true ∧ allSucceed (scripted (lockScript lock)) ∧
      (scripted (lockScript lock)).shadow.isSome = true ∧ (scripted (lockScript lock)).xtalFreq = some 28801440 ∧
      pllInRange Config.chip (88500000 + 3570000) 28801440 (tuneStart Config.chip 88500000 (scripted (lockScript lock)))) ∧
    (Machine.tuned Config.chip 88500000 28801440 (scripted (lockScript true))).hasPllLock = true ∧
    (Machine.tuned Config.chip 88500000 28801440 (scripted (lockScript false))).hasPllLock = false :=
  ⟨fun lock => ⟨rfl, rfl, allSucceed_plain rfl, rfl, rfl, inRange_92 lock (tuneStart_script lock)⟩,
    (afterPll_locks (tuneStart_script true) (by decide +kernel)).1, afterPll_fails (tuneStart_script false) (by decide +kernel)⟩

theorem witness_ResetBufferRule : HostOp.rtlResetBuffer.allowed claimed = true ∧ claimed.opened = true ∧ allSucceed claimed :=
  ⟨rfl, rfl, allSucceed_plain rfl⟩

/-- Two reads in flight, and the host waits. -/
def waiting : State := { busy with inbox := [.completion] }

theorem witness_ReadSamplesRule : HostOp.rtlReadSamples.allowed claimed = true ∧
    HostOp.rtlReadSamples.allowed { claimed with reads := [⟨8, ⟨.readSamples, 0⟩⟩] } = true ∧ 0 < 1 ∧ 2 ≤ busy.reads.length ∧
    waiting.ended = false ∧ waiting.inbox = .completion :: [] ∧
    waiting.reads = ⟨8, ⟨.readSamples, 0⟩⟩ :: [⟨2, ⟨.readSamples, 0⟩⟩] ∧ nextSucceeds waiting ∧ ¬ nextSucceeds (failing waiting) ∧
    ¬ nextSucceeds (short waiting) :=
  ⟨rfl, rfl, by decide, by decide, rfl, rfl, rfl, rfl, (failing_fails _).1, short_fails _⟩

theorem witness_RtlCloseRule : HostOp.rtlClose.allowed claimed = true ∧ claimed.ended = false ∧ allSucceed claimed ∧
    claimed.claimed = true ∧ claimed.handlerInstalled = true ∧ claimed.shadow = none ∧ quiet.shadow.isSome = true ∧
    HostOp.rtlClose.allowed quiet = true ∧ allSucceed quiet ∧ HostOp.rtlClose.allowed { busy with fault := true } = true ∧
    HostOp.rtlClose.allowed (failing opened) = true ∧
    HostOp.rtlClose.allowed { failing claimed with handlerInstalled := false } = true ∧
    ({ failing claimed with handlerInstalled := false } : State).ended = false :=
  ⟨rfl, rfl, allSucceed_plain rfl, rfl, rfl, rfl, rfl, rfl, allSucceed_plain rfl, rfl, rfl, rfl, rfl⟩

theorem witness_InvalidStateRule :
    (hostOpOf (.rtlNew 1 0 .auto) = some .rtlNew ∧ HostOp.rtlNew.allowed opened = false) ∧
    (hostOpOf .rtlOpen = some .rtlOpen ∧ HostOp.rtlOpen.allowed idle = false) ∧
    (hostOpOf (.rtlSetSampleRate 1) = some .rtlSetSampleRate ∧ HostOp.rtlSetSampleRate.allowed busy = false) ∧
    (hostOpOf .rtlResetBuffer = some .rtlResetBuffer ∧ HostOp.rtlResetBuffer.allowed { claimed with fault := true } = false) ∧
    (hostOpOf (.rtlSetCenterFrequency 1) = some .rtlSetCenterFrequency ∧ HostOp.rtlSetCenterFrequency.allowed claimed = false) ∧
    (hostOpOf (.rtlReadSamples 1) = some .rtlReadSamples ∧ HostOp.rtlReadSamples.allowed busy = false) ∧
    (hostOpOf .rtlClose = some .rtlClose ∧ HostOp.rtlClose.allowed idle = false) ∧
    (hostOpOf .closeDevice = some .closeDevice ∧ HostOp.closeDevice.allowed claimed = false) ∧
    (hostOpOf (.process [] true 0 []) = some .process ∧ HostOp.process.allowed idle = false) := by decide +kernel

theorem witness_ErrorEntry :
    ErrKind.unsupportedTuner.setsFault = true ∧ ErrKind.pllNotLocked.setsFault = true ∧ ErrKind.transportError.setsFault = true ∧
    ErrKind.invalidState.setsFault = false ∧ ErrKind.rateMismatch.setsFault = false ∧
    (raise { kind := .transportError, info := .nothing } : Ctl Unit) idle =
      .error (.raised { kind := .transportError, info := .nothing }) idle ∧
    idle.handlerInstalled = true ∧ idle.ended = false ∧ ({ idle with ended := true } : State).ended = true :=
  ⟨rfl, rfl, rfl, rfl, rfl, rfl, rfl, rfl, rfl⟩

theorem witness_FaultSticky :
    (({ opened with fault := true } : State).opened = true ∧ ∃ t, exec .closeDevice { opened with fault := true } = .next t) ∧
    ((∀ handle ppm gain, Instr.iqConvert [] ≠ .rtlNew handle ppm gain) ∧
      ∃ t, exec (.iqConvert []) { idle with fault := true } = .next t) :=
  ⟨⟨rfl, _, next_of (by decide +kernel) (by decide +kernel)⟩, by simp, _, next_of (by decide +kernel) (by decide +kernel)⟩

theorem witness_FaultSticky_moves :
    (({ resetting [] with fault := true } : State).ended = false ∧
      ∃ t, move Config.chip { resetting [] with fault := true } = .next t) ∧ ({ busy with fault := true } : State).ended = false :=
  ⟨⟨rfl, _, next_of (by decide +kernel) (by decide +kernel)⟩, rfl⟩

/-- A message is handled with `FAULT` set, and with reads in flight. -/
theorem witness_messages_handled : (∀ m ∈ busy.messages, isMessage m = true) ∧
    (∃ t, handleOldest { busy with fault := true } = .next t) ∧ ∃ t, handleOldest busy = .next t :=
  ⟨busy_inv.waiting, ⟨_, next_of (by decide +kernel) (by decide +kernel)⟩, _, next_of (by decide +kernel) (by decide +kernel)⟩

theorem witness_PathsAreIndependent_moves : (resetting []).ended = false ∧ ∃ t, move Config.chip (resetting []) = .next t :=
  ⟨rfl, _, next_of (by decide +kernel) (by decide +kernel)⟩

theorem witness_PathsAreIndependent : isDataPath (.firNew [1] 1) = true ∧ (∃ t, exec (.firNew [1] 1) busy = .next t) ∧
    isDataPath .closeI2c = false ∧ ∃ t, exec .closeI2c busy = .next t :=
  ⟨rfl, ⟨_, next_of (by decide +kernel) (by decide +kernel)⟩, rfl, _, next_of (by decide +kernel) (by decide +kernel)⟩

theorem witness_ProcessBeforeSetMode : idle.pipeline = none := rfl

theorem witness_LowpassRule : 0 < (1 : Rat) ∧ 0 < (1 / 4 : Rat) ∧ 0 < 1 ∧ 1 = 1 + (1 + 1) % 2 ∧ 3 = 2 + (2 + 1) % 2 ∧
    0 < (1 / 2 ^ 210 : Rat) := by decide +kernel

/-- A designer of three taps: the taps of R221, and their sum is not 0. -/
theorem witness_LowpassRule_sum : ∃ (v : Nat → Rat) (t : Rat),
    (∀ i, i = 3 / 2 → v i = 2 * piRat * (1 / 8)) ∧
    (∀ i, i ≠ 3 / 2 → v i = sinTurns Config.chip (1 / 8 * ((i : Rat) - (3 / 2 : Nat))) / ((i : Rat) - (3 / 2 : Nat)) *
      (42 / 100 - 1 / 2 * cosTurns Config.chip (mkRat (i + 1) (3 + 1)) + 8 / 100 * cosTurns Config.chip (mkRat (2 * (i + 1)) (3 + 1)))) ∧
    t = ((List.range 3).map v).sum ∧ t ≠ 0 := by
  refine ⟨rawTap Config.chip (1 / 8) 3, _, ?_, ?_, rfl, by decide +kernel⟩
  · intro i hi
    simp only [rawTap, hi, if_true]
  · intro i hi
    simp only [rawTap, hi, if_false]
    rfl

/-- A loaded filter of one tap with two samples. -/
def oneTap : Fir := { c := [1], step := 1, buf := [5, 6], n := 2 }

theorem witness_FirRule : [(1 : Rat)] ≠ [] ∧ 0 < 1 ∧ ({ idle with firs := [oneTap] } : State).firs[0]? = some oneTap ∧
    (1 : Int) = (1 : Nat) ∧ 1 < oneTap.n ∧ (-1 : Int) < 0 ∧ oneTap.n ≤ (2 : Int) := by decide +kernel

theorem witness_FirConvolution : 0 < [(7 : Rat)].length ∧ 1 < [(7 : Rat), 8].length := by decide

theorem witness_ConstructionRule : 0 < (4 : Rat) ∧ 0 < (2 : Rat) ∧ [(1 : Rat)] ≠ [] ∧ 0 < 1 ∧ 0 < (75000 : Rat) ∧
    0 < (19000 : Rat) ∧ (8000 : Nat) < 8001 := by decide +kernel

/-- A downsampler and its states. -/
def halver : Downsampler := Downsampler.make Config.chip 4 2 [1 / 2, 1 / 2]

theorem witness_DownsampleRule : ({ idle with dss := [halver] } : State).dss[0]? = some halver ∧ (4 : Rat) = halver.inRate ∧
    (8 : Rat) ≠ halver.inRate ∧ 0 < halver.inRate ∧ 0 < halver.outRate := by decide +kernel

/-- An IQ downsampler. -/
def pairHalver : IqDownsampler := IqDownsampler.make Config.chip 2 1 [1 / 2, 1 / 2]

theorem witness_IqDownsampleRule : ({ idle with iqdss := [pairHalver] } : State).iqdss[0]? = some pairHalver ∧
    (2 : Rat) = pairHalver.inRate ∧ (8 : Rat) ≠ pairHalver.inRate ∧ 0 < 2 := by decide +kernel

theorem witness_IqEqualsTwoReal : 0 < (2 : Rat) ∧ 0 < (1 : Rat) ∧
    (∃ y q, ((IqDownsampler.make Config.chip 2 1 [1, 2]).feed [[(1, 10), (3, 30)]]).run Config.chip ⟨[(5, 50), (7, 70)], 2⟩ = .ok (y, q)) ∧
    (∃ y d, ((Downsampler.make Config.chip 2 1 [1, 2]).feed ([[(1, 10), (3, 30)]].map fun b => b.map Prod.fst)).run
      Config.chip ⟨[(5, 50), (7, 70)].map Prod.fst, 2⟩ = .ok (y, d)) ∧
    (∃ y d, ((Downsampler.make Config.chip 2 1 [1, 2]).feed ([[(1, 10), (3, 30)]].map fun b => b.map Prod.snd)).run
      Config.chip ⟨[(5, 50), (7, 70)].map Prod.snd, 2⟩ = .ok (y, d)) :=
  ⟨by decide +kernel, by decide +kernel, ⟨_, _, IqDownsampler.run_ok rfl⟩, ⟨_, _, Downsampler.run_ok rfl⟩, ⟨_, _, Downsampler.run_ok rfl⟩⟩

theorem witness_FmDemodulateRule : ∃ m, withFm.fms[0]? = some m ∧ (4 : Rat) = m.iqds.inRate ∧ (5 : Rat) ≠ m.iqds.inRate :=
  ⟨Fm.make Config.chip 4 4 1 [1], by decide +kernel, by decide +kernel, by decide +kernel⟩

theorem witness_AmDemodulateRule : ∃ a, withAm.ams[0]? = some a ∧ (4 : Rat) = a.iqds.inRate ∧ (5 : Rat) ≠ a.iqds.inRate ∧
    (∃ (d : IqFloat) (q : IqDownsampler), a.iqds.run Config.chip ⟨[(3, 0), (-3, 0), (1, 0), (-1, 0)], 4⟩ = .ok (d, q) ∧ d.samples = [(3, 0), (-3, 0), (1, 0), (-1, 0)] ∧
      (envelope Config.chip d.samples).sum / 4 = 2) ∧
    (∃ (d : IqFloat) (q : IqDownsampler), a.iqds.run Config.chip ⟨[(2, 0), (2, 0)], 4⟩ = .ok (d, q) ∧ d.samples = [(2, 0), (2, 0)] ∧ (envelope Config.chip d.samples).sum / 2 = 0) ∧
    (∃ (d : IqFloat) (q : IqDownsampler), a.iqds.run Config.chip ⟨[(0, 0)], 4⟩ = .ok (d, q) ∧ d.samples = [(0, 0)]) ∧
    (∃ (d : IqFloat) (q : IqDownsampler), a.iqds.run Config.chip ⟨[], 4⟩ = .ok (d, q) ∧ d.samples = []) := by
  refine ⟨Am.make Config.chip 4 4 [1], by decide +kernel, by decide +kernel, by decide +kernel, ?_, ?_, ?_, ?_⟩
  · exact ⟨_, _, IqDownsampler.run_ok rfl, by decide +kernel, by decide +kernel⟩
  · exact ⟨_, _, IqDownsampler.run_ok rfl, by decide +kernel, by decide +kernel⟩
  · exact ⟨_, _, IqDownsampler.run_ok rfl, by decide +kernel⟩
  · exact ⟨_, _, IqDownsampler.run_ok rfl, by decide +kernel⟩

theorem witness_AveragerRule : 0 ≤ (0 : Rat) ∧ (-1 : Rat) < 0 ∧
    ({ idle with avgs := [Averager.make 3 true, Averager.make 0 false] } : State).avgs[0]? = some (Averager.make 3 true) ∧
    (Averager.make 3 true).withVariance = true ∧ 0 ≤ (Averager.make 3 true).w ∧ 0 ≤ (Averager.make 3 true).vari ∧
    (Averager.make 0 false).withVariance = false := by decide +kernel

/-- A separator with short tables. -/
def shortStereo : Stereo := { Stereo.make Config.chip 336000 19000 with sinTab := [0], cosTab := [1] }

theorem witness_StereoSeparateRule : ({ idle with sts := [shortStereo] } : State).sts[0]? = some shortStereo ∧
    [(1 : Rat)] ≠ [] ∧ [(1 : Rat), 2] = 1 :: [2] ∧ [(2 : Rat)] ≠ [] ∧ (∃ out st', shortStereo.run Config.chip [1] = (out, st')) :=
  ⟨rfl, by decide, rfl, by decide, _, _, rfl⟩

theorem witness_PhaseErrorInTable : (1 : Rat) ≠ 0 ∧ 0 < (1 : Rat) ∧ (-1 : Rat) < 0 := by decide +kernel

theorem witness_DeemphasisRule : 0 < (48000 : Rat) ∧ 0 < (50 : Rat) ∧
    ({ idle with des := [Deemphasis.make Config.chip 48000 50] } : State).des[0]? = some (Deemphasis.make Config.chip 48000 50) ∧
    [(1 : Rat), 2][1]? = some 2 := by decide +kernel

theorem witness_IqConvertRule : [(1 : Byte)].length % 2 = 1 ∧ [(1 : Byte), 2].length % 2 = 0 ∧ ([] : List Byte).length % 2 = 0 ∧
    [(1 : Byte), 2][2 * 0]? = some 1 ∧ [(1 : Byte), 2][2 * 0 + 1]? = some 2 := by decide

/-- Every mode but SSB has a legal descriptor at the edge of its range, and each has a chain. -/
theorem witness_SetModeRule :
    (∀ mode ∈ [Mode.wbfm none, .wbfm (some 75), .nbfm 1, .am (1 / 1000)], mode.legal = true ∧
      ∃ ch, makeChain Config.chip mode = some ch) ∧
    Mode.legal (.ssb 2700 true) = false ∧ Mode.legal (.nbfm (1 / 2)) = false ∧ Mode.legal (.am 0) = false := by
  have h : ∀ mode ∈ [Mode.wbfm none, .wbfm (some 75), .nbfm 1, .am (1 / 1000)], mode.legal = true := by decide +kernel
  exact ⟨fun mode hm => ⟨h mode hm, makeChain_some _ (h mode hm)⟩, by decide +kernel, by decide +kernel, by decide +kernel⟩

/-- A chain of each mode with filters of one tap. -/
def chainWbfm : Chain :=
  .wbfm (Fm.make Config.chip 1024000 336000 75000 [1]) (Downsampler.make Config.chip 336000 48000 [1]) (Downsampler.make Config.chip 336000 48000 [1]) shortStereo
    (Deemphasis.make Config.chip 48000 50) (Deemphasis.make Config.chip 48000 50)
/-- NBFM. -/
def chainNbfm : Chain := .nbfm (Fm.make Config.chip 1024000 48000 5000 [1]) (Downsampler.make Config.chip 48000 48000 [1])

theorem witness_ProcessRule : busy.pipeline = some ⟨.am 10000, .am (Am.make Config.chip 1024000 48000 [1])⟩ ∧
    ({ idle with pipeline := some ⟨.wbfm none, chainWbfm⟩ } : State).pipeline = some ⟨.wbfm none, chainWbfm⟩ ∧
    (Chain.am (Am.make Config.chip 1024000 48000 [1])).fits ∧ chainWbfm.fits ∧ chainNbfm.fits ∧ [(1 : Byte)].length % 2 = 1 ∧
    1 = [(1 : Byte), 2].length / 2 ∧ [(1 : Byte), 2].length % 2 = 0 ∧ (200000 : Rat) ≠ 0 ∧
    (∃ fm mono diff st deL deR, chainWbfm = .wbfm fm mono diff st deL deR ∧ deL = deR) ∧
    (∃ fm mono, chainNbfm = .nbfm fm mono) ∧
    0 ≤ (Am.make Config.chip 1024000 48000 [1]).relPower :=
  ⟨rfl, rfl, ⟨rfl, rfl⟩, ⟨rfl, rfl, rfl, rfl, rfl, rfl, rfl⟩, ⟨rfl, rfl, rfl⟩, by decide, by decide, by decide,
    by decide +kernel, ⟨_, _, _, _, _, _, rfl, rfl⟩, ⟨_, _, rfl⟩, by decide +kernel⟩
/-- The demodulator of `chainWbfm`, and what it makes of four samples. -/
def wbfmFm : Fm := Fm.make Config.chip 1024000 336000 75000 [1]
/-- The composite. -/
def composite : List Rat :=
  match wbfmFm.run Config.chip (iqStream Config.chip [1, 2, 3, 4, 5, 6, 7, 8]) with
  | .ok (comp, _) => comp.samples
  | .error _ => []
/-- A separator far from lock. -/
def unlocked : Stereo := { shortStereo with cavg := { shortStereo.cavg with avg := 1000 } }

/-- A block of which one composite sample comes out, with the pilot found after it and not found after it. -/
theorem witness_ProcessRule_stereo :
    (∃ (comp : MonoFloat) (fm' : Fm), wbfmFm.run Config.chip (iqStream Config.chip [1, 2, 3, 4, 5, 6, 7, 8]) = .ok (comp, fm') ∧
      comp.samples.length = 1 ∧ (shortStereo.run Config.chip comp.samples).2.found = true ∧
      (unlocked.run Config.chip comp.samples).2.found = false) ∧
    (Chain.wbfm wbfmFm (Downsampler.make Config.chip 336000 48000 [1]) (Downsampler.make Config.chip 336000 48000 [1]) unlocked
      (Deemphasis.make Config.chip 48000 50) (Deemphasis.make Config.chip 48000 50)).fits := by
  refine ⟨?_, rfl, rfl, rfl, rfl, rfl, rfl, rfl⟩
  obtain ⟨comp, fm', h, -⟩ := Fm.run_ok (c := Config.chip) (m := wbfmFm)
    (x := iqStream Config.chip [1, 2, 3, 4, 5, 6, 7, 8]) rfl
  have hc : comp.samples = composite := by
    unfold composite
    rw [h]
  refine ⟨comp, fm', h, ?_⟩
  rw [hc]
  decide +kernel

end Sys2Proof.Tests
end

section
/-! PROOFS. O2: what one step does with each event of the host, by what is in progress and what is in flight, and from these
rules that a step runs the decoded operation (00_scope R16, 10_state R24, 30_encoding R121, R123, 60_exceptions R306, R313). -/

namespace Sys2Proof.Machine

/-! ## The table's words -/

theorem decode_of_decodeTableWord {nbits w : Nat} {i : Instr} (h : decodeTableWord nbits w = some i) :
    decode (tablePort nbits) (tableBytes nbits w) = .ok i := by
  unfold decodeTableWord at h
  split at h
  · rename_i j hj
    rw [hj, Option.some.inj h]
  · cases h

/-! ## One equation of `step` for each event -/

section Events

variable {s : State} {port : Port} {bytes : List Byte} {rest : List Event} {i : Instr} {why : DecodeError}

theorem step_noEvent (he : s.ended = false) (hi : s.inbox = []) : step s = idleStep s := by
  simp only [step, he, hi, Bool.false_eq_true, if_false]

theorem step_completion (he : s.ended = false) (hi : s.inbox = .completion :: rest) : step s = awaitNext rest s := by
  simp only [step, he, hi, Bool.false_eq_true, if_false]

theorem step_progress (he : s.ended = false) (hi : s.inbox = .progress :: rest) :
    step s = progress { s with inbox := rest } := by
  simp only [step, he, hi, Bool.false_eq_true, if_false]

theorem step_response (he : s.ended = false) (hi : s.inbox = .response :: rest) : step s = awaitResponse rest s := by
  simp only [step, he, hi, Bool.false_eq_true, if_false]

theorem step_command (he : s.ended = false) (hi : s.inbox = .command port bytes :: rest)
    (hd : decode port bytes = .ok i) :
    step s = if behindMessages i s then handleOldest s else arrive i { s with inbox := rest } := by
  simp only [step, he, hi, hd, Bool.false_eq_true, if_false]

theorem step_issue (he : s.ended = false) (hi : s.inbox = .issue bytes :: rest) (hd : decode .host bytes = .ok i) :
    step s = startOp i { s with inbox := rest } := by
  simp only [step, he, hi, hd, Bool.false_eq_true, if_false]

theorem step_submit (he : s.ended = false) (hi : s.inbox = .submit bytes :: rest) (hd : decode .msg bytes = .ok i) :
    step s = .next { s with messages := s.messages ++ [i], inbox := rest } := by
  simp only [step, he, hi, hd, Bool.false_eq_true, if_false]

theorem step_command_undecodable (he : s.ended = false) (hi : s.inbox = .command port bytes :: rest)
    (hd : decode port bytes = .error why) : step s = .refused (.undecodable port why) := by
  simp only [step, he, hi, hd, Bool.false_eq_true, if_false]

theorem step_issue_undecodable (he : s.ended = false) (hi : s.inbox = .issue bytes :: rest)
    (hd : decode .host bytes = .error why) : step s = .refused (.undecodable .host why) := by
  simp only [step, he, hi, hd, Bool.false_eq_true, if_false]

theorem step_submit_undecodable (he : s.ended = false) (hi : s.inbox = .submit bytes :: rest)
    (hd : decode .msg bytes = .error why) : step s = .refused (.undecodable .msg why) := by
  simp only [step, he, hi, hd, Bool.false_eq_true, if_false]

end Events

/-! ## Which path an operation or an event takes -/

section Paths

variable {s : State} {i j m : Instr} {op : HostOp} {q : SeqOp} {later : List Instr} {rest : List Event}

theorem behindMessages_of_control (hi : isDataPath i = false) : behindMessages i s = false := by
  rw [behindMessages, hi, Bool.false_and]

theorem behindMessages_of_noMessages (hm : s.messages = []) : behindMessages i s = false := by
  rw [behindMessages, hm, List.isEmpty_nil, Bool.not_true, Bool.and_false]

theorem behindMessages_of_messages (hi : isDataPath i = true) (hm : s.messages = m :: later) :
    behindMessages i s = true := by
  rw [behindMessages, hi, hm]
  rfl

theorem handleOldest_nil (hm : s.messages = []) : handleOldest s = .next s := by
  simp only [handleOldest, hm]

theorem handleOldest_cons (hm : s.messages = m :: later) : handleOldest s = exec m { s with messages := later } := by
  simp only [handleOldest, hm]

theorem idleStep_idle (hr : s.running = none) (hq : s.reads = []) : idleStep s = handleOldest s := by
  simp only [idleStep, hr, hq, Option.isNone_none, List.isEmpty_nil, Bool.and_self, if_true]

theorem idleStep_running (hr : s.running = some j) : idleStep s = proceed s := by
  simp only [idleStep, hr, Option.isNone_some, Bool.false_and, Bool.false_eq_true, if_false]

theorem proceed_running (hr : s.running = some j) :
    proceed s = if s.reads.isEmpty then move Config.chip s else .next (readCompletes s) := by
  simp only [proceed, hr]

theorem progress_running (hr : s.running = some j) : progress s = move Config.chip s := by
  simp only [progress, hr, Option.isNone_some, Bool.false_eq_true, if_false]

theorem arrive_free (hr : s.running = none) : arrive i s = exec i s := by
  simp only [arrive, hr]

theorem arrive_dataPath (hi : isDataPath i = true) : arrive i s = exec i s := by
  cases hr : s.running with
  | none => exact arrive_free hr
  | some j => simp only [arrive, hr, hi, if_true]

/-- A second operation of the host while one is in progress (R200, R306, R340). -/
theorem arrive_busy (hr : s.running = some j) (hi : isDataPath i = false) (ho : hostOpOf i = some op) :
    arrive i s = .next (takeError (invalidState op) s) := by
  simp only [arrive, hr, hi, ho, Bool.false_eq_true, if_false]

theorem startOp_allowed (hr : s.running = none) (hq : sequenceOf i = some q) (ho : hostOpOf i = some op)
    (ha : op.allowed s = true) : startOp i s = .next (s.started Config.chip i q) := by
  simp only [startOp, hq, ho, hr, ha, Option.isNone_none, Bool.and_self, if_true]

theorem startOp_busy (hr : s.running = some j) : startOp i s = arrive i s := by
  unfold startOp
  split
  · rw [hr, Option.isNone_some, Bool.false_and, if_neg Bool.false_ne_true]
  · rfl

theorem awaitResponse_cons (hm : s.messages = m :: later) :
    awaitResponse rest s = exec m { s with messages := later, inbox := if responds m then rest else s.inbox } := by
  simp only [awaitResponse, hm]

/-- `InvalidState` is delivered and does nothing else: it sets no `FAULT` and is not fatal (R306, R308). -/
theorem takeError_invalidState (he : s.ended = false) (op : HostOp) :
    takeError (invalidState op) s =
      { s with errors := s.errors ++ [{ kind := .invalidState, info := .operation op, pos := none }] } := by
  simp only [takeError, invalidState, ErrKind.setsFault, deliver, ErrKind.fatalUnhandled, he, Bool.and_false, Bool.or_false,
    Bool.false_eq_true, if_false]

end Paths

/-! ## A wait for a completion -/

section Waits

variable {s t : State} {j : Instr} {rest : List Event}

theorem awaitNext_reads (hq : s.reads ≠ []) : awaitNext rest s = proceed { s with inbox := rest } := by
  have hne : s.reads.isEmpty = false := by simpa using hq
  simp only [awaitNext, hne, Bool.not_false, Bool.or_true, if_true]

/-- With no read in flight the wait is a move, and goes on until that was the operation's last (R313). -/
theorem awaitNext_running (hr : s.running = some j) (hq : s.reads = []) (ht : move Config.chip s = .next t) :
    awaitNext rest s = .next (if t.running = none then { t with inbox := rest } else t) := by
  simp only [awaitNext, hr, hq, ht, Option.isNone_some, List.isEmpty_nil, Bool.not_true, Bool.or_self, Bool.false_eq_true,
    if_false, Option.isNone_iff_eq_none]

/-- A wait that has a next state has made a move. -/
theorem awaitNext_running_inv (hr : s.running = some j) (hq : s.reads = []) (ht : awaitNext rest s = .next t) :
    ∃ u, move Config.chip s = .next u ∧ t.trace = u.trace := by
  simp only [awaitNext, hr, hq, Option.isNone_some, List.isEmpty_nil, Bool.not_true, Bool.or_self, Bool.false_eq_true,
    if_false] at ht
  split at ht
  · rename_i u hu
    cases ht
    refine ⟨u, hu, ?_⟩
    split <;> rfl
  · cases ht
  · cases ht

end Waits

/-! ## What goes on the wire -/

section Wire

variable {s t : State} {j : Instr} {rest : List Event}

/-- The transfer of a read in flight went out when it was issued; its completion adds none (R211). -/
theorem completeOldest_trace (s : State) : (completeOldest s).trace = s.trace := by
  unfold completeOldest
  split
  · rfl
  · rw [completeRead_eq]
    split
    · rw [takeError_trace, consumeStream_trace]
    · rfl

theorem proceed_one (hr : s.running = some j) (h : proceed s = .next t) : atMostOneTransfer s t := by
  rw [proceed_running hr] at h
  split at h
  · exact move_one h
  · cases h
    exact .inl (completeOldest_trace s)

theorem awaitNext_one (hr : s.running = some j) (h : awaitNext rest s = .next t) : atMostOneTransfer s t := by
  by_cases hq : s.reads = []
  · obtain ⟨u, hu, htrace⟩ := awaitNext_running_inv hr hq h
    rw [atMostOneTransfer, htrace]
    exact move_one hu
  · rw [awaitNext_reads hq] at h
    exact proceed_one (s := { s with inbox := rest }) hr h

/-- A step that an operation in progress makes puts at most one transfer on the wire (R16 (a), R140). -/
theorem step_one (he : s.ended = false) (hr : s.running = some j)
    (hi : s.inbox = [] ∨ s.inbox = .progress :: rest ∨ s.inbox = .completion :: rest) (h : step s = .next t) :
    atMostOneTransfer s t := by
  rcases hi with hi | hi | hi
  · rw [step_noEvent he hi, idleStep_running hr] at h
    exact proceed_one hr h
  · rw [step_progress he hi, progress_running (s := { s with inbox := rest }) hr] at h
    exact move_one (s := { s with inbox := rest }) h
  · rw [step_completion he hi] at h
    exact awaitNext_one hr h

end Wire

/-! ## Operations and messages that a step runs -/

section Runs

variable {s : State} {i j m : Instr} {op : HostOp} {port : Port} {bytes : List Byte} {rest : List Event} {later : List Instr}

/-- A command that finds nothing in progress and, on the data path, no message in flight runs in this step (R121). -/
theorem step_command_free (he : s.ended = false) (hr : s.running = none) (hm : isDataPath i = true → s.messages = [])
    (hi : s.inbox = .command port bytes :: rest) (hd : decode port bytes = .ok i) :
    step s = exec i { s with inbox := rest } := by
  have hfirst : behindMessages i s = false := by
    cases hp : isDataPath i with
    | true => exact behindMessages_of_noMessages (hm hp)
    | false => exact behindMessages_of_control hp
  rw [step_command he hi hd, hfirst, if_neg Bool.false_ne_true]
  exact arrive_free hr

/-- A command of the data path with no message in flight runs whatever the control path does (R16 (b)). -/
theorem step_command_dataPath (he : s.ended = false) (hp : isDataPath i = true) (hm : s.messages = [])
    (hi : s.inbox = .command port bytes :: rest) (hd : decode port bytes = .ok i) :
    step s = exec i { s with inbox := rest } := by
  rw [step_command he hi hd, behindMessages_of_noMessages hm, if_neg Bool.false_ne_true]
  exact arrive_dataPath hp

/-- An operation of the host that arrives while one is in progress, waited for or not (R200, R340). -/
theorem step_hostOp_busy (he : s.ended = false) (hr : s.running = some j) (hd : decode port bytes = .ok i)
    (hp : isDataPath i = false) (ho : hostOpOf i = some op)
    (hi : s.inbox = .command port bytes :: rest ∨ (port = .host ∧ s.inbox = .issue bytes :: rest)) :
    step s = .next { s with
      inbox := rest
      errors := s.errors ++ [{ kind := .invalidState, info := .operation op, pos := none }] } := by
  have harrive : step s = arrive i { s with inbox := rest } := by
    rcases hi with hi | ⟨rfl, hi⟩
    · rw [step_command he hi hd, behindMessages_of_control hp, if_neg Bool.false_ne_true]
    · rw [step_issue he hi hd]
      exact startOp_busy hr
  rw [harrive, arrive_busy (s := { s with inbox := rest }) hr hp ho, takeError_invalidState (s := { s with inbox := rest }) he]

/-- A command of the data path waits while the oldest message in flight is handled (R89, R292). -/
theorem step_command_behind (he : s.ended = false) (hm : s.messages = m :: later) (hp : isDataPath i = true)
    (hi : s.inbox = .command port bytes :: rest) (hd : decode port bytes = .ok i) :
    step s = exec m { s with messages := later } := by
  rw [step_command he hi hd, behindMessages_of_messages hp hm, if_pos rfl, handleOldest_cons hm]

end Runs

/-- Settles O2: the clauses in order, each by the rule for its event; that an operation in progress ends as its meaning says
is `issued_completes`. -/
theorem stepRunsDecoded : Obligations.StepRunsDecoded := by
  unfold Obligations.StepRunsDecoded
  refine ⟨?runs, ?undecodable, ?atRest, ?starts, ?inProgress, ?ends, ?beside, ?submits, ?messages⟩
  case runs =>
    intro s i he hr hm
    refine ⟨fun port bytes rest hi hd => step_command_free he hr hm hi hd, fun nbits w hw => ?_⟩
    exact step_command_free (s := s.withFetchWord nbits w) he hr hm rfl (decode_of_decodeTableWord hw)
  case undecodable =>
    rintro s port bytes rest why he hd (hi | ⟨rfl, hi⟩)
    · exact step_command_undecodable he hi hd
    · exact step_issue_undecodable he hi hd
  case atRest =>
    intro s he hi hq hr hm
    rw [step_noEvent he hi, idleStep_idle hr hq, handleOldest_nil hm]
  case starts =>
    intro s i q op bytes rest he hr hi hd hq ho ha
    have hallowed : op.allowed { s with inbox := rest } = true := by cases op <;> exact ha
    rw [step_issue he hi hd]
    exact startOp_allowed hr hq ho hallowed
  case inProgress =>
    intro s i rest he hr
    refine ⟨fun hi => ?_, fun hq hi => step_move he hi hr hq, fun hq hi t ht => ?_, fun t hi ht => step_one he hr hi ht⟩
    · rw [step_progress he hi]
      exact progress_running hr
    · rw [step_completion he hi, awaitNext_running hr hq ht]
  case ends =>
    intro s i q op he hr htodo hi hreads hseq hq ho ha
    exact issued_completes hq ho ha ⟨hr, htodo, hi, hreads, he⟩ hseq
  case beside =>
    intro s i j port bytes rest he hr hd
    exact ⟨fun hp hm hi => step_command_dataPath he hp hm hi hd, fun op hp ho hi => step_hostOp_busy he hr hd hp ho hi⟩
  case submits =>
    intro s bytes rest he hi
    exact ⟨fun m hd => step_submit he hi hd, fun why hd => step_submit_undecodable he hi hd⟩
  case messages =>
    intro s m later rest he hm
    refine ⟨fun hr hq hi => ?_, fun i port bytes hp hi hd => step_command_behind he hm hp hi hd, ?_, ?_⟩
    · rw [step_noEvent he hi, idleStep_idle hr hq, handleOldest_cons hm]
    · rintro mode rfl hi
      rw [step_response he hi, awaitResponse_cons hm]
      rfl
    · rintro bytes inStereo freqOffset echo rfl hi
      rw [step_response he hi, awaitResponse_cons hm]
      rfl

end Sys2Proof.Machine
end

section
/-! PROOFS. O5, O44: the state at power-up meets the invariant, and `process` finds no pipeline there (10_state R47, R48,
70_reset_and_hazards R332). -/

namespace Sys2Proof.Machine

/-- The invariant holds at power-up: nothing is in progress, in flight or stored. -/
theorem blockInv_reset : BlockInv State.reset where
  memory := Mem.wf_nil
  sequencer := rfl
  idleStep _ := rfl
  progress := ⟨nofun, fun h => absurd rfl h⟩
  readCount := Nat.zero_le _
  readShape := List.forall_mem_nil _
  onIByte := rfl
  claimOpen := nofun
  bridgeOpen := nofun
  shadowed := nofun
  waiting := List.forall_mem_nil _
  chainFits _ hp := by cases hp

/-- Settles O5: each field by its value in `State.reset`, the invariant by `blockInv_reset`. -/
theorem resetState : Obligations.ResetState := by
  unfold Obligations.ResetState
  refine ⟨?fields, blockInv_reset⟩
  refine ⟨rfl, rfl, rfl, rfl, rfl, rfl, rfl, rfl, rfl, rfl, rfl, rfl, rfl, rfl, rfl, rfl, rfl, rfl, rfl, rfl, rfl, rfl, rfl,
    rfl, rfl, rfl, Mem.get_nil⟩

/-- An error of a kind that sets no `FAULT` is delivered, and nothing else changes (R310). -/
theorem takeError_onlyDelivered {e : Err} (he : e.kind.setsFault = false) (s : State) :
    onlyDelivered { kind := e.kind, info := e.info, pos := none } s (takeError e s) := by
  unfold takeError
  rw [if_neg (by rw [he]; exact Bool.false_ne_true)]
  rfl

/-- `process` without an installed pipeline (R48, R306). -/
theorem processBlock_noPipeline {c : Config.Params} {bytes echo : List Byte} {inStereo : Bool} {freqOffset : Rat} {s : State}
    (hp : s.pipeline = none) :
    processBlock c bytes inStereo freqOffset echo s = .next (takeError (invalidState .process) s) := by
  simp only [processBlock, hp]

/-- Settles O44: the operation and the message are the same `processBlock`, which raises `InvalidState` without a pipeline. -/
theorem processBeforeSetMode : Obligations.ProcessBeforeSetMode := by
  unfold Obligations.ProcessBeforeSetMode
  refine ⟨rfl, fun bytes echo inStereo freqOffset s hp => ⟨takeError (invalidState .process) s, ?operation, ?message, ?only⟩⟩
  case operation => exact processBlock_noPipeline hp
  case message => exact processBlock_noPipeline hp
  case only => exact takeError_onlyDelivered (e := invalidState .process) rfl s

end Sys2Proof.Machine
end

section
/-! PROOFS. What an operation of the data path leaves of the control path, and that the rates of an installed chain stay
together (48_pipelines_and_input R288 to R292, 70_reset_and_hazards R331). -/

namespace Sys2Proof.Machine

/-! ## A run keeps the rates of its unit, and its errors set no `FAULT` (R239, R307, R308) -/

/-- A run answers with a value that has `Q`, or raises an error that sets no `FAULT`. -/
def Answers {α : Type} (Q : α → Prop) : Except Err α → Prop
  | .ok a => Q a
  | .error e => e.kind.setsFault = false

section Rates

variable (c : Config.Params)

theorem Downsampler.run_keepsRates (d : Downsampler) (x : MonoFloat) :
    Answers (fun p => p.2.inRate = d.inRate ∧ p.2.outRate = d.outRate) (d.run c x) := by
  by_cases hr : x.rate = d.inRate
  · rw [Downsampler.run_ok hr]
    exact ⟨rfl, rfl⟩
  · rw [Downsampler.run, if_neg hr]
    rfl

theorem IqDownsampler.run_keepsRates (q : IqDownsampler) (x : IqFloat) :
    Answers (fun p => p.2.inRate = q.inRate ∧ p.2.outRate = q.outRate) (q.run c x) := by
  by_cases hr : x.rate = q.inRate
  · rw [IqDownsampler.run_ok hr]
    exact ⟨rfl, rfl⟩
  · rw [IqDownsampler.run, if_neg hr]
    rfl

theorem Fm.run_keepsRates (m : Fm) (x : IqFloat) :
    Answers (fun p => p.2.iqds.inRate = m.iqds.inRate ∧ p.2.iqds.outRate = m.iqds.outRate) (m.run c x) := by
  have hq := m.iqds.run_keepsRates c x
  unfold Fm.run
  cases hrun : m.iqds.run c x with
  | error e => rw [hrun] at hq; exact hq
  | ok p => rw [hrun] at hq; exact hq

theorem Am.run_keepsRates (m : Am) (x : IqFloat) (draw : Nat) :
    Answers (fun p => p.2.iqds.inRate = m.iqds.inRate ∧ p.2.iqds.outRate = m.iqds.outRate) (m.run c x draw) := by
  have hq := m.iqds.run_keepsRates c x
  unfold Am.run
  cases hrun : m.iqds.run c x with
  | error e => rw [hrun] at hq; exact hq
  | ok p =>
    rw [hrun] at hq
    dsimp only
    split <;> exact hq

/-- Units at the same rates fit together as before (R289). -/
theorem Chain.wbfm_fits_congr {fm fm' : Fm} {mono mono' diff diff' : Downsampler} {st st' : Stereo}
    {deL deL' deR deR' : Deemphasis} (hfm : fm'.iqds.inRate = fm.iqds.inRate ∧ fm'.iqds.outRate = fm.iqds.outRate)
    (hmono : mono'.inRate = mono.inRate ∧ mono'.outRate = mono.outRate)
    (hdiff : diff'.inRate = diff.inRate ∧ diff'.outRate = diff.outRate) (hst : st'.sampleRate = st.sampleRate) :
    (Chain.wbfm fm mono diff st deL deR).fits → (Chain.wbfm fm' mono' diff' st' deL' deR').fits := by
  rintro ⟨fmIn, fmOut, monoIn, monoOut, diffIn, diffOut, stRate⟩
  exact ⟨hfm.1.trans fmIn, hfm.2.trans fmOut, hmono.1.trans monoIn, hmono.2.trans monoOut, hdiff.1.trans diffIn,
    hdiff.2.trans diffOut, hst.trans stRate⟩

/-- WBFM (R289): the separator and the difference downsampler may or may not run. -/
theorem runWbfm_fits (fm : Fm) (mono diff : Downsampler) (st : Stereo) (deL deR : Deemphasis) (x : IqFloat)
    (inStereo : Bool) :
    Answers (fun p => (Chain.wbfm fm mono diff st deL deR).fits → p.2.fits) (runWbfm c fm mono diff st deL deR x inStereo) := by
  have hfm := fm.run_keepsRates c x
  unfold runWbfm
  cases hrun : fm.run c x with
  | error e => rw [hrun] at hfm; exact hfm
  | ok p =>
    obtain ⟨comp, fm'⟩ := p
    rw [hrun] at hfm
    have hmono := mono.run_keepsRates c comp
    dsimp only
    cases hsum : mono.run c comp with
    | error e => rw [hsum] at hmono; exact hmono
    | ok q =>
      rw [hsum] at hmono
      have hst : (st.run c comp.samples).2.sampleRate = st.sampleRate := (st.run_shape c comp.samples).2.2
      have hdiff := diff.run_keepsRates c { samples := (st.run c comp.samples).1.samples, rate := st.sampleRate }
      dsimp only
      split
      · split
        · cases hd : diff.run c { samples := (st.run c comp.samples).1.samples, rate := st.sampleRate } with
          | error e => rw [hd] at hdiff; exact hdiff
          | ok r => rw [hd] at hdiff; exact Chain.wbfm_fits_congr hfm hmono hdiff hst
        · exact Chain.wbfm_fits_congr hfm hmono ⟨rfl, rfl⟩ hst
      · exact Chain.wbfm_fits_congr hfm hmono ⟨rfl, rfl⟩ rfl

/-- NBFM (R290). -/
theorem runNbfm_fits (fm : Fm) (mono : Downsampler) (x : IqFloat) :
    Answers (fun p => (Chain.nbfm fm mono).fits → p.2.fits) (runNbfm c fm mono x) := by
  have hfm := fm.run_keepsRates c x
  unfold runNbfm
  cases hrun : fm.run c x with
  | error e => rw [hrun] at hfm; exact hfm
  | ok p =>
    obtain ⟨y, fm'⟩ := p
    rw [hrun] at hfm
    have hmono := mono.run_keepsRates c y
    dsimp only
    cases hout : mono.run c y with
    | error e => rw [hout] at hmono; exact hmono
    | ok q =>
      rw [hout] at hmono
      rintro ⟨fmIn, monoIn, monoOut⟩
      exact ⟨hfm.1.trans fmIn, (hmono.1.trans monoIn).trans hfm.2.symm, hmono.2.trans monoOut⟩

/-- AM (R291). -/
theorem runAm_fits (am : Am) (x : IqFloat) (draw : Nat) :
    Answers (fun p => (Chain.am am).fits → p.2.fits) (runAm c am x draw) := by
  have ham := am.run_keepsRates c x draw
  unfold runAm
  cases hrun : am.run c x draw with
  | error e => rw [hrun] at ham; exact ham
  | ok p =>
    rw [hrun] at ham
    rintro ⟨amIn, amOut⟩
    exact ⟨ham.1.trans amIn, ham.2.trans amOut⟩

/-- The rates of a chain that fit together do so after a block (R288). -/
theorem Chain.run_fits (ch : Chain) (x : IqFloat) (inStereo : Bool) (draw : Nat) :
    Answers (fun p => ch.fits → p.2.fits) (ch.run c x inStereo draw) := by
  cases ch with
  | wbfm fm mono diff st deL deR => exact runWbfm_fits c fm mono diff st deL deR x inStereo
  | nbfm fm mono => exact runNbfm_fits c fm mono x
  | am a => exact runAm_fits c a x draw

end Rates

/-- The rates of a chain that is installed fit together (R289 to R291). -/
theorem makeChain_fits {c : Config.Params} {mode : Mode} {ch : Chain} (h : makeChain c mode = some ch) : ch.fits := by
  cases mode with
  | wbfm tau =>
    simp only [makeChain, makeWbfm, Option.bind_eq_bind, Option.bind_eq_some_iff, Option.pure_def, Option.some.injEq] at h
    obtain ⟨fc, -, ac, -, rfl⟩ := h
    exact ⟨rfl, rfl, rfl, rfl, rfl, rfl, rfl⟩
  | nbfm maxF =>
    simp only [makeChain, makeNbfm, Option.bind_eq_bind, Option.bind_eq_some_iff, Option.pure_def, Option.some.injEq] at h
    obtain ⟨fc, -, ac, -, rfl⟩ := h
    exact ⟨rfl, rfl, rfl⟩
  | am bandwidth =>
    simp only [makeChain, makeAm, Option.bind_eq_bind, Option.bind_eq_some_iff, Option.pure_def, Option.some.injEq] at h
    obtain ⟨fc, -, rfl⟩ := h
    exact ⟨rfl, rfl⟩
  | ssb bandwidth upper => cases h

/-! ## One operation of the data path -/

theorem sameControl_refl (s : State) : sameControl s s :=
  ⟨rfl, rfl, rfl, rfl, rfl, rfl, rfl, rfl, rfl, rfl, rfl, rfl, rfl, rfl, rfl, rfl, rfl, rfl, rfl, rfl, rfl, rfl, rfl, rfl⟩

/-- The rates of the installed pipeline, if there is one, fit together (R288). -/
def PipelineFits (s : State) : Prop := ∀ p, s.pipeline = some p → p.chain.fits

/-- What a step of the data path keeps: the control path with the device and the wire, the messages in flight, and that the
rates of the installed pipeline fit together (R288, R331). -/
structure DataStep (s t : State) : Prop where
  control  : sameControl s t
  messages : t.messages = s.messages
  fits     : PipelineFits s → PipelineFits t

theorem DataStep.refl (s : State) : DataStep s s := ⟨sameControl_refl s, rfl, id⟩

/-- A step that leaves the pipeline as it is. -/
theorem DataStep.samePipeline {s t : State} (hc : sameControl s t) (hm : t.messages = s.messages)
    (hp : t.pipeline = s.pipeline) : DataStep s t := ⟨hc, hm, fun hfits p h => hfits p (hp ▸ h)⟩

/-- Every next state of an outcome is a data-path step from `s`. -/
def DataOutcome (s : State) (o : Host.Outcome State Fault Refusal) : Prop := ∀ t, o = .next t → DataStep s t

namespace DataOutcome

variable {s u : State}

theorem refused {r : Refusal} : DataOutcome s (.refused r) := fun _ ht => by cases ht

theorem give {r : Result} (h : DataStep s u) : DataOutcome s (Sys2Proof.Machine.give r u) := by
  intro t ht
  cases ht
  exact ⟨h.control, h.messages, h.fits⟩

theorem ite {p : Prop} [Decidable p] {o o' : Host.Outcome State Fault Refusal} (h : DataOutcome s o)
    (h' : DataOutcome s o') : DataOutcome s (if p then o else o') := by
  split
  · exact h
  · exact h'

/-- An error that sets no `FAULT` changes nothing but the record delivered (R310). -/
theorem raised {e : Err} (he : e.kind.setsFault = false) : DataOutcome s (.next (takeError e s)) := by
  intro t ht
  cases ht
  rw [show takeError e s = _ from takeError_onlyDelivered he s]
  exact ⟨sameControl_refl s, rfl, id⟩

end DataOutcome

/-- `process` (R288): it raises `InvalidState` or `RateMismatch`, or replaces the chain by what its run leaves. -/
theorem processBlock_dataOutcome (c : Config.Params) (bytes echo : List Byte) (inStereo : Bool) (freqOffset : Rat)
    (s : State) : DataOutcome s (processBlock c bytes inStereo freqOffset echo s) := by
  unfold processBlock
  cases hp : s.pipeline with
  | none => exact .raised rfl
  | some p =>
    refine .ite .refused (.ite .refused ?_)
    have h := p.chain.run_fits c (iqStream c bytes) inStereo s.drawNo
    cases hrun : p.chain.run c (iqStream c bytes) inStereo s.drawNo with
    | error e => rw [hrun] at h; exact .raised h
    | ok q =>
      rw [hrun] at h
      refine .give ⟨sameControl_refl s, rfl, fun hfits p' hp' => ?_⟩
      cases hp'
      exact h (hfits p hp)

/-- `set_mode` (R292): the chain it installs is a fresh one. -/
theorem installMode_dataOutcome (c : Config.Params) (mode : Mode) (s : State) : DataOutcome s (installMode c mode s) := by
  unfold installMode
  refine .ite ?_ .refused
  cases hc : makeChain c mode with
  | none => exact .refused
  | some ch =>
    refine .give ⟨sameControl_refl s, rfl, fun _ p hp => ?_⟩
    cases hp
    exact makeChain_fits hc

/-- `ds.downsample` (R237, R239). -/
theorem execDsDownsample_dataOutcome (ds : Nat) (samples : List Rat) (rate : Rat) (s : State) :
    DataOutcome s (execDsDownsample ds samples rate s) := by
  unfold execDsDownsample
  cases s.dss[ds]? with
  | none => exact .refused
  | some d =>
    dsimp only
    have h := d.run_keepsRates Config.chip { samples := samples, rate := rate }
    cases hrun : d.run Config.chip { samples := samples, rate := rate } with
    | error e => rw [hrun] at h; exact .raised h
    | ok p => exact .give (.samePipeline (sameControl_refl s) rfl rfl)

/-- `iqds.downsample` (R241). -/
theorem execIqdsDownsample_dataOutcome (iqds : Nat) (iq : List (Rat × Rat)) (rate : Rat) (s : State) :
    DataOutcome s (execIqdsDownsample iqds iq rate s) := by
  unfold execIqdsDownsample
  cases s.iqdss[iqds]? with
  | none => exact .refused
  | some q =>
    dsimp only
    have h := q.run_keepsRates Config.chip { samples := iq, rate := rate }
    cases hrun : q.run Config.chip { samples := iq, rate := rate } with
    | error e => rw [hrun] at h; exact .raised h
    | ok p => exact .give (.samePipeline (sameControl_refl s) rfl rfl)

/-- `fm.demodulate` (R252). -/
theorem execFmDemodulate_dataOutcome (fm : Nat) (iq : List (Rat × Rat)) (rate : Rat) (s : State) :
    DataOutcome s (execFmDemodulate fm iq rate s) := by
  unfold execFmDemodulate
  cases s.fms[fm]? with
  | none => exact .refused
  | some m =>
    dsimp only
    have h := m.run_keepsRates Config.chip { samples := iq, rate := rate }
    cases hrun : m.run Config.chip { samples := iq, rate := rate } with
    | error e => rw [hrun] at h; exact .raised h
    | ok p => exact .give (.samePipeline (sameControl_refl s) rfl rfl)

/-- `am.demodulate` (R256). -/
theorem execAmDemodulate_dataOutcome (am : Nat) (iq : List (Rat × Rat)) (rate : Rat) (s : State) :
    DataOutcome s (execAmDemodulate am iq rate s) := by
  unfold execAmDemodulate
  cases s.ams[am]? with
  | none => exact .refused
  | some a =>
    dsimp only
    have h := a.run_keepsRates Config.chip { samples := iq, rate := rate } s.drawNo
    cases hrun : a.run Config.chip { samples := iq, rate := rate } s.drawNo with
    | error e => rw [hrun] at h; exact .raised h
    | ok p => exact .give (.samePipeline (sameControl_refl s) rfl rfl)

/-- Every operation of the data path: it is refused, raises an error that sets no `FAULT`, or changes units, the pipeline, the
draw counter and the result only (R331). -/
theorem exec_dataOutcome {i : Instr} (hi : isDataPath i = true) (s : State) : DataOutcome s (exec i s) := by
  cases i
  case process => exact processBlock_dataOutcome _ _ _ _ _ _
  case msgProcess => exact processBlock_dataOutcome _ _ _ _ _ _
  case setMode => exact installMode_dataOutcome _ _ _
  case msgSetMode => exact installMode_dataOutcome _ _ _
  case getLowpassFirCoeffs rate f n =>
    refine .ite ?_ .refused
    cases lowpass Config.chip rate f n with
    | none => exact .refused
    | some coefs => exact .give (.refl s)
  case firNew => exact .ite (.give (.samePipeline (sameControl_refl s) rfl rfl)) .refused
  case firLoad fir samples =>
    simp only [exec, execFirLoad]
    cases s.firs[fir]? with
    | none => exact .refused
    | some f => exact .give (.samePipeline (sameControl_refl s) rfl rfl)
  case firGet fir i =>
    simp only [exec, execFirGet]
    cases s.firs[fir]? with
    | none => exact .refused
    | some f => exact .ite (.give (.refl s)) .refused
  case dsNew => exact .ite (.give (.samePipeline (sameControl_refl s) rfl rfl)) .refused
  case dsDownsample => exact execDsDownsample_dataOutcome _ _ _ s
  case iqdsNew => exact .ite (.give (.samePipeline (sameControl_refl s) rfl rfl)) .refused
  case iqdsDownsample => exact execIqdsDownsample_dataOutcome _ _ _ s
  case fmNew inRate outRate maxF filterFreq kernelLen =>
    refine .ite ?_ .refused
    cases lowpass Config.chip inRate filterFreq kernelLen with
    | none => exact .refused
    | some coefs => exact .give (.samePipeline (sameControl_refl s) rfl rfl)
  case fmDemodulate => exact execFmDemodulate_dataOutcome _ _ _ s
  case amNew inRate outRate filterFreq kernelLen =>
    refine .ite ?_ .refused
    cases lowpass Config.chip inRate filterFreq kernelLen with
    | none => exact .refused
    | some coefs => exact .give (.samePipeline (sameControl_refl s) rfl rfl)
  case amDemodulate => exact execAmDemodulate_dataOutcome _ _ _ s
  case avgNew => exact .ite (.give (.samePipeline (sameControl_refl s) rfl rfl)) .refused
  case avgAdd avg x =>
    simp only [exec, execAvgAdd]
    cases s.avgs[avg]? with
    | none => exact .refused
    | some a => exact .give (.samePipeline (sameControl_refl s) rfl rfl)
  case stNew => exact .ite (.give (.samePipeline (sameControl_refl s) rfl rfl)) .refused
  case stSeparate st samples =>
    simp only [exec, execStSeparate]
    cases s.sts[st]? with
    | none => exact .refused
    | some t => exact .give (.samePipeline (sameControl_refl s) rfl rfl)
  case deNew => exact .ite (.give (.samePipeline (sameControl_refl s) rfl rfl)) .refused
  case deRun de samples rate =>
    simp only [exec, execDeRun]
    cases s.des[de]? with
    | none => exact .refused
    | some d => exact .give (.samePipeline (sameControl_refl s) rfl rfl)
  case iqConvert => exact .ite (.give (.refl s)) .refused
  all_goals cases hi

end Sys2Proof.Machine
end

section
/-! PROOFS. O42: `FAULT` is kept by all that is elementary on the control path, so by every operation but `rtl.new`, by every
move and by every completion (10_state R29, 43_rtl2832u_demod R201, 60_exceptions R310). -/

namespace Sys2Proof.Machine

theorem takeError_fault {e : Err} {s : State} (h : s.fault = true) : (takeError e s).fault = true := by
  unfold takeError
  split
  · rfl
  · exact h

theorem completeRead_fault {r : ReadInFlight} {rest : List ReadInFlight} {s : State} (h : s.fault = true) :
    (completeRead r rest s).fault = true := by
  rw [completeRead_eq]
  split
  · exact takeError_fault h
  · exact h

theorem completeOldest_fault {s : State} (h : s.fault = true) : (completeOldest s).fault = true := by
  unfold completeOldest
  split
  · exact h
  · exact completeRead_fault h

theorem fault_stableHost : StableHost fun s => s.fault = true where
  issued _ _ h := h
  advanced _ h := h
  stored t bytes s h := by rw [deviceStore_fault]; exact h
  forgot t bytes draw s h := by rw [deviceForget_fault]; exact h
  read t s h := by rw [deviceAfterRead_fault]; exact h
  even _ _ _ h := h
  claim _ _ h := h
  release _ h := h
  bridge _ _ h := h
  noBridge _ h := h
  shadow _ _ h := h
  lock _ _ h := h
  notReady _ h := h
  ready _ _ h := h
  filter _ _ h := h
  xtal _ _ h := h
  rate _ _ h := h
  goto _ _ h := h
  closed _ h := h
  device _ h := h
  result _ _ h := h
  taken _ _ _ h := takeError_fault h
  oldest _ _ _ _ h := completeRead_fault h
  at' _ _ h := h
  invalid _ _ h := takeError_fault h
  issue _ _ _ _ h := h

theorem carry_fault {op : Instr} {ts : List Task} {s : State} (h : s.fault = true) : (s.carry op ts).fault = true := by
  unfold State.carry
  split <;> exact h

theorem recover_fault {op : Instr} {e : Err} {rest : List Task} {s : State} (h : s.fault = true) :
    (recover op e rest s).fault = true := by
  unfold recover
  split
  · exact takeError_fault h
  · split
    · exact carry_fault (takeError_fault h)
    · exact takeError_fault h

/-- A message of the data-path port is an operation of the data path. -/
theorem isDataPath_of_isMessage {m : Instr} (h : isMessage m = true) : isDataPath m = true := by
  cases m
  case msgProcess => rfl
  case msgSetMode => rfl
  all_goals cases h

/-- An operation keeps `FAULT`; only `rtl.new` from the closed state clears it. -/
theorem exec_fault {i : Instr} {s t : State} (h : s.fault = true) (ht : exec i s = .next t)
    (hn : s.opened = true ∨ ∀ handle ppm gain, i ≠ .rtlNew handle ppm gain) : t.fault = true := by
  cases hi : isDataPath i with
  | true =>
    obtain ⟨-, -, -, -, -, hfault, -⟩ := (exec_dataOutcome hi s t ht).control
    exact hfault.trans h
  | false =>
    refine fault_stableHost.control hi (fun handle ppm gain hnew hclosed _ => ?_) h ht
    rcases hn with hopen | hne
    · rw [hopen] at hclosed; cases hclosed
    · exact absurd hnew (hne handle ppm gain)

theorem move_fault {s t : State} (h : s.fault = true) (he : s.ended = false) (ht : move Config.chip s = .next t) :
    t.fault = true := by
  obtain ⟨rfl, -⟩ | ⟨op, x, rest, -, -, ⟨ts, u, rfl, hu⟩ | ⟨e, u, rfl, -, hu⟩⟩ :=
    move_cases fault_stableHost.toStableTasks (s := s) h he ht
  · exact h
  · exact carry_fault hu
  · exact recover_fault hu

theorem handleOldest_fault {s t : State} (h : s.fault = true) (hw : ∀ m ∈ s.messages, isMessage m = true)
    (ht : handleOldest s = .next t) : t.fault = true := by
  cases hm : s.messages with
  | nil =>
    rw [handleOldest_nil hm] at ht
    cases ht
    exact h
  | cons m later =>
    rw [handleOldest_cons hm] at ht
    have hmsg : isMessage m = true := hw m (hm ▸ List.mem_cons_self)
    refine exec_fault (s := { s with messages := later }) h ht (.inr fun handle ppm gain hnew => ?_)
    rw [hnew] at hmsg
    cases hmsg

/-- Settles O42: operations by `exec_fault`, what the block does on its own by the three rules for a move, a completion and a
message. -/
theorem faultSticky : Obligations.FaultSticky := by
  unfold Obligations.FaultSticky
  refine ⟨fun i s t h ht hn => exec_fault h ht hn, ?_⟩
  rintro s t h he hw (ht | rfl | ht)
  · exact move_fault h he ht
  · exact completeOldest_fault h
  · exact handleOldest_fault h hw ht

end Sys2Proof.Machine
end

section
/-! PROOFS. O6: every step keeps the invariant. `CoreInv` is the part of it that does not speak of the operation in progress;
what a program or a task does keeps it, and the sequencer's part follows from where a program begins and ends (10_state R24,
R29, R39, 40_usb_transport R81, 43_rtl2832u_demod R211, 48_pipelines_and_input R288, 60_exceptions R310). -/

namespace Sys2Proof.Machine

/-! ## The invariant without the operation in progress -/

/-- The invariant of the block's states but for what it says of the operation in progress and its position. -/
structure CoreInv (s : State) : Prop where
  memory     : s.mem.wf = true
  readCount  : s.reads.length ≤ Config.maxReads
  readShape  : ∀ r ∈ s.reads, 0 < r.length ∧ r.length % 2 = 0 ∧ r.pos = { op := .readSamples, step := 0 }
  onIByte    : s.streamPos % 2 = 0
  claimOpen  : s.claimed = true → s.opened = true
  bridgeOpen : s.i2cOpen = true → s.opened = true
  shadowed   : s.tunerReady = true → s.shadow.isSome = true
  waiting    : ∀ m ∈ s.messages, isMessage m = true
  chainFits  : PipelineFits s

/-- `CoreInv` in a state with no operation in progress. -/
structure FreeInv (s : State) : Prop extends CoreInv s where
  running : s.running = none
  todo    : s.todo = []

/-- The sequencer is at operation `q`, and at index 0 where that is none (R24). -/
def PosAt (q : SeqOp) (s : State) : Prop := s.seq.op = q ∧ (s.seq.op = .idle → s.seq.step = 0)

section Parts

variable {s : State}

theorem BlockInv.core (h : BlockInv s) : CoreInv s :=
  ⟨h.memory, h.readCount, h.readShape, h.onIByte, h.claimOpen, h.bridgeOpen, h.shadowed, h.waiting, h.chainFits⟩

theorem BlockInv.posAt (h : BlockInv s) : PosAt s.seq.op s := ⟨rfl, h.idleStep⟩

/-- What the tasks of an operation in progress begin in. -/
theorem BlockInv.bare (h : BlockInv s) : FreeInv s.bare :=
  { h.core with running := rfl, todo := rfl }

theorem BlockInv.free (h : BlockInv s) (hr : s.running = none) : FreeInv s := by
  refine { h.core with running := hr, todo := ?_ }
  by_contra hne
  have := h.progress.mpr hne
  rw [hr] at this
  cases this

/-- With no operation in progress the sequencer rests. -/
theorem BlockInv.seq_rest (h : BlockInv s) (hr : s.running = none) : s.seq = SeqPos.rest := by
  have hop : s.seq.op = .idle := by
    have := h.sequencer
    rw [hr] at this
    exact (Option.some.inj this).symm
  have hstep := h.idleStep hop
  cases hseq : s.seq with
  | mk op step =>
    rw [hseq] at hop hstep
    cases hop
    cases hstep
    rfl

theorem CoreInv.blockInv (h : CoreInv s) (sequencer : seqName s.running = some s.seq.op)
    (idleStep : s.seq.op = .idle → s.seq.step = 0) (progress : s.running.isSome = true ↔ s.todo ≠ []) : BlockInv s :=
  { h with sequencer := sequencer, idleStep := idleStep, progress := progress }

theorem FreeInv.blockInv (h : FreeInv s) (hq : s.seq = SeqPos.rest) : BlockInv s := by
  refine h.toCoreInv.blockInv ?_ (fun _ => by rw [hq]; rfl) ?_
  · rw [h.running, hq]
    rfl
  · rw [h.running, h.todo]
    exact ⟨nofun, fun hne => absurd rfl hne⟩

end Parts

/-! ## Elementary changes keep it -/

section Elementary

variable {s : State}

theorem deviceStore_core (t : Target) (bytes : List Byte) (h : CoreInv s) : CoreInv (deviceStore t bytes s) := by
  have hmem := deviceStore_wf t bytes h.memory
  cases t with
  | register base room =>
    refine { h with memory := hmem, onIByte := ?_ }
    show (if resetsFifo s.mem base (bytes.take room) then 0 else s.streamPos) % 2 = 0
    split
    · rfl
    · exact h.onIByte
  | tuner =>
    cases bytes with
    | nil => exact h
    | cons reg data => exact { h with memory := hmem }
  | absent => exact h

theorem deviceForget_core (t : Target) (bytes : List Byte) (draw : Nat) (h : CoreInv s) :
    CoreInv (deviceForget t bytes draw s) := by
  have hmem := deviceForget_wf t bytes draw h.memory
  cases t with
  | register base room => exact { h with memory := hmem }
  | tuner =>
    cases bytes with
    | nil => exact h
    | cons reg data => exact { h with memory := hmem }
  | absent => exact h

theorem consumeStream_core {n : Nat} (hn : n % 2 = 0) (h : CoreInv s) : CoreInv (consumeStream n s) := by
  refine { h with onIByte := ?_ }
  have := h.onIByte
  rw [consumeStream_streamPos]
  omega

theorem takeError_core (e : Err) (h : CoreInv s) : CoreInv (takeError e s) := by
  unfold takeError
  split <;> exact { h with }

/-- A completed read leaves the reads after it, and the stream on an I byte (R81, R88). -/
theorem completeRead_core {r : ReadInFlight} {rest : List ReadInFlight} (hr : s.reads = r :: rest) (h : CoreInv s) :
    CoreInv (completeRead r rest s) := by
  have heven : r.length % 2 = 0 := (h.readShape r (hr ▸ List.mem_cons_self)).2.1
  have hcount : rest.length ≤ Config.maxReads := by
    have := h.readCount
    rw [hr, List.length_cons] at this
    omega
  have hrest : CoreInv { s with reads := rest, drawNo := s.drawNo + 1 } :=
    { h with readCount := hcount, readShape := fun x hx => h.readShape x (hr ▸ List.mem_cons_of_mem r hx) }
  rw [completeRead_eq]
  split
  · exact takeError_core _ { consumeStream_core (lostBytes_even r.length s.drawNo) hrest with }
  · exact { consumeStream_core heven hrest with }

/-- A read that is issued: it is the second at most, and asks for whole pairs (R211). -/
theorem readIssued_core {n : Nat} (hn : 0 < n) (ha : HostOp.rtlReadSamples.allowed s = true) (h : CoreInv s) :
    CoreInv (readIssued n s) := by
  simp only [HostOp.allowed, Bool.and_eq_true, decide_eq_true_eq] at ha
  refine { h with readCount := ?_, readShape := fun r hr => ?_ }
  · show (s.reads ++ [_]).length ≤ _
    rw [List.length_append, List.length_singleton]
    exact ha.2
  · rcases List.mem_append.mp hr with hr | hr
    · exact h.readShape r hr
    · cases List.mem_singleton.mp hr
      exact ⟨Nat.mul_pos Nat.zero_lt_two hn, Nat.mul_mod_right 2 n, rfl⟩

theorem completeRead_running (r : ReadInFlight) (rest : List ReadInFlight) (s : State) :
    (completeRead r rest s).running = s.running ∧ (completeRead r rest s).todo = s.todo := by
  rw [completeRead_eq]
  split
  · rw [takeError_running, takeError_todo]
    exact ⟨rfl, rfl⟩
  · exact ⟨rfl, rfl⟩

end Elementary

/-- All that is elementary on the control path keeps `FreeInv`. -/
theorem freeInv_stableHost : StableHost FreeInv where
  issued _ _ h := { h with }
  advanced _ h := { h with }
  stored t bytes s h := { deviceStore_core t bytes h.toCoreInv with
    running := (deviceStore_running t bytes s).trans h.running, todo := (deviceStore_todo t bytes s).trans h.todo }
  forgot t bytes draw s h := { deviceForget_core t bytes draw h.toCoreInv with
    running := (deviceForget_running t bytes draw s).trans h.running
    todo := (deviceForget_todo t bytes draw s).trans h.todo }
  read t s h := by cases t <;> exact { h with }
  even n s hn h := { consumeStream_core hn h.toCoreInv with running := h.running, todo := h.todo }
  claim _ ho h := { h with claimOpen := fun _ => ho }
  release _ h := { h with claimOpen := nofun }
  bridge _ ho h := { h with bridgeOpen := fun _ => ho }
  noBridge _ h := { h with bridgeOpen := nofun }
  shadow _ _ h := { h with shadowed := fun _ => rfl }
  lock _ _ h := { h with }
  notReady _ h := { h with shadowed := nofun }
  ready _ hx h := { h with shadowed := fun _ => hx }
  filter _ _ h := { h with }
  xtal _ _ h := { h with }
  rate _ _ h := { h with }
  goto _ _ h := { h with }
  closed _ h := { h with claimOpen := nofun, bridgeOpen := nofun, shadowed := nofun }
  device _ h := { h with claimOpen := nofun, bridgeOpen := nofun, shadowed := nofun }
  result _ _ h := { h with }
  taken e s _ h := { takeError_core e h.toCoreInv with
    running := (takeError_running e s).trans h.running, todo := (takeError_todo e s).trans h.todo }
  oldest r rest s hr h := { completeRead_core hr h.toCoreInv with
    running := (completeRead_running r rest s).1.trans h.running
    todo := (completeRead_running r rest s).2.trans h.todo }
  at' _ _ h := { h with }
  invalid op s h := { takeError_core (invalidState op) h.toCoreInv with
    running := (takeError_running _ s).trans h.running, todo := (takeError_todo _ s).trans h.todo }
  issue _ s hn ha h := { readIssued_core hn ha h.toCoreInv with running := h.running, todo := h.todo }

/-! ## The sequencer's position -/

theorem posAt_rest {s : State} (h : s.seq = SeqPos.rest) : PosAt .idle s := by
  unfold PosAt
  rw [h]
  exact ⟨rfl, fun _ => rfl⟩

theorem PosAt.rest {s : State} (h : PosAt .idle s) : s.seq = SeqPos.rest := by
  obtain ⟨hop, hstep⟩ := h
  have hstep := hstep hop
  cases hseq : s.seq with
  | mk op step =>
    rw [hseq] at hop hstep
    cases hop
    cases hstep
    rfl

/-- An error that sets `FAULT` brings the sequencer to rest (R310). -/
theorem takeError_rests {e : Err} (he : e.kind.setsFault = true) (s : State) : (takeError e s).seq = SeqPos.rest := by
  rw [takeError, if_pos he]
  rfl

theorem takeError_samePos {e : Err} (he : e.kind.setsFault = false) (s : State) : (takeError e s).seq = s.seq := by
  rw [takeError, if_neg (by rw [he]; exact Bool.false_ne_true)]
  rfl

/-- While no sequence runs the index stays 0 (R24). -/
theorem PosAt.advanced {q : SeqOp} {s : State} (h : PosAt q s) : PosAt q s.advanced := by
  unfold PosAt State.advanced SeqPos.advance
  dsimp only
  split
  · exact h
  · rename_i hop
    exact ⟨h.1, fun hidle => absurd hidle hop⟩

theorem PosAt.goto {q : SeqOp} {s : State} (k : Nat) (h : PosAt q s) : PosAt q (s.goto k) := by
  unfold PosAt State.goto SeqPos.goto State.atPos
  dsimp only
  split
  · exact h
  · rename_i hop
    exact ⟨h.1, fun hidle => absurd hidle hop⟩

/-- No task leaves its operation. -/
theorem posAt_stableTasks (q : SeqOp) : StableTasks (PosAt q) where
  issued _ _ h := h
  advanced _ h := h.advanced
  stored t bytes s h := by unfold PosAt; rw [deviceStore_seq]; exact h
  forgot t bytes draw s h := by unfold PosAt; rw [deviceForget_seq]; exact h
  read t s h := by unfold PosAt; rw [deviceAfterRead_seq]; exact h
  even _ _ _ h := h
  claim _ _ h := h
  release _ h := h
  bridge _ _ h := h
  noBridge _ h := h
  shadow _ _ h := h
  lock _ _ h := h
  notReady _ h := h
  ready _ _ h := h
  filter _ _ h := h
  xtal _ _ h := h
  rate _ _ h := h
  goto k _ h := h.goto k
  closed _ h := h
  device _ h := h

theorem StableTasks.and {P Q : State → Prop} (h : StableTasks P) (g : StableTasks Q) :
    StableTasks fun s => P s ∧ Q s where
  issued t s hs := ⟨h.issued t s hs.1, g.issued t s hs.2⟩
  advanced s hs := ⟨h.advanced s hs.1, g.advanced s hs.2⟩
  stored t b s hs := ⟨h.stored t b s hs.1, g.stored t b s hs.2⟩
  forgot t b d s hs := ⟨h.forgot t b d s hs.1, g.forgot t b d s hs.2⟩
  read t s hs := ⟨h.read t s hs.1, g.read t s hs.2⟩
  even n s hn hs := ⟨h.even n s hn hs.1, g.even n s hn hs.2⟩
  claim s ho hs := ⟨h.claim s ho hs.1, g.claim s ho hs.2⟩
  release s hs := ⟨h.release s hs.1, g.release s hs.2⟩
  bridge s ho hs := ⟨h.bridge s ho hs.1, g.bridge s ho hs.2⟩
  noBridge s hs := ⟨h.noBridge s hs.1, g.noBridge s hs.2⟩
  shadow sh s hs := ⟨h.shadow sh s hs.1, g.shadow sh s hs.2⟩
  lock b s hs := ⟨h.lock b s hs.1, g.lock b s hs.2⟩
  notReady s hs := ⟨h.notReady s hs.1, g.notReady s hs.2⟩
  ready s hx hs := ⟨h.ready s hx hs.1, g.ready s hx hs.2⟩
  filter cap s hs := ⟨h.filter cap s hs.1, g.filter cap s hs.2⟩
  xtal f s hs := ⟨h.xtal f s hs.1, g.xtal f s hs.2⟩
  rate r s hs := ⟨h.rate r s hs.1, g.rate r s hs.2⟩
  goto k s hs := ⟨h.goto k s hs.1, g.goto k s hs.2⟩
  closed s hs := ⟨h.closed s hs.1, g.closed s hs.2⟩
  device s hs := ⟨h.device s hs.1, g.device s hs.2⟩

/-- A read in flight fails at its own position and brings the sequencer to rest (R88, R310); at rest it stays there. -/
theorem completeRead_rests (r : ReadInFlight) (rest : List ReadInFlight) {s : State} (h : s.seq = SeqPos.rest) :
    (completeRead r rest s).seq = SeqPos.rest := by
  rw [completeRead_eq]
  split
  · exact takeError_rests rfl _
  · exact h

theorem posAt_settles : Settles (PosAt .idle) where
  result _ _ h := h
  taken _ s he _ := posAt_rest (takeError_rests he s)
  oldest r rest _ _ h := posAt_rest (completeRead_rests r rest h.rest)

/-! ## A program of the host ends at rest -/

/-- Begun before the host program has ended, a program ends with a value in a state that has `Q`; raises an error that sets
`FAULT`; or, where a fatal error ended the host program, leaves the sequencer at rest (R310, R311). -/
def Ctl.EndsWith {α : Type} (Q : State → Prop) (m : Ctl α) : Prop :=
  ∀ s, s.ended = false → match m s with
    | .ok _ s' => Q s'
    | .error (.raised e) _ => e.kind.setsFault = true
    | .error .ended s' => s'.seq = SeqPos.rest
    | .error (.refused _) _ => True
    | .error (.fault _) _ => True

/-- The host program has not ended. -/
def NotEnded (s : State) : Prop := s.ended = false

theorem notEnded_stableTasks : StableTasks NotEnded where
  issued _ _ h := h
  advanced _ h := h
  stored t bytes s h := (deviceStore_ended t bytes s).trans h
  forgot t bytes draw s h := (deviceForget_ended t bytes draw s).trans h
  read t s h := (deviceAfterRead_ended t s).trans h
  even _ _ _ h := h
  claim _ _ h := h
  release _ h := h
  bridge _ _ h := h
  noBridge _ h := h
  shadow _ _ h := h
  lock _ _ h := h
  notReady _ h := h
  ready _ _ h := h
  filter _ _ h := h
  xtal _ _ h := h
  rate _ _ h := h
  goto _ _ h := h
  closed _ h := h
  device _ h := h

namespace Ctl.EndsWith

variable {α β : Type} {Q : State → Prop}

theorem of_keeps {m : Ctl α} (h : Ctl.Keeps NotEnded m) : Ctl.EndsWith NotEnded m := by
  intro s he
  have hk := h s he
  revert hk
  cases m s with
  | ok a u => exact id
  | error e u =>
    cases e with
    | raised e => exact And.right
    | ended => exact fun hk => absurd (hk.1.symm.trans hk.2) nofun
    | refused r => exact id
    | fault f => exact id

theorem bind {m : Ctl α} {f : α → Ctl β} (hm : Ctl.EndsWith NotEnded m) (hf : ∀ a, Ctl.EndsWith Q (f a)) :
    Ctl.EndsWith Q (m >>= f) := by
  intro s he
  have hk := hm s he
  rw [Ctl.run_bind]
  revert hk
  cases m s with
  | ok a u => exact fun hu => hf a u hu
  | error e u => cases e <;> exact id

theorem modify {g : State → State} (hg : ∀ s, s.ended = false → Q (g s)) : Ctl.EndsWith Q (modify g : Ctl PUnit) :=
  fun s he => hg s he

/-- A value computed from the program's changes no state. -/
theorem result {m : Ctl α} {g : α → β} (hm : Ctl.EndsWith Q m) : Ctl.EndsWith Q (m >>= fun a => Pure.pure (g a)) := by
  intro s he
  have hk := hm s he
  rw [Ctl.run_bind]
  revert hk
  cases m s with
  | ok a u => exact id
  | error e u => cases e <;> exact id

theorem seqAt (op : SeqOp) (k : Nat) : Ctl.EndsWith NotEnded (Sys2Proof.Machine.seqAt op k) := modify fun _ he => he

theorem seqDone : Ctl.EndsWith (fun s => s.seq = SeqPos.rest) Sys2Proof.Machine.seqDone := modify fun _ _ => rfl

/-- A step of `rtl.close` goes on after an error that was not fatal (R317). -/
theorem attempt (k : Nat) {m : Ctl Unit} (hm : Ctl.EndsWith NotEnded m) :
    Ctl.EndsWith NotEnded (Sys2Proof.Machine.attempt k m) := by
  intro s he
  have hk := hm s he
  unfold Sys2Proof.Machine.attempt
  revert hk
  cases m s with
  | ok a u => exact id
  | error e u =>
    cases e with
    | raised e =>
      intro hfault
      dsimp only [closingError]
      cases hx : (takeError e u).ended with
      | true => exact takeError_rests hfault u
      | false => exact hx
    | ended => exact id
    | refused r => exact id
    | fault f => exact id

end Ctl.EndsWith

/-- An operation of the host whose program ends at rest. -/
theorem runHostOp_rests {op : HostOp} {m : Ctl Result} {s t : State} (hm : Ctl.EndsWith (fun s => s.seq = SeqPos.rest) m)
    (he : s.ended = false) (hs : s.seq = SeqPos.rest) (ht : runHostOp op m s = .next t) : t.seq = SeqPos.rest := by
  unfold runHostOp at ht
  split at ht
  · have hk := hm s he
    unfold runOp at ht
    revert hk ht
    cases m s with
    | ok r u => intro ht hk; cases ht; exact hk
    | error e u =>
      cases e with
      | raised e => intro ht hk; cases ht; exact takeError_rests hk u
      | ended => intro ht hk; cases ht; exact hk
      | refused r => intro ht; cases ht
      | fault f => intro ht; cases ht
  · cases ht
    exact (takeError_samePos rfl s).trans hs

/-- Every operation of the host that the host waits for ends with the sequencer at rest (R24). -/
theorem exec_host_rests {i : Instr} {op : HostOp} {s t : State} (hi : isDataPath i = false) (ho : hostOpOf i = some op)
    (he : s.ended = false) (hs : s.seq = SeqPos.rest) (ht : exec i s = .next t) : t.seq = SeqPos.rest := by
  have k := notEnded_stableTasks.toStable
  have keeps : ∀ {α : Type} {m : Ctl α}, Ctl.Keeps NotEnded m → Ctl.EndsWith NotEnded m := .of_keeps
  cases i
  case rtlNew handle ppm gain =>
    exact runHostOp_rests
      (Ctl.EndsWith.modify (Q := fun s => s.seq = SeqPos.rest) fun _ _ => rfl).result he hs ht
  case rtlOpen =>
    exact runHostOp_rests ((Ctl.EndsWith.seqAt _ _).bind fun _ => (keeps k.openPrelude).bind fun _ =>
      (keeps (k.initEntries _)).bind fun _ => (keeps k.computeXtal).bind fun _ => (keeps k.openI2c).bind fun _ =>
      (keeps k.probe).bind fun _ => (keeps (k.writeIfOffset _)).bind fun _ => (keeps (k.tunerInit _)).bind fun _ =>
      (keeps (k.applyGain _)).bind fun _ => (keeps k.closeI2c).bind fun _ => .seqDone).result he hs ht
  case rtlSetSampleRate rate =>
    exact runHostOp_rests ((Ctl.EndsWith.seqAt _ _).bind fun _ => (keeps (Stable.rateRatio _)).bind fun _ =>
      (keeps Ctl.Keeps.get).bind fun _ => (keeps (Ctl.Keeps.word _)).bind fun _ => (keeps (k.ratioWrites _)).bind fun _ =>
      (keeps (k.writeBytes1 _)).bind fun _ => (Ctl.EndsWith.modify fun _ h => h).bind fun _ =>
      Ctl.EndsWith.seqDone.result).result he hs ht
  case rtlSetCenterFrequency hz =>
    exact runHostOp_rests ((Ctl.EndsWith.seqAt _ _).bind fun _ => (keeps (Ctl.Keeps.require _ _)).bind fun _ =>
      (keeps k.openI2c).bind fun _ => (keeps (k.setFrequency _ _)).bind fun _ => (keeps k.closeI2c).bind fun _ =>
      (keeps (Stable.tuneLocked _ _)).bind fun _ => .seqDone).result he hs ht
  case rtlResetBuffer =>
    exact runHostOp_rests ((Ctl.EndsWith.seqAt _ _).bind fun _ => (keeps (k.writeReg _ _ _ _)).bind fun _ =>
      (keeps (k.writeReg _ _ _ _)).bind fun _ => .seqDone).result he hs ht
  case rtlReadSamples n =>
    change execRtlReadSamples n s = _ at ht
    unfold execRtlReadSamples at ht
    split at ht
    · split at ht
      · cases ht
      · cases ht; exact hs
    · cases ht
      exact (takeError_samePos rfl s).trans hs
  case rtlClose =>
    have step : ∀ (k : Nat) {m : Ctl Unit}, Ctl.Keeps NotEnded m → Ctl.EndsWith NotEnded (attempt k m) :=
      fun k _ h => (Ctl.EndsWith.of_keeps h).attempt k
    exact runHostOp_rests (((Ctl.EndsWith.seqAt _ _).bind fun _ => (step _ k.openI2c).bind fun _ =>
      (step _ (k.tunerClosing _)).bind fun _ => (step _ k.closeI2c).bind fun _ => step _ k.releaseClaimed).bind fun _ =>
      (Ctl.EndsWith.modify fun _ h => h).bind fun _ => .seqDone).result he hs ht
  case closeDevice =>
    exact runHostOp_rests ((keeps notEnded_stableTasks.closeDevice).bind fun _ => Ctl.EndsWith.seqDone.result) he hs ht
  all_goals first
    | (cases hi; done)
    | cases ho

/-! ## What an operation, a move, a completion and a message leave -/

section Pieces

variable {s t u : State} {i op : Instr} {q : SeqOp}

/-- The data path changes neither the control path nor the messages in flight (R331). -/
theorem BlockInv.after_dataStep (h : BlockInv s) (hd : DataStep s t) : BlockInv t := by
  obtain ⟨opened, claimed, i2cOpen, tunerReady, -, -, seq, reads, running, todo, -, -, -, -, -, -, shadow, mem, -, -, -,
    streamPos, -, -⟩ := hd.control
  exact {
    memory := mem ▸ h.memory
    sequencer := by rw [running, seq]; exact h.sequencer
    idleStep := by rw [seq]; exact h.idleStep
    progress := by rw [running, todo]; exact h.progress
    readCount := by rw [reads]; exact h.readCount
    readShape := by rw [reads]; exact h.readShape
    onIByte := by rw [streamPos]; exact h.onIByte
    claimOpen := by rw [claimed, opened]; exact h.claimOpen
    bridgeOpen := by rw [i2cOpen, opened]; exact h.bridgeOpen
    shadowed := by rw [tunerReady, shadow]; exact h.shadowed
    waiting := by rw [hd.messages]; exact h.waiting
    chainFits := hd.fits h.chainFits }

theorem BlockInv.withInbox (h : BlockInv s) (rest : List Event) : BlockInv { s with inbox := rest } := { h with }

theorem BlockInv.withMessages (h : BlockInv s) {ms : List Instr} (hm : ∀ m ∈ ms, isMessage m = true)
    (rest : List Event) : BlockInv { s with messages := ms, inbox := rest } := { h with waiting := hm }

/-- An error that sets no `FAULT` changes nothing the invariant speaks of. -/
theorem BlockInv.after_takeError (h : BlockInv s) {e : Err} (he : e.kind.setsFault = false) :
    BlockInv (takeError e s) := h.after_dataStep (DataOutcome.raised he _ rfl)

/-- An operation that runs while none of the host's is in progress. -/
theorem BlockInv.after_exec_control (h : BlockInv s) (hi : isDataPath i = false) (hr : s.running = none)
    (he : s.ended = false) (ht : exec i s = .next t) : BlockInv t := by
  have hfree := h.free hr
  have hrest := h.seq_rest hr
  have tfree : FreeInv t := freeInv_stableHost.control hi
    (fun _ _ _ _ _ h => { h with claimOpen := fun _ => rfl, bridgeOpen := fun _ => rfl }) hfree ht
  refine tfree.blockInv ?_
  cases ho : hostOpOf i with
  | none => exact ((posAt_stableTasks .idle).exec posAt_settles hi ho (posAt_rest hrest) ht).rest
  | some op => exact exec_host_rests hi ho he hrest ht

theorem BlockInv.after_exec_dataPath (h : BlockInv s) (hi : isDataPath i = true) (ht : exec i s = .next t) : BlockInv t :=
  h.after_dataStep (exec_dataOutcome hi s t ht)

/-- The operation in progress goes on, or has completed (R24). -/
theorem FreeInv.after_carry (h : FreeInv u) (hp : PosAt q u) (hq : sequenceOf op = some q) (ts : List Task) :
    BlockInv (u.carry op ts) := by
  unfold State.carry
  split
  · exact FreeInv.blockInv { h with running := rfl, todo := rfl } rfl
  · rename_i hne
    refine CoreInv.blockInv { h with } ?_ hp.2 ⟨fun _ htodo => hne (List.isEmpty_iff.mpr htodo), fun _ => rfl⟩
    show sequenceOf op = some u.seq.op
    rw [hq, hp.1]

/-- An error ends the operation in progress, or `rtl.close` goes on at its next step (R310, R317). -/
theorem FreeInv.after_recover (h : FreeInv u) (hp : PosAt q u) (hq : sequenceOf op = some q) {e : Err}
    (he : e.kind.setsFault = true) (rest : List Task) : BlockInv (recover op e rest u) := by
  have taken : FreeInv (takeError e u) := freeInv_stableHost.taken e u he h
  have hrest := takeError_rests he u
  unfold recover
  split
  · exact taken.blockInv hrest
  · split
    · rename_i k todo hmark
      exact FreeInv.after_carry (freeInv_stableHost.at' (u.seq.goto k) _ taken) (hp.goto k) hq todo
    · exact taken.blockInv hrest

theorem BlockInv.after_move (h : BlockInv s) (he : s.ended = false) (ht : move Config.chip s = .next t) : BlockInv t := by
  obtain ⟨rfl, -⟩ | ⟨op, x, rest, hr, -, hmove⟩ :=
    move_cases (freeInv_stableHost.toStableTasks.and (posAt_stableTasks s.seq.op)) ⟨h.bare, h.posAt⟩ he ht
  · exact h
  · have hq : sequenceOf op = some s.seq.op := by
      have := h.sequencer
      rwa [hr] at this
    obtain ⟨ts, u, rfl, hu, hp⟩ | ⟨e, u, rfl, hfault, hu, hp⟩ := hmove
    · exact hu.after_carry hp hq (ts ++ rest)
    · exact hu.after_recover hp hq hfault rest

/-- With no operation in progress a completed read leaves the sequencer at rest. -/
theorem BlockInv.after_completeOldest (h : BlockInv s) (hr : s.running = none) : BlockInv (completeOldest s) := by
  have hfree := h.free hr
  unfold completeOldest
  split
  · exact h
  · rename_i r rest hreads
    exact (freeInv_stableHost.oldest r rest s hreads hfree).blockInv (completeRead_rests r rest (h.seq_rest hr))

/-- With an operation in progress a completed read leaves the sequencer where it is (R88). -/
theorem BlockInv.after_readCompletes (h : BlockInv s) : BlockInv (readCompletes s) := by
  unfold readCompletes completeOldest
  split
  · exact { h with }
  · rename_i r rest hreads
    obtain ⟨running, todo⟩ := completeRead_running r rest s
    refine CoreInv.blockInv { completeRead_core hreads h.core with } ?_ h.idleStep ?_
    · show seqName (completeRead r rest s).running = _
      rw [running]
      exact h.sequencer
    · show (completeRead r rest s).running.isSome = true ↔ (completeRead r rest s).todo ≠ []
      rw [running, todo]
      exact h.progress

end Pieces

/-! ## What an event of the host does -/

/-- Every value a reader gives has `Q`. -/
def Reader.Yields {α : Type} (Q : α → Prop) (g : Reader α) : Prop := ∀ bs a rest, g bs = .ok (a, rest) → Q a

namespace Reader.Yields

variable {α β : Type} {Q : β → Prop}

theorem pure {b : β} (h : Q b) : Yields Q (Pure.pure b : Reader β) := fun _ _ _ hb => by cases hb; exact h

theorem throw {e : DecodeError} : Yields Q (throw e : Reader β) := fun _ _ _ hb => by cases hb

theorem bind {g : Reader α} {f : α → Reader β} (h : ∀ a, Yields Q (f a)) : Yields Q (g >>= f) := by
  intro bs b rest hb
  change (g bs >>= fun p => f p.1 p.2) = .ok (b, rest) at hb
  cases hg : g bs with
  | error e => rw [hg] at hb; cases hb
  | ok p => rw [hg] at hb; exact h p.1 p.2 b rest hb

end Reader.Yields

section Events

variable {s t : State} {i : Instr}

/-- Every packet of the data-path port is a message (R118). -/
theorem isMessage_of_decode {bytes : List Byte} (h : decode .msg bytes = .ok i) : isMessage i = true := by
  have hread : Reader.Yields (fun i => isMessage i = true) readMsg := by
    refine .bind fun tag => ?_
    split
    · exact .bind fun _ => .bind fun _ => .bind fun _ => .bind fun _ => .pure rfl
    · split
      · exact .bind fun _ => .pure rfl
      · exact .throw
  unfold decode at h
  split at h
  · cases h
  · rename_i j rest hj
    split at h
    · cases h
      exact hread bytes i rest hj
    · cases h

theorem programOf_ne_nil {q : SeqOp} (h : sequenceOf i = some q) : programOf Config.chip i ≠ [] := by
  cases i
  case rtlOpen => nofun
  case rtlSetSampleRate => nofun
  case rtlSetCenterFrequency => nofun
  case rtlResetBuffer => nofun
  case rtlClose => nofun
  case closeDevice => nofun
  all_goals cases h

/-- An operation begins at index 0, with its program to do. -/
theorem BlockInv.started (h : BlockInv s) {q : SeqOp} (hq : sequenceOf i = some q) :
    BlockInv (s.started Config.chip i q) :=
  CoreInv.blockInv { h.core with } hq (fun _ => rfl) ⟨fun _ => programOf_ne_nil hq, fun _ => rfl⟩

theorem BlockInv.after_handleOldest (h : BlockInv s) (ht : handleOldest s = .next t) : BlockInv t := by
  cases hm : s.messages with
  | nil =>
    rw [handleOldest_nil hm] at ht
    cases ht
    exact h
  | cons m later =>
    rw [handleOldest_cons hm] at ht
    have hw := h.waiting
    rw [hm] at hw
    exact (h.withMessages (fun x hx => hw x (List.mem_cons_of_mem m hx)) s.inbox).after_exec_dataPath
      (isDataPath_of_isMessage (hw m List.mem_cons_self)) ht

theorem BlockInv.after_awaitResponse (h : BlockInv s) {rest : List Event} (ht : awaitResponse rest s = .next t) :
    BlockInv t := by
  cases hm : s.messages with
  | nil =>
    have hidle : awaitResponse rest s = .next { s with inbox := rest } := by simp only [awaitResponse, hm]
    rw [hidle] at ht
    cases ht
    exact h.withInbox rest
  | cons m later =>
    rw [awaitResponse_cons hm] at ht
    have hw := h.waiting
    rw [hm] at hw
    exact (h.withMessages (fun x hx => hw x (List.mem_cons_of_mem m hx)) _).after_exec_dataPath
      (isDataPath_of_isMessage (hw m List.mem_cons_self)) ht

theorem BlockInv.after_proceed (h : BlockInv s) (he : s.ended = false) (ht : proceed s = .next t) : BlockInv t := by
  cases hr : s.running with
  | none =>
    simp only [proceed, hr] at ht
    cases ht
    exact h.after_completeOldest hr
  | some op =>
    rw [proceed_running hr] at ht
    split at ht
    · exact h.after_move he ht
    · cases ht
      exact h.after_readCompletes

theorem BlockInv.after_idleStep (h : BlockInv s) (he : s.ended = false) (ht : Sys2Proof.Machine.idleStep s = .next t) :
    BlockInv t := by
  unfold Sys2Proof.Machine.idleStep at ht
  split at ht
  · exact h.after_handleOldest ht
  · exact h.after_proceed he ht

theorem BlockInv.after_awaitNext (h : BlockInv s) (he : s.ended = false) {rest : List Event}
    (ht : awaitNext rest s = .next t) : BlockInv t := by
  unfold awaitNext at ht
  split at ht
  · exact (h.withInbox rest).after_proceed he ht
  · split at ht
    · rename_i u hu
      cases ht
      have hinv := h.after_move he hu
      split
      · exact hinv.withInbox rest
      · exact hinv
    · cases ht
    · cases ht

theorem BlockInv.after_progress (h : BlockInv s) (he : s.ended = false) (ht : Sys2Proof.Machine.progress s = .next t) :
    BlockInv t := by
  unfold Sys2Proof.Machine.progress at ht
  split at ht
  · rename_i hr
    cases ht
    exact h.after_completeOldest (Option.isNone_iff_eq_none.mp hr)
  · exact h.after_move he ht

/-- An operation that arrives (R200, R306, R340). -/
theorem BlockInv.after_arrive (h : BlockInv s) (he : s.ended = false) (ht : arrive i s = .next t) : BlockInv t := by
  cases hi : isDataPath i with
  | true =>
    rw [arrive_dataPath hi] at ht
    exact h.after_exec_dataPath hi ht
  | false =>
    cases hr : s.running with
    | none =>
      rw [arrive_free hr] at ht
      exact h.after_exec_control hi hr he ht
    | some op =>
      simp only [arrive, hr, hi, Bool.false_eq_true, if_false] at ht
      split at ht
      · cases ht
        exact h.after_takeError rfl
      · cases ht

theorem BlockInv.after_startOp (h : BlockInv s) (he : s.ended = false) (ht : startOp i s = .next t) : BlockInv t := by
  unfold startOp at ht
  split at ht
  · rename_i q name hq ho
    split at ht
    · cases ht
      exact h.started hq
    · exact h.after_arrive he ht
  · exact h.after_arrive he ht

end Events

/-- Settles O6: the invariant by the host's next event; each event by the rule for what it does. -/
theorem stepKeepsInv : Obligations.StepKeepsInv := by
  unfold Obligations.StepKeepsInv
  intro s t h ht
  have he : s.ended = false := by
    cases he : s.ended with
    | false => rfl
    | true => rw [step, if_pos he] at ht; cases ht
  cases hi : s.inbox with
  | nil =>
    rw [step_noEvent he hi] at ht
    exact h.after_idleStep he ht
  | cons event rest =>
    have hrest := h.withInbox rest
    cases event with
    | completion =>
      rw [step_completion he hi] at ht
      exact h.after_awaitNext he ht
    | progress =>
      rw [step_progress he hi] at ht
      exact hrest.after_progress he ht
    | response =>
      rw [step_response he hi] at ht
      exact h.after_awaitResponse ht
    | command port bytes =>
      cases hd : decode port bytes with
      | error why => rw [step_command_undecodable he hi hd] at ht; cases ht
      | ok op =>
        rw [step_command he hi hd] at ht
        split at ht
        · exact h.after_handleOldest ht
        · exact hrest.after_arrive he ht
    | issue bytes =>
      cases hd : decode .host bytes with
      | error why => rw [step_issue_undecodable he hi hd] at ht; cases ht
      | ok op =>
        rw [step_issue he hi hd] at ht
        exact hrest.after_startOp he ht
    | submit bytes =>
      cases hd : decode .msg bytes with
      | error why => rw [step_submit_undecodable he hi hd] at ht; cases ht
      | ok m =>
        rw [step_submit he hi hd] at ht
        cases ht
        refine h.withMessages (fun x hx => ?_) rest
        rcases List.mem_append.mp hx with hx | hx
        · exact h.waiting x hx
        · rw [List.mem_singleton.mp hx]
          exact isMessage_of_decode hd

end Sys2Proof.Machine
end

section
/-! PROOFS. O31, O32: what every operation of unit U3 keeps, from what a masked write, a status read and the write of the
defaults keep; with this, that the operations touch nothing but the tuner, and that the shadow mirrors its registers where no
transfer fails (10_state R35, R38, 42_r820t_tuner R171 to R186). -/

namespace Sys2Proof.Machine

/-! ## The programs of U3, from their parts -/

/-- `P` survives each part that the operations of U3 are made of, and what completing and taking an error change. -/
structure TunerStable (P : State → Prop) : Prop where
  mask     : ∀ t, Ctl.Keeps P (writeMask t)
  status   : ∀ n, Ctl.Keeps P (tunerRead n)
  defaults : ∀ c, Ctl.Keeps P (writeDefaults c)
  lock     : ∀ b s, P s → P (s.setLock b)
  ready    : ∀ b s, P s → P (s.setReady b)
  filter   : ∀ cap s, P s → P (s.setFilterCap cap)
  result   : ∀ r s, P s → P (complete r s)
  taken    : ∀ e s, P s → P (takeError e s)

/-- `r820t.init` after its first step (R174). -/
def initRest (c : Config.Params) : Ctl Unit := do
  writeTable c.r820tInitElec
  calibrateFilter c true
  writeTable c.r820tInitPost
  tunerInitialized

theorem tunerInit_eq (c : Config.Params) : tunerInit c = writeDefaults c >>= fun _ => initRest c := rfl

namespace TunerStable

variable {P : State → Prop} (h : TunerStable P) (c : Config.Params)

include h

theorem masks : ∀ l, Ctl.Keeps P (writeMasks l)
  | [] => Ctl.Keeps.pure _
  | t :: ts => (h.mask t).bind fun _ => masks ts

theorem each : ∀ l, Ctl.Keeps P (writeEach l)
  | [] => Stable.requireI2c
  | t :: ts => (h.mask t).bind fun _ => each ts

theorem table (l : List Config.TableTriple) : Ctl.Keeps P (writeTable l) := h.each _

theorem setLock (b : Bool) : Ctl.Keeps P (Sys2Proof.Machine.setLock b) := Ctl.Keeps.modify (h.lock b)

theorem poll (firstTry : Bool) : Ctl.Keeps P (getPllLock c firstTry) :=
  (h.status _).bind fun _ => .ite (h.setLock _) (.ite
    ((h.mask _).bind fun _ => (h.status _).bind fun _ => h.setLock _) (h.setLock _))

theorem pll (freq : Nat) : Ctl.Keeps P (setPll c freq) :=
  (Stable.pllReference _).bind fun _ => (h.table _).bind fun _ => (h.status _).bind fun _ =>
    (Stable.pllExponent _ _ _).bind fun _ => (h.mask _).bind fun _ => .ite (h.setLock _)
      ((Ctl.Keeps.require _ _).bind fun _ => (h.masks _).bind fun _ => h.poll _ _)

theorem calibrationRun : Ctl.Keeps P (calibrateOnce c) :=
  (h.table _).bind fun _ => (h.pll _ _).bind fun _ => Stable.calibrationLocked.bind fun _ => (h.table _).bind fun _ =>
    (h.table _).bind fun _ => (h.status _).result

theorem accept (cap : BitVec Config.filCalWidth) : Ctl.Keeps P (acceptFilterCap cap) := by
  refine Ctl.Keeps.bind (Ctl.Keeps.get.bind fun s => ?_) fun t => h.mask t
  cases s.shadow with
  | none => exact .refuse _
  | some sh => exact (Ctl.Keeps.modify (h.filter cap)).result

theorem calibration (firstAttempt : Bool) : Ctl.Keeps P (calibrateFilter c firstAttempt) :=
  Stable.requireI2c.bind fun _ => (h.calibrationRun c).bind fun _ => .ite
    ((h.calibrationRun c).bind fun _ => h.accept _) (h.accept _)

theorem mux (freq : Nat) : Ctl.Keeps P (setMux c freq) := Stable.requireI2c.bind fun _ => h.table _

theorem frequency (freq : Nat) : Ctl.Keeps P (setFrequency c freq) :=
  Stable.requireReady.bind fun _ => (h.mux _ _).bind fun _ => (h.pll _ _).bind fun _ => Ctl.Keeps.get.result

theorem initRest : Ctl.Keeps P (Sys2Proof.Machine.initRest c) :=
  (h.table _).bind fun _ => (h.calibration c _).bind fun _ => (h.table _).bind fun _ =>
    Ctl.Keeps.get.bind fun _ => (Ctl.Keeps.require _ _).bind fun _ => Ctl.Keeps.modify (h.ready true)

theorem run {m : Ctl Result} (hm : Ctl.Keeps P m) {s t : State} (hs : P s) (ht : runOp m s = .next t) : P t :=
  runOp_keeps hm h.result (fun e s hs _ => h.taken e s hs) hs ht

/-- Every operation of U3 keeps `P`. -/
theorem exec {i : Instr} {s t : State} (hi : isTunerOp i = true) (hs : P s)
    (ht : Sys2Proof.Machine.exec i s = .next t) : P t := by
  cases i
  case r820tWriteMask => exact h.run (h.mask _).result hs ht
  case r820tRead => exact h.run (h.status _).result hs ht
  case r820tWriteEach => exact h.run (h.each _).result hs ht
  case r820tInit => exact h.run (tunerInit_eq Config.chip ▸ (h.defaults _).bind fun _ => h.initRest _).result hs ht
  case r820tCalibrateFilter => exact h.run (h.calibration _ _).result hs ht
  case r820tSetMux => exact h.run (h.mux _ _).result hs ht
  case r820tSetFrequency => exact h.run (h.frequency _ _).result hs ht
  case r820tSetPll => exact h.run (h.pll _ _).result hs ht
  case r820tGetPllLock => exact h.run (h.poll _ _).result hs ht
  case r820tSetManualGain => exact h.run (h.table _).result hs ht
  case r820tSetAutoGain => exact h.run (h.table _).result hs ht
  case r820tClose =>
    exact h.run ((h.table _).bind fun _ => Ctl.Keeps.modify (h.ready false)).result hs ht
  all_goals cases hi

end TunerStable

/-! ## Where the tuner's registers lie -/

theorem tunerAddr_add (reg k : Nat) : tunerAddr (reg + k) = tunerAddr reg + k := by
  unfold tunerAddr cellAddr
  omega

/-- A register with a shadow byte is the one at that byte's place (R35). -/
theorem shadowIndex_some {reg : Byte} {k : Fin Config.shadowLen} (h : shadowIndex reg = some k) :
    reg.toNat = Config.shadowBase + k.val := by
  unfold shadowIndex at h
  split at h
  · rename_i hreg
    cases h
    exact (Nat.add_sub_cancel' hreg.1).symm
  · cases h

end Sys2Proof.Machine
end

section
/-! PROOFS. O32: the operations of U3 leave everything but the tuner as it was, whatever the device answers (10_state R38,
42_r820t_tuner R171 to R186). -/

namespace Sys2Proof.Machine

/-- What no operation of U3 changes: the device but for registers 0x05 to 0x1F of the tuner, its read pointer and its
answers; the words but `filterCap`; the reads in flight and the data path (R38). -/
structure TouchesOnlyTuner (s t : State) : Prop where
  mem        : ∀ a, a < tunerAddr 0x05 ∨ tunerAddr 0x1F < a → t.mem.get a = s.mem.get a
  bridge     : t.bridge = s.bridge
  fifoEpoch  : t.fifoEpoch = s.fifoEpoch
  streamPos  : t.streamPos = s.streamPos
  opened     : t.opened = s.opened
  claimed    : t.claimed = s.claimed
  i2cOpen    : t.i2cOpen = s.i2cOpen
  handle     : t.handle = s.handle
  ppm        : t.ppm = s.ppm
  gain       : t.gain = s.gain
  xtalFreq   : t.xtalFreq = s.xtalFreq
  actualRate : t.actualRate = s.actualRate
  reads      : t.reads = s.reads
  data       : sameData s t

theorem sameData_refl (s : State) : sameData s s := ⟨rfl, rfl, rfl, rfl, rfl, rfl, rfl, rfl, rfl, rfl⟩

theorem TouchesOnlyTuner.refl (s : State) : TouchesOnlyTuner s s :=
  ⟨fun _ _ => rfl, rfl, rfl, rfl, rfl, rfl, rfl, rfl, rfl, rfl, rfl, rfl, rfl, sameData_refl s⟩

/-- The bytes of a write to the tuner from register `reg` on that it has a register for, all of them past the status
registers; a write of the pointer alone has none (R74). -/
theorem tunerWindow {reg : Byte} {len a : Nat} (hreg : Config.shadowBase ≤ reg.toNat ∨ len = 0)
    (ha : a < tunerAddr 0x05 ∨ tunerAddr 0x1F < a) :
    a < tunerAddr reg.toNat ∨ tunerAddr reg.toNat + min (Config.r820tRegs - reg.toNat) len ≤ a := by
  unfold tunerAddr cellAddr at *
  unfold Config.shadowBase at hreg
  unfold Config.r820tRegs
  omega

section Parts

variable {s u : State}

theorem TouchesOnlyTuner.stored {reg : Byte} {data : List Byte} (hreg : Config.shadowBase ≤ reg.toNat ∨ data.length = 0)
    (h : TouchesOnlyTuner s u) : TouchesOnlyTuner s (deviceStore .tuner (reg :: data) u) :=
  { h with mem := fun a ha => (Mem.get_putBytes_outside _ u.mem _ a
      (by rw [List.length_take]; exact tunerWindow hreg ha)).trans (h.mem a ha) }

theorem TouchesOnlyTuner.forgot {reg : Byte} {data : List Byte} (hreg : Config.shadowBase ≤ reg.toNat ∨ data.length = 0)
    (draw : Nat) (h : TouchesOnlyTuner s u) : TouchesOnlyTuner s (deviceForget .tuner (reg :: data) draw u) :=
  { h with mem := fun a ha => (Mem.get_forgetBytes_outside _ u.mem _ a
      (by rw [Nat.min_comm]; exact tunerWindow hreg ha)).trans (h.mem a ha) }

variable (s)

/-- A transfer to the tuner, accepted or failed (R142). -/
theorem touches_tunerWrite {reg : Byte} {data : List Byte} (hreg : Config.shadowBase ≤ reg.toNat ∨ data.length = 0) :
    Ctl.Keeps (TouchesOnlyTuner s) (controlWrite tunerBus Config.blockI2c (reg :: data)) := by
  have htarget : target tunerBus (Config.blockI2c &&& ~~~Config.writeFlag) = pure Target.tuner :=
    funext fun u => target_ok (by rw [tunerIndex_noFlag]; exact targetOf_tuner) u
  refine Ctl.Keeps.get.bind fun _ => (Ctl.Keeps.require _ _).bind fun _ => (Ctl.Keeps.require _ _).bind fun _ => ?_
  rw [htarget, pure_bind]
  refine (Ctl.Keeps.access _).bind fun _ => Ctl.Keeps.bind (fun _ h => { h with }) fun p => .ite ?failed ?accepted
  case failed => exact (Ctl.Keeps.modify fun _ h => h.forgot hreg p.1).bind fun _ => .raise rfl
  case accepted => exact (Ctl.Keeps.modify fun _ h => h.stored hreg).bind fun _ => .modify fun _ h => { h with }

/-- A read of the tuner moves the premise's script on (R76, R141). -/
theorem touches_tunerRead (length : Word16) :
    Ctl.Keeps (TouchesOnlyTuner s) (controlRead tunerBus Config.blockI2c length) := by
  have htarget : target tunerBus Config.blockI2c = pure Target.tuner := funext fun u => target_ok targetOf_tuner u
  refine Ctl.Keeps.get.bind fun _ => (Ctl.Keeps.require _ _).bind fun _ => (Ctl.Keeps.require _ _).bind fun _ => ?_
  rw [htarget, pure_bind]
  refine (Ctl.Keeps.access _).bind fun _ => Ctl.Keeps.bind (fun _ h => { h with }) fun p => .ite (.raise rfl) ?_
  exact (Ctl.Keeps.modify fun _ h => { h with }).bind fun _ => (Ctl.Keeps.modify fun _ h => { h with }).bind fun _ => .pure _

/-- A masked write is refused outside the shadowed registers, so the byte it writes lies in them (R171, G15). -/
theorem touches_writeMask (t : Triple) : Ctl.Keeps (TouchesOnlyTuner s) (writeMask t) := by
  refine Stable.requireI2c.bind fun _ => ?_
  cases hk : shadowIndex t.reg with
  | none => exact .refuse _
  | some k =>
    have hreg : Config.shadowBase ≤ t.reg.toNat := (shadowIndex_some hk).symm ▸ Nat.le_add_right _ _
    refine Ctl.Keeps.get.bind fun u => ?_
    cases u.shadow with
    | none => exact .refuse _
    | some sh =>
      exact (Ctl.Keeps.modify fun _ h => { h with }).bind fun _ => Stable.requireI2c.bind fun _ =>
        touches_tunerWrite s (.inl hreg)

theorem touches_tunerStable : TunerStable (TouchesOnlyTuner s) where
  mask := touches_writeMask s
  status _ := Stable.requireI2c.bind fun _ => (Ctl.Keeps.require _ _).bind fun _ =>
    ((Stable.requireI2c.bind fun _ => (Ctl.Keeps.require _ _).bind fun _ => touches_tunerWrite s (.inr rfl)).bind fun _ =>
      touches_tunerRead s _).result
  defaults _ := Stable.requireI2c.bind fun _ => (Ctl.Keeps.modify fun _ h => { h with }).bind fun _ =>
    Stable.requireI2c.bind fun _ => touches_tunerWrite s (.inl (by decide))
  lock _ _ h := { h with }
  ready _ _ h := { h with }
  filter _ _ h := { h with }
  result _ _ h := { h with }
  taken e u h := by unfold takeError; split <;> exact { h with }

end Parts

/-- Settles O32: `TouchesOnlyTuner` holds at the start and every part of an operation of U3 keeps it. -/
theorem tunerFrame : Obligations.TunerFrame := by
  unfold Obligations.TunerFrame
  intro i s t hi ht
  have h := (touches_tunerStable s).exec hi (.refl s) ht
  exact ⟨h.mem, h.bridge, h.fifoEpoch, h.streamPos, h.opened, h.claimed, h.i2cOpen, h.handle, h.ppm, h.gain, h.xtalFreq,
    h.actualRate, h.reads, h.data⟩

end Sys2Proof.Machine
end

section
/-! PROOFS. O31: where every transfer succeeds, each part of an operation of U3 writes the same byte to the shadow and to the
device, or neither (10_state R35, 42_r820t_tuner R171, R174). -/

namespace Sys2Proof.Machine

theorem mirrors_congr {s t : State} (hmem : t.mem = s.mem) (hshadow : t.shadow = s.shadow) (h : mirrors s) : mirrors t := by
  unfold mirrors
  rw [hmem, hshadow]
  exact h

/-! ## What a write to the tuner stores -/

theorem afterTunerWrite_mem (reg : Byte) (data : List Byte) (s : State) :
    (afterTunerWrite reg data s).mem =
      s.mem.putBytes (tunerAddr reg.toNat) (data.take (Config.r820tRegs - reg.toNat)) := rfl

/-- A write of one byte to a shadowed register stores that byte (R74). -/
theorem afterTunerWrite_byte {reg : Byte} {k : Fin Config.shadowLen} (hk : shadowIndex reg = some k) (b : Byte) (s : State) :
    (afterTunerWrite reg [b] s).mem = s.mem.put (tunerAddr (Config.shadowBase + k.val)) b := by
  have hreg := shadowIndex_some hk
  have hroom : [b].take (Config.r820tRegs - reg.toNat) = [b] := by
    refine List.take_of_length_le ?_
    have := k.isLt
    unfold Config.shadowLen at this
    unfold Config.shadowBase at hreg
    unfold Config.r820tRegs
    rw [List.length_singleton]
    omega
  rw [afterTunerWrite_mem, hroom, hreg]
  rfl

/-- A masked write that succeeds gives the shadow and the device the same byte, and leaves the others (R35, R171). -/
theorem mirrors_afterMask (t : Triple) {s : State} (h : mirrors s) : mirrors (afterMask t s) := by
  unfold afterMask
  split
  · rename_i k sh hk hsh
    intro sh' hsh' j
    rw [afterTunerWrite_byte hk, State.setShadow_mem]
    cases hsh'
    by_cases hj : j = k
    · subst hj
      simp only [Mem.get_put_same, Fin.getElem_fin, Vector.getElem_set_self]
    · have hne : j.val ≠ k.val := fun he => hj (Fin.ext he)
      rw [Mem.get_put_other _ (by rw [tunerAddr_add, tunerAddr_add]; omega), h sh hsh j, Fin.getElem_fin, Fin.getElem_fin,
        Vector.getElem_set_ne _ _ (Ne.symm hne)]
  · exact h

/-- What the first step of `r820t.init` leaves where its transfer succeeds (R174). -/
def afterDefaults (c : Config.Params) (s : State) : State :=
  afterTunerWrite (BitVec.ofNat 8 Config.shadowBase) c.r820tDefaults.toList (s.setShadow c.r820tDefaults)

/-- The write of the defaults gives the shadow and the device the same 27 bytes, whatever they held (R174). -/
theorem mirrors_afterDefaults (c : Config.Params) (s : State) : mirrors (afterDefaults c s) := by
  intro sh hsh k
  cases hsh
  have hlen : c.r820tDefaults.toList.length = Config.shadowLen := Vector.length_toList
  have hk : k.val < c.r820tDefaults.toList.length := k.isLt.trans_eq hlen.symm
  have hroom : c.r820tDefaults.toList.take (Config.r820tRegs - (BitVec.ofNat 8 Config.shadowBase).toNat) =
      c.r820tDefaults.toList := List.take_of_length_le (by rw [hlen]; decide)
  rw [afterDefaults, afterTunerWrite_mem, hroom, tunerAddr_add]
  exact (Mem.get_putBytes_inside c.r820tDefaults.toList _ _ k.val hk).trans (by rw [Vector.getElem_toList]; rfl)

/-- A status read that succeeds stores nothing: its first transfer writes the pointer alone (R172). -/
theorem mirrors_afterTunerRead (reg : Byte) (n : Nat) {s : State} (h : mirrors s) : mirrors (afterTunerRead reg n s) := by
  refine mirrors_congr ?_ ?_ h
  · unfold afterTunerRead afterRead
    rw [deviceAfterRead_mem]
    show (afterTunerWrite reg [] s).mem = s.mem
    rw [afterTunerWrite_mem, List.take_nil]
    rfl
  · unfold afterTunerRead afterRead
    rw [deviceAfterRead_shadow]
    rfl

/-! ## What an operation of U3 keeps where every transfer succeeds -/

/-- The tuner can be reached, every transfer succeeds, and the shadow mirrors the tuner's registers. -/
structure Mirroring (s : State) : Prop where
  reachable : tunerReachable s
  succeeds  : allSucceed s
  mirror    : mirrors s

theorem Mirroring.keeps {s t : State} (h : Mirroring s) (k : TunerKeeps s t) (hm : mirrors t) : Mirroring t :=
  ⟨k.reachable h.reachable, k.succeed h.succeeds, hm⟩

/-- The first step of `r820t.init` (R174). -/
theorem writeDefaults_ok {c : Config.Params} {s : State} (h : tunerReachable s) (ha : allSucceed s) :
    writeDefaults c s = .ok () (afterDefaults c s) := by
  simp only [writeDefaults, Ctl.run_bind, requireI2c_ok h, Ctl.run_modify]
  exact i2cWrite_ok (s := s.setShadow c.r820tDefaults) h (by rw [Vector.length_toList]; decide) (ha _)

/-- After the first step of `r820t.init` the shadow mirrors the device, from any state (R174). -/
theorem mirroring_afterDefaults (c : Config.Params) {s : State} (h : tunerReachable s) (ha : allSucceed s) :
    Mirroring (afterDefaults c s) :=
  have k := (keeps_setShadow c.r820tDefaults s).trans (keeps_afterTunerWrite _ _ _)
  ⟨k.reachable h, k.succeed ha, mirrors_afterDefaults c s⟩

theorem mirroring_mask (t : Triple) : Ctl.Keeps Mirroring (writeMask t) := by
  intro s h
  cases hk : shadowIndex t.reg with
  | none =>
    simp only [writeMask, Ctl.run_bind, requireI2c_ok h.reachable, hk, refuse_run]
  | some k =>
    cases hsh : s.shadow with
    | none =>
      simp only [writeMask, Ctl.run_bind, requireI2c_ok h.reachable, hk, Ctl.run_get, hsh, refuse_run]
    | some sh =>
      have hlegal : t.legal = true := by
        have hreg := shadowIndex_some hk
        have := k.isLt
        unfold Config.shadowLen at this
        unfold Config.shadowBase at hreg
        exact legal_reg _ _ ⟨by unfold Config.shadowBase; omega, by unfold Config.r820tRegs; omega⟩
      rw [writeMask_ok h.reachable hlegal (by rw [hsh]; rfl) h.succeeds]
      exact h.keeps (keeps_afterMask t s) (mirrors_afterMask t h.mirror)

theorem mirroring_status (n : Nat) : Ctl.Keeps Mirroring (tunerRead n) := by
  intro s h
  cases hn : isStatusLen n with
  | false =>
    simp only [tunerRead, Ctl.run_bind, requireI2c_ok h.reachable, hn, require_false]
  | true =>
    obtain ⟨h1, h5⟩ : 1 ≤ n ∧ n ≤ Config.statusLen := by simpa [isStatusLen] using hn
    rw [tunerRead_ok h.reachable h1 h5 h.succeeds]
    exact h.keeps (keeps_afterTunerRead _ _ _) (mirrors_afterTunerRead _ _ h.mirror)

theorem mirroring_tunerStable : TunerStable Mirroring where
  mask := mirroring_mask
  status := mirroring_status
  defaults c s h := by
    rw [writeDefaults_ok h.reachable h.succeeds]
    exact mirroring_afterDefaults c h.reachable h.succeeds
  lock _ _ h := { h with }
  ready _ _ h := { h with }
  filter _ _ h := { h with }
  result _ _ h := { h with }
  taken e u h := by unfold takeError; split <;> exact { h with }

theorem runOp_congr {m m' : Ctl Result} {s u : State} (h : m s = m' u) : runOp m s = runOp m' u := by
  unfold runOp
  rw [h]

/-- `r820t.init` goes on from the state its first step leaves (R174). -/
theorem exec_init_afterDefaults {s : State} (h : tunerReachable s) (ha : allSucceed s) :
    exec .r820tInit s = runOp (initRest Config.chip >>= fun _ => pure .nothing) (afterDefaults Config.chip s) := by
  refine runOp_congr ?_
  rw [tunerInit_eq, bind_assoc, Ctl.run_bind_ok (writeDefaults_ok h ha)]

/-- Settles O31: every part of an operation keeps `Mirroring`, and the first step of `r820t.init` establishes it. -/
theorem shadowMirrorsDevice : Obligations.ShadowMirrorsDevice := by
  unfold Obligations.ShadowMirrorsDevice
  refine ⟨fun i s t hi ha hr hm ht => ?kept, fun s t ha hr ht => ?established⟩
  case kept => exact (mirroring_tunerStable.exec hi ⟨hr, ha, hm⟩ ht).mirror
  case established =>
    rw [exec_init_afterDefaults hr ha] at ht
    exact (mirroring_tunerStable.run (mirroring_tunerStable.initRest Config.chip).result
      (mirroring_afterDefaults Config.chip hr ha) ht).mirror

end Sys2Proof.Machine
end

section
/-! PROOFS. O7: the laws of the byte store that determine a canonical store by what it reads as, and what it reads as after
consecutive bytes are forgotten (20_memory R72). -/

namespace Sys2Proof.Machine

/-- Two stores that start at the same address and read alike are one: a first address lower than the other's would be listed
in one of them only, and the two tails read alike because neither lists the first address. -/
theorem Mem.eq_of_get_eq : ∀ {m n : Mem} {lo : Nat}, Mem.sortedFrom lo m = true → Mem.sortedFrom lo n = true →
    (∀ a, m.get a = n.get a) → m = n
  | [], [], _, _, _, _ => rfl
  | [], (l, w) :: n, _, _, _, h => by simpa [Mem.get] using h l
  | (k, v) :: m, [], _, _, _, h => by simpa [Mem.get] using h k
  | (k, v) :: m, (l, w) :: n, lo, hm, hn, h => by
    simp only [Mem.sortedFrom, Bool.and_eq_true, decide_eq_true_eq] at hm hn
    obtain ⟨-, hm⟩ := hm
    obtain ⟨-, hn⟩ := hn
    have hmBelow : ∀ a, a ≤ k → Mem.get m a = none := fun a ha => Mem.get_below hm (Nat.lt_succ_of_le ha)
    have hnBelow : ∀ a, a ≤ l → Mem.get n a = none := fun a ha => Mem.get_below hn (Nat.lt_succ_of_le ha)
    simp only [Mem.get] at h
    obtain hlt | rfl | hgt := Nat.lt_trichotomy k l
    · simpa [hlt.ne, hnBelow k hlt.le] using h k
    · have hvalue : v = w := by simpa using h k
      have htail : ∀ a, Mem.get m a = Mem.get n a := fun a => by
        by_cases ha : a = k
        · rw [hmBelow a ha.le, hnBelow a ha.le]
        · simpa [ha] using h a
      rw [hvalue, Mem.eq_of_get_eq hm hn htail]
    · simpa [hgt.ne, hmBelow l hgt.le] using h l

/-- Forgetting consecutive bytes leaves none of them listed. -/
theorem Mem.get_forgetBytes_inside :
    ∀ (n : Nat) {m : Mem} (a k : Nat), m.wf = true → k < n → (m.forgetBytes a n).get (a + k) = none
  | 0, _, _, _, _, hk => absurd hk (Nat.not_lt_zero _)
  | n + 1, m, a, 0, h, _ => by
    rw [Mem.forgetBytes, Mem.get_forgetBytes_outside n _ _ _ (by omega)]
    exact Mem.get_forget_same a h
  | n + 1, m, a, k + 1, h, hk => by
    rw [Mem.forgetBytes, show a + (k + 1) = a + 1 + k by omega]
    exact Mem.get_forgetBytes_inside n (a + 1) k (Mem.wf_forget h a) (by omega)

theorem Mem.get_putBytes_getElem? (m : Mem) (a : Nat) {bs : List Byte} {k : Nat} (hk : k < bs.length) :
    (m.putBytes a bs).get (a + k) = bs[k]? := by
  rw [Mem.get_putBytes_inside bs m a k hk, List.getElem?_eq_getElem hk]

/-- Settles O7: `Mem.eq_of_get_eq`, with what the two operations on consecutive bytes keep and read as. -/
theorem canonicalMemoryUnique : Obligations.CanonicalMemoryUnique := by
  unfold Obligations.CanonicalMemoryUnique
  refine ⟨fun m n hm hn h => Mem.eq_of_get_eq hm hn h, fun m a n bs h => ⟨?_, ?_, ?_, ?_⟩⟩
  · exact Mem.wf_putBytes bs a h
  · exact Mem.wf_forgetBytes n a h
  · exact fun k hk => Mem.get_putBytes_getElem? m a hk
  · exact fun k hk => Mem.get_forgetBytes_inside n a k h hk

end Sys2Proof.Machine
end

section
/-! PROOFS. The instructions that are one transfer: each is the transfer its address words name, and a transfer goes out, is
refused for its address words, or is refused at the bridge (20_memory R71 to R74, 30_encoding R101 to R103, 40_usb_transport
R141, R142). -/

namespace Sys2Proof.Machine

section Transfers

variable {i : Instr} {value index length : Word16} {bytes : List Byte} {s : State}

/-! ## The instructions as transfers -/

theorem exec_of_readOf (h : readOf i = some (value, index, length)) : exec i s = execControlRead value index length s := by
  unfold readOf at h
  split at h <;> cases h <;> rfl

theorem exec_of_writeOf (h : writeOf i = some (value, index, bytes)) : exec i s = execControlWrite value index bytes s := by
  unfold writeOf at h
  split at h <;> cases h <;> rfl

/-- A read that succeeds (R141). -/
theorem exec_read_ok {t : Target} (h : readOf i = some (value, index, length)) (ho : s.opened = true) (h0 : length ≠ 0)
    (ht : targetOf value index = .ok t) (hr : reaches t s) (ha : nextSucceeds s) :
    exec i s = .next (complete (.bytes (readBytes t length s)) (afterRead value index length t s)) := by
  rw [exec_of_readOf h]
  exact runOp_ok (Ctl.run_bind_ok (controlRead_ok ho h0 ht hr ha))

/-- A write whose result code is 0 (R142). -/
theorem exec_write_code {t : Target} (h : writeOf i = some (value, index, bytes)) (ho : s.opened = true)
    (h0 : 0 < bytes.length) (h1 : bytes.length < 2 ^ 16) (ht : targetOf value (index &&& ~~~Config.writeFlag) = .ok t)
    (hr : reaches t s) (hc : (answerOf s.plan s.drawNo).code = 0) :
    exec i s = .next (complete .nothing (afterWrite value index bytes t s)) := by
  rw [exec_of_writeOf h]
  exact runOp_ok (Ctl.run_bind_ok (controlWrite_code ho h0 h1 ht hr hc))

/-! ## Where address words lead -/

/-- Address words outside the five spaces select nothing (R71, R123). -/
theorem targetOf_reserved (husb : index ≠ Config.blockUsb) (hsys : index ≠ Config.blockSys)
    (hi2c : index ≠ Config.blockI2c) (hpage0 : index ≠ Config.blockDemod) (hpage1 : index ≠ Config.blockDemod1) :
    targetOf value index = .error (.refused (.reservedAddress value index)) := by
  have hpage : isDemodPage index = false := by
    rw [isDemodPage, Bool.or_eq_false_iff, beq_eq_false_iff_ne, beq_eq_false_iff_ne]
    exact ⟨hpage0, hpage1⟩
  unfold targetOf
  rw [if_neg (not_or.mpr ⟨husb, hsys⟩), if_neg hi2c, hpage]
  rfl

/-- Block I2C holds the tuner and, at every other address, no device (R74). -/
theorem targetOf_blockI2c (value : Word16) :
    targetOf value Config.blockI2c = .ok (if value = Config.r820tI2cAddr then .tuner else .absent) := by
  unfold targetOf
  rw [if_neg (by decide), if_pos rfl]

theorem targetOf_absent (hv : value ≠ Config.r820tI2cAddr) : targetOf value Config.blockI2c = .ok .absent := by
  rw [targetOf_blockI2c, if_neg hv]

/-- An index word without the write flag is its own (R142). -/
theorem noFlag_of_flagClear (h : index &&& Config.writeFlag = 0) : index &&& ~~~Config.writeFlag = index := by
  have hsplit : index &&& ~~~Config.writeFlag ||| index &&& Config.writeFlag = index := by
    rw [← BitVec.and_or_distrib_left, show ~~~Config.writeFlag ||| Config.writeFlag = BitVec.allOnes 16 by decide,
      BitVec.and_allOnes]
  rw [h] at hsplit
  exact BitVec.or_zero.symm.trans hsplit

/-! ## Where a transfer stops -/

theorem target_error {stop : Stop} (h : targetOf value index = .error stop) : target value index s = .error stop s := by
  simp only [target, h]
  rfl

/-- A target behind a bridge that does not forward (R39 (a), G16). -/
theorem access_closed {t : Target} (h : ¬ reaches t s) : access t s = .error (.refused .bridgeClosed) s := by
  cases t with
  | register base room => exact absurd trivial h
  | tuner | absent =>
    simp only [access, Ctl.run_bind, Ctl.run_get, beq_eq_false_iff_ne.mpr (show s.bridge ≠ .forwarding from h), require_false]

/-- Why a control transfer with these address words is refused before it goes out: they select nothing (R71, R123), or what
they select lies behind a bridge that does not forward (R39 (a), G16). -/
inductive TransferRefused (value index : Word16) (s : State) : Refusal → Prop where
  | reserved (h : targetOf value index = .error (.refused (.reservedAddress value index))) :
    TransferRefused value index s (.reservedAddress value index)
  | closed (t : Target) (ht : targetOf value index = .ok t) (hr : ¬ reaches t s) :
    TransferRefused value index s .bridgeClosed

theorem transferRefused_reserved (husb : index ≠ Config.blockUsb) (hsys : index ≠ Config.blockSys)
    (hi2c : index ≠ Config.blockI2c) (hpage0 : index ≠ Config.blockDemod) (hpage1 : index ≠ Config.blockDemod1) :
    TransferRefused value index s (.reservedAddress value index) :=
  .reserved (targetOf_reserved husb hsys hi2c hpage0 hpage1)

/-- Whatever lies in block I2C lies behind the bridge (R39 (a), R74). -/
theorem transferRefused_closed (hb : s.bridge ≠ .forwarding) : TransferRefused value Config.blockI2c s .bridgeClosed :=
  .closed _ (targetOf_blockI2c value) (by split <;> exact hb)

/-- A read that is refused (R141). -/
theorem exec_read_refused {r : Refusal} (h : readOf i = some (value, index, length)) (ho : s.opened = true)
    (h0 : length ≠ 0) (hr : TransferRefused value index s r) : exec i s = .refused r := by
  have hread : controlRead value index length s = .error (.refused r) s := by
    simp only [controlRead, Ctl.run_bind, Ctl.run_get, require_ok ho, require_ok (bne_iff_ne.mpr h0)]
    cases hr with
    | reserved ht => simp only [target_error ht]
    | closed t ht hr => simp only [target_ok ht, access_closed hr]
  rw [exec_of_readOf h]
  exact runOp_refused (Ctl.run_bind_error hread)

/-- A write that is refused (R142): its index word counts without the write flag. -/
theorem exec_write_refused {r : Refusal} (h : writeOf i = some (value, index, bytes)) (ho : s.opened = true)
    (h0 : 0 < bytes.length) (h1 : bytes.length < 2 ^ 16)
    (hr : TransferRefused value (index &&& ~~~Config.writeFlag) s r) : exec i s = .refused r := by
  have hwrite : controlWrite value index bytes s = .error (.refused r) s := by
    simp only [controlWrite, Ctl.run_bind, Ctl.run_get, require_ok ho, require_ok (stage_ok h0 h1)]
    cases hr with
    | reserved ht => simp only [target_error ht]
    | closed t ht hr => simp only [target_ok ht, access_closed hr]
  rw [exec_of_writeOf h]
  exact runOp_refused (Ctl.run_bind_error hwrite)

end Transfers

end Sys2Proof.Machine
end

section
/-! PROOFS. O11: the outcomes of a control transfer to address words outside the five spaces and to block I2C (20_memory R71,
R74, 30_encoding R101, R123, 40_usb_transport R141, R142). -/

namespace Sys2Proof.Machine

/-- Settles O11: `TransferRefused` says where a transfer stops, `targetOf_absent` that address words without a device are a
target like any other; a write is the same with the index word that is left without the write flag. -/
theorem transferStops : Obligations.TransferStops := by
  unfold Obligations.TransferStops
  intro i value index s ho
  refine ⟨fun length hi h0 => ?read, fun bytes hi hflag h0 h1 => ?write⟩
  case read =>
    refine ⟨fun husb hsys hi2c hpage0 hpage1 => ?reserved, ?closed, ?absent⟩
    case reserved => exact exec_read_refused hi ho h0 (transferRefused_reserved husb hsys hi2c hpage0 hpage1)
    case closed =>
      rintro rfl hb
      exact exec_read_refused hi ho h0 (transferRefused_closed hb)
    case absent =>
      rintro rfl hv hb ha
      exact ⟨readBytes .absent length s, deviceBytes_length _ _ _ _, exec_read_ok hi ho h0 (targetOf_absent hv) hb ha⟩
  case write =>
    have hindex := noFlag_of_flagClear hflag
    refine ⟨fun husb hsys hi2c hpage0 hpage1 => ?reserved, ?closed, ?absent⟩
    case reserved =>
      exact exec_write_refused hi ho h0 h1 (hindex.symm ▸ transferRefused_reserved husb hsys hi2c hpage0 hpage1)
    case closed =>
      rintro rfl hb
      exact exec_write_refused hi ho h0 h1 (hindex.symm ▸ transferRefused_closed hb)
    case absent =>
      rintro rfl hv hb ha
      have ht : targetOf value (0x0600 &&& ~~~Config.writeFlag) = .ok .absent := by
        rw [hindex]
        exact targetOf_absent hv
      exact exec_write_code hi ho h0 h1 ht hb ha.code

end Sys2Proof.Machine
end

section
/-! PROOFS. O10: what a write transfer that succeeds leaves in the device: the bytes of its window, the bridge, the tuner's
read pointer and the stream; and that the block keeps everything else (10_state R37, R39, 20_memory R72 to R74, R84,
40_usb_transport R142). -/

namespace Sys2Proof.Machine

/-! ## The bytes of a window -/

/-- A write that stops at the end of a window of `room` bytes stores each byte inside it (R72, R74). -/
theorem Mem.get_putBytes_take_inside (m : Mem) (a : Nat) {bs : List Byte} {room k : Nat} (hk : k < bs.length)
    (hroom : k < room) : (m.putBytes a (bs.take room)).get (a + k) = bs[k]? := by
  rw [Mem.get_putBytes_getElem? m a (by rw [List.length_take]; omega), List.getElem?_take_of_lt hroom]

/-- It leaves every byte outside the window alone. -/
theorem Mem.get_putBytes_take_outside (m : Mem) {a x room : Nat} {bs : List Byte}
    (hx : x < a ∨ a + min bs.length room ≤ x) : (m.putBytes a (bs.take room)).get x = m.get x :=
  Mem.get_putBytes_outside _ m a x (by rw [List.length_take, Nat.min_comm]; exact hx)

/-! ## The bridge and the stream after a write to a register -/

theorem covers_iff {base n a : Nat} : covers base n a = true ↔ base ≤ a ∧ a < base + n := by
  rw [covers, Bool.and_eq_true, decide_eq_true_eq, decide_eq_true_eq]

/-- A FIFO reset is EPA_CTL receiving 0x0000 where it holds 0x0210 (R84). -/
theorem resetsFifo_iff {m : Mem} {base : Nat} {bytes : List Byte} :
    resetsFifo m base bytes = true ↔
      base = epaCtlAddr ∧ bytes = [0x00, 0x00] ∧ m.get epaCtlAddr = some 0x10 ∧ m.get (epaCtlAddr + 1) = some 0x02 := by
  have hrun : leBytes Config.epaCtlLen.bytes Config.epaCtlRun = [0x00, 0x00] := rfl
  have hreset : leBytes Config.epaCtlLen.bytes Config.epaCtlReset = [0x10, 0x02] := rfl
  simp only [resetsFifo, hrun, hreset, Bool.and_eq_true, beq_iff_eq, List.map_cons, List.map_nil, List.cons.injEq, and_true,
    and_assoc]

section Writes

variable (value index : Word16) {bytes : List Byte} {base room : Nat} {s : State}

/-- A write whose window does not hold the bridge register leaves the bridge (R39 (a)). -/
theorem afterWrite_bridge_kept (h : ¬ (base ≤ bridgeAddr ∧ bridgeAddr < base + min bytes.length room)) :
    (afterWrite value index bytes (.register base room) s).bridge = s.bridge := by
  rw [afterWrite, deviceStore_register_bridge, List.length_take, Nat.min_comm]
  exact if_neg (mt covers_iff.mp h)

/-- The first byte of a write from the bridge register on acts on the bridge (R39 (a)). -/
theorem afterWrite_bridge_head {v : Byte} (hroom : 0 < room) (hv : bytes.head? = some v) :
    (afterWrite value index bytes (.register bridgeAddr room) s).bridge = bridgeAfter v := by
  obtain ⟨rest, rfl⟩ := List.head?_eq_some_iff.mp hv
  obtain ⟨room, rfl⟩ := Nat.exists_eq_succ_of_ne_zero hroom.ne'
  have hcovers : covers bridgeAddr ((v :: rest).take (room + 1)).length bridgeAddr = true := by
    rw [covers_iff, List.take_succ_cons, List.length_cons]
    omega
  rw [afterWrite, deviceStore_register_bridge, if_pos hcovers, Nat.sub_self]
  rfl

/-- Where a write does not reset the FIFO the stream goes on (R84). -/
theorem afterWrite_stream_kept (h : ¬ resetsFifo s.mem base (bytes.take room) = true) :
    (afterWrite value index bytes (.register base room) s).fifoEpoch = s.fifoEpoch ∧
      (afterWrite value index bytes (.register base room) s).streamPos = s.streamPos :=
  ⟨if_neg h, if_neg h⟩

/-- A FIFO reset begins a new epoch of the stream at position 0 (R84). -/
theorem afterWrite_stream_reset (h : resetsFifo s.mem base (bytes.take room) = true) :
    (afterWrite value index bytes (.register base room) s).fifoEpoch = s.fifoEpoch + 1 ∧
      (afterWrite value index bytes (.register base room) s).streamPos = 0 :=
  ⟨if_pos h, if_pos h⟩

/-- A write that succeeds changes nothing of the block but the device, the wire and the sequencer's position (R142). -/
theorem keepsBlock_afterWrite (bytes : List Byte) (t : Target) (s : State) :
    keepsBlock s (afterWrite value index bytes t s) := by
  simp [keepsBlock, sameData, afterWrite, transferred]

end Writes

/-- Settles O10: each clause is what `deviceStore` leaves in one field of the device. -/
theorem writeFrame : Obligations.WriteFrame := by
  unfold Obligations.WriteFrame
  refine ⟨fun i value index bytes base room s hi ho h0 h1 ht hc => ?registers, ?tuner⟩
  case registers =>
    refine ⟨complete .nothing (afterWrite value index bytes (.register base room) s),
      exec_write_code hi ho h0 h1 ht trivial hc, fun k hk hroom => Mem.get_putBytes_take_inside s.mem base hk hroom,
      fun a ha => Mem.get_putBytes_take_outside s.mem ha, rfl, fun h => afterWrite_bridge_kept value index h, ?opens, ?closes,
      fun h => afterWrite_stream_kept value index (mt resetsFifo_iff.mp h),
      fun h => afterWrite_stream_reset value index (resetsFifo_iff.mpr h),
      keepsBlock_afterWrite value index bytes (.register base room) s⟩
    case opens =>
      rintro rfl hroom hv
      rw [complete_bridge, afterWrite_bridge_head value index hroom hv]
      decide
    case closes =>
      rintro rfl hroom hv
      rw [complete_bridge, afterWrite_bridge_head value index hroom hv]
      decide
  case tuner =>
    rintro i value index reg data s hi rfl rfl ho hb h1 hc
    have ht : targetOf 0x0034 (0x0600 &&& ~~~Config.writeFlag) = .ok .tuner := tunerIndex_noFlag ▸ targetOf_tuner
    exact ⟨complete .nothing (afterTunerWrite reg data s), exec_write_code hi ho (Nat.succ_pos _) h1 ht hb hc, rfl,
      fun k hk hreg => tunerAddr_add reg.toNat k ▸ Mem.get_putBytes_take_inside s.mem _ hk (by unfold Config.r820tRegs; omega),
      fun a ha => Mem.get_putBytes_take_outside s.mem ha, rfl, rfl, rfl,
      keepsBlock_afterWrite tunerBus Config.blockI2c (reg :: data) .tuner s⟩

end Sys2Proof.Machine
end

section
/-! PROOFS. O1: what the encoder writes of an operation, its port's reader reads back; a setup packet is the packet of the
table's row whose address words it has, and a trace is its transfers one after another (30_encoding R100 to R104, R118, R120,
R121, R125). -/

namespace Sys2Proof

open Sys2Proof.Machine Sys2Proof.Laws

/-! ## A packet that its port's reader reads -/

section Packets

variable {α β : Type} {g : Reader α} {f : α → Reader β} {bs : List Byte} {a : α}

/-- After a part that is read, the rest of the reader goes on with the rest of the bytes. -/
theorem Reads.run_bind (hg : Reads g bs a) (rest : List Byte) : (g >>= f) (bs ++ rest) = f a rest := by
  change (g (bs ++ rest) >>= fun p => f p.1 p.2) = _
  rw [hg]
  rfl

theorem getByte_bind {f : Byte → Reader β} (b : Byte) (rest : List Byte) : (getByte >>= f) (b :: rest) = f b rest := rfl

/-- A packet that leaves nothing over decodes. -/
theorem decode_of_run {port : Port} {i : Instr} (h : readerOf port bs = .ok (i, [])) : decode port bs = .ok i := by
  rw [decode, h]
  rfl

theorem decode_of_reads {port : Port} {i : Instr} (h : Reads (readerOf port) bs i) : decode port bs = .ok i :=
  decode_of_run (by simpa using h [])

end Packets

/-! ## The command port and the host's control-path port (R120, R121) -/

/-- The operands of operation number `op`, in the unit its number belongs to (R120). -/
def readOperands (op : Nat) : Reader Instr :=
  if op < 0x20 then readTransport op
  else if op < 0x40 then readTuner op
  else if op < 0x70 then readFilters op
  else readChain op

theorem readCmd_eq : readCmd = getByte >>= fun op => readOperands op.toNat := rfl

theorem isHostNumber_iff {n : Nat} : isHostNumber n = true ↔ n = 0x05 ∨ (0x30 ≤ n ∧ n ≤ 0x36) := by
  simp [isHostNumber]

/-- The host's numbers have at its port the operands they have at the command port. -/
theorem readHost_eq : readHost = getByte >>= fun op =>
    if isHostNumber op.toNat then readOperands op.toNat else throw (.internalOp op.toNat) := by
  unfold readHost
  congr 1
  funext op
  by_cases h : isHostNumber op.toNat
  · have hlt : op.toNat < 0x40 := by
      rcases isHostNumber_iff.mp h with h | h <;> omega
    rw [if_pos h, if_pos h, readOperands, if_pos hlt]
  · rw [if_neg h, if_neg h]

/-- The operands of U1 and U2 read back (R141 to R161). -/
theorem reads_transport {i : Instr} (hi : i.port = .cmd ∧ (OpByte.table i).toNat < 0x20)
    (h : i.encodable = true) : Reads (readTransport (OpByte.table i).toNat) (encode i).tail i := by
  cases i <;> simp only [Instr.encodable, Bool.and_eq_true] at h <;>
    simp only [encode, List.tail_cons, List.append_assoc]
  case controlRead value index length =>
    exact .bind (reads_word value) (.bind (reads_word index) (.last (reads_word length)))
  case controlWrite value index bytes =>
    exact .bind (reads_word value) (.bind (reads_word index) (.last (reads_bytes h)))
  case bulkRead length => exact .last (reads_nat h)
  case claimInterface iface => exact .last (reads_byte iface)
  case releaseInterface iface => exact .last (reads_byte iface)
  case closeDevice => exact .pure _
  case writeReg block reg value len =>
    obtain ⟨hvalue, hlen⟩ := h
    exact .bind (reads_word block) (.bind (reads_word reg) (.bind (reads_nat hvalue) (.last (reads_nat hlen))))
  case readReg block reg len => exact .bind (reads_word block) (.bind (reads_word reg) (.last (reads_nat h)))
  case writeRegMask block reg value mask =>
    exact .bind (reads_word block) (.bind (reads_word reg) (.bind (reads_wide value) (.last (reads_wide mask))))
  case writeDemodReg page addr value len =>
    obtain ⟨hvalue, hlen⟩ := h
    exact .byte (.byte (.bind (reads_nat hvalue) (.last (reads_nat hlen))))
  case readDemodReg page addr => exact .byte (.last (reads_byte addr))
  case openI2c => exact .pure _
  case closeI2c => exact .pure _
  case i2cWriteReg addr reg value => exact .bind (reads_word addr) (.byte (.last (reads_wide value)))
  case i2cReadReg addr reg => exact .bind (reads_word addr) (.last (reads_byte reg))
  case i2cWriteBuf addr reg bytes => exact .bind (reads_word addr) (.byte (.last (reads_bytes h)))
  case i2cReadBuf addr reg n => exact .bind (reads_word addr) (.byte (.last (reads_nat h)))
  all_goals exact absurd hi (of_decide_eq_false rfl)

/-- The operands of U3 and U4 read back (R171 to R212). -/
theorem reads_tuner {i : Instr} (hi : i.port = .cmd ∧ 0x20 ≤ (OpByte.table i).toNat ∧ (OpByte.table i).toNat < 0x40)
    (h : i.encodable = true) : Reads (readTuner (OpByte.table i).toNat) (encode i).tail i := by
  cases i <;> simp only [Instr.encodable, Bool.and_eq_true] at h <;>
    simp only [encode, List.tail_cons, List.append_assoc]
  case r820tWriteMask reg value mask =>
    exact .last (f := fun t => Instr.r820tWriteMask t.reg t.value t.mask) (reads_triple ⟨reg, value, mask⟩)
  case r820tRead n => exact .last (reads_nat h)
  case r820tWriteEach list => exact .last (reads_triples h)
  case r820tInit => exact .pure _
  case r820tCalibrateFilter first => exact .last (reads_bool first)
  case r820tSetMux freq => exact .last (reads_nat h)
  case r820tSetFrequency freq => exact .last (reads_nat h)
  case r820tSetPll freq => exact .last (reads_nat h)
  case r820tGetPllLock first => exact .last (reads_bool first)
  case r820tSetManualGain dB => exact .last (reads_rat h)
  case r820tSetAutoGain => exact .pure _
  case r820tClose => exact .pure _
  case rtlNew handle ppm gain =>
    obtain ⟨⟨hhandle, hppm⟩, hgain⟩ := h
    exact .bind (reads_nat hhandle) (.bind (reads_int hppm) (.last (reads_gain hgain)))
  case rtlOpen => exact .pure _
  case rtlSetSampleRate rate => exact .last (reads_nat h)
  case rtlSetCenterFrequency hz => exact .last (reads_nat h)
  case rtlResetBuffer => exact .pure _
  case rtlReadSamples n => exact .last (reads_nat h)
  case rtlClose => exact .pure _
  all_goals exact absurd hi (of_decide_eq_false rfl)

/-- The operands of U5 to U9 read back (R221 to R256). -/
theorem reads_filters {i : Instr} (hi : i.port = .cmd ∧ 0x40 ≤ (OpByte.table i).toNat ∧ (OpByte.table i).toNat < 0x70)
    (h : i.encodable = true) : Reads (readFilters (OpByte.table i).toNat) (encode i).tail i := by
  cases i <;> simp only [Instr.encodable, Bool.and_eq_true] at h <;>
    simp only [encode, List.tail_cons, List.append_assoc]
  case getLowpassFirCoeffs rate f n =>
    obtain ⟨⟨hrate, hf⟩, hn⟩ := h
    exact .bind (reads_rat hrate) (.bind (reads_rat hf) (.last (reads_nat hn)))
  case firNew coefs step =>
    obtain ⟨hcoefs, hstep⟩ := h
    exact .bind (reads_rats hcoefs) (.last (reads_nat hstep))
  case firLoad fir samples =>
    obtain ⟨hfir, hsamples⟩ := h
    exact .bind (reads_nat hfir) (.last (reads_rats hsamples))
  case firGet fir i =>
    obtain ⟨hfir, hi⟩ := h
    exact .bind (reads_nat hfir) (.last (reads_int hi))
  case dsNew inRate outRate coefs =>
    obtain ⟨⟨hin, hout⟩, hcoefs⟩ := h
    exact .bind (reads_rat hin) (.bind (reads_rat hout) (.last (reads_rats hcoefs)))
  case dsDownsample ds samples rate =>
    obtain ⟨⟨hds, hsamples⟩, hrate⟩ := h
    exact .bind (reads_nat hds) (.bind (reads_rats hsamples) (.last (reads_rat hrate)))
  case iqdsNew inRate outRate coefs =>
    obtain ⟨⟨hin, hout⟩, hcoefs⟩ := h
    exact .bind (reads_rat hin) (.bind (reads_rat hout) (.last (reads_rats hcoefs)))
  case iqdsDownsample iqds iq rate =>
    obtain ⟨⟨hiqds, hiq⟩, hrate⟩ := h
    exact .bind (reads_nat hiqds) (.bind (reads_pairs hiq) (.last (reads_rat hrate)))
  case fmNew inRate outRate maxF filterFreq kernelLen =>
    obtain ⟨⟨⟨⟨hin, hout⟩, hmax⟩, hfilter⟩, hlen⟩ := h
    exact .bind (reads_rat hin) (.bind (reads_rat hout) (.bind (reads_rat hmax) (.bind (reads_rat hfilter)
      (.last (reads_nat hlen)))))
  case fmDemodulate fm iq rate =>
    obtain ⟨⟨hfm, hiq⟩, hrate⟩ := h
    exact .bind (reads_nat hfm) (.bind (reads_pairs hiq) (.last (reads_rat hrate)))
  case amNew inRate outRate filterFreq kernelLen =>
    obtain ⟨⟨⟨hin, hout⟩, hfilter⟩, hlen⟩ := h
    exact .bind (reads_rat hin) (.bind (reads_rat hout) (.bind (reads_rat hfilter) (.last (reads_nat hlen))))
  case amDemodulate am iq rate =>
    obtain ⟨⟨ham, hiq⟩, hrate⟩ := h
    exact .bind (reads_nat ham) (.bind (reads_pairs hiq) (.last (reads_rat hrate)))
  all_goals exact absurd hi (of_decide_eq_false rfl)

/-- The operands of U10 to U12 and of the data-path operations read back (R266 to R292). -/
theorem reads_chain {i : Instr} (hi : i.port = .cmd ∧ 0x70 ≤ (OpByte.table i).toNat)
    (h : i.encodable = true) : Reads (readChain (OpByte.table i).toNat) (encode i).tail i := by
  cases i <;> simp only [Instr.encodable, Bool.and_eq_true] at h <;>
    simp only [encode, List.tail_cons, List.append_assoc]
  case avgNew w withVariance => exact .bind (reads_rat h) (.last (reads_bool withVariance))
  case avgAdd avg x =>
    obtain ⟨havg, hx⟩ := h
    exact .bind (reads_nat havg) (.last (reads_rat hx))
  case stNew sampleRate pilotFreq =>
    obtain ⟨hrate, hpilot⟩ := h
    exact .bind (reads_rat hrate) (.last (reads_rat hpilot))
  case stSeparate st samples =>
    obtain ⟨hst, hsamples⟩ := h
    exact .bind (reads_nat hst) (.last (reads_rats hsamples))
  case deNew rate tau =>
    obtain ⟨hrate, htau⟩ := h
    exact .bind (reads_rat hrate) (.last (reads_rat htau))
  case deRun de samples rate =>
    obtain ⟨⟨hde, hsamples⟩, hrate⟩ := h
    exact .bind (reads_nat hde) (.bind (reads_rats hsamples) (.last (reads_rat hrate)))
  case iqConvert bytes => exact .last (reads_bytes h)
  case setMode mode => exact .last (reads_mode h)
  case process bytes inStereo freqOffset echo =>
    obtain ⟨⟨hbytes, hoffset⟩, hecho⟩ := h
    exact .bind (reads_bytes hbytes) (.bind (reads_bool inStereo) (.bind (reads_rat hoffset) (.last (reads_bytes hecho))))
  all_goals exact absurd hi (of_decide_eq_false rfl)

theorem reads_operands {i : Instr} (hport : i.port = .cmd) (h : i.encodable = true) :
    Reads (readOperands (OpByte.table i).toNat) (encode i).tail i := by
  unfold readOperands
  split
  next hn => exact reads_transport ⟨hport, hn⟩ h
  next h20 =>
    split
    next hn => exact reads_tuner ⟨hport, Nat.le_of_not_lt h20, hn⟩ h
    next h40 =>
      split
      next hn => exact reads_filters ⟨hport, Nat.le_of_not_lt h40, hn⟩ h
      next h70 => exact reads_chain ⟨hport, Nat.le_of_not_lt h70⟩ h

/-- A command is its number and its operands (R120). -/
theorem encode_cmd {i : Instr} (hport : i.port = .cmd) : encode i = OpByte.table i :: (encode i).tail := by
  cases i <;> cases hport <;> rfl

theorem reads_cmd {i : Instr} (hport : i.port = .cmd) (h : i.encodable = true) : Reads readCmd (encode i) i := by
  rw [encode_cmd hport, readCmd_eq]
  exact .byte (reads_operands hport h)

/-- An operation of the host's control path stands at the command port under one of the host's numbers (R121, R306). -/
theorem hostNumber_of_hostOp {i : Instr} {op : HostOp} (hop : hostOpOf i = some op) (hpath : isDataPath i = false) :
    i.port = .cmd ∧ isHostNumber (OpByte.table i).toNat = true := by
  unfold hostOpOf at hop
  split at hop <;> cases hop <;> cases hpath <;> exact ⟨rfl, rfl⟩

/-- An operation of the host's control path reads back at the host's port too. -/
theorem reads_host {i : Instr} {op : HostOp} (hop : hostOpOf i = some op) (hpath : isDataPath i = false)
    (h : i.encodable = true) : Reads readHost (encode i) i := by
  obtain ⟨hport, hnumber⟩ := hostNumber_of_hostOp hop hpath
  rw [encode_cmd hport, readHost_eq]
  refine .byte ?_
  rw [if_pos hnumber]
  exact reads_operands hport h

/-! ## The message port and the bulk endpoint (R104, R118) -/

theorem reads_msg {i : Instr} (hport : i.port = .msg) (h : i.encodable = true) : Reads readMsg (encode i) i := by
  cases i <;> cases hport
  case msgProcess bytes inStereo freqOffset echo =>
    simp only [Instr.encodable, Bool.and_eq_true] at h
    obtain ⟨⟨hbytes, hoffset⟩, hecho⟩ := h
    simp only [encode, List.append_assoc]
    exact .byte (.bind (reads_bytes hbytes) (.bind (reads_bool inStereo) (.bind (reads_rat hoffset)
      (.last (reads_bytes hecho)))))
  case msgSetMode mode => exact .byte (.last (reads_mode h))

theorem reads_bulk {i : Instr} (hport : i.port = .bulk) (h : i.encodable = true) : Reads readBulk (encode i) i := by
  cases i <;> cases hport
  case bulkIn length => exact .byte (.last (reads_nat h))

/-! ## Setup packets (R100 to R103, R125) -/

theorem flagClear_iff {index : Word16} : flagClear index = true ↔ index &&& Config.writeFlag = 0 := by
  rw [flagClear, beq_iff_eq]

/-- A write sets the flag, and the reader sees it and takes it off again (R142). -/
theorem flagClear_flagged {index : Word16} (h : flagClear index = true) :
    flagClear (index ||| Config.writeFlag) = false := by
  have hflag : (index ||| Config.writeFlag) &&& Config.writeFlag = Config.writeFlag := by
    rw [BitVec.and_or_distrib_right, flagClear_iff.mp h, BitVec.and_self]
    exact BitVec.zero_or
  rw [flagClear, hflag]
  decide

theorem or_xor_self_right {w : Nat} (x f : BitVec w) : (x ||| f) ^^^ f = x &&& ~~~f := by
  ext k hk
  simp only [BitVec.getElem_xor, BitVec.getElem_or, BitVec.getElem_and, BitVec.getElem_not]
  cases x[k] <;> cases f[k] <;> rfl

theorem unflag_flagged {index : Word16} (h : flagClear index = true) :
    (index ||| Config.writeFlag) ^^^ Config.writeFlag = index :=
  (or_xor_self_right index Config.writeFlag).trans (noFlag_of_flagClear (flagClear_iff.mp h))

/-- A read's packet is the row of its address words; the answer that may follow is passed over (R125). -/
theorem readSetup_read (value : Word16) {index : Word16} (length : Word16) (hflag : flagClear index = true)
    (rest : List Byte) :
    readSetup (putSetupRead value index length ++ rest) = .ok (classifyRead value index length, rest.drop length.toNat) := by
  rw [putSetupRead, setupRead, setupPacket_bytes]
  simp only [List.append_assoc, List.cons_append]
  unfold readSetup
  rw [getByte_bind, getByte_bind, (reads_word value).run_bind, (reads_word index).run_bind, (reads_word length).run_bind,
    if_neg (by decide), if_pos ⟨rfl, hflag⟩]
  rfl

/-- A data stage is its bytes. -/
theorem reads_stage (bytes : List Byte) : Reads (getMany getByte bytes.length) bytes bytes := by
  have h := reads_many (p := putByte) (l := bytes) fun b _ => reads_byte b
  rwa [show bytes.flatMap putByte = bytes from List.flatMap_singleton' bytes] at h

/-- A write's packet with its data stage is the row of its address words and length (R125, R142). -/
theorem reads_setupWrite (value : Word16) {index : Word16} {bytes : List Byte} (hflag : flagClear index = true)
    (hstage : fitsStage bytes = true) :
    Reads readSetup (putSetupWrite value index bytes) (classifyWrite value index bytes) := by
  have hlength : (BitVec.ofNat 16 bytes.length).toNat = bytes.length := ofNat16_toNat (of_decide_eq_true hstage)
  rw [putSetupWrite, setupWrite, setupPacket_bytes]
  simp only [List.cons_append, List.append_assoc]
  refine .byte (.byte (.bind (reads_word value) (.bind (reads_word _) (.bind (reads_word _) ?_))))
  rw [if_neg (by decide), if_neg fun hin => absurd hin.1 (by decide),
    if_pos ⟨rfl, by rw [flagClear_flagged hflag]; rfl⟩, hlength, unflag_flagged hflag]
  exact .last (reads_stage bytes)

/-! ### Address words -/

section Words

variable {value index : Word16} {n : Nat}

theorem isRegForm_iff :
    isRegForm index n = true ↔ (index = Config.blockUsb ∨ index = Config.blockSys) ∧ isRegLen n = true := by
  rw [isRegForm, Bool.and_eq_true, Bool.or_eq_true, beq_iff_eq, beq_iff_eq]

/-- Blocks USB and SYS are neither the tuner's bus nor a page, and have the write flag clear (R101). -/
theorem isRegForm_other (h : isRegForm index n = true) (value : Word16) :
    isI2cForm value index = false ∧ isDemodForm value index = false ∧ flagClear index = true := by
  rw [isI2cForm, isDemodForm]
  rcases (isRegForm_iff.mp h).1 with rfl | rfl <;> refine ⟨Bool.and_false _, ?_, ?_⟩ <;> rfl

theorem fitsStage_of_isRegForm {bytes : List Byte} (h : isRegForm index bytes.length = true) : fitsStage bytes = true :=
  decide_eq_true (isRegLen_bounds (isRegForm_iff.mp h).2).2

/-- The low byte of a DEMOD address word is the tag 0x20 (R102). -/
theorem demodValue_tag (addr : Byte) : (demodValue addr).setWidth 8 = Config.demodTag := by
  have hpos : Config.demodAddrPos = 8 := rfl
  apply BitVec.eq_of_getLsbD_eq
  intro k hk
  simp [demodValue, hpos, hk]

theorem isI2cForm_page (page1 : Bool) (value : Word16) : isI2cForm value (pageIndex page1) = false := by
  rw [isI2cForm]
  cases page1 <;> exact Bool.and_false _

/-- The bus of the tuner is none of the named registers (R37, R103). -/
theorem isNamedWrite_tuner (n : Nat) : isNamedWrite tunerBus Config.blockI2c n = false := rfl

theorem isDemodForm_page (page1 : Bool) (addr : Byte) : isDemodForm (demodValue addr) (pageIndex page1) = true := by
  rw [isDemodForm, demodValue_tag]
  cases page1 <;> rfl

theorem flagClear_page (page1 : Bool) : flagClear (pageIndex page1) = true := by cases page1 <;> rfl

theorem pageIndex_isPage1 (page1 : Bool) : (pageIndex page1 == Config.blockDemod1) = page1 := by cases page1 <;> rfl

end Words

/-! ### Packets of a read and of a write -/

section ReadPackets

variable {i : Instr} {value index length : Word16}

theorem encode_of_readOf (hport : i.port = .setup) (h : readOf i = some (value, index, length)) :
    encode i = putSetupRead value index length := by
  unfold readOf at h
  split at h <;> cases h <;> cases hport <;> rfl

/-- The row of a read's address words is the read. -/
theorem classifyRead_of_readOf (hport : i.port = .setup) (h : readOf i = some (value, index, length))
    (henc : i.encodable = true) : flagClear index = true ∧ classifyRead value index length = i := by
  cases i <;> cases hport <;> cases h <;> unfold classifyRead
  case setupControlRead =>
    simp only [Instr.encodable, Bool.and_eq_true, Bool.not_eq_true'] at henc
    obtain ⟨⟨⟨hflag, hi2c⟩, hdemod⟩, hreg⟩ := henc
    exact ⟨hflag, by rw [hi2c, hdemod, hreg]; rfl⟩
  case setupRegRead =>
    have hreg : isRegForm index length.toNat = true := henc
    obtain ⟨hi2c, hdemod, hflag⟩ := isRegForm_other hreg value
    exact ⟨hflag, by rw [hi2c, hdemod, hreg]; rfl⟩
  case setupDemodRead page1 addr =>
    refine ⟨flagClear_page page1, ?_⟩
    rw [isI2cForm_page, isDemodForm_page, pageIndex_isPage1, demodAddr_demodValue]
    rfl
  case setupI2cRead => exact ⟨rfl, rfl⟩

end ReadPackets

section WritePackets

variable {i : Instr} {value index : Word16} {bytes : List Byte}

theorem encode_of_writeOf (hport : i.port = .setup) (h : writeOf i = some (value, index, bytes)) :
    encode i = putSetupWrite value index bytes := by
  unfold writeOf at h
  split at h <;> cases h <;> cases hport <;> rfl

/-- The row of a write's address words and length is the write. -/
theorem classifyWrite_of_writeOf (hport : i.port = .setup) (h : writeOf i = some (value, index, bytes))
    (henc : i.encodable = true) :
    flagClear index = true ∧ fitsStage bytes = true ∧ classifyWrite value index bytes = i := by
  cases i <;> cases hport <;> cases h
  case setupControlWrite =>
    simp only [Instr.encodable, Bool.and_eq_true, Bool.not_eq_true'] at henc
    obtain ⟨⟨⟨⟨⟨hstage, hflag⟩, hnamed⟩, hi2c⟩, hdemod⟩, hreg⟩ := henc
    exact ⟨hflag, hstage, by rw [classifyWrite, hnamed, hi2c, hdemod, hreg]; rfl⟩
  case setupRegWrite =>
    simp only [Instr.encodable, Bool.and_eq_true, Bool.not_eq_true'] at henc
    obtain ⟨hreg, hnamed⟩ := henc
    obtain ⟨hi2c, hdemod, hflag⟩ := isRegForm_other hreg value
    exact ⟨hflag, fitsStage_of_isRegForm hreg, by rw [classifyWrite, hnamed, hi2c, hdemod, hreg]; rfl⟩
  case setupDemodWrite page1 addr =>
    simp only [Instr.encodable, Bool.and_eq_true, Bool.not_eq_true'] at henc
    obtain ⟨hstage, hnamed⟩ := henc
    refine ⟨flagClear_page page1, hstage, ?_⟩
    rw [classifyWrite, hnamed, isI2cForm_page, isDemodForm_page, pageIndex_isPage1, demodAddr_demodValue]
    rfl
  case setupI2cWrite reg data => exact ⟨rfl, henc, by rw [classifyWrite, isNamedWrite_tuner]; rfl⟩
  -- the named registers (R37)
  all_goals exact ⟨rfl, rfl, rfl⟩

end WritePackets

/-- The address words of every packet on the wire are those of a read or of a write (R100 to R103, R37). -/
theorem readOf_or_writeOf {i : Instr} (hport : i.port = .setup) :
    (∃ value index length, readOf i = some (value, index, length)) ∨
      ∃ value index bytes, writeOf i = some (value, index, bytes) := by
  cases i <;> cases hport
  case setupControlRead | setupRegRead | setupDemodRead | setupI2cRead => exact .inl ⟨_, _, _, rfl⟩
  all_goals exact .inr ⟨_, _, _, rfl⟩

theorem decode_setup {i : Instr} (hport : i.port = .setup) (henc : i.encodable = true) :
    decode .setup (encode i) = .ok i := by
  obtain ⟨value, index, length, h⟩ | ⟨value, index, bytes, h⟩ := readOf_or_writeOf hport
  · obtain ⟨hflag, hrow⟩ := classifyRead_of_readOf hport h henc
    have hrun := readSetup_read value length hflag []
    rw [List.append_nil, List.drop_nil, hrow] at hrun
    rw [encode_of_readOf hport h]
    exact decode_of_run hrun
  · obtain ⟨hflag, hstage, hrow⟩ := classifyWrite_of_writeOf hport h henc
    rw [encode_of_writeOf hport h]
    exact decode_of_reads (hrow ▸ reads_setupWrite value hflag hstage)

theorem decode_encode {i : Instr} (henc : i.encodable = true) : decode i.port (encode i) = .ok i := by
  cases hport : i.port with
  | cmd => exact decode_of_reads (reads_cmd hport henc)
  | msg => exact decode_of_reads (reads_msg hport henc)
  | setup => exact decode_setup hport henc
  | bulk => exact decode_of_reads (reads_bulk hport henc)
  | host => cases i <;> cases hport

/-! ## A trace of control transfers (R100, R125) -/

/-- A transfer's bytes: the setup packet and as many data bytes as its length word says. -/
theorem reads_transfer {t : Word64 × List Byte} (h : t.2.length = t.1.toNat / 2 ^ 48) :
    Reads readTransferBytes (leBytes 8 t.1.toNat ++ t.2) t := by
  refine .bind (reads_LE 8 _ t.1.isLt) ?_
  rw [← h, BitVec.ofNat_toNat, BitVec.setWidth_eq]
  exact .last (reads_stage t.2)

theorem encodeTrace_cons (t : Word64 × List Byte) (ts : List (Word64 × List Byte)) :
    encodeTrace (t :: ts) = (leBytes 8 t.1.toNat ++ t.2) ++ encodeTrace ts := rfl

theorem encodeTrace_length_le : ∀ ts, 8 * ts.length ≤ (encodeTrace ts).length
  | [] => Nat.le_refl 0
  | t :: ts => by
    have ih := encodeTrace_length_le ts
    rw [encodeTrace_cons, List.length_append, List.length_append, leBytes_length, List.length_cons]
    omega

/-- As many rounds as there are transfers read the whole trace. -/
theorem readTrace_encodeTrace : ∀ (n : Nat) (ts : List (Word64 × List Byte)), ts.length ≤ n →
    (∀ t ∈ ts, t.2.length = t.1.toNat / 2 ^ 48) → readTrace n (encodeTrace ts) = .ok ts
  | 0, [], _, _ => rfl
  | n + 1, [], _, _ => rfl
  | n + 1, t :: ts, hn, h => by
    have ih := readTrace_encodeTrace n ts (Nat.le_of_succ_le_succ hn) fun u hu => h u (List.mem_cons_of_mem t hu)
    have hne : encodeTrace (t :: ts) ≠ [] := by simp [encodeTrace_cons, leBytes]
    rw [readTrace, if_neg hne, encodeTrace_cons, reads_transfer (h t List.mem_cons_self)]
    simp only [ih]

theorem decodeTrace_encodeTrace {ts : List (Word64 × List Byte)} (h : ∀ t ∈ ts, t.2.length = t.1.toNat / 2 ^ 48) :
    decodeTrace (encodeTrace ts) = .ok ts := by
  have hrounds : ts.length ≤ (encodeTrace ts).length / 8 := by
    have hlength := encodeTrace_length_le ts
    omega
  exact readTrace_encodeTrace _ ts hrounds h

/-- Settles O1, from what each port's reader reads. -/
theorem decodeOfEncode : Obligations.DecodeOfEncode := by
  unfold Obligations.DecodeOfEncode
  exact ⟨fun i h => decode_encode h, fun i op hop hpath h => decode_of_reads (reads_host hop hpath h),
    fun ts h => decodeTrace_encodeTrace h⟩

end Sys2Proof
end

section
/-! PROOFS. O4: each unit's reader refuses the numbers it does not list, and what the host's control-path port reads is an
operation of the host (30_encoding R118, R120, R121, R123, 10_state R38). -/

namespace Sys2Proof

open Sys2Proof.Machine

/-! ## Numbers that name no operation (R120, R123) -/

section Unknown

variable {n : Nat}

theorem readTransport_unknown (h : n ∉ operationNumbers.map BitVec.toNat) : readTransport n = throw (.unknownOp n) := by
  unfold readTransport
  split
  on_goal -1 => rfl
  all_goals exact absurd (by decide) h

theorem readTuner_unknown (h : n ∉ operationNumbers.map BitVec.toNat) : readTuner n = throw (.unknownOp n) := by
  unfold readTuner
  split
  on_goal -1 => rfl
  all_goals exact absurd (by decide) h

theorem readFilters_unknown (h : n ∉ operationNumbers.map BitVec.toNat) : readFilters n = throw (.unknownOp n) := by
  unfold readFilters
  split
  on_goal -1 => rfl
  all_goals exact absurd (by decide) h

theorem readChain_unknown (h : n ∉ operationNumbers.map BitVec.toNat) : readChain n = throw (.unknownOp n) := by
  unfold readChain
  split
  on_goal -1 => rfl
  all_goals exact absurd (by decide) h

theorem readOperands_unknown (h : n ∉ operationNumbers.map BitVec.toNat) : readOperands n = throw (.unknownOp n) := by
  rw [readOperands, readTransport_unknown h, readTuner_unknown h, readFilters_unknown h, readChain_unknown h, ite_self,
    ite_self, ite_self]

end Unknown

theorem decode_of_error {port : Port} {bs : List Byte} {e : DecodeError} (h : readerOf port bs = .error e) :
    decode port bs = .error e := by
  rw [decode, h]

theorem decode_cmd_unknown {op : Byte} (h : op ∉ operationNumbers) (rest : List Byte) :
    decode .cmd (op :: rest) = .error (.unknownOp op.toNat) := by
  have hn : op.toNat ∉ operationNumbers.map BitVec.toNat := fun hmem => by
    obtain ⟨op', hop', heq⟩ := List.mem_map.mp hmem
    exact h (BitVec.eq_of_toNat_eq heq ▸ hop')
  apply decode_of_error
  rw [readerOf, readCmd_eq, getByte_bind, readOperands_unknown hn]
  rfl

theorem number_of_decode_cmd {bytes : List Byte} {i : Instr} (h : decode .cmd bytes = .ok i) :
    ∃ op ∈ operationNumbers, bytes.head? = some op := by
  cases bytes with
  | nil => cases h
  | cons op rest =>
    refine ⟨op, ?_, rfl⟩
    by_contra hop
    rw [decode_cmd_unknown hop] at h
    cases h

theorem decode_msg_unknown {tag : Byte} (h0 : tag ≠ 0) (h1 : tag ≠ 1) (rest : List Byte) :
    decode .msg (tag :: rest) = .error (.unknownTag tag.toNat) := by
  have hprocess : tag ≠ Config.tagProcess := h0
  have hmode : tag ≠ Config.tagSetMode := h1
  apply decode_of_error
  rw [readerOf, readMsg, getByte_bind, if_neg hprocess, if_neg hmode]
  rfl

theorem decode_host_internal {op : Byte} (h : isHostNumber op.toNat = false) (rest : List Byte) :
    decode .host (op :: rest) = .error (.internalOp op.toNat) := by
  apply decode_of_error
  rw [readerOf, readHost_eq, getByte_bind, h]
  rfl

/-- The operations the host may issue on the control path (R121, R306). -/
def IsHostControl (i : Instr) : Prop := ∃ op, hostOpOf i = some op ∧ isDataPath i = false

/-- What a packet decodes to is what the port's reader gives. -/
theorem yields_of_decode {Q : Instr → Prop} {port : Port} (hread : Reader.Yields Q (readerOf port)) {bytes : List Byte}
    {i : Instr} (h : decode port bytes = .ok i) : Q i := by
  unfold decode at h
  split at h
  · cases h
  · rename_i j rest hj
    split at h
    · cases h
      exact hread bytes i rest hj
    · cases h

theorem readHost_yields : Reader.Yields IsHostControl readHost := by
  rw [readHost_eq]
  refine .bind fun op => ?_
  split
  next h =>
    generalize op.toNat = n at h
    rcases isHostNumber_iff.mp h with rfl | ⟨hlo, hhi⟩
    · exact .pure ⟨_, rfl, rfl⟩
    · interval_cases n
      · exact .bind fun _ => .bind fun _ => .bind fun _ => .pure ⟨_, rfl, rfl⟩
      · exact .pure ⟨_, rfl, rfl⟩
      · exact .bind fun _ => .pure ⟨_, rfl, rfl⟩
      · exact .bind fun _ => .pure ⟨_, rfl, rfl⟩
      · exact .pure ⟨_, rfl, rfl⟩
      · exact .bind fun _ => .pure ⟨_, rfl, rfl⟩
      · exact .pure ⟨_, rfl, rfl⟩
  next => exact .throw

/-- Settles O4: a port refuses by the first byte of its packet, and the host's port yields only operations of the host. -/
theorem reservedNumbersRefused : Obligations.ReservedNumbersRefused := by
  unfold Obligations.ReservedNumbersRefused
  refine ⟨fun op rest h => decode_cmd_unknown h rest, fun tag rest h0 h1 => decode_msg_unknown h0 h1 rest,
    fun bytes i h => number_of_decode_cmd h, fun op rest h5 hrange => decode_host_internal ?_ rest,
    fun bytes i h => yields_of_decode readHost_yields h⟩
  rw [Bool.eq_false_iff, ne_eq, isHostNumber_iff]
  exact not_or.mpr ⟨fun h => h5 (BitVec.eq_of_toNat_eq h), hrange⟩

end Sys2Proof
end

section
/-! PROOFS. O3, O23: the spec's words are the encodings of their operations; bit reversal bit by bit, the fields of the PLL
words, and the spec's printed examples (30_encoding R100 to R103, R111 to R120, R151 to R158, 42_r820t_tuner R181, R182,
43_rtl2832u_demod R202 to R206). -/

namespace Sys2Proof

open Sys2Proof.Machine

/-! ## Words written out from the spec (R100 to R103, R118, R120) -/

/-- Bytes that are an operation's encoding decode to it. -/
theorem decode_of_encode_eq {port : Port} {bytes : List Byte} {i : Instr}
    (h : i.encodable = true ∧ i.port = port ∧ encode i = bytes) : decode port bytes = .ok i := by
  obtain ⟨henc, rfl, rfl⟩ := h
  exact decode_encode henc

/-- Settles O3: each word is the encoding of its operation. -/
theorem wordsDecode : Obligations.WordsDecode := by
  unfold Obligations.WordsDecode
  exact ⟨decode_of_encode_eq (by decide), decode_of_encode_eq (by decide), decode_of_encode_eq (by decide),
    decode_of_encode_eq (by decide), decode_of_encode_eq (by decide), decode_of_encode_eq (by decide),
    decode_of_encode_eq (by decide), decode_of_encode_eq (by decide), decode_of_encode_eq (by decide),
    decode_of_encode_eq (by decide), decode_of_encode_eq (by decide), decode_of_encode_eq (by decide)⟩

/-! ## Bit reversal (R115) -/

theorem rev4_lt : ∀ n < 16, rev4 n < 16 := by decide

/-- The nibble table reverses four bits. -/
theorem rev4_testBit : ∀ n < 16, ∀ k < 4, (rev4 n).testBit k = n.testBit (3 - k) := by decide

theorem bitrev8_getLsbD (b : Byte) {k : Nat} (hk : k < 8) : (bitrev8 b).getLsbD k = b.getLsbD (7 - k) := by
  have hlow : b.toNat % 16 < 16 := Nat.mod_lt _ (by decide)
  have hhigh : b.toNat / 16 < 16 := by have := b.isLt; omega
  rw [bitrev8, BitVec.getLsbD_ofNat, decide_eq_true hk, Bool.true_and, Nat.mul_comm _ 16,
    Nat.testBit_two_pow_mul_add (i := 4) _ (rev4_lt _ hhigh) k, BitVec.getLsbD]
  split
  next h =>
    rw [rev4_testBit _ hhigh k h, show b.toNat / 16 = b.toNat / 2 ^ 4 from rfl, Nat.testBit_div_two_pow,
      show 3 - k + 4 = 7 - k by omega]
  next h =>
    rw [rev4_testBit _ hlow (k - 4) (by omega), Nat.testBit_mod_two_pow _ 4, decide_eq_true (by omega), Bool.true_and,
      show 3 - (k - 4) = 7 - k by omega]

theorem bitrev8_bitrev8 (b : Byte) : bitrev8 (bitrev8 b) = b := by
  apply BitVec.eq_of_getLsbD_eq
  intro k hk
  rw [bitrev8_getLsbD _ hk, bitrev8_getLsbD _ (by omega), show 7 - (7 - k) = k by omega]

/-! ## PLL words (R114, R181) -/

/-- The byte of register 0x14 holds the quotient of `n - 13` by 4 in its low six bits and the remainder above them. -/
theorem nintWord_toNat {n : Nat} (h : n / 4 < 64) : (nintWord ((n : Int) + 13)).toNat = n % 4 * 64 + n / 4 := by
  have hmin : Config.nintMin = 13 := rfl
  have hstep : Config.nintStep = 4 := rfl
  have hplace : Config.siPlace = 64 := rfl
  have hni : floorDiv ((n : Int) + 13 - 13) 4 = ((n / 4 : Nat) : Int) := by
    rw [floorDiv, Int.add_sub_cancel, Int.fdiv_eq_ediv_of_nonneg _ (by decide)]
    rfl
  have hsi : (n : Int) + 13 - 4 * ((n / 4 : Nat) : Int) - 13 = ((n % 4 : Nat) : Int) := by omega
  simp only [nintWord, hmin, hstep, hplace, hni, hsi, Int.toNat_natCast]
  rw [Nat.or_comm, Nat.mul_comm _ 64, ← Nat.two_pow_add_eq_or_of_lt (i := 6) h, BitVec.toNat_ofNat]
  omega

theorem nintWord_fields {n : Nat} (h : n / 4 < 64) :
    ((nintWord ((n : Int) + 13)).extractLsb' 0 6).toNat = n / 4 ∧
      ((nintWord ((n : Int) + 13)).extractLsb' 6 2).toNat = n % 4 := by
  have hr : n % 4 < 4 := Nat.mod_lt n (by decide)
  rw [BitVec.extractLsb'_toNat, BitVec.extractLsb'_toNat, nintWord_toNat h, Nat.shiftRight_eq_div_pow,
    Nat.shiftRight_eq_div_pow]
  generalize n % 4 = r, n / 4 = q at *
  constructor <;> omega

/-- The divider before its adjustment in the example of 92,070,000 Hz: 1,770,000 kHz is between 2^4 and 2^5 times the
frequency. -/
theorem divNumBase_example : divNumBase Config.chip 92070000 = 4 := by
  have hlog : Config.chip.num.log2 = log2Ref := rfl
  rw [divNumBase, hlog, log2Ref_floor]
  decide

/-- Settles O23: reversal bit by bit and the fields of the PLL byte in general, the printed examples by evaluation. -/
theorem assembledWords : Obligations.AssembledWords := by
  unfold Obligations.AssembledWords
  refine ⟨⟨bitrev8_bitrev8, fun b k => bitrev8_getLsbD b k.isLt, ?printed⟩,
    ⟨fun n => nintWord_fields (by omega), ?dividers⟩, ?demodulator⟩
  case printed => decide
  case dividers =>
    simp only [divNumAdjusted, divNumBase_example]
    decide
  case demodulator => decide

end Sys2Proof
end

section
/-! PROOFS. O8: a control read by where it stops, the bytes of its data stage, and what a read that succeeds keeps (20_memory
R72, R73, R87, 30_encoding R100 to R103, R125, 40_usb_transport R141). -/

namespace Sys2Proof.Machine

section Reads

variable {i : Instr} {value index length : Word16} {s : State}

/-! ## A read that is refused or fails -/

/-- A read without an open device (R141). -/
theorem exec_read_notOpened (h : readOf i = some (value, index, length)) (ho : s.opened = false) :
    exec i s = .refused .notOpened := by
  have hread : controlRead value index length s = .error (.refused .notOpened) s := by
    simp only [controlRead, Ctl.run_bind, Ctl.run_get, ho, require_false]
  rw [exec_of_readOf h]
  exact runOp_refused (Ctl.run_bind_error hread)

/-- A read of no bytes (R141). -/
theorem exec_read_empty (h : readOf i = some (value, index, length)) (ho : s.opened = true) (h0 : length = 0) :
    exec i s = .refused (.badLength 0) := by
  have hread : controlRead value index length s = .error (.refused (.badLength 0)) s := by
    simp only [controlRead, Ctl.run_bind, Ctl.run_get, require_ok ho, h0, bne_self_eq_false, require_false]
  rw [exec_of_readOf h]
  exact runOp_refused (Ctl.run_bind_error hread)

/-- A read that fails or falls short (R141). -/
theorem exec_read_fails {t : Target} (h : readOf i = some (value, index, length)) (ho : s.opened = true) (h0 : length ≠ 0)
    (ht : targetOf value index = .ok t) (hr : reaches t s) (ha : ¬ nextSucceeds s) :
    exec i s = .next (takeError (transportError .controlRead value index s.drawNo (answerOf s.plan s.drawNo))
      (s.issued (readTransfer value index length (delivered t length.toNat s)))) := by
  rw [exec_of_readOf h]
  exact runOp_raised (Ctl.run_bind_error (controlRead_fails ho h0 ht hr ha))

/-- A failed read has an empty data stage (R141). -/
theorem delivered_failed {t : Target} {n : Nat} (hc : (answerOf s.plan s.drawNo).code ≠ 0) : delivered t n s = [] :=
  if_pos hc

/-- The data stage of a short read is the bytes that came (R141). -/
theorem delivered_short {t : Target} {n : Nat} (hc : (answerOf s.plan s.drawNo).code = 0) :
    delivered t n s = (deviceBytes t n s.drawNo s).take (n - (answerOf s.plan s.drawNo).missing) :=
  if_neg (not_not.mpr hc)

/-! ## The bytes of a data stage -/

/-- A register's window gives the byte last stored at each address (R72, R73). -/
theorem deviceBytes_register_stored {base room n draw k : Nat} {p : Byte} (hk : k < n) (hroom : k < room)
    (hp : s.mem.get (base + k) = some p) : (deviceBytes (.register base room) n draw s)[k]? = some p := by
  have hbyte : registerByte s.mem base room draw k = p := by
    rw [registerByte, if_pos hroom, hp, Option.getD_some]
  rw [deviceBytes, List.getElem?_map, List.getElem?_range hk, Option.map_some, hbyte]

/-- The tuner gives the byte last stored in each register from 0x05 on, its bits reversed (R74, R115). -/
theorem deviceBytes_tuner_stored {n draw k : Nat} {p : Byte} (hk : k < n) (hreg : Config.shadowBase ≤ s.i2cPtr.toNat + k)
    (hp : s.mem.get (tunerAddr (s.i2cPtr.toNat + k)) = some p) :
    (deviceBytes .tuner n draw s)[k]? = some (bitrev8 p) := by
  have hbyte : tunerByte s.mem (s.plan.status.headD []) s.i2cPtr.toNat draw k = bitrev8 p := by
    simp only [tunerByte, if_neg (Nat.not_lt.mpr hreg), hp]
  rw [deviceBytes, List.getElem?_map, List.getElem?_range hk, Option.map_some, hbyte]

/-! ## What a read that succeeds keeps -/

variable (value index length)

theorem keepsBlock_afterRead (t : Target) (s : State) : keepsBlock s (afterRead value index length t s) := by
  simp [keepsBlock, sameData, afterRead, transferred]

/-- A read changes nothing on the device's side but the premise's script (R87). -/
theorem sameDevice_afterRead (t : Target) (s : State) : sameDevice s (afterRead value index length t s) := by
  simp [sameDevice, afterRead, transferred]

theorem afterRead_trace (t : Target) (s : State) : (afterRead value index length t s).trace =
    s.trace ++ [readTransfer value index length (readBytes t length s)] := by
  simp [afterRead, transferred]

end Reads

/-- Settles O8: an instruction that is one read is `controlRead` with its address words, which stops, succeeds or fails as the
lemmas above say. -/
theorem controlReadRule : Obligations.ControlReadRule := by
  unfold Obligations.ControlReadRule
  intro i value index length s hi
  refine ⟨exec_read_notOpened hi, exec_read_empty hi, fun t ho h0 ht hr => ⟨fun ha => ?succeeds, fun ha => ?fails⟩⟩
  case succeeds =>
    refine ⟨exec_read_ok hi ho h0 ht hr ha, deviceBytes_length _ _ _ _, ?register, ?tuner,
      keepsBlock_afterRead value index length t s, sameDevice_afterRead value index length t s,
      afterRead_trace value index length t s⟩
    case register =>
      rintro base room k p rfl hk hroom hp
      exact deviceBytes_register_stored hk hroom hp
    case tuner =>
      rintro k p rfl hk hreg - hp
      exact deviceBytes_tuner_stored hk hreg hp
  case fails =>
    exact ⟨delivered t length.toNat s, exec_read_fails hi ho h0 ht hr ha, delivered_failed, delivered_short⟩

end Sys2Proof.Machine
end

section
/-! PROOFS. O9: a control write that is refused or fails; that one with result code 0 stores its bytes and keeps the block is
with O10 (30_encoding R100 to R103, 40_usb_transport R142). -/

namespace Sys2Proof.Machine

section Writes

variable {i : Instr} {value index : Word16} {bytes : List Byte} {s : State}

/-- A write without an open device (R142). -/
theorem exec_write_notOpened (h : writeOf i = some (value, index, bytes)) (ho : s.opened = false) :
    exec i s = .refused .notOpened := by
  have hwrite : controlWrite value index bytes s = .error (.refused .notOpened) s := by
    simp only [controlWrite, Ctl.run_bind, Ctl.run_get, ho, require_false]
  rw [exec_of_writeOf h]
  exact runOp_refused (Ctl.run_bind_error hwrite)

/-- A write of no bytes (R142). -/
theorem exec_write_empty (h : writeOf i = some (value, index, bytes)) (ho : s.opened = true) (h0 : bytes = []) :
    exec i s = .refused (.badLength 0) := by
  subst h0
  have hstage : (decide (0 < ([] : List Byte).length) && decide (([] : List Byte).length < 2 ^ 16)) = false := rfl
  have hwrite : controlWrite value index [] s = .error (.refused (.badLength 0)) s := by
    simp only [controlWrite, Ctl.run_bind, Ctl.run_get, require_ok ho]
    rw [hstage]
    rfl
  rw [exec_of_writeOf h]
  exact runOp_refused (Ctl.run_bind_error hwrite)

/-- A write that fails (R142, G2). -/
theorem exec_write_fails {t : Target} (h : writeOf i = some (value, index, bytes)) (ho : s.opened = true)
    (h0 : 0 < bytes.length) (h1 : bytes.length < 2 ^ 16) (ht : targetOf value (index &&& ~~~Config.writeFlag) = .ok t)
    (hr : reaches t s) (hc : (answerOf s.plan s.drawNo).code ≠ 0) :
    exec i s = .next (takeError
      (transportError .controlWrite value (index ||| Config.writeFlag) s.drawNo (answerOf s.plan s.drawNo))
      (deviceForget t bytes s.drawNo (s.issued (writeTransfer value index bytes)))) := by
  rw [exec_of_writeOf h]
  exact runOp_raised (Ctl.run_bind_error (controlWrite_fails ho h0 h1 ht hr hc))

theorem afterWrite_trace (value index : Word16) (bytes : List Byte) (t : Target) (s : State) :
    (afterWrite value index bytes t s).trace = s.trace ++ [writeTransfer value index bytes] := by
  simp [afterWrite, transferred]

end Writes

/-- Settles O9: an instruction that is one write is `controlWrite` with its address words, by its result code. -/
theorem controlWriteRule : Obligations.ControlWriteRule := by
  unfold Obligations.ControlWriteRule
  intro i value index bytes s hi
  refine ⟨exec_write_notOpened hi, exec_write_empty hi, fun t ho h0 h1 ht hr => ⟨fun hc => ?stores, ?fails⟩⟩
  case stores =>
    exact ⟨exec_write_code hi ho h0 h1 ht hr hc, keepsBlock_afterWrite value index bytes t s,
      afterWrite_trace value index bytes t s⟩
  case fails => exact exec_write_fails hi ho h0 h1 ht hr

end Sys2Proof.Machine
end

section
/-! PROOFS. O12: a bulk read waits for the reads in flight; it is refused, gives the next bytes of the stream, or fails and uses
up whole pairs; and the stream is read in order (20_memory R75, R81, R88, 30_encoding R104, 40_usb_transport R143,
60_exceptions R311, R313). -/

namespace Sys2Proof.Machine

/-! ## Errors that set `FAULT` -/

section Taken

variable {e : Err} (he : e.kind.setsFault = true) (s : State)

include he

theorem takeError_setsFault : (takeError e s).fault = true := by
  rw [takeError, if_pos he]
  rfl

/-- Its record carries the position of the failing step (R310). -/
theorem takeError_recorded :
    (takeError e s).errors = s.errors ++ [{ kind := e.kind, info := e.info, pos := some s.seq }] := by
  rw [takeError, if_pos he]
  rfl

end Taken

/-! ## The sample stream (R75) -/

/-- After `a` bytes have been consumed byte `k` of the stream is the one that was byte `a + k`. -/
theorem streamByte_consumeStream (s : State) (a k : Nat) : streamByte (consumeStream a s) k = streamByte s (a + k) := by
  simp only [streamByte, consumeStream, List.getD_eq_getElem?_getD, List.getElem?_drop, Nat.add_assoc]

theorem streamBytes_add (s : State) (a b : Nat) :
    streamBytes s (a + b) = streamBytes s a ++ streamBytes (consumeStream a s) b := by
  have hrest : streamByte (consumeStream a s) = streamByte s ∘ (a + ·) := funext (streamByte_consumeStream s a)
  rw [streamBytes, streamBytes, streamBytes, List.range_add, List.map_append, List.map_map, hrest]

@[simp] theorem streamBytes_length (s : State) (n : Nat) : (streamBytes s n).length = n := by
  rw [streamBytes, List.length_map, List.length_range]

/-- A failed bulk read uses up at most the bytes it asked for (R81). -/
theorem lostBytes_le (n draw : Nat) : lostBytes n draw ≤ n := by
  have hpairs : Config.lostPairs draw % (n / 2 + 1) < n / 2 + 1 := Nat.mod_lt _ (Nat.succ_pos _)
  unfold lostBytes Config.bytesPerSample
  omega

/-! ## `bulk_read` (R143) -/

section Bulk

variable {n : Nat} {s : State}

theorem bulkRead_notOpened (ho : s.opened = false) : bulkRead n s = .error (.refused .notOpened) s := by
  simp only [bulkRead, Ctl.run_bind, Ctl.run_get, ho, require_false]

theorem bulkRead_notClaimed (ho : s.opened = true) (hc : s.claimed = false) :
    bulkRead n s = .error (.refused .notClaimed) s := by
  simp only [bulkRead, Ctl.run_bind, Ctl.run_get, require_ok ho, hc, require_false]

/-- A length that is not a positive number of whole pairs (R143). -/
theorem bulkRead_badLength (ho : s.opened = true) (hc : s.claimed = true) (hn : n = 0 ∨ n % 2 = 1) :
    bulkRead n s = .error (.refused (.badLength n)) s := by
  have hpairs : (decide (0 < n) && n % Config.bytesPerSample == 0) = false := by
    rw [Bool.and_eq_false_iff, decide_eq_false_iff_not, beq_eq_false_iff_ne]
    unfold Config.bytesPerSample
    omega
  simp only [bulkRead, Ctl.run_bind, Ctl.run_get, require_ok ho, require_ok hc, hpairs, require_false]

/-- A bulk read that fails or falls short uses up whole pairs, and the error is raised (R143, R81). -/
theorem bulkRead_fails (ho : s.opened = true) (hc : s.claimed = true) (h0 : 0 < n) (h2 : n % 2 = 0)
    (ha : ¬ nextSucceeds s) :
    bulkRead n s = .error (.raised (transportError .bulkRead 0 0 s.drawNo (answerOf s.plan s.drawNo)))
      (consumeStream (lostBytes n s.drawNo) (s.issued (.bulk n))) := by
  have hpairs : (decide (0 < n) && n % Config.bytesPerSample == 0) = true := by
    rw [Bool.and_eq_true, decide_eq_true_eq, beq_iff_eq]
    exact ⟨h0, h2⟩
  simp only [bulkRead, bulkAnswer, Ctl.run_bind, Ctl.run_get, require_ok ho, require_ok hc, require_ok hpairs, issue_run,
    if_pos (answer_fails ha), Ctl.run_modify, raise_run]

theorem keepsBlock_bulk (n : Nat) (s : State) : keepsBlock s (consumeStream n (transferred (.bulk n) s)) := by
  simp [keepsBlock, sameData, transferred]

/-! ## Behind the reads in flight (R88) -/

theorem exec_bulk {i : Instr} (hi : i = .bulkRead n ∨ i = .bulkIn n) : exec i s = bulkBehind n s := by
  rcases hi with rfl | rfl
  · rfl
  · rfl

theorem bulkBehind_ended (he : (drained s).ended = true) : bulkBehind n s = .next (drained s) := if_pos he

theorem bulkBehind_runs (he : (drained s).ended = false) :
    bulkBehind n s = runOp (bulkRead n >>= fun data => pure (.bytes data)) (drained s) :=
  if_neg (Bool.eq_false_iff.mp he)

/-- The oldest of the reads in flight completes before the others, and after an error that ends the program no other does
(R88, R311). -/
theorem drained_cons {r : ReadInFlight} {rest : List ReadInFlight} (hr : s.reads = r :: rest) :
    drained s = if (completeOldest s).ended then completeOldest s else drained (completeOldest s) := by
  have holdest : completeOldest s = completeRead r rest s := by rw [completeOldest, hr]
  rw [holdest, drained, drained, completeRead_reads, hr, completeAll]

end Bulk

/-- How the reads in flight complete: none, the oldest before the others, and none left but after an error that ends the host
program (R88, R311). -/
theorem drained_inOrder (s : State) :
    (s.reads = [] → drained s = s) ∧
      (s.reads ≠ [] → (completeOldest s).ended = true → drained s = completeOldest s) ∧
      (s.reads ≠ [] → (completeOldest s).ended = false → drained s = drained (completeOldest s)) ∧
      ((drained s).ended = false → (drained s).reads = []) := by
  refine ⟨fun hr => by rw [drained, hr, completeAll], fun hr he => ?last, fun hr he => ?goesOn, drained_reads⟩
  all_goals obtain ⟨r, rest, hr⟩ := List.exists_cons_of_ne_nil hr
  case last => rw [drained_cons hr, if_pos he]
  case goesOn => rw [drained_cons hr, if_neg (Bool.eq_false_iff.mp he)]

/-- Settles O12: the reads in flight complete by `drained_inOrder`, then `bulkRead` stops, succeeds or fails in the state they
leave, whose registers and flags are those of the state before. -/
theorem bulkReadRule : Obligations.BulkReadRule := by
  unfold Obligations.BulkReadRule
  refine ⟨?reads, drained_inOrder, streamBytes_add⟩
  rintro i n s u hi rfl
  obtain ⟨hmem, hopened, hclaimed⟩ := drained_flags s
  rw [exec_bulk hi, ← hopened, ← hclaimed, ← hmem]
  refine ⟨bulkBehind_ended, fun he => ?_⟩
  rw [bulkBehind_runs he]
  refine ⟨fun ho => runOp_refused (Ctl.run_bind_error (bulkRead_notOpened ho)),
    fun ho hc => runOp_refused (Ctl.run_bind_error (bulkRead_notClaimed ho hc)),
    fun ho hc hn => runOp_refused (Ctl.run_bind_error (bulkRead_badLength ho hc hn)),
    fun ho hc h0 h2 => ⟨fun ha => ?succeeds, fun ha => ?fails⟩⟩
  case succeeds =>
    exact ⟨runOp_ok (Ctl.run_bind_ok (bulkRead_succeeds ho hc h0 h2 ha)), streamBytes_length _ n, keepsBlock_bulk n _, rfl, rfl⟩
  case fails =>
    exact ⟨_, runOp_raised (Ctl.run_bind_error (bulkRead_fails ho hc h0 h2 ha)), takeError_setsFault rfl _,
      takeError_rests rfl _, takeError_mem _ _, takeError_result _ _,
      ⟨_, lostBytes_even n _, lostBytes_le n _, takeError_streamPos _ _⟩, takeError_recorded rfl _⟩

end Sys2Proof.Machine
end

section
/-! PROOFS. O13: `claim_interface` and `release_interface` by their refusals and result codes (40_usb_transport R144, R145). -/

namespace Sys2Proof.Machine

section Interface

variable {iface : Byte} {s : State}

/-! ## `claim_interface` (R144) -/

theorem claimInterface_other (hi : iface ≠ Config.usbInterface) :
    claimInterface iface s = .error (.refused (.badInterface iface)) s := by
  simp only [claimInterface, Ctl.run_bind, Ctl.run_get, beq_eq_false_iff_ne.mpr hi, require_false]

theorem claimInterface_notOpened (ho : s.opened = false) :
    claimInterface Config.usbInterface s = .error (.refused .notOpened) s := by
  simp only [claimInterface, Ctl.run_bind, Ctl.run_get, beq_self_eq_true, require_true, ho, require_false]

theorem claimInterface_again (ho : s.opened = true) (hc : s.claimed = true) :
    claimInterface Config.usbInterface s = .error (.refused .alreadyClaimed) s := by
  simp only [claimInterface, Ctl.run_bind, Ctl.run_get, beq_self_eq_true, require_true, ho, hc, Bool.not_true, require_false]

/-- A claim whose result code is 0. -/
theorem claimInterface_code (ho : s.opened = true) (hc : s.claimed = false) (ha : (answerOf s.plan s.drawNo).code = 0) :
    claimInterface Config.usbInterface s = .ok () (transferred (.claim Config.usbInterface) (s.setClaimed true)) := by
  simp only [claimInterface, Ctl.run_bind, Ctl.run_get, beq_self_eq_true, require_true, ho, hc, Bool.not_false, issue_run,
    if_neg (not_not.mpr ha), Ctl.run_modify, advance_run]
  rfl

/-- A claim that fails leaves the interface unclaimed. -/
theorem claimInterface_fails (ho : s.opened = true) (hc : s.claimed = false) (ha : (answerOf s.plan s.drawNo).code ≠ 0) :
    claimInterface Config.usbInterface s =
      .error (.raised (transportError .claimInterface 0 0 s.drawNo (answerOf s.plan s.drawNo)))
        (s.issued (.claim Config.usbInterface)) := by
  simp only [claimInterface, Ctl.run_bind, Ctl.run_get, beq_self_eq_true, require_true, ho, hc, Bool.not_false, issue_run,
    if_pos ha, raise_run]

/-! ## `release_interface` (R145) -/

theorem releaseInterface_other (hi : iface ≠ Config.usbInterface) :
    releaseInterface iface s = .error (.refused (.badInterface iface)) s := by
  simp only [releaseInterface, Ctl.run_bind, Ctl.run_get, beq_eq_false_iff_ne.mpr hi, require_false]

theorem releaseInterface_notClaimed (hc : s.claimed = false) :
    releaseInterface Config.usbInterface s = .error (.refused .notClaimed) s := by
  simp only [releaseInterface, Ctl.run_bind, Ctl.run_get, beq_self_eq_true, require_true, hc, require_false]

/-- A release whose result code is 0. -/
theorem releaseInterface_code (hc : s.claimed = true) (ha : (answerOf s.plan s.drawNo).code = 0) :
    releaseInterface Config.usbInterface s =
      .ok () (transferred (.release Config.usbInterface) (s.setClaimed false)) := by
  simp only [releaseInterface, Ctl.run_bind, Ctl.run_get, beq_self_eq_true, require_true, hc, issue_run,
    if_neg (not_not.mpr ha), Ctl.run_modify, advance_run]
  rfl

/-- A release that fails clears `claimed` all the same. -/
theorem releaseInterface_fails (hc : s.claimed = true) (ha : (answerOf s.plan s.drawNo).code ≠ 0) :
    releaseInterface Config.usbInterface s =
      .error (.raised (transportError .releaseInterface 0 0 s.drawNo (answerOf s.plan s.drawNo)))
        ((s.issued (.release Config.usbInterface)).setClaimed false) := by
  simp only [releaseInterface, Ctl.run_bind, Ctl.run_get, beq_self_eq_true, require_true, hc, issue_run, if_pos ha,
    Ctl.run_modify, raise_run]

end Interface

/-- Settles O13: each operation is its program, which ends as the lemmas above say. -/
theorem interfaceRule : Obligations.InterfaceRule := by
  unfold Obligations.InterfaceRule
  refine ⟨fun iface s => ?claim, fun iface s => ?release⟩
  case claim =>
    exact ⟨fun hi => runOp_refused (Ctl.run_bind_error (claimInterface_other hi)),
      fun ho => runOp_refused (Ctl.run_bind_error (claimInterface_notOpened ho)),
      fun ho hc => runOp_refused (Ctl.run_bind_error (claimInterface_again ho hc)),
      fun ho hc => ⟨fun ha => runOp_ok (Ctl.run_bind_ok (claimInterface_code ho hc ha)),
        fun ha => runOp_raised (Ctl.run_bind_error (claimInterface_fails ho hc ha))⟩⟩
  case release =>
    exact ⟨fun hi => runOp_refused (Ctl.run_bind_error (releaseInterface_other hi)),
      fun hc => runOp_refused (Ctl.run_bind_error (releaseInterface_notClaimed hc)),
      fun hc => ⟨fun ha => runOp_ok (Ctl.run_bind_ok (releaseInterface_code hc ha)),
        fun ha => runOp_raised (Ctl.run_bind_error (releaseInterface_fails hc ha))⟩⟩

end Sys2Proof.Machine
end

section
/-! PROOFS. O14: `close_device` gives the device back, reports an error of the USB layer besides, and is `InvalidState` where it
is not allowed (40_usb_transport R146, 60_exceptions R306, R317, 70_reset_and_hazards R330, R331). -/

namespace Sys2Proof.Machine

section Close

variable {s : State}

theorem closeDevice_allowed (ho : s.opened = true) (hc : s.claimed = false) : HostOp.closeDevice.allowed s = true := by
  rw [HostOp.allowed, ho, hc]
  rfl

theorem closeDevice_notAllowed (h : s.opened = false ∨ s.claimed = true) : HostOp.closeDevice.allowed s = false := by
  rw [HostOp.allowed, Bool.and_eq_false_iff, Bool.not_eq_false']
  exact h

theorem closeDevice_code (ha : (answerOf s.plan s.drawNo).code = 0) :
    closeDevice s = .ok () (deviceClosed (s.issued .closeDevice)) := by
  simp only [closeDevice, Ctl.run_bind, issue_run, Ctl.run_modify, if_neg (not_not.mpr ha), Ctl.run_pure]

theorem closeDevice_fails (ha : (answerOf s.plan s.drawNo).code ≠ 0) :
    closeDevice s = .error (.raised (transportError .closeDevice 0 0 s.drawNo (answerOf s.plan s.drawNo)))
      (deviceClosed (s.issued .closeDevice)) := by
  simp only [closeDevice, Ctl.run_bind, issue_run, Ctl.run_modify, if_pos ha, raise_run]

/-- `close_device` with result code 0 (R146). -/
theorem exec_closeDevice_code (ho : s.opened = true) (hc : s.claimed = false)
    (ha : (answerOf s.plan s.drawNo).code = 0) :
    exec .closeDevice s =
      .next (complete .nothing ((deviceClosed (s.issued .closeDevice)).atPos SeqPos.rest)) :=
  (if_pos (closeDevice_allowed ho hc)).trans (runOp_ok (Ctl.run_bind_ok (closeDevice_code ha)))

/-- `close_device` with an error of the USB layer (R146, R317). -/
theorem exec_closeDevice_fails (ho : s.opened = true) (hc : s.claimed = false)
    (ha : (answerOf s.plan s.drawNo).code ≠ 0) :
    exec .closeDevice s = .next (takeError (transportError .closeDevice 0 0 s.drawNo (answerOf s.plan s.drawNo))
      (deviceClosed (s.issued .closeDevice))) :=
  (if_pos (closeDevice_allowed ho hc)).trans (runOp_raised (Ctl.run_bind_error (closeDevice_fails ha)))

/-- `close_device` where the table of R306 does not allow it. -/
theorem exec_closeDevice_invalid (h : s.opened = false ∨ s.claimed = true) :
    exec .closeDevice s = .next (takeError (invalidState .closeDevice) s) :=
  if_neg (Bool.eq_false_iff.mp (closeDevice_notAllowed h))

end Close

/-- Settles O14: both result codes leave `deviceClosed`, one with the sequencer at rest, one with the error taken besides. -/
theorem closeDeviceRule : Obligations.CloseDeviceRule := by
  unfold Obligations.CloseDeviceRule
  refine fun s => ⟨fun ho hc => ?closes, fun h => ?invalid⟩
  case closes =>
    by_cases ha : (answerOf s.plan s.drawNo).code = 0
    case pos =>
      refine ⟨_, exec_closeDevice_code ho hc ha, ?_⟩
      simp [sameDevice, sameData, ha, SeqPos.rest]
    case neg =>
      refine ⟨_, exec_closeDevice_fails ho hc ha, ?_⟩
      generalize he : transportError .closeDevice 0 0 s.drawNo (answerOf s.plan s.drawNo) = e
      have hkind : e.kind = .transportError := by rw [← he]; rfl
      have hsets : e.kind.setsFault = true := by rw [hkind]; rfl
      simp [sameDevice, sameData, ha, SeqPos.rest, takeError_setsFault hsets, takeError_recorded hsets,
        takeError_rests hsets, hkind]
  case invalid =>
    exact ⟨_, exec_closeDevice_invalid h, takeError_onlyDelivered (e := invalidState .closeDevice) rfl s⟩

end Sys2Proof.Machine
end

section
/-! PROOFS. The register layer U2 as transfers: each write of U2 is one `control_write` of its bytes, each read one
`control_read` whose data stage is decoded; and what the checks before the transfer refuse (30_encoding R102, R110, R123,
41_register_i2c_layer R151 to R161). -/

namespace Sys2Proof.Machine

/-! ## Byte sequences (R10, R110) -/

/-- Only the bits that fit in `n` bytes are written. -/
theorem leBytes_mod (n v : Nat) : leBytes n (v % 2 ^ (8 * n)) = leBytes n v := by
  induction n generalizing v with
  | zero => rfl
  | succ n ih =>
    have hpow : 2 ^ (8 * (n + 1)) = 256 * 2 ^ (8 * n) := by rw [Nat.mul_succ, Nat.pow_add, Nat.mul_comm]
    have hlow : BitVec.ofNat 8 (v % (256 * 2 ^ (8 * n))) = BitVec.ofNat 8 v := by
      apply BitVec.eq_of_toNat_eq
      rw [BitVec.toNat_ofNat, BitVec.toNat_ofNat]
      exact Nat.mod_mul_right_mod v 256 _
    rw [leBytes, leBytes, hpow, hlow, Nat.mod_mul_right_div_self, ih]

theorem beBytes_mod (n v : Nat) : beBytes n (v % 2 ^ (8 * n)) = beBytes n v := by rw [beBytes, beBytes, leBytes_mod]

theorem leBytes_one (b : Byte) : leBytes 1 b.toNat = [b] := by rw [leBytes, leBytes, BitVec.ofNat_toNat, BitVec.setWidth_eq]

theorem leValue_singleton (b : Byte) : leValue [b] = b.toNat := rfl

/-- A data stage of `n` bytes is a number of `8 * n` bits. -/
theorem leValue_lt : ∀ bs : List Byte, leValue bs < 2 ^ (8 * bs.length)
  | [] => Nat.one_pos
  | b :: bs => by
    have hbyte : b.toNat < 256 := b.isLt
    have hrest := leValue_lt bs
    have hpow : 2 ^ (8 * (b :: bs).length) = 2 ^ (8 * bs.length) * 256 := by rw [List.length_cons, Nat.mul_succ, Nat.pow_add]
    rw [leValue, hpow]
    omega

/-- Byte `k` of a data stage counts `256 ^ k`. -/
theorem leValue_eq_sum : ∀ bs : List Byte,
    leValue bs = ((List.range bs.length).map fun k => (bs.getD k 0).toNat * 2 ^ (8 * k)).sum
  | [] => rfl
  | b :: bs => by
    have hshift : (fun k => ((b :: bs).getD k 0).toNat * 2 ^ (8 * k)) ∘ Nat.succ =
        fun k => 256 * ((bs.getD k 0).toNat * 2 ^ (8 * k)) := by
      funext k
      rw [Function.comp_apply, List.getD_cons_succ, Nat.mul_succ, Nat.pow_add]
      ring
    rw [leValue, leValue_eq_sum bs, List.length_cons, List.range_succ_eq_map, List.map_cons, List.map_map, List.sum_cons,
      hshift, List.sum_map_mul_left, List.getD_cons_zero, Nat.mul_zero, Nat.pow_zero, Nat.mul_one]

/-- A one-byte data stage is its byte. -/
theorem deviceBytes_one (t : Target) (draw : Nat) (s : State) :
    deviceBytes t 1 draw s = [(deviceBytes t 1 draw s).headD 0] := by
  obtain ⟨b, hb⟩ := List.length_eq_one_iff.mp (deviceBytes_length t 1 draw s)
  rw [hb, List.headD_cons]

/-- A one-byte read of a register gives the byte last stored there (R72, R73). -/
theorem deviceBytes_byte_stored {base room draw : Nat} {p : Byte} {s : State} (hroom : 0 < room)
    (hp : s.mem.get base = some p) : deviceBytes (.register base room) 1 draw s = [p] := by
  have hbyte := deviceBytes_register_stored (k := 0) (draw := draw) Nat.one_pos hroom (s := s) (base := base) hp
  rw [deviceBytes_one, List.getElem?_cons_zero, Option.some.injEq] at hbyte
  rw [deviceBytes_one, hbyte]

/-- Two programs that end alike end alike in what follows them. -/
theorem Ctl.bind_congr_run {α β : Type} {m n : Ctl α} {s : State} (h : m s = n s) (f : α → Ctl β) :
    (m >>= f) s = (n >>= f) s := by
  rw [Ctl.run_bind, Ctl.run_bind, h]

/-! ## Accesses to the blocks (R151 to R153) -/

section Blocks

variable {block reg : Word16} {len : Nat} {s : State}

theorem regAccess_reserved (hb : legalBlock block = false) :
    regAccess block reg len s = .error (.refused (.reservedAddress reg block)) s := by
  simp only [regAccess, Ctl.run_bind, hb, require_false]

theorem regAccess_badWidth (hb : legalBlock block = true)
    (hw : (isRegLen len && Config.widthOk (Config.namedWidth block reg) len) = false) :
    regAccess block reg len s = .error (.refused (.badWidth len)) s := by
  simp only [regAccess, Ctl.run_bind, require_ok hb, hw, require_false]

/-- A legal `write_reg` is the `control_write` of its bytes (R151). -/
theorem writeReg_eq_controlWrite (hb : legalBlock block = true) (hl : isRegLen len = true)
    (hw : Config.widthOk (Config.namedWidth block reg) len = true) (value : Nat) :
    writeReg block reg value len s = controlWrite reg block (leBytes len value) s :=
  Ctl.run_bind_ok (regAccess_ok hb hl hw)

/-- A legal `read_reg` that fails or falls short (R152). -/
theorem readReg_fails {t : Target} (ho : s.opened = true) (hb : legalBlock block = true) (hl : isRegLen len = true)
    (hw : Config.widthOk (Config.namedWidth block reg) len = true) (ht : targetOf reg block = .ok t) (hr : reaches t s)
    (ha : ¬ nextSucceeds s) :
    readReg block reg len s =
      .error (.raised (transportError .controlRead reg block s.drawNo (answerOf s.plan s.drawNo)))
        (s.issued (readTransfer reg block (BitVec.ofNat 16 len) (delivered t len s))) := by
  obtain ⟨h0, h1⟩ := isRegLen_bounds hl
  have hread := controlRead_fails ho (ofNat16_ne h0 h1) ht hr ha
  rw [ofNat16_toNat h1] at hread
  exact (Ctl.run_bind_ok (regAccess_ok hb hl hw)).trans (Ctl.run_bind_error hread)

/-- A one-byte `read_reg` gives the byte delivered (R152). -/
theorem readReg_byte {t : Target} (ho : s.opened = true) (hb : legalBlock block = true)
    (hw : Config.widthOk (Config.namedWidth block reg) 1 = true) (ht : targetOf reg block = .ok t) (hr : reaches t s)
    (ha : nextSucceeds s) :
    readReg block reg 1 s =
      .ok ((deviceBytes t 1 s.drawNo s).headD 0).toNat (afterRead reg block 1 t s) := by
  rw [readReg_ok (len := 1) ho hb rfl hw ht hr ha, deviceBytes_one, leValue_singleton, List.headD_cons]
  rfl

/-- A legal one-byte `write_reg` is the `control_write` of its byte (R151). -/
theorem writeReg_byte (hb : legalBlock block = true) (hw : Config.widthOk (Config.namedWidth block reg) 1 = true)
    (b : Byte) : writeReg block reg b.toNat 1 s = controlWrite reg block [b] s := by
  rw [writeReg_eq_controlWrite (len := 1) hb rfl hw, leBytes_one]

/-- Mask 0xFF: a plain write (R153). -/
theorem writeRegMask_whole (hb : legalBlock block = true) (hw : Config.widthOk (Config.namedWidth block reg) 1 = true)
    (value : Byte) : writeRegMask block reg value Config.wholeMask s = controlWrite reg block [value] s := by
  rw [writeRegMask, if_pos rfl]
  exact writeReg_byte hb hw value

/-- Another mask: a write of the masked byte after the read (R153). -/
theorem writeRegMask_partial {value mask old : Byte} {s1 : State} (hb : legalBlock block = true)
    (hw : Config.widthOk (Config.namedWidth block reg) 1 = true) (hm : mask ≠ Config.wholeMask)
    (hold : readReg block reg 1 s = .ok old.toNat s1) :
    writeRegMask block reg value mask s = controlWrite reg block [maskByte old value mask] s1 := by
  rw [writeRegMask, if_neg hm]
  refine (Ctl.run_bind_ok hold).trans ?_
  rw [BitVec.ofNat_toNat, BitVec.setWidth_eq]
  exact writeReg_byte hb hw _

/-- A read that fails ends it (R153, R310). -/
theorem writeRegMask_unread {value mask : Byte} {e : Stop} {s1 : State} (hm : mask ≠ Config.wholeMask)
    (hread : readReg block reg 1 s = .error e s1) : writeRegMask block reg value mask s = .error e s1 := by
  rw [writeRegMask, if_neg hm]
  exact Ctl.run_bind_error hread

end Blocks

/-- A read takes nothing from what a next transfer needs (R141). -/
theorem keeps_afterRead (value index length : Word16) (t : Target) (s : State) :
    TunerKeeps s (afterRead value index length t s) :=
  (keeps_transferred _ s).trans (keeps_deviceAfterRead t _)

theorem reaches_of_bridge {t : Target} {s u : State} (h : u.bridge = s.bridge) (hr : reaches t s) : reaches t u := by
  cases t with
  | register base room => trivial
  | tuner | absent => exact h.trans hr

end Sys2Proof.Machine
end

section
/-! PROOFS. O15: `write_reg` and `read_reg` by their refusals, and as the transfer of their bytes (30_encoding R110,
41_register_i2c_layer R151, R152). -/

namespace Sys2Proof.Machine

section Registers

variable {block reg : Word16} {len : Nat} {s : State}

/-- A legal `write_reg` is the operation `control_write` of its bytes (R151). -/
theorem exec_writeReg_eq (hb : legalBlock block = true) (hl : isRegLen len = true)
    (hw : Config.widthOk (Config.namedWidth block reg) len = true) (value : Nat) :
    exec (.writeReg block reg value len) s = exec (.controlWrite reg block (leBytes len (value % 2 ^ (8 * len)))) s := by
  rw [leBytes_mod]
  exact runOp_congr (Ctl.bind_congr_run (writeReg_eq_controlWrite hb hl hw value) _)

/-- A legal `read_reg` that fails or falls short ends as the operation `control_read` does (R152). -/
theorem exec_readReg_fails {t : Target} (ho : s.opened = true) (hb : legalBlock block = true) (hl : isRegLen len = true)
    (hw : Config.widthOk (Config.namedWidth block reg) len = true) (ht : targetOf reg block = .ok t) (hr : reaches t s)
    (ha : ¬ nextSucceeds s) :
    exec (.readReg block reg len) s = exec (.controlRead reg block (BitVec.ofNat 16 len)) s := by
  obtain ⟨h0, h1⟩ := isRegLen_bounds hl
  have hread := exec_read_fails (i := .controlRead reg block (BitVec.ofNat 16 len)) rfl ho (ofNat16_ne h0 h1) ht hr ha
  rw [hread, ofNat16_toNat h1]
  exact runOp_raised (Ctl.run_bind_error (readReg_fails ho hb hl hw ht hr ha))

end Registers

/-- Settles O15: the checks of `regAccess` refuse, and past them `write_reg` is one write and `read_reg` one read, decoded. -/
theorem registerAccessRule : Obligations.RegisterAccessRule := by
  unfold Obligations.RegisterAccessRule
  refine ⟨fun block reg value len s => ⟨fun hb => ?writeReserved, fun hb hw => ?writeWidth, fun hb hl hw => ?write⟩,
    fun block reg len s => ⟨fun hb => ?readReserved, fun hb hw => ?readWidth, fun t hb hl hw ho ht hr =>
      ⟨fun ha => ?read, ?fails⟩⟩⟩
  case writeReserved => exact runOp_refused (Ctl.run_bind_error (Ctl.run_bind_error (regAccess_reserved hb)))
  case writeWidth => exact runOp_refused (Ctl.run_bind_error (Ctl.run_bind_error (regAccess_badWidth hb hw)))
  case write =>
    exact ⟨exec_writeReg_eq hb hl hw value, fun t ho ht hr ha =>
      runOp_ok (Ctl.run_bind_ok (writeReg_ok ho hb hl hw ht hr ha))⟩
  case readReserved => exact runOp_refused (Ctl.run_bind_error (Ctl.run_bind_error (regAccess_reserved hb)))
  case readWidth => exact runOp_refused (Ctl.run_bind_error (Ctl.run_bind_error (regAccess_badWidth hb hw)))
  case read =>
    have hlen : (deviceBytes t len s.drawNo s).length = len := deviceBytes_length _ _ _ _
    have hlt := leValue_lt (deviceBytes t len s.drawNo s)
    have hsum := leValue_eq_sum (deviceBytes t len s.drawNo s)
    rw [hlen] at hlt hsum
    exact ⟨runOp_ok (Ctl.run_bind_ok (readReg_ok ho hb hl hw ht hr ha)), hlt, hsum⟩
  case fails => exact exec_readReg_fails ho hb hl hw ht hr

end Sys2Proof.Machine
end

section
/-! PROOFS. O16: `write_reg_mask` by its mask and by what its read and its write end with; and the byte it leaves in block USB
or SYS (20_memory R72, 41_register_i2c_layer R153). -/

namespace Sys2Proof.Machine

/-- With the whole mask the masked byte is the value. -/
theorem maskByte_whole (old value : Byte) : maskByte old value Config.wholeMask = value := by
  have hmask : Config.wholeMask = BitVec.allOnes 8 := rfl
  rw [maskByte, hmask, BitVec.not_allOnes, BitVec.and_zero, BitVec.and_allOnes, BitVec.zero_or]

/-- A one-byte write stores its byte (R72, R73). -/
theorem afterWrite_byte_mem (value index : Word16) (b : Byte) {base room : Nat} (hroom : 0 < room) (s : State) :
    (afterWrite value index [b] (.register base room) s).mem = s.mem.put base b := by
  have hmem : (afterWrite value index [b] (.register base room) s).mem = s.mem.putBytes base ([b].take room) := rfl
  rw [hmem, List.take_of_length_le hroom, Mem.putBytes, Mem.putBytes]

theorem byte_stage_pos (b : Byte) : 0 < [b].length := Nat.one_pos

theorem byte_fitsStage (b : Byte) : [b].length < 2 ^ 16 := Nat.one_lt_two_pow (by decide)

/-- The window of a register of block USB or SYS (R72). -/
def storeWindow (block reg : Word16) : Target := .register (cellAddr block reg.toNat) (Config.blockSize - reg.toNat)

theorem targetOf_store {block : Word16} (hb : block = Config.blockUsb ∨ block = Config.blockSys) (reg : Word16) :
    targetOf reg block = .ok (storeWindow block reg) :=
  if_pos hb

theorem store_room (reg : Word16) : 0 < Config.blockSize - reg.toNat := Nat.sub_pos_of_lt reg.isLt

theorem keepsBlock.refl (s : State) : keepsBlock s s := by simp [keepsBlock, sameData]

theorem keepsBlock.trans {s t u : State} (h : keepsBlock s t) (g : keepsBlock t u) : keepsBlock s u := by
  unfold keepsBlock sameData at *
  grind

section Masked

variable {block reg : Word16} {value mask : Byte} {t : Target} {s : State}

/-- With mask 0xFF the operation is `control_write` (R153). -/
theorem exec_writeRegMask_whole (hb : legalBlock block = true) (hw : Config.widthOk (Config.namedWidth block reg) 1 = true) :
    exec (.writeRegMask block reg value Config.wholeMask) s = exec (.controlWrite reg block [value]) s :=
  runOp_congr (Ctl.bind_congr_run (writeRegMask_whole hb hw value) _)

/-- With another mask, where the read fails (R153). -/
theorem exec_writeRegMask_unread (hb : legalBlock block = true)
    (hw : Config.widthOk (Config.namedWidth block reg) 1 = true) (ho : s.opened = true) (ht : targetOf reg block = .ok t)
    (hr : reaches t s) (hm : mask ≠ Config.wholeMask) (ha : ¬ nextSucceeds s) :
    exec (.writeRegMask block reg value mask) s =
      .next (takeError (transportError .controlRead reg block s.drawNo (answerOf s.plan s.drawNo))
        (s.issued (readTransfer reg block 1 (delivered t 1 s)))) :=
  runOp_raised (Ctl.run_bind_error (writeRegMask_unread hm (readReg_fails (len := 1) ho hb rfl hw ht hr ha)))

/-- With another mask, where the read succeeds, the operation is the `control_write` of the masked byte in the state the read
leaves (R153). -/
theorem exec_writeRegMask_partial (hb : legalBlock block = true)
    (hw : Config.widthOk (Config.namedWidth block reg) 1 = true) (ho : s.opened = true) (ht : targetOf reg block = .ok t)
    (hr : reaches t s) (hm : mask ≠ Config.wholeMask) (ha : nextSucceeds s) :
    exec (.writeRegMask block reg value mask) s =
      exec (.controlWrite reg block [maskByte ((deviceBytes t 1 s.drawNo s).headD 0) value mask])
        (afterRead reg block 1 t s) := by
  have hmasked := writeRegMask_partial (value := value) hb hw hm (readReg_byte ho hb hw ht hr ha)
  refine runOp_congr ?_
  rw [Ctl.run_bind, Ctl.run_bind, hmasked]

/-- A register of block USB or SYS that holds `p`: the transfers of `write_reg_mask` succeed, and the last of them is the write
of the masked byte (R72, R153). -/
theorem exec_writeRegMask_stored {p : Byte} (hblock : block = Config.blockUsb ∨ block = Config.blockSys)
    (hw : Config.widthOk (Config.namedWidth block reg) 1 = true) (ho : s.opened = true) (ha : allSucceed s)
    (hp : s.mem.get (cellAddr block reg.toNat) = some p) :
    ∃ u : State, exec (.writeRegMask block reg value mask) s =
        .next (complete .nothing (afterWrite reg block [maskByte p value mask] (storeWindow block reg) u)) ∧
      u.mem = s.mem ∧ u.trace.length = s.trace.length + (if mask = Config.wholeMask then 0 else 1) ∧ keepsBlock s u := by
  have hb : legalBlock block = true := by rcases hblock with rfl | rfl <;> rfl
  have ht := targetOf_store hblock reg
  have hindex : targetOf reg (block &&& ~~~Config.writeFlag) = .ok (storeWindow block reg) :=
    (legalBlock_noFlag hb).symm ▸ ht
  by_cases hm : mask = Config.wholeMask
  case pos =>
    subst hm
    refine ⟨s, ?_, rfl, by rw [if_pos rfl, Nat.add_zero], keepsBlock.refl s⟩
    rw [exec_writeRegMask_whole hb hw, maskByte_whole]
    exact exec_write_code rfl ho (byte_stage_pos _) (byte_fitsStage _) hindex trivial ha.next.code
  case neg =>
    have hk := keeps_afterRead reg block 1 (storeWindow block reg) s
    have hold : deviceBytes (storeWindow block reg) 1 s.drawNo s = [p] := deviceBytes_byte_stored (store_room reg) hp
    refine ⟨afterRead reg block 1 (storeWindow block reg) s, ?_, rfl, ?_, keepsBlock_afterRead _ _ _ _ s⟩
    · rw [exec_writeRegMask_partial hb hw ho ht trivial hm ha.next, hold, List.headD_cons]
      exact exec_write_code rfl (hk.opened.trans ho) (byte_stage_pos _) (byte_fitsStage _) hindex trivial
        (hk.succeed ha).next.code
    · rw [afterRead_trace, List.length_append, if_neg hm, List.length_singleton]

end Masked

/-- Settles O16: the operation is one write, or a read and the write of the masked byte in the state the read leaves; a write
ends as O9 says. -/
theorem maskedRegisterRule : Obligations.MaskedRegisterRule := by
  unfold Obligations.MaskedRegisterRule
  have hwhole : (0xFF : Byte) = Config.wholeMask := rfl
  rw [hwhole]
  refine ⟨fun block reg value mask t s hb hw ho ht => ?transfers, fun block reg p value mask s hblock hw ho ha hp => ?stored⟩
  case transfers =>
    have hindex : targetOf reg (block &&& ~~~Config.writeFlag) = .ok t := (legalBlock_noFlag hb).symm ▸ ht
    refine ⟨?whole, fun hm hr => ⟨exec_writeRegMask_unread hb hw ho ht hr hm, ?partly⟩⟩
    case whole =>
      rintro rfl
      refine ⟨exec_writeRegMask_whole hb hw, fun hr ha => ?_⟩
      rw [exec_writeRegMask_whole hb hw]
      exact exec_write_code rfl ho (byte_stage_pos _) (byte_fitsStage _) hindex hr ha.code
    case partly =>
      rintro ha old s1 rfl rfl
      have hk := keeps_afterRead reg block 1 t s
      have ho1 := hk.opened.trans ho
      have hr1 := reaches_of_bridge hk.bridge hr
      rw [exec_writeRegMask_partial hb hw ho ht hr hm ha]
      exact ⟨fun ha1 => exec_write_code rfl ho1 (byte_stage_pos _) (byte_fitsStage _) hindex hr1 ha1.code,
        fun hc => exec_write_fails rfl ho1 (byte_stage_pos _) (byte_fitsStage _) hindex hr1 hc⟩
  case stored =>
    obtain ⟨u, hexec, hmem, htrace, hkeeps⟩ := exec_writeRegMask_stored (value := value) (mask := mask) hblock hw ho ha hp
    have hstored : (afterWrite reg block [maskByte p value mask] (storeWindow block reg) u).mem =
        s.mem.put (cellAddr block reg.toNat) (maskByte p value mask) :=
      (afterWrite_byte_mem reg block (maskByte p value mask) (store_room reg) u).trans (by rw [hmem])
    refine ⟨_, hexec, ?_, fun a hne => ?_, ?_, hkeeps.trans (keepsBlock_afterWrite reg block [maskByte p value mask] _ u)⟩
    · rw [complete_mem, hstored]
      exact Mem.get_put_same _ _ _
    · rw [complete_mem, hstored]
      exact Mem.get_put_other _ hne _
    · rw [complete_trace, afterWrite_trace, List.length_append, htrace]
      split
      · rfl
      · rfl

end Sys2Proof.Machine
end

section
/-! PROOFS. O17: `write_demod_reg` and `read_demod_reg` by their refusals, and as one transfer to the register's address words
(20_memory R73, 30_encoding R102, R110, 41_register_i2c_layer R154, R155). -/

namespace Sys2Proof.Machine

/-! ## The address words (R102) -/

/-- The address word of a DEMOD register as a number. -/
theorem demodValue_eq (addr : Byte) : demodValue addr = BitVec.ofNat 16 (addr.toNat * 256 + 0x20) := by
  have hpos : Config.demodAddrPos = 8 := rfl
  have htag : Config.demodTag.setWidth 16 = (0x20 : Word16) := rfl
  have haddr : addr.toNat < 256 := addr.isLt
  apply BitVec.eq_of_toNat_eq
  rw [demodValue, hpos, htag, BitVec.toNat_or, BitVec.toNat_shiftLeft, BitVec.toNat_setWidth, BitVec.toNat_ofNat,
    Nat.mod_eq_of_lt (show addr.toNat < 2 ^ 16 by omega), Nat.shiftLeft_eq,
    Nat.mod_eq_of_lt (show addr.toNat * 2 ^ 8 < 2 ^ 16 by omega), Nat.mul_comm addr.toNat,
    ← Nat.two_pow_add_eq_or_of_lt (i := 8) (show (0x20 : Word16).toNat < 2 ^ 8 by decide), Nat.mul_comm]
  exact (Nat.mod_eq_of_lt (show addr.toNat * 2 ^ 8 + 0x20 < 2 ^ 16 by omega)).symm

theorem pageOf_page (page1 : Bool) : pageOf (if page1 then 1 else 0) = some page1 := by cases page1 <;> rfl

theorem pageOf_other {page : Byte} (h0 : page ≠ 0) (h1 : page ≠ 1) : pageOf page = none := by
  rw [pageOf, if_neg (show page ≠ Config.demodPage0 from h0)]
  exact if_neg h1

/-- The index word of a page is its number (R102, D20). -/
theorem page_setWidth (page1 : Bool) : (if page1 then 1 else 0 : Byte).setWidth 16 = pageIndex page1 := by
  cases page1 <;> rfl

/-- A page that there is (R73). -/
theorem demodPage_ok (page1 : Bool) (addr : Byte) (s : State) :
    demodPage (if page1 then 1 else 0) addr s = .ok page1 s := by
  simp only [demodPage, pageOf_page, Ctl.run_pure]

/-- A page that there is not (R123). -/
theorem demodPage_other {page addr : Byte} {s : State} (h0 : page ≠ 0) (h1 : page ≠ 1) :
    demodPage page addr s = .error (.refused (.reservedAddress (demodValue addr) (page.setWidth 16))) s := by
  simp only [demodPage, pageOf_other h0 h1, refuse_run]

/-! ## The accesses (R154, R155) -/

section Demod

variable {page1 : Bool} {addr : Byte} {value len : Nat} {s : State}

theorem writeDemodReg_badWidth (hw : (isRegLen len && Config.widthOk (Config.namedDemodWidth page1 addr) len) = false) :
    writeDemodReg page1 addr value len s = .error (.refused (.badWidth len)) s := by
  simp only [writeDemodReg, Ctl.run_bind, hw, require_false]

/-- A legal `write_demod_reg` is the `control_write` of its bytes (R154). -/
theorem writeDemodReg_eq_controlWrite (hl : isRegLen len = true)
    (hw : Config.widthOk (Config.namedDemodWidth page1 addr) len = true) :
    writeDemodReg page1 addr value len s = controlWrite (demodValue addr) (pageIndex page1) (beBytes len value) s := by
  have hlegal : (isRegLen len && Config.widthOk (Config.namedDemodWidth page1 addr) len) = true := by
    rw [hl, hw, Bool.and_self]
  exact Ctl.run_bind_ok (require_ok hlegal _ _)

/-- The byte a `read_demod_reg` gives that succeeds. -/
def demodByte (page1 : Bool) (addr : Byte) (s : State) : Byte := (deviceBytes (demodWindow page1 addr) 1 s.drawNo s).headD 0

theorem demod_room (addr : Byte) : 0 < Config.pageSize - addr.toNat := Nat.sub_pos_of_lt addr.isLt

/-- It is the byte last stored in the register, where there is one (R73). -/
theorem demodByte_stored {p : Byte} (hp : s.mem.get (cellAddr (pageIndex page1) addr.toNat) = some p) :
    demodByte page1 addr s = p := by
  rw [demodByte, demodWindow, deviceBytes_byte_stored (demod_room addr) hp, List.headD_cons]

/-- A read of a DEMOD register leaves one transfer more, with that byte in its data stage. -/
theorem afterRead_demod : afterRead (demodValue addr) (pageIndex page1) 1 (demodWindow page1 addr) s =
    transferred (readTransfer (demodValue addr) (pageIndex page1) 1 [demodByte page1 addr s]) s := by
  have hdata : readBytes (demodWindow page1 addr) 1 s = [demodByte page1 addr s] := deviceBytes_one _ _ s
  rw [afterRead, hdata]
  rfl

/-- A `read_demod_reg` that fails or falls short (R155). -/
theorem readDemodReg_fails (ho : s.opened = true) (ha : ¬ nextSucceeds s) :
    readDemodReg page1 addr s =
      .error (.raised (transportError .controlRead (demodValue addr) (pageIndex page1) s.drawNo (answerOf s.plan s.drawNo)))
        (s.issued (readTransfer (demodValue addr) (pageIndex page1) 1 (delivered (demodWindow page1 addr) 1 s))) :=
  Ctl.run_bind_error (controlRead_fails (length := 1) ho (by decide) (targetOf_demod page1 addr) trivial ha)

/-- A legal `write_demod_reg` is the operation `control_write` of its bytes (R154). -/
theorem exec_writeDemodReg_eq (hl : isRegLen len = true)
    (hw : Config.widthOk (Config.namedDemodWidth page1 addr) len = true) :
    exec (.writeDemodReg (if page1 then 1 else 0) addr value len) s =
      exec (.controlWrite (demodValue addr) (pageIndex page1) (beBytes len (value % 2 ^ (8 * len)))) s := by
  rw [beBytes_mod]
  refine runOp_congr ((Ctl.run_bind_ok (demodPage_ok page1 addr s)).trans ?_)
  exact Ctl.bind_congr_run (writeDemodReg_eq_controlWrite hl hw) _

/-- A `read_demod_reg` that succeeds (R155). -/
theorem exec_readDemodReg_ok (ho : s.opened = true) (ha : nextSucceeds s) :
    exec (.readDemodReg (if page1 then 1 else 0) addr) s =
      .next (complete (.uint (demodByte page1 addr s).toNat)
        (transferred (readTransfer (demodValue addr) (pageIndex page1) 1 [demodByte page1 addr s]) s)) := by
  rw [← afterRead_demod]
  exact runOp_ok ((Ctl.run_bind_ok (demodPage_ok page1 addr s)).trans (Ctl.run_bind_ok (readDemodReg_ok ho ha)))

/-- A `read_demod_reg` that fails or falls short ends as the operation `control_read` does (R155). -/
theorem exec_readDemodReg_fails (ho : s.opened = true) (ha : ¬ nextSucceeds s) :
    exec (.readDemodReg (if page1 then 1 else 0) addr) s =
      exec (.controlRead (demodValue addr) (pageIndex page1) 1) s := by
  rw [exec_read_fails (i := .controlRead (demodValue addr) (pageIndex page1) 1) rfl ho (by decide)
    (targetOf_demod page1 addr) trivial ha]
  exact runOp_raised ((Ctl.run_bind_ok (demodPage_ok page1 addr s)).trans (Ctl.run_bind_error (readDemodReg_fails ho ha)))

end Demod

/-- Settles O17: `demodPage` refuses a page that there is not, the width check a width, and past them each operation is one
transfer to the register's address words. -/
theorem demodRegisterRule : Obligations.DemodRegisterRule := by
  unfold Obligations.DemodRegisterRule
  refine ⟨fun page addr value len s => ⟨fun h0 h1 => ?writeReserved, ?write⟩,
    fun page addr s => ⟨fun h0 h1 => ?readReserved, ?read⟩⟩
  case writeReserved => exact runOp_refused (Ctl.run_bind_error (demodPage_other h0 h1))
  case readReserved => exact runOp_refused (Ctl.run_bind_error (demodPage_other h0 h1))
  case write =>
    rintro page1 rfl
    have hpage := demodPage_ok page1 addr s
    refine ⟨fun hw => ?width, fun hl hw => ⟨?transfer, fun ho ha => ?stores⟩⟩
    case width =>
      exact runOp_refused ((Ctl.run_bind_ok hpage).trans (Ctl.run_bind_error (writeDemodReg_badWidth hw)))
    case transfer =>
      rw [exec_writeDemodReg_eq hl hw, demodValue_eq, page_setWidth]
    case stores =>
      exact runOp_ok ((Ctl.run_bind_ok hpage).trans (Ctl.run_bind_ok (writeDemodReg_ok ho hl hw ha)))
  case read =>
    rintro page1 rfl ho
    exact ⟨fun ha => ⟨demodByte page1 addr s, exec_readDemodReg_ok ho ha, fun p hp => demodByte_stored hp⟩,
      exec_readDemodReg_fails ho⟩

end Sys2Proof.Machine
end

section
/-! PROOFS. O18: `open_i2c` and `close_i2c` are one write of the bridge register and, where it succeeds, the record of it
(10_state R37, R39, 41_register_i2c_layer R156, R157, 60_exceptions R310). -/

namespace Sys2Proof.Machine

theorem bridgeAddr_eq : cellAddr (pageIndex true) Config.regBridge.toNat = bridgeAddr := by decide

theorem bridgeWord_eq : demodValue Config.regBridge = 0x0120 := by decide

theorem beBytes_byte (v : Nat) : beBytes Config.demodRegLen.bytes v = [BitVec.ofNat 8 v] := rfl

theorem deviceForget_register_bridge (base room : Nat) (bytes : List Byte) (draw : Nat) (s : State) :
    (deviceForget (.register base room) bytes draw s).bridge =
      if covers base (min bytes.length room) bridgeAddr then .unspecified else s.bridge := rfl

section Bridge

variable (v : Nat) (s : State)

/-! ## The write of the bridge register -/

theorem mem_afterBridgeWrite :
    (afterDemodWrite true Config.regBridge v Config.demodRegLen.bytes s).mem = s.mem.put bridgeAddr (BitVec.ofNat 8 v) := by
  rw [afterDemodWrite, demodWindow, bridgeAddr_eq, beBytes_byte]
  exact afterWrite_byte_mem _ _ _ (demod_room Config.regBridge) s

theorem trace_afterBridgeWrite :
    (afterDemodWrite true Config.regBridge v Config.demodRegLen.bytes s).trace =
      s.trace ++ [.control (setupPacket 0x40 0x0120 0x0011 1) [BitVec.ofNat 8 v]] := by
  rw [afterDemodWrite, afterWrite_trace, beBytes_byte, bridgeWord_eq]
  rfl

/-- What a bridge operation that succeeds leaves besides the bridge: the byte written and no other, the record, one setup packet
on the wire (R156, R157). -/
theorem bridgeWrite_leaves (b : Bool) {t : State}
    (ht : t = complete .nothing ((afterDemodWrite true Config.regBridge v Config.demodRegLen.bytes s).setI2cOpen b)) :
    t.i2cOpen = b ∧ t.mem.get bridgeAddr = some (BitVec.ofNat 8 v) ∧
      (∀ a, a ≠ bridgeAddr → t.mem.get a = s.mem.get a) ∧
      t.trace = s.trace ++ [.control (setupPacket 0x40 0x0120 0x0011 1) [BitVec.ofNat 8 v]] ∧
      t.claimed = s.claimed ∧ t.tunerReady = s.tunerReady ∧ t.hasPllLock = s.hasPllLock ∧ t.fault = s.fault ∧
      t.shadow = s.shadow := by
  subst ht
  refine ⟨rfl, ?same, fun a ha => ?other, trace_afterBridgeWrite v s, rfl, rfl, rfl, rfl, rfl⟩
  case same =>
    rw [complete_mem, State.setI2cOpen_mem, mem_afterBridgeWrite]
    exact Mem.get_put_same _ _ _
  case other =>
    rw [complete_mem, State.setI2cOpen_mem, mem_afterBridgeWrite]
    exact Mem.get_put_other _ ha _

/-- The state a write of the bridge register leaves that fails: nothing is known of the bridge (R142, G2). -/
def bridgeForgotten (v : Nat) (s : State) : State :=
  deviceForget (demodWindow true Config.regBridge) [BitVec.ofNat 8 v] s.drawNo
    (s.issued (writeTransfer 0x0120 (pageIndex true) [BitVec.ofNat 8 v]))

theorem bridgeForgotten_bridge : (bridgeForgotten v s).bridge = .unspecified := by
  have hcovers : covers (cellAddr (pageIndex true) Config.regBridge.toNat)
      (min [BitVec.ofNat 8 v].length (Config.pageSize - Config.regBridge.toNat)) bridgeAddr = true := by
    rw [List.length_singleton]
    decide
  rw [bridgeForgotten, demodWindow, deviceForget_register_bridge, if_pos hcovers]

theorem bridgeForgotten_trace : (bridgeForgotten v s).trace =
    s.trace ++ [.control (setupPacket 0x40 0x0120 0x0011 1) [BitVec.ofNat 8 v]] := rfl

variable {s}

theorem bridgeWrite_fails (ho : s.opened = true) (hc : (answerOf s.plan s.drawNo).code ≠ 0) :
    writeDemodReg true Config.regBridge v Config.demodRegLen.bytes s =
      .error (.raised (transportError .controlWrite 0x0120 0x0011 s.drawNo (answerOf s.plan s.drawNo)))
        (bridgeForgotten v s) := by
  have ht : targetOf (demodValue Config.regBridge) (pageIndex true &&& ~~~Config.writeFlag) =
      .ok (demodWindow true Config.regBridge) := (pageIndex_noFlag true).symm ▸ targetOf_demod true Config.regBridge
  have hwrite := controlWrite_fails ho (byte_stage_pos (BitVec.ofNat 8 v)) (byte_fitsStage _) ht trivial hc
  rw [bridgeWord_eq] at hwrite
  rw [writeDemodReg_eq_controlWrite (by decide) (by decide), beBytes_byte, bridgeWord_eq]
  exact hwrite

/-! ## The operations -/

/-- `open_i2c` and `close_i2c`, each with the byte it writes, where the write fails (R156, R157). -/
theorem exec_bridge_fails {i : Instr}
    (hi : i = .openI2c ∧ v = Config.bridgeOpenValue ∨ i = .closeI2c ∧ v = Config.bridgeCloseValue)
    (ho : s.opened = true) (hc : (answerOf s.plan s.drawNo).code ≠ 0) :
    exec i s = .next (takeError (transportError .controlWrite 0x0120 0x0011 s.drawNo (answerOf s.plan s.drawNo))
      (bridgeForgotten v s)) := by
  rcases hi with ⟨rfl, rfl⟩ | ⟨rfl, rfl⟩
  · exact runOp_raised (Ctl.run_bind_error (Ctl.run_bind_error (bridgeWrite_fails _ ho hc)))
  · exact runOp_raised (Ctl.run_bind_error (Ctl.run_bind_error (bridgeWrite_fails _ ho hc)))

/-- The byte a bridge operation writes. -/
theorem bridgeByte {i : Instr} (hi : i = .openI2c ∨ i = .closeI2c) :
    ∃ v, (i = .openI2c ∧ v = Config.bridgeOpenValue ∨ i = .closeI2c ∧ v = Config.bridgeCloseValue) ∧
      BitVec.ofNat 8 v = if i = .openI2c then 0x18 else 0x10 := by
  rcases hi with rfl | rfl
  · exact ⟨_, .inl ⟨rfl, rfl⟩, rfl⟩
  · exact ⟨_, .inr ⟨rfl, rfl⟩, rfl⟩

/-- The record of a transfer whose result code is not 0 (R108). -/
theorem transportError_code {op : TransportOp} {value index : Word16} {draw : Nat} {a : Answer} (hc : a.code ≠ 0) :
    transportError op value index draw a =
      { kind := .transportError, info := .transport op value index a.code (Config.errorText draw) } := by
  rw [transportError, if_neg hc]

end Bridge

/-- Settles O18: where the write succeeds, `bridgeWrite_leaves` and the bridge of R39; where it fails, the error is taken in
the state that has forgotten the bridge register. -/
theorem bridgeRule : Obligations.BridgeRule := by
  unfold Obligations.BridgeRule
  have haddr : cellAddr 1 0x01 = bridgeAddr := bridgeAddr_eq
  rw [haddr]
  refine fun s ho => ⟨fun ha => ?opens, fun ha => ?closes, fun hc i hi => ?fails⟩
  case opens =>
    obtain ⟨hrecord, hbyte, hframe, htrace, hflags⟩ := bridgeWrite_leaves Config.bridgeOpenValue s true
      (t := complete .nothing (afterOpenI2c s)) rfl
    exact ⟨_, runOp_ok (Ctl.run_bind_ok (openI2c_ok ho ha)), rfl, hrecord,
      (complete_bridge _ _).trans (afterOpenI2c_bridge s), hbyte, hframe, htrace, hflags⟩
  case closes =>
    obtain ⟨hrecord, hbyte, hframe, htrace, hflags⟩ := bridgeWrite_leaves Config.bridgeCloseValue s false
      (t := complete .nothing (afterCloseI2c s)) rfl
    exact ⟨_, runOp_ok (Ctl.run_bind_ok (closeI2c_ok ho ha)), rfl, hrecord,
      (complete_bridge _ _).trans (afterCloseI2c_bridge s), hbyte, hframe, htrace, hflags⟩
  case fails =>
    obtain ⟨v, hv, hbyte⟩ := bridgeByte hi
    rw [← hbyte]
    refine ⟨_, exec_bridge_fails v hv ho hc, ?_, takeError_setsFault rfl _, takeError_rests rfl _, ?_, ?_, ?_⟩
    · rw [takeError_i2cOpen]
      rfl
    · rw [takeError_bridge, bridgeForgotten_bridge]
    · rw [takeError_trace, bridgeForgotten_trace]
    · rw [transportError_code hc, takeError_recorded rfl]
      rfl

end Sys2Proof.Machine
end

section
/-! PROOFS. O19: an I2C write is one `control_write` of the register and its bytes, an I2C read the write of the register and a
`control_read` at the pointer it sets (20_memory R74, 41_register_i2c_layer R158 to R161). -/

namespace Sys2Proof.Machine

/-- A bridge that forwards lets every transfer through (R39 (a)). -/
theorem reaches_of_forwarding {t : Target} {s : State} (h : s.bridge = .forwarding) : reaches t s := by
  cases t with
  | register base room => trivial
  | tuner | absent => exact h

section I2c

variable {addr : Word16} {reg value : Byte} {bytes : List Byte} {n : Nat} {s : State}

/-! ## Writes (R158, R160) -/

theorem i2cWrite_eq_controlWrite (h : tunerReachable s) :
    i2cWrite addr reg bytes s = controlWrite addr Config.blockI2c (reg :: bytes) s :=
  Ctl.run_bind_ok (requireI2c_ok h)

theorem not_isEmpty_of_ne_nil {bytes : List Byte} (h : bytes ≠ []) : (!bytes.isEmpty) = true := by
  rw [List.isEmpty_eq_false_iff.mpr h]
  rfl

/-- A buffer that is not empty is written by one write (R160). -/
theorem exec_i2cWriteBuf (h : tunerReachable s) (h0 : bytes ≠ []) :
    exec (.i2cWriteBuf addr reg bytes) s = exec (.controlWrite addr Config.blockI2c (reg :: bytes)) s := by
  refine runOp_congr ((Ctl.run_bind_ok (require_ok (not_isEmpty_of_ne_nil h0) _ _)).trans ?_)
  exact Ctl.bind_congr_run (i2cWrite_eq_controlWrite h) _

/-- So is a single register (R158). -/
theorem exec_i2cWriteReg (h : tunerReachable s) :
    exec (.i2cWriteReg addr reg value) s = exec (.controlWrite addr Config.blockI2c [reg, value]) s :=
  runOp_congr (Ctl.bind_congr_run (i2cWrite_eq_controlWrite h) _)

/-- An empty buffer (R160). -/
theorem exec_i2cWriteBuf_empty (h0 : bytes = []) : exec (.i2cWriteBuf addr reg bytes) s = .refused (.badLength 0) := by
  have hempty : require (!bytes.isEmpty) (.badLength 0) s = .error (.refused (.badLength 0)) s := by
    rw [h0, List.isEmpty_nil, Bool.not_true, require_false]
  exact runOp_refused (Ctl.run_bind_error hempty)

/-- A write to a device in block I2C that succeeds: the tuner, or none (R74). -/
theorem exec_i2cWriteBuf_ok {t : Target} (h : tunerReachable s) (h0 : bytes ≠ []) (h1 : bytes.length + 1 < 2 ^ 16)
    (ha : nextSucceeds s) (ht : targetOf addr Config.blockI2c = .ok t) :
    exec (.i2cWriteBuf addr reg bytes) s =
      .next (complete .nothing (afterWrite addr Config.blockI2c (reg :: bytes) t s)) := by
  rw [exec_i2cWriteBuf h h0]
  exact exec_write_code rfl h.1 (Nat.succ_pos _) h1 (tunerIndex_noFlag.symm ▸ ht) (reaches_of_forwarding h.2.2) ha.code

variable (reg bytes s)

/-- The bytes of a write lie in consecutive registers, up to register 0x1F (R74). -/
theorem afterTunerWrite_stored {k : Nat} (hk : k < bytes.length) (hreg : reg.toNat + k < 32) :
    (afterTunerWrite reg bytes s).mem.get (tunerAddr (reg.toNat + k)) = bytes[k]? :=
  tunerAddr_add reg.toNat k ▸ Mem.get_putBytes_take_inside s.mem _ hk (by unfold Config.r820tRegs; omega)

/-- A write to the tuner leaves every other byte alone (R74). -/
theorem afterTunerWrite_frame {a : Nat}
    (h : a < tunerAddr reg.toNat ∨ tunerAddr reg.toNat + min bytes.length (32 - reg.toNat) ≤ a) :
    (afterTunerWrite reg bytes s).mem.get a = s.mem.get a :=
  Mem.get_putBytes_take_outside s.mem h

theorem afterTunerWrite_trace : (afterTunerWrite reg bytes s).trace = s.trace ++
    [.control (setupPacket 0x40 0x0034 0x0610 (BitVec.ofNat 16 (bytes.length + 1))) (reg :: bytes)] :=
  afterWrite_trace _ _ _ _ s

/-! ## Reads (R159, R161) -/

variable {reg bytes s}

/-- A length of 0 (R161). -/
theorem i2cRead_empty (h : tunerReachable s) : i2cRead addr reg 0 s = .error (.refused (.badLength 0)) s :=
  Ctl.run_bind_error ((Ctl.run_bind_ok (requireI2c_ok h)).trans (Ctl.run_bind_error (require_false _ _)))

variable (reg n s)

theorem tunerBytes_length : (tunerBytes reg n s).length = n := deviceBytes_length _ _ _ _

/-- The write of a register alone stores nothing (R74). -/
theorem afterTunerWrite_nil_mem : (afterTunerWrite reg [] s).mem = s.mem := by
  have hmem : (afterTunerWrite reg [] s).mem =
      s.mem.putBytes (tunerAddr reg.toNat) (([] : List Byte).take (Config.r820tRegs - reg.toNat)) := rfl
  rw [hmem, List.take_nil, Mem.putBytes]

/-- A read sets the pointer and leaves every register alone (R74, R87). -/
theorem afterTunerRead_device : (afterTunerRead reg n s).mem = s.mem ∧ (afterTunerRead reg n s).i2cPtr = reg := by
  obtain ⟨hmem, -, hptr, -⟩ :=
    sameDevice_afterRead tunerBus Config.blockI2c (BitVec.ofNat 16 n) .tuner (afterTunerWrite reg [] s)
  exact ⟨hmem.trans (afterTunerWrite_nil_mem reg s), hptr⟩

theorem keepsBlock_afterTunerRead : keepsBlock s (afterTunerRead reg n s) :=
  (keepsBlock_afterWrite tunerBus Config.blockI2c [reg] .tuner s).trans (keepsBlock_afterRead _ _ _ _ _)

/-- The pointer write, then the read, on the wire (R161). -/
theorem afterTunerRead_trace {n : Nat} (hn : n < 2 ^ 16) : (afterTunerRead reg n s).trace = s.trace ++
    [.control (setupPacket 0x40 0x0034 0x0610 1) [reg],
      .control (setupPacket 0xC0 0x0034 0x0600 (BitVec.ofNat 16 n)) (tunerBytes reg n s)] := by
  have hdata : readBytes .tuner (BitVec.ofNat 16 n) (afterTunerWrite reg [] s) = tunerBytes reg n s := by
    rw [readBytes, ofNat16_toNat hn]
    rfl
  rw [afterTunerRead, afterRead_trace, hdata, afterTunerWrite_trace, List.append_assoc]
  rfl

end I2c

/-- Settles O19: a write is one `control_write` to the tuner or to no device, a read `i2cRead`, and what they leave is what O10
and the lemmas on reads say. -/
theorem i2cRule : Obligations.I2cRule := by
  unfold Obligations.I2cRule
  refine ⟨fun reg value bytes s h => ⟨?single, exec_i2cWriteBuf_empty rfl, fun h0 h1 ha => ?tuner,
      fun addr haddr h0 h1 ha => ?absent⟩,
    fun reg n s h => ⟨?empty, fun h0 h1 ha => ?read, fun ha => ?byte⟩⟩
  case single => rw [exec_i2cWriteReg h, exec_i2cWriteBuf h (List.cons_ne_nil _ _)]
  case tuner =>
    exact ⟨exec_i2cWriteBuf_ok h h0 h1 ha targetOf_tuner, fun k hk hreg => afterTunerWrite_stored reg bytes s hk hreg,
      fun a hframe => afterTunerWrite_frame reg bytes s hframe, afterTunerWrite_trace reg bytes s⟩
  case absent => exact exec_i2cWriteBuf_ok h h0 h1 ha (targetOf_absent haddr)
  case empty => exact runOp_refused (Ctl.run_bind_error (i2cRead_empty h))
  case read =>
    obtain ⟨hmem, hptr⟩ := afterTunerRead_device reg n s
    exact ⟨runOp_ok (Ctl.run_bind_ok (i2cRead_ok h h0 h1 ha)), tunerBytes_length reg n s, hmem, hptr,
      keepsBlock_afterTunerRead reg n s, afterTunerRead_trace reg s h1⟩
  case byte => exact runOp_ok (Ctl.run_bind_ok (i2cRead_ok h Nat.one_pos (by decide) ha))

end Sys2Proof.Machine
end

section
/-! PROOFS. O21: a masked tuner write is refused where there is no shadow byte; otherwise it stores the masked byte in the shadow
and is one I2C write of it (10_state R35, 40_usb_transport R142, 42_r820t_tuner R171, 60_exceptions R349). -/

namespace Sys2Proof.Machine

/-! ## The shadowed registers (R35) -/

theorem shadowIndex_eq_none {reg : Byte} (h : ¬ (0x05 ≤ reg.toNat ∧ reg.toNat ≤ 0x1F)) : shadowIndex reg = none :=
  dif_neg fun hreg => h ⟨hreg.1, Nat.le_of_lt_succ hreg.2⟩

theorem shadowIndex_eq_some {reg : Byte} {k : Fin Config.shadowLen} (h : reg.toNat = 0x05 + k.val) :
    shadowIndex reg = some k := by
  have hlt : k.val < 27 := k.isLt
  have hreg : Config.shadowBase ≤ reg.toNat ∧ reg.toNat < Config.r820tRegs := by
    unfold Config.shadowBase Config.r820tRegs
    omega
  have hk : reg.toNat - Config.shadowBase = k.val := Nat.sub_eq_of_eq_add' h
  unfold shadowIndex
  rw [dif_pos hreg]
  exact congrArg some (Fin.ext hk)

theorem tunerAddr_of_shadowIndex {reg : Byte} {k : Fin Config.shadowLen} (hk : shadowIndex reg = some k) :
    tunerAddr (Config.shadowBase + k.val) = tunerAddr reg.toNat := by rw [shadowIndex_some hk]

section Masked

variable {t : Triple} {k : Fin Config.shadowLen} {sh : Vector Byte Config.shadowLen} {s : State}

/-! ## A masked write by where it stops -/

/-- A register without a shadow byte (R349, G15). -/
theorem writeMask_noShadowByte (h : tunerReachable s) (hk : shadowIndex t.reg = none) :
    writeMask t s = .error (.refused (.noShadowByte t.reg)) s := by
  simp only [writeMask, Ctl.run_bind, requireI2c_ok h, hk, refuse_run]

/-- No shadow to mask with (R349, G25). -/
theorem writeMask_noShadow (h : tunerReachable s) (hk : shadowIndex t.reg = some k) (hsh : s.shadow = none) :
    writeMask t s = .error (.refused .noShadow) s := by
  simp only [writeMask, Ctl.run_bind, requireI2c_ok h, hk, Ctl.run_get, hsh, refuse_run]

/-- The shadow with the masked byte in place (R171). -/
def maskedShadow (t : Triple) (k : Fin Config.shadowLen) (sh : Vector Byte Config.shadowLen) (s : State) : State :=
  s.setShadow (sh.set k (maskByte sh[k] t.value t.mask))

/-- The shadow comes first, then one I2C write of the masked byte (R171). -/
theorem writeMask_eq_i2cWrite (h : tunerReachable s) (hk : shadowIndex t.reg = some k) (hsh : s.shadow = some sh) :
    writeMask t s = i2cWrite tunerBus t.reg [maskByte sh[k] t.value t.mask] (maskedShadow t k sh s) := by
  simp only [writeMask, Ctl.run_bind, requireI2c_ok h, hk, Ctl.run_get, hsh, Ctl.run_modify]
  rfl

theorem afterMask_eq (hk : shadowIndex t.reg = some k) (hsh : s.shadow = some sh) :
    afterMask t s = afterTunerWrite t.reg [maskByte sh[k] t.value t.mask] (maskedShadow t k sh s) := by
  simp only [afterMask, hk, hsh]
  rfl

theorem writeMask_succeeds (h : tunerReachable s) (hk : shadowIndex t.reg = some k) (hsh : s.shadow = some sh)
    (ha : nextSucceeds s) : writeMask t s = .ok () (afterMask t s) := by
  rw [writeMask_eq_i2cWrite h hk hsh, afterMask_eq hk hsh]
  exact i2cWrite_ok (s := maskedShadow t k sh s) h (by rw [List.length_singleton]; decide) ha

/-! ## What a masked write leaves -/

theorem afterMask_mem (hk : shadowIndex t.reg = some k) (hsh : s.shadow = some sh) :
    (afterMask t s).mem = s.mem.put (tunerAddr t.reg.toNat) (maskByte sh[k] t.value t.mask) := by
  rw [afterMask_eq hk hsh, afterTunerWrite_byte hk, tunerAddr_of_shadowIndex hk]
  rfl

theorem afterMask_shadow (hk : shadowIndex t.reg = some k) (hsh : s.shadow = some sh) :
    (afterMask t s).shadow = some (sh.set k (maskByte sh[k] t.value t.mask)) := by
  rw [afterMask_eq hk hsh]
  rfl

theorem afterMask_trace (hk : shadowIndex t.reg = some k) (hsh : s.shadow = some sh) :
    (afterMask t s).trace =
      s.trace ++ [.control (setupPacket 0x40 0x0034 0x0610 2) [t.reg, maskByte sh[k] t.value t.mask]] := by
  rw [afterMask_eq hk hsh, afterTunerWrite_trace]
  rfl

/-- Besides the shadow a masked write changes nothing of the block (R171). -/
theorem keepsBlock_afterMask (t : Triple) (s : State) :
    keepsBlock { s with shadow := (afterMask t s).shadow } (afterMask t s) := by
  unfold afterMask
  split
  · exact keepsBlock_afterWrite _ _ _ _ (s.setShadow _)
  · exact keepsBlock.refl s

/-! ## A masked write that fails -/

/-- The state a masked write leaves that fails: the shadow holds the masked byte, nothing is known of the register (R142, G2;
notes/assumptions/7.md). -/
def maskForgotten (t : Triple) (k : Fin Config.shadowLen) (sh : Vector Byte Config.shadowLen) (s : State) : State :=
  deviceForget .tuner [t.reg, maskByte sh[k] t.value t.mask] s.drawNo ((maskedShadow t k sh s).issued
    (writeTransfer tunerBus Config.blockI2c [t.reg, maskByte sh[k] t.value t.mask]))

theorem writeMask_fails (h : tunerReachable s) (hk : shadowIndex t.reg = some k) (hsh : s.shadow = some sh)
    (hc : (answerOf s.plan s.drawNo).code ≠ 0) :
    writeMask t s = .error (.raised (transportError .controlWrite 0x0034 0x0610 s.drawNo (answerOf s.plan s.drawNo)))
      (maskForgotten t k sh s) := by
  have ⟨hopen, _, hbridge⟩ := h
  rw [writeMask_eq_i2cWrite h hk hsh, i2cWrite_eq_controlWrite (s := maskedShadow t k sh s) h]
  exact controlWrite_fails (s := maskedShadow t k sh s) hopen (Nat.succ_pos _)
    (by rw [List.length_cons, List.length_singleton]; decide) (tunerIndex_noFlag.symm ▸ targetOf_tuner) hbridge hc

theorem maskForgotten_mem (hk : shadowIndex t.reg = some k) :
    (maskForgotten t k sh s).mem = s.mem.forget (tunerAddr t.reg.toNat) := by
  have hlen : min 1 (Config.r820tRegs - t.reg.toNat) = 1 := by
    have hreg := shadowIndex_some hk
    have := k.isLt
    unfold Config.shadowLen at this
    unfold Config.shadowBase at hreg
    unfold Config.r820tRegs
    omega
  have hmem : (maskForgotten t k sh s).mem =
      s.mem.forgetBytes (tunerAddr t.reg.toNat) (min 1 (Config.r820tRegs - t.reg.toNat)) := rfl
  rw [hmem, hlen, Mem.forgetBytes, Mem.forgetBytes]

theorem maskForgotten_shadow :
    (maskForgotten t k sh s).shadow = some (sh.set k (maskByte sh[k] t.value t.mask)) := rfl

end Masked

/-- Settles O21: the two refusals of `writeMask`, what `afterMask` leaves where the write succeeds, and the error taken in
`maskForgotten` where it fails. -/
theorem tunerMaskRule : Obligations.TunerMaskRule := by
  unfold Obligations.TunerMaskRule
  refine fun reg value mask s h => ⟨fun hreg => ?unshadowed, fun k hreg => ⟨fun hsh => ?noShadow, ?shadowed⟩⟩
  case unshadowed => exact runOp_refused (Ctl.run_bind_error (writeMask_noShadowByte h (shadowIndex_eq_none hreg)))
  case noShadow => exact runOp_refused (Ctl.run_bind_error (writeMask_noShadow h (shadowIndex_eq_some hreg) hsh))
  case shadowed =>
    rintro sh new hsh rfl
    have hk : shadowIndex reg = some k := shadowIndex_eq_some hreg
    refine ⟨fun ha => ?succeeds, fun hc hwf => ?fails⟩
    case succeeds =>
      have hmem := afterMask_mem (t := ⟨reg, value, mask⟩) hk hsh
      refine ⟨_, runOp_ok (Ctl.run_bind_ok (writeMask_succeeds h hk hsh ha)), rfl, afterMask_shadow hk hsh, ?_, fun a ha => ?_,
        (keeps_afterMask _ s).bridge, afterMask_trace hk hsh, keepsBlock_afterMask _ s⟩
      · rw [complete_mem, hmem]
        exact Mem.get_put_same _ _ _
      · rw [complete_mem, hmem]
        exact Mem.get_put_other _ ha _
    case fails =>
      refine ⟨_, runOp_raised (Ctl.run_bind_error (writeMask_fails h hk hsh hc)), ?_, ?_, takeError_setsFault rfl _,
        fun a ha => ?_, takeError_recorded rfl _⟩
      · rw [takeError_shadow, maskForgotten_shadow]
        rfl
      · rw [takeError_mem, maskForgotten_mem hk]
        exact Mem.get_forget_same _ hwf
      · rw [takeError_mem, maskForgotten_mem hk]
        exact Mem.get_forget_other ha _

end Sys2Proof.Machine
end

section
/-! PROOFS. O22: `r820t.read` is `i2c_read_buf` of the status registers, its bytes reversed (42_r820t_tuner R172). -/

namespace Sys2Proof.Machine

theorem isStatusLen_false {n : Nat} (h : n = 0 ∨ 5 < n) : isStatusLen n = false := by
  have hlen : Config.statusLen = 5 := rfl
  simp only [isStatusLen, hlen, Bool.and_eq_false_iff, decide_eq_false_iff_not]
  omega

/-- A number of registers the tuner's status does not have (R172). -/
theorem tunerRead_badLength {n : Nat} {s : State} (h : tunerReachable s) (hn : n = 0 ∨ 5 < n) :
    tunerRead n s = .error (.refused (.badLength n)) s := by
  simp only [tunerRead, Ctl.run_bind, requireI2c_ok h, isStatusLen_false hn, require_false]

theorem afterTunerRead_shadow (reg : Byte) (n : Nat) (s : State) : (afterTunerRead reg n s).shadow = s.shadow :=
  deviceAfterRead_shadow _ _

/-- Settles O22: `tunerRead` and `i2cRead` issue the same transfers and leave the same state. -/
theorem tunerReadRule : Obligations.TunerReadRule := by
  unfold Obligations.TunerReadRule
  refine fun n s h => ⟨fun hn => ?refused, fun h1 h5 ha => ?reads⟩
  case refused => exact runOp_refused (Ctl.run_bind_error (tunerRead_badLength h hn))
  case reads =>
    obtain ⟨hmem, -⟩ := afterTunerRead_device 0x00 n s
    exact ⟨runOp_ok (Ctl.run_bind_ok (tunerRead_ok h h1 h5 ha)),
      runOp_ok (Ctl.run_bind_ok (i2cRead_ok h h1 (by omega) ha)),
      hmem, afterTunerRead_shadow 0x00 n s, keepsBlock_afterTunerRead 0x00 n s⟩

end Sys2Proof.Machine
end

section
/-! PROOFS. O24: masked writes one after another; a write whose result code is not 0 ends the list, wherever it stops
(42_r820t_tuner R173, 60_exceptions R310). -/

namespace Sys2Proof.Machine

/-! ## Programs that do not end well -/

/-- The program ends in an error, a refusal or a fault. -/
def Ctl.Stops {α : Type} (m : Ctl α) (s : State) : Prop := ∃ e s', m s = .error e s'

namespace Ctl.Stops

variable {α β : Type} {m : Ctl α} {f : α → Ctl β} {s : State}

theorem first (h : Ctl.Stops m s) : Ctl.Stops (m >>= f) s := by
  obtain ⟨e, s', h⟩ := h
  exact ⟨e, s', Ctl.run_bind_error h⟩

theorem second {a : α} {s' : State} (hm : m s = .ok a s') (h : Ctl.Stops (f a) s') : Ctl.Stops (m >>= f) s := by
  unfold Ctl.Stops
  rw [Ctl.run_bind_ok hm]
  exact h

theorem require {b : Bool} {r : Refusal} {f : Unit → Ctl β} (h : b = true → Ctl.Stops (f ()) s) :
    Ctl.Stops (Sys2Proof.Machine.require b r >>= f) s := by
  cases hb : b with
  | true => exact second (require_true r s) (h hb)
  | false => exact first ⟨_, _, require_false r s⟩

end Ctl.Stops

section Failing

variable {s : State}

/-- A write whose result code is not 0 is refused or raises its error (R142). -/
theorem controlWrite_stops (value index : Word16) (bytes : List Byte) (hc : (answerOf s.plan s.drawNo).code ≠ 0) :
    Ctl.Stops (controlWrite value index bytes) s := by
  refine Ctl.Stops.second (Ctl.run_get s) (.require fun ho => .require fun hstage => ?_)
  cases ht : targetOf value (index &&& ~~~Config.writeFlag) with
  | error stop => exact Ctl.Stops.first ⟨stop, s, target_error ht⟩
  | ok t =>
    refine Ctl.Stops.second (target_ok ht s) ?_
    by_cases hr : reaches t s
    · refine Ctl.Stops.second (access_ok hr) ?_
      simp only [Ctl.Stops, sendWrite, Ctl.run_bind, issue_run, ne_eq, hc, not_false_eq_true, if_true, Ctl.run_modify, raise_run]
      exact ⟨_, _, rfl⟩
    · exact Ctl.Stops.first ⟨_, _, access_closed hr⟩

theorem requireI2c_open (h : s.i2cOpen = true) : requireI2c s = .ok () s := by
  simp only [requireI2c, Ctl.run_bind, Ctl.run_get, h, require_true]

theorem requireI2c_closed (h : s.i2cOpen = false) : requireI2c s = .error (.refused .bridgeClosed) s := by
  simp only [requireI2c, Ctl.run_bind, Ctl.run_get, h, require_false]

theorem requireI2c_stops {α : Type} {f : Unit → Ctl α} (h : Ctl.Stops (f ()) s) : Ctl.Stops (requireI2c >>= f) s := by
  cases hi : s.i2cOpen with
  | true => exact .second (requireI2c_open hi) h
  | false => exact .first ⟨_, _, requireI2c_closed hi⟩

theorem writeMask_stops (t : Triple) (hc : (answerOf s.plan s.drawNo).code ≠ 0) : Ctl.Stops (writeMask t) s := by
  refine requireI2c_stops ?_
  cases shadowIndex t.reg with
  | none => exact ⟨_, _, refuse_run _ s⟩
  | some k =>
    refine .second (Ctl.run_get s) ?_
    cases s.shadow with
    | none => exact ⟨_, _, refuse_run _ s⟩
    | some sh => exact .second (Ctl.run_modify _ s) (requireI2c_stops (controlWrite_stops _ _ _ hc))

end Failing

/-! ## Lists -/

/-- A list goes on with its second part where the first has ended well (R173). -/
theorem writeEach_append {rest : List Triple} {s1 : State} : ∀ {before : List Triple} {s : State},
    writeEach before s = .ok () s1 → writeEach (before ++ rest) s = writeEach rest s1
  | [], s, h => by
    cases hi : s.i2cOpen with
    | true =>
      rw [show writeEach [] s = .ok () s from requireI2c_open hi] at h
      cases h
      rfl
    | false =>
      rw [show writeEach [] s = .error (.refused .bridgeClosed) s from requireI2c_closed hi] at h
      cases h
  | t :: ts, s, h => by
    cases hm : writeMask t s with
    | ok a u =>
      have hrun : ∀ l, writeEach (t :: l) s = writeEach l u := fun l => Ctl.run_bind_ok hm
      rw [List.cons_append, hrun]
      exact writeEach_append ((hrun ts).symm.trans h)
    | error e u =>
      have hstop : writeEach (t :: ts) s = .error e u := Ctl.run_bind_error hm
      rw [hstop] at h
      cases h

/-- Settles O24: `writeEach_ok` where every write succeeds; a failing write ends the list as it ends alone, because
`writeMask_stops`. -/
theorem writeEachRule : Obligations.WriteEachRule := by
  unfold Obligations.WriteEachRule
  refine ⟨fun s h => ?empty, fun list s h ha hs hl => ?all, fun t list s h ha hs hl => ?one,
    fun before t after s s1 hbefore _ hc => ?fails⟩
  case empty => exact runOp_ok (Ctl.run_bind_ok (requireI2c_ok h))
  case all => exact runOp_ok (Ctl.run_bind_ok (writeEach_ok h hl hs ha))
  case one => exact ⟨runOp_ok (Ctl.run_bind_ok (writeMask_ok h hl hs ha)), rfl⟩
  case fails =>
    obtain ⟨e, u, hm⟩ := writeMask_stops t hc
    have heach : writeEach (before ++ t :: after) s = .error e u :=
      (writeEach_append hbefore).trans (Ctl.run_bind_error hm)
    exact runOp_congr ((Ctl.run_bind_error heach).trans (Ctl.run_bind_error hm).symm)

end Sys2Proof.Machine
end

section
/-! PROOFS. O25: the row of the mux table a frequency chooses, and `r820t.set_frequency` as `r820t.set_mux` followed by
`r820t.set_pll` (30_encoding R106, 42_r820t_tuner R179, R180). -/

namespace Sys2Proof.Machine

/-! ## The last entry that meets a condition -/

theorem exists_last_of_getLast?_filter {α : Type} {p : α → Bool} {l : List α} {x : α} (h : (l.filter p).getLast? = some x) :
    ∃ (i : Nat) (hi : i < l.length), l[i] = x ∧ p x = true ∧ ∀ (j : Nat) (hj : j < l.length), i < j → p l[j] = false := by
  rw [List.getLast?_filter, List.find?_eq_some_iff_getElem] at h
  obtain ⟨hp, i, hi, hx, hbefore⟩ := h
  rw [List.length_reverse] at hi
  rw [List.getElem_reverse] at hx
  refine ⟨l.length - 1 - i, by omega, hx, hp, fun j hj hij => ?_⟩
  have hrev := hbefore (l.length - 1 - j) (by omega)
  rw [List.getElem_reverse, Bool.not_eq_true'] at hrev
  simpa only [show l.length - 1 - (l.length - 1 - j) = j by omega] using hrev

theorem forall_false_of_getLast?_filter {α : Type} {p : α → Bool} {l : List α} (h : (l.filter p).getLast? = none) :
    ∀ x ∈ l, p x = false := by
  intro x hx
  have hnil := List.getLast?_eq_none_iff.mp h
  exact Bool.eq_false_iff.mpr (List.filter_eq_nil_iff.mp hnil x hx)

/-! ## The mux table (R106, R179) -/

/-- The threshold of a row, in Hz, is at most the frequency. -/
def muxReaches (freq : Nat) (row : Config.MuxRow) : Bool := decide (row.thresholdMHz * Config.million ≤ freq)

theorem muxRow_eq (rows : Vector Config.MuxRow Config.muxLen) (freq : Nat) :
    muxRow rows freq = ((rows.toList.filter (muxReaches freq)).getLast?).getD rows[0] := rfl

theorem muxReaches_iff {freq : Nat} {row : Config.MuxRow} : muxReaches freq row = true ↔ row.thresholdMHz * 1000000 ≤ freq :=
  decide_eq_true_iff

/-- The row is the last whose threshold is at most the frequency, or the first where there is none. -/
theorem muxRow_cases (rows : Vector Config.MuxRow Config.muxLen) (freq : Nat) :
    (∃ k : Fin 15, muxRow rows freq = rows[k] ∧ (muxRow rows freq).thresholdMHz * 1000000 ≤ freq ∧
      ∀ j : Fin 15, k < j → ¬ rows[j].thresholdMHz * 1000000 ≤ freq) ∨
    (muxRow rows freq = rows[0] ∧ ∀ j : Fin 15, ¬ rows[j].thresholdMHz * 1000000 ≤ freq) := by
  have hlen : rows.toList.length = 15 := Vector.length_toList
  have hget : ∀ j : Fin 15, rows.toList[j.val]'(hlen.symm ▸ j.isLt) = rows[j] := fun j => Vector.getElem_toList _
  have hnot : ∀ {j : Fin 15}, muxReaches freq rows[j] = false → ¬ rows[j].thresholdMHz * 1000000 ≤ freq :=
    fun hj => mt muxReaches_iff.mpr (Bool.eq_false_iff.mp hj)
  rw [muxRow_eq]
  cases hlast : (rows.toList.filter (muxReaches freq)).getLast? with
  | some row =>
    obtain ⟨i, hi, hrow, hreach, hlater⟩ := exists_last_of_getLast?_filter hlast
    refine .inl ⟨⟨i, hlen ▸ hi⟩, hrow.symm.trans (hget ⟨i, hlen ▸ hi⟩), muxReaches_iff.mp hreach, fun j hij => hnot ?_⟩
    exact hget j ▸ hlater j.val (hlen.symm ▸ j.isLt) hij
  | none =>
    refine .inr ⟨rfl, fun j => hnot (forall_false_of_getLast?_filter hlast rows[j] ?_)⟩
    exact hget j ▸ List.getElem_mem _

/-- The table holds the distances of its thresholds less one, so they increase (R106). -/
theorem muxThreshold_lt (gaps : Vector Config.MuxGap Config.muxLen) {j k : Nat} (h : j < k) :
    Config.muxThreshold gaps j < Config.muxThreshold gaps k := by
  have hsum : ((gaps.toList.take (j + 1)).map Config.MuxGap.gap).sum ≤ ((gaps.toList.take (k + 1)).map Config.MuxGap.gap).sum :=
    ((List.take_sublist_take_left (by omega)).map _).sum_le_sum fun _ _ => Nat.zero_le _
  unfold Config.muxThreshold
  omega

theorem muxRows_threshold (gaps : Vector Config.MuxGap Config.muxLen) (k : Fin Config.muxLen) :
    (Config.muxRows gaps)[k].thresholdMHz = Config.muxThreshold gaps k.val := by
  simp only [Config.muxRows, Fin.getElem_fin, Vector.getElem_ofFn]

/-! ## Tuning (R179, R180) -/

/-- A tuner that has not been initialised (R180). -/
theorem setFrequency_notReady {c : Config.Params} {freq : Nat} {s : State} (h : tunerReachable s) (ht : s.tunerReady = false) :
    setFrequency c freq s = .error (.refused .tunerNotReady) s := by
  have hready : requireReady s = .error (.refused .tunerNotReady) s := by
    simp only [requireReady, Ctl.run_bind, requireI2c_ok h, Ctl.run_get, ht, require_false]
  exact Ctl.run_bind_error hready

theorem exec_setPll_ok {freq : Nat} {s t : State} (h : setPll Config.chip freq s = .ok () t) :
    exec (.r820tSetPll freq) s = .next (complete .nothing t) :=
  runOp_ok (Ctl.run_bind_ok h)

/-- Settles O25: the row by `muxRow_cases`, the order by `muxThreshold_lt`, and `setFrequency_ok` next to the two operations it
is made of. -/
theorem muxAndFrequencyRule : Obligations.MuxAndFrequencyRule := by
  unfold Obligations.MuxAndFrequencyRule
  refine ⟨fun freq s h ha hs _ => ?mux, fun j k hjk => ?increases, fun freq s h => ⟨fun ht => ?notReady,
    fun r ht ha hs hx hf hr => ?tunes⟩⟩
  case mux =>
    exact ⟨muxRow Config.chip.r820tMux freq, runOp_ok (Ctl.run_bind_ok (setMux_ok h hs ha)),
      muxRow_cases Config.chip.r820tMux freq⟩
  case increases =>
    exact (muxRows_threshold _ j).trans_lt ((muxThreshold_lt _ hjk).trans_eq (muxRows_threshold _ k).symm)
  case notReady => exact runOp_refused (Ctl.run_bind_error (setFrequency_notReady h ht))
  case tunes =>
    have hk := keeps_afterMasks (muxTriples Config.chip freq) s
    have hpll := setPll_ok (hk.reachable h) (hk.shadowed hs) (hk.succeed ha) (hk.xtalFreq.trans hx) hf hr
    refine ⟨afterMasks (muxTriples Config.chip freq) s, afterPll Config.chip freq r (afterMasks (muxTriples Config.chip freq) s),
      ?_, ?_, ?_⟩
    · exact runOp_ok (Ctl.run_bind_ok (setMux_ok h hs ha))
    · exact exec_setPll_ok hpll
    · exact runOp_ok (Ctl.run_bind_ok (setFrequency_ok h hs ha hx ht hf hr))

end Sys2Proof.Machine
end

section
/-! PROOFS. O26: the words `r820t.set_pll` writes, as the bytes of the integers they are made of, and where it is refused
(30_encoding R114, 42_r820t_tuner R181, R182, R183). -/

namespace Sys2Proof.Machine

/-! ## The divider words as bytes of integers (R114, R182) -/

theorem sdmHigh_eq_ofInt (sdm : Int) : sdmHigh sdm = BitVec.ofInt 8 (Int.fdiv sdm 256) := by
  apply BitVec.eq_of_toNat_eq
  rw [sdmHigh, BitVec.toNat_ofNat, BitVec.toNat_ofInt, Int.fdiv_eq_ediv_of_nonneg _ (by decide)]
  omega

theorem sdmLow_eq_ofInt (sdm : Int) : sdmLow sdm = BitVec.ofInt 8 sdm := by
  apply BitVec.eq_of_toNat_eq
  rw [sdmLow, BitVec.toNat_ofNat, BitVec.toNat_ofInt]
  omega

/-- An integer part from 13 to 63 has its quotient in 0 to 12 and its remainder in 0 to 3. -/
theorem nintParts_range {nint ni si : Int} (h13 : 13 ≤ nint) (h63 : nint ≤ 63) (hni : ni = Int.fdiv (nint - 13) 4)
    (hsi : si = nint - 4 * ni - 13) : 0 ≤ ni ∧ ni ≤ 12 ∧ 0 ≤ si ∧ si ≤ 3 := by
  rw [Int.fdiv_eq_ediv_of_nonneg _ (by decide)] at hni
  omega

theorem nintWord_eq_ofInt {nint ni si : Int} (h13 : 13 ≤ nint) (h63 : nint ≤ 63) (hni : ni = Int.fdiv (nint - 13) 4)
    (hsi : si = nint - 4 * ni - 13) : nintWord nint = BitVec.ofInt 8 (ni + 64 * si) := by
  obtain ⟨n, hn⟩ := Int.eq_ofNat_of_zero_le (Int.sub_nonneg.mpr h13)
  obtain rfl : nint = (n : Int) + 13 := by omega
  rw [Int.fdiv_eq_ediv_of_nonneg _ (by decide)] at hni
  obtain rfl : ni = (n / 4 : Nat) := by omega
  obtain rfl : si = (n % 4 : Nat) := by omega
  apply BitVec.eq_of_toNat_eq
  rw [nintWord_toNat (by omega), BitVec.toNat_ofInt]
  omega

/-- The three writes of the divider words (R182). -/
theorem afterMasks_dividers {nint sdm ni si : Int} (h13 : 13 ≤ nint) (h63 : nint ≤ 63) (hni : ni = Int.fdiv (nint - 13) 4)
    (hsi : si = nint - 4 * ni - 13) (s : State) :
    afterMasks (dividerTriples nint sdm) s =
      afterMask ⟨0x15, BitVec.ofInt 8 sdm, 0xFF⟩ (afterMask ⟨0x16, BitVec.ofInt 8 (Int.fdiv sdm 256), 0xFF⟩
        (afterMask ⟨0x14, BitVec.ofInt 8 (ni + 64 * si), 0xFF⟩ s)) := by
  rw [← nintWord_eq_ofInt h13 h63 hni hsi, ← sdmHigh_eq_ofInt, ← sdmLow_eq_ofInt]
  rfl

/-- The quotients of the PLL, for a reference that is not 0 (R181, R182). -/
theorem pllDividers_eq {freq divNum : Nat} {r vcoFreq nint : Int} (hr : r ≠ 0)
    (hvco : vcoFreq = (freq : Int) * 2 ^ (divNum + 1)) (hnint : nint = Int.fdiv vcoFreq (2 * r)) :
    pllDividers freq divNum r =
      (nint, min 65535 (Int.fdiv (32768 * Int.fdiv (vcoFreq - 2 * r * nint) 1000 * 1000) r)) := by
  subst hnint hvco
  exact if_neg hr

/-! ## `r820t.set_pll` step by step (R181) -/

section Pll

variable (c : Config.Params) (freq : Nat) (r : Int) (s : State)

/-- The state in which `r820t.set_pll` has written the divider (R181). -/
def pllDivided : State := afterMask (vcoTriple (pllDivider c freq s).toNat) (afterStatus (pllStart c s))

theorem afterPll_noLock (h : 63 < (pllWords c freq r s).1) : afterPll c freq r s = (pllDivided c freq s).setLock false :=
  if_pos h

theorem afterPll_polls (h : (pllWords c freq r s).1 ≤ 63) : afterPll c freq r s =
    afterPoll c true (afterMasks (dividerTriples (pllWords c freq r s).1 (pllWords c freq r s).2) (pllDivided c freq s)) :=
  if_neg (Int.not_lt.mpr h)

variable {c freq r s}
variable (h : tunerReachable s) (hs : s.shadow.isSome = true) (ha : allSucceed s) (hx : s.xtalFreq = some r) (hf : 0 < freq)

include h hs ha hx hf

/-- What comes before the divider: the reference, the table and the status read. -/
theorem setPll_reads : setPll c freq s =
    (pllExponent c freq (statusOf (pllStart c s)) >>= fun divNum => writeMask (vcoTriple divNum) >>= fun _ =>
      setDividers c (pllDividers freq divNum r).1 (pllDividers freq divNum r).2) (afterStatus (pllStart c s)) := by
  have ⟨_, hi2c, _⟩ := h
  have hstart := keeps_pllStart c s
  unfold setPll
  rw [Ctl.run_bind_ok (pllReference_ok hi2c hx hf), Ctl.run_bind_ok (writeTable_ok h hs ha)]
  exact Ctl.run_bind_ok (tunerRead_status (hstart.reachable h) (hstart.succeed ha))

/-- A divider outside its 3-bit field (R181, G17). -/
theorem setPll_dividerRange (hd : pllDivider c freq s < 0 ∨ 7 < pllDivider c freq s) :
    ∃ u, setPll c freq s = .error (.refused (.dividerRange (pllDivider c freq s))) u := by
  have hfield : (decide (0 ≤ pllDivider c freq s) && decide (pllDivider c freq s ≤ Config.divNumMax)) = false := by
    have hmax : Config.divNumMax = 7 := rfl
    rw [Bool.and_eq_false_iff, decide_eq_false_iff_not, decide_eq_false_iff_not]
    omega
  have hexponent : pllExponent c freq (statusOf (pllStart c s)) (afterStatus (pllStart c s)) =
      .error (.refused (.dividerRange (pllDivider c freq s))) (afterStatus (pllStart c s)) :=
    Ctl.run_bind_error (by rw [← pllDivider, hfield, require_false])
  exact ⟨_, (setPll_reads h hs ha hx hf).trans (Ctl.run_bind_error hexponent)⟩

/-- An integer part below the least of the packing (R114, R181, G17). -/
theorem setPll_nintRange (h0 : 0 ≤ pllDivider c freq s) (h7 : pllDivider c freq s ≤ 7) (hn : (pllWords c freq r s).1 < 13) :
    ∃ u, setPll c freq s = .error (.refused (.nintRange (pllWords c freq r s).1)) u := by
  have hread := (keeps_pllStart c s).trans (keeps_afterStatus (pllStart c s))
  have hmask : writeMask (vcoTriple (pllDivider c freq s).toNat) (afterStatus (pllStart c s)) = .ok () (pllDivided c freq s) :=
    writeMask_ok (hread.reachable h) (legal_reg _ _ (by decide)) (hread.shadowed hs) (hread.succeed ha)
  have hdividers : setDividers c (pllWords c freq r s).1 (pllWords c freq r s).2 (pllDivided c freq s) =
      .error (.refused (.nintRange (pllWords c freq r s).1)) (pllDivided c freq s) := by
    have hmax : ¬ Config.nintMax < (pllWords c freq r s).1 := Int.not_lt.mpr (Int.le_of_lt (hn.trans (by decide)))
    have hmin : decide (Config.nintMin ≤ (pllWords c freq r s).1) = false := decide_eq_false (Int.not_le.mpr hn)
    rw [setDividers, if_neg hmax, hmin]
    rfl
  exact ⟨_, (setPll_reads h hs ha hx hf).trans ((Ctl.run_bind_ok (pllExponent_ok h0 h7)).trans
    ((Ctl.run_bind_ok hmask).trans hdividers))⟩

end Pll

/-- Settles O26: `setPll_ok` where the operands are in range, with the divider words as integers by `afterMasks_dividers`; the
quotients by `pllDividers_eq`; the refusals by how far `setPll` comes. -/
theorem setPllRule : Obligations.SetPllRule := by
  unfold Obligations.SetPllRule
  refine fun freq r s h ha hs hx hf => ⟨fun hr => ⟨?completes, fun h63 => ?noLock, ?words⟩, ?quotients, fun hd => ?divider,
    fun h0 h7 hn => ?integer⟩
  case completes => exact exec_setPll_ok (setPll_ok h hs ha hx hf hr)
  case noLock =>
    rw [afterPll_noLock _ _ _ _ h63]
    exact ⟨rfl, rfl⟩
  case words =>
    rintro nint sdm ni si hw h63 hni hsi
    obtain ⟨-, -, h13⟩ := hr
    rw [hw] at h13
    obtain ⟨hni0, hni12, hsi0, hsi3⟩ := nintParts_range h13 h63 hni hsi
    refine ⟨hni0, hni12, hsi0, hsi3, ?_⟩
    rintro _ _ _ _ rfl rfl rfl rfl
    rw [afterPll_polls _ _ _ _ (by rw [hw]; exact h63), hw, afterMasks_dividers h13 h63 hni hsi]
    rfl
  case quotients => exact fun hr vcoFreq nint hvco hnint => pllDividers_eq hr hvco hnint
  case divider =>
    obtain ⟨u, hpll⟩ := setPll_dividerRange h hs ha hx hf hd
    exact runOp_refused (Ctl.run_bind_error hpll)
  case integer =>
    obtain ⟨u, hpll⟩ := setPll_nintRange h hs ha hx hf h0 h7 hn
    exact runOp_refused (Ctl.run_bind_error hpll)

end Sys2Proof.Machine
end

section
/-! PROOFS. O27: the three ends of the lock poll (42_r820t_tuner R183). -/

namespace Sys2Proof.Machine

section Poll

variable {c : Config.Params} {firstTry : Bool} {s : State}

theorem afterPoll_locked (h : lockBit (statusOf s) = true) : afterPoll c firstTry s = (afterStatus s).setLock true :=
  if_pos h

theorem afterPoll_notLocked (h : lockBit (statusOf s) = false) :
    afterPoll c false s = (afterStatus s).setLock false := by
  simp only [afterPoll, h, Bool.false_eq_true, if_false]

/-- On a first try the charge pump is bumped between two polls. -/
theorem afterPoll_bumped (h : lockBit (statusOf s) = false) :
    afterPoll c true s = (afterStatus (afterMask (bumpTriple c) (afterStatus s))).setLock
      (lockBit (statusOf (afterMask (bumpTriple c) (afterStatus s)))) := by
  simp only [afterPoll, h, Bool.false_eq_true, if_false, if_true]

end Poll

/-- Settles O27: `getPllLock_ok`, with `afterPoll` by the LOCK bit and the try; the bump is 3 << 5 by the chip's default. -/
theorem lockPollRule : Obligations.LockPollRule := by
  unfold Obligations.LockPollRule
  refine fun firstTry s h ha hs => ⟨?completes, fun hlock => afterPoll_locked hlock, ?notLocked, ?bumped⟩
  case completes => exact runOp_ok (Ctl.run_bind_ok (getPllLock_ok h hs ha))
  case notLocked =>
    rintro hlock rfl
    exact afterPoll_notLocked hlock
  case bumped =>
    rintro hlock rfl _ rfl
    exact afterPoll_bumped hlock

end Sys2Proof.Machine
end

section
/-! PROOFS. O28: a calibration accepts the code of its first or of its second run, or ends where a run's PLL does not lock
(42_r820t_tuner R178, 60_exceptions R304). -/

namespace Sys2Proof.Machine

/-- The error of a calibration without a lock (R304). -/
def calibrationError : Err := { kind := .pllNotLocked, info := .pll .calibration 56000000 }

theorem afterMask_filterCap (t : Triple) (s : State) : (afterMask t s).filterCap = s.filterCap := by
  unfold afterMask
  split <;> rfl

theorem afterMasks_filterCap : ∀ (l : List Triple) (s : State), (afterMasks l s).filterCap = s.filterCap
  | [], _ => rfl
  | t :: ts, s => (afterMasks_filterCap ts (afterMask t s)).trans (afterMask_filterCap t s)

section Calibration

variable {c : Config.Params} {r : Int} {first : Bool} {s : State}

/-! ## The code accepted -/

theorem afterFilterCap_eq {sh : Vector Byte Config.shadowLen} (hsh : s.shadow = some sh) (cap : BitVec Config.filCalWidth) :
    afterFilterCap cap s =
      afterMask ⟨0x0A, (sh[0x0A - 0x05] &&& 0x0F) ||| cap.setWidth 8, 0x0F⟩ { s with filterCap := some cap } := by
  have haccept : afterFilterCap cap s = afterMask (filterTriple sh cap) (s.setFilterCap cap) := by
    simp only [afterFilterCap, hsh]
  exact haccept

theorem afterFilterCap_filterCap (hs : s.shadow.isSome = true) (cap : BitVec Config.filCalWidth) :
    (afterFilterCap cap s).filterCap = some cap := by
  obtain ⟨sh, hsh⟩ := Option.isSome_iff_exists.mp hs
  rw [afterFilterCap_eq hsh, afterMask_filterCap]

theorem calRetries_iff : calRetries c r first s = true ↔ calCode c r s ≠ 0 ∧ first = true := by
  rw [calRetries, Bool.and_eq_true, bne_iff_ne]

/-- A code of 0, or of a later attempt, is accepted at once. -/
theorem afterCalibration_once (h : ¬ (calCode c r s ≠ 0 ∧ first = true)) :
    afterCalibration c r first s = afterFilterCap (calCode c r s) (afterCalRun c r s) :=
  if_neg (mt calRetries_iff.mp h)

/-- A first attempt's code that is not 0 is replaced by that of a second run. -/
theorem afterCalibration_twice (h : calCode c r s ≠ 0 ∧ first = true) :
    afterCalibration c r first s =
      afterFilterCap (calCode c r (afterCalRun c r s)) (afterCalRun c r (afterCalRun c r s)) :=
  if_pos (calRetries_iff.mpr h)

/-- A calibration that completes ends with a filter code set. -/
theorem afterCalibration_filterCap (hs : s.shadow.isSome = true) :
    (afterCalibration c r first s).filterCap.isSome = true := by
  have hrun := keeps_afterCalRun c r s
  by_cases hp : calCode c r s ≠ 0 ∧ first = true
  · rw [afterCalibration_twice hp, afterFilterCap_filterCap ((hrun.trans (keeps_afterCalRun c r _)).shadowed hs)]
    rfl
  · rw [afterCalibration_once hp, afterFilterCap_filterCap (hrun.shadowed hs)]
    rfl

/-! ## A run without a lock -/

section NotLocked

variable (h : tunerReachable s) (hs : s.shadow.isSome = true) (ha : allSucceed s) (hx : s.xtalFreq = some r)

include h hs ha hx

/-- The run ends behind its PLL setting. -/
theorem calibrateOnce_notLocked (hr : pllInRange c 56000000 r (calStart c s))
    (hlock : (afterPll c 56000000 r (calStart c s)).hasPllLock = false) :
    calibrateOnce c s = .error (.raised calibrationError) (afterPll c 56000000 r (calStart c s)) := by
  have hk := keeps_calStart c s
  have hpll := setPll_ok (hk.reachable h) (hk.shadowed hs) (hk.succeed ha) (hk.xtalFreq.trans hx) (by decide) hr
  have hstop : calibrationLocked (afterPll c 56000000 r (calStart c s)) =
      .error (.raised calibrationError) (afterPll c 56000000 r (calStart c s)) := by
    simp only [calibrationLocked, Ctl.run_bind, Ctl.run_get, hlock, Bool.false_eq_true, if_false, raise_run]
    rfl
  exact (Ctl.run_bind_ok (writeTable_ok h hs ha)).trans ((Ctl.run_bind_ok hpll).trans (Ctl.run_bind_error hstop))

theorem calibrateFilter_notLocked (hr : pllInRange c 56000000 r (calStart c s))
    (hlock : (afterPll c 56000000 r (calStart c s)).hasPllLock = false) :
    calibrateFilter c first s = .error (.raised calibrationError) (afterPll c 56000000 r (calStart c s)) :=
  (Ctl.run_bind_ok (requireI2c_ok h)).trans (Ctl.run_bind_error (calibrateOnce_notLocked h hs ha hx hr hlock))

/-- The same in the second run, from the state the first leaves. -/
theorem calibrateFilter_notLocked_again (hruns : calRuns c r s) (hp : calCode c r s ≠ 0 ∧ first = true)
    (hr : pllInRange c 56000000 r (calStart c (afterCalRun c r s)))
    (hlock : (afterPll c 56000000 r (calStart c (afterCalRun c r s))).hasPllLock = false) :
    calibrateFilter c first s =
      .error (.raised calibrationError) (afterPll c 56000000 r (calStart c (afterCalRun c r s))) := by
  have hk := keeps_afterCalRun c r s
  have hagain := calibrateOnce_notLocked (hk.reachable h) (hk.shadowed hs) (hk.succeed ha) (hk.xtalFreq.trans hx) hr hlock
  unfold calibrateFilter
  rw [Ctl.run_bind_ok (requireI2c_ok h), Ctl.run_bind_ok (calibrateOnce_ok h hs ha hx hruns), if_pos hp]
  exact Ctl.run_bind_error hagain

end NotLocked

end Calibration

/-- Settles O28: `calibrateFilter_ok` where each run locks, the code by whether there is a second run, and the error of the run
that does not lock. -/
theorem calibrationRule : Obligations.CalibrationRule := by
  unfold Obligations.CalibrationRule
  refine fun first r s h ha hs hx => ⟨fun hc => ⟨?completes, ?code⟩, fun hr hlock => ?notLocked, ?notLockedAgain,
    fun u => rfl⟩
  case completes => exact runOp_ok (Ctl.run_bind_ok (calibrateFilter_ok h hs ha hx hc))
  case code =>
    have hrun := keeps_afterCalRun Config.chip r s
    by_cases hp : calCode Config.chip r s ≠ 0 ∧ first = true
    · have hshadow := (hrun.trans (keeps_afterCalRun Config.chip r _)).shadowed hs
      obtain ⟨sh, hsh⟩ := Option.isSome_iff_exists.mp hshadow
      rw [afterCalibration_twice hp]
      exact ⟨_, _, sh, hsh, afterFilterCap_eq hsh _, afterFilterCap_filterCap hshadow _,
        fun hone => absurd hp (not_and_or.mpr (hone.imp not_not.mpr (Bool.not_eq_true _).mpr)), fun _ _ => ⟨rfl, rfl⟩⟩
    · obtain ⟨sh, hsh⟩ := Option.isSome_iff_exists.mp (hrun.shadowed hs)
      rw [afterCalibration_once hp]
      exact ⟨_, _, sh, hsh, afterFilterCap_eq hsh _, afterFilterCap_filterCap (hrun.shadowed hs) _, fun _ => ⟨rfl, rfl⟩,
        fun hne hfirst => absurd ⟨hne, hfirst⟩ hp⟩
  case notLocked => exact runOp_raised (Ctl.run_bind_error (calibrateFilter_notLocked h hs ha hx hr hlock))
  case notLockedAgain =>
    rintro _ rfl hruns hne hfirst hr hlock
    exact runOp_raised (Ctl.run_bind_error (calibrateFilter_notLocked_again h hs ha hx hruns ⟨hne, hfirst⟩ hr hlock))

end Sys2Proof.Machine
end

section
/-! PROOFS. O29: `r820t.init` writes the defaults in one stage, then runs its tables around the calibration (10_state R35,
42_r820t_tuner R174). -/

namespace Sys2Proof.Machine

theorem initStart_eq (c : Config.Params) (s : State) :
    initStart c s = afterMasks (triplesOf c.r820tInitElec) (afterDefaults c s) := rfl

/-- The defaults go out in one data stage from register 0x05 on (R174). -/
theorem afterDefaults_trace (c : Config.Params) (s : State) : (afterDefaults c s).trace =
    s.trace ++ [.control (setupPacket 0x40 0x0034 0x0610 28) (0x05 :: c.r820tDefaults.toList)] := by
  rw [afterDefaults, afterTunerWrite_trace, Vector.length_toList]
  rfl

theorem afterDefaults_mem (c : Config.Params) (s : State) (k : Fin 27) :
    (afterDefaults c s).mem.get (tunerAddr (0x05 + k.val)) = some c.r820tDefaults[k] :=
  mirrors_afterDefaults c s c.r820tDefaults rfl k

/-- Settles O29: `tunerInit_ok`; what the first step leaves is `afterDefaults`, and the filter code is the calibration's. -/
theorem tunerInitRule : Obligations.TunerInitRule := by
  unfold Obligations.TunerInitRule
  rintro r s _ h ha hx rfl hc
  have hcal := keeps_afterCalibration Config.chip r true (initStart Config.chip s)
  have hstart := initStart_shadowed Config.chip s
  refine ⟨?completes, rfl, ?device, ?wire, rfl, ?code, ?shadow⟩
  case completes => exact runOp_ok (Ctl.run_bind_ok (tunerInit_ok h ha hx hc))
  case device => exact afterDefaults_mem Config.chip s
  case wire => exact afterDefaults_trace Config.chip s
  case code =>
    rw [afterInit, State.setReady_filterCap, afterMasks_filterCap]
    exact afterCalibration_filterCap hstart
  case shadow => exact (hcal.trans (keeps_afterMasks _ _)).shadowed hstart

end Sys2Proof.Machine
end

section
/-! PROOFS. O30: gain and power-down are one table each (30_encoding R116, 42_r820t_tuner R184 to R186). -/

namespace Sys2Proof.Machine

/-- A table of the tuner that is written where every transfer succeeds, as the operation that writes nothing else. -/
theorem runOp_writeTable_ok {l : List Config.TableTriple} {s : State} (h : tunerReachable s) (hs : s.shadow.isSome = true)
    (ha : allSucceed s) :
    runOp (writeTable l >>= fun _ => pure .nothing) s = .next (complete .nothing (afterMasks (triplesOf l) s)) :=
  runOp_ok (Ctl.run_bind_ok (writeTable_ok h hs ha))

/-- The step of a gain, clamped to 0 to 28, is shared out between LNA and mixer (R116, R184). -/
theorem manualGainTable_eq (c : Config.Params) (dB : Rat) {step : Nat} (h : (step : Int) = max 0 (min 28 (c.gainStep dB))) :
    manualGainTable c dB = c.gainRegs ((step + 1) / 2) (step / 2) := by
  have hstep : clampGainStep (c.gainStep dB) = step := by
    have hmax : Config.gainStepMax = 28 := rfl
    rw [clampGainStep, hmax, ← h, Int.toNat_natCast]
  simp only [manualGainTable, hstep]
  rfl

/-- Settles O30: each operation is `writeTable` of its table; power-down then clears the ready flag. -/
theorem gainAndPowerDownRule : Obligations.GainAndPowerDownRule := by
  unfold Obligations.GainAndPowerDownRule
  refine fun dB s h ha hs => ⟨fun step hstep => ?manual, runOp_writeTable_ok h hs ha, ?close, ?length⟩
  case manual =>
    rw [← manualGainTable_eq Config.chip dB hstep]
    exact runOp_writeTable_ok h hs ha
  case close =>
    have hclose : tunerClose Config.chip s =
        .ok () ((afterMasks (triplesOf Config.chip.r820tPowerdown.toList) s).setReady false) :=
      Ctl.run_bind_ok (writeTable_ok h hs ha)
    exact runOp_ok (Ctl.run_bind_ok hclose)
  case length =>
    rw [triplesOf, List.length_map, Vector.length_toList]

end Sys2Proof.Machine
end

section
/-! PROOFS. An operation of the host by the table of R306: where it is allowed it is its program, elsewhere `InvalidState`; and
O33 (43_rtl2832u_demod R201, 60_exceptions R306). -/

namespace Sys2Proof.Machine

section Host

variable {op : HostOp} {m : Ctl Result} {s : State}

theorem runHostOp_allowed (ha : op.allowed s = true) : runHostOp op m s = runOp m s := if_pos ha

theorem runHostOp_invalid (ha : op.allowed s = false) : runHostOp op m s = .next (takeError (invalidState op) s) :=
  if_neg (Bool.eq_false_iff.mp ha)

theorem runHostOp_ok {r : Result} {u : State} (ha : op.allowed s = true) (h : m s = .ok r u) :
    runHostOp op m s = .next (complete r u) :=
  (runHostOp_allowed ha).trans (runOp_ok h)

theorem runHostOp_raised {e : Err} {u : State} (ha : op.allowed s = true) (h : m s = .error (.raised e) u) :
    runHostOp op m s = .next (takeError e u) :=
  (runHostOp_allowed ha).trans (runOp_raised h)

theorem runHostOp_refused {r : Refusal} {u : State} (ha : op.allowed s = true) (h : m s = .error (.refused r) u) :
    runHostOp op m s = .refused r :=
  (runHostOp_allowed ha).trans (runOp_refused h)

/-- An operation that is not allowed is ignored: only its `InvalidState` is delivered (R306). -/
theorem invalidState_onlyDelivered (op : HostOp) (s : State) :
    onlyDelivered { kind := .invalidState, info := .operation op, pos := none } s (takeError (invalidState op) s) :=
  takeError_onlyDelivered (e := invalidState op) rfl s

end Host

/-- Settles O33: with no device open `rtl.new` is allowed and stores its operands; with one open it is `InvalidState`. -/
theorem rtlNewRule : Obligations.RtlNewRule := by
  unfold Obligations.RtlNewRule
  refine fun handle ppm gain s => ⟨fun ho => ?new, fun ho => ?invalid⟩
  case new =>
    have hallowed : HostOp.rtlNew.allowed s = true := by rw [HostOp.allowed, ho]; rfl
    exact runHostOp_ok hallowed rfl
  case invalid =>
    have hallowed : HostOp.rtlNew.allowed s = false := by rw [HostOp.allowed, ho]; rfl
    exact ⟨_, runHostOp_invalid hallowed, invalidState_onlyDelivered .rtlNew s⟩

end Sys2Proof.Machine
end

section
/-! PROOFS. O35: the ratio, the PPM offset and the demodulator reset are writes of DEMOD page 1; each of the named registers keeps
the byte written to it, because the later writes go elsewhere (30_encoding R111, R113, 43_rtl2832u_demod R205 to R208). -/

namespace Sys2Proof.Machine

/-! ## What keeps the block -/

theorem keepsBlock_atPos (p : SeqPos) (s : State) : keepsBlock s (s.atPos p) := by simp [keepsBlock, sameData]

theorem keepsBlock_complete (r : Result) (s : State) : keepsBlock s (complete r s) := by simp [keepsBlock, sameData]

theorem keepsBlock_afterRegWrite (block reg : Word16) (value len : Nat) (s : State) :
    keepsBlock s (afterRegWrite block reg value len s) := keepsBlock_afterWrite _ _ _ _ s

theorem keepsBlock_afterDemodWrite (page1 : Bool) (addr : Byte) (value len : Nat) (s : State) :
    keepsBlock s (afterDemodWrite page1 addr value len s) := keepsBlock_afterWrite _ _ _ _ s

theorem keepsBlock_afterDemodWrites : ∀ (l : List Config.DemodWrite) (s : State), keepsBlock s (afterDemodWrites l s)
  | [], s => keepsBlock.refl s
  | _ :: ws, s => (keepsBlock_afterDemodWrite _ _ _ _ s).trans (keepsBlock_afterDemodWrites ws _)

theorem keepsBlock_afterPpmOffset (c : Config.Params) (ppm : Int) (s : State) : keepsBlock s (afterPpmOffset c ppm s) :=
  (keepsBlock_afterDemodWrite _ _ _ _ s).trans (keepsBlock_afterDemodWrite _ _ _ _ _)

/-- Two states that agree on the block do so with a new rate recorded in both (R206). -/
theorem keepsBlock.setRated {s t : State} (h : keepsBlock s t) (actual : Nat) :
    keepsBlock (s.setRated actual) (t.setRated actual) := by
  obtain ⟨opened, claimed, -, tunerReady, hasPllLock, fault, reads, running, todo, handle, ppm, gain, xtalFreq, filterCap, -,
    shadow, others⟩ := h
  exact ⟨opened, claimed, rfl, tunerReady, hasPllLock, fault, reads, running, todo, handle, ppm, gain, xtalFreq, filterCap, rfl,
    shadow, others⟩

/-! ## The byte of a DEMOD register -/

section Written

variable {page1 : Bool} {addr : Byte} {value a : Nat} {s : State}

/-- A one-byte write of a DEMOD register stores its byte and no other (R73). -/
theorem mem_afterDemodByte : (afterDemodWrite page1 addr value Config.demodRegLen.bytes s).mem =
    s.mem.put (cellAddr (pageIndex page1) addr.toNat) (BitVec.ofNat 8 value) := by
  rw [afterDemodWrite, demodWindow, beBytes_byte]
  exact afterWrite_byte_mem _ _ _ (demod_room addr) s

theorem get_afterDemodByte_same :
    (afterDemodWrite page1 addr value Config.demodRegLen.bytes s).mem.get (cellAddr (pageIndex page1) addr.toNat) =
      some (BitVec.ofNat 8 value) := by
  rw [mem_afterDemodByte]
  exact Mem.get_put_same _ _ _

theorem get_afterDemodByte_other (h : a ≠ cellAddr (pageIndex page1) addr.toNat) :
    (afterDemodWrite page1 addr value Config.demodRegLen.bytes s).mem.get a = s.mem.get a := by
  rw [mem_afterDemodByte]
  exact Mem.get_put_other _ h _

end Written

theorem byte_mod (n : Nat) : BitVec.ofNat 8 (n % 256) = BitVec.ofNat 8 n :=
  BitVec.eq_of_toNat_eq (by rw [BitVec.toNat_ofNat, BitVec.toNat_ofNat, Nat.mod_mod])

/-- The PPM offset's high byte is written whole, by the decided default of its mask (R207). -/
theorem ppmOffHi_byte (ppm : Int) : BitVec.ofNat 8 (ppmOffsetWord ppm / 256 &&& Config.chip.ppmOffTopMask) =
    BitVec.ofNat 8 ((-Int.fdiv (ppm * 2 ^ 24) 1000000 % 2 ^ 16).toNat / 256) := by
  have hmask : Config.chip.ppmOffTopMask = 2 ^ 8 - 1 := rfl
  rw [hmask, Nat.and_two_pow_sub_one_eq_mod]
  exact byte_mod _

theorem ppmOffLo_byte (ppm : Int) : BitVec.ofNat 8 (ppmOffsetWord ppm % 256) =
    BitVec.ofNat 8 ((-Int.fdiv (ppm * 2 ^ 24) 1000000 % 2 ^ 16).toNat) := byte_mod _

section Rate

variable {c : Config.Params} {ppm : Int} {rate : Nat} {s : State}

/-- The PPM offset lies in registers 0x3E and 0x3F, and the demodulator reset ends with 0x10 in register 0x01 (R207, R208). -/
theorem afterSampleRate_mem :
    (afterSampleRate c ppm rate s).mem.get (cellAddr 1 0x3E) =
        some (BitVec.ofNat 8 (ppmOffsetWord ppm / 256 &&& c.ppmOffTopMask)) ∧
      (afterSampleRate c ppm rate s).mem.get (cellAddr 1 0x3F) = some (BitVec.ofNat 8 (ppmOffsetWord ppm % 256)) ∧
      (afterSampleRate c ppm rate s).mem.get (cellAddr 1 0x01) = some 0x10 := by
  simp only [afterSampleRate, afterDemodReset, afterPpmOffset, State.atPos_mem, State.setActualRate_mem, State.setI2cOpen_mem]
  refine ⟨?high, ?low, get_afterDemodByte_same⟩
  case high =>
    rw [get_afterDemodByte_other (by decide), get_afterDemodByte_other (by decide), get_afterDemodByte_other (by decide)]
    exact get_afterDemodByte_same
  case low =>
    rw [get_afterDemodByte_other (by decide), get_afterDemodByte_other (by decide)]
    exact get_afterDemodByte_same

theorem afterSampleRate_bridge : (afterSampleRate c ppm rate s).bridge = .blocked := by
  simp only [afterSampleRate, afterDemodReset, State.atPos_bridge, State.setActualRate_bridge, State.setI2cOpen_bridge]
  exact (bridge_afterBridgeWrite _ _).trans (by decide)

/-- Besides the record of the bridge and the actual rate the block is kept. -/
theorem keepsBlock_afterSampleRate :
    keepsBlock (s.setRated (actualRateOf (resamplingRatio rate))) (afterSampleRate c ppm rate s) := by
  have hkeeps := (keepsBlock_atPos { op := .setSampleRate, step := 0 } s).trans <|
    (keepsBlock_afterDemodWrites (ratioTable c (resamplingRatio rate)) _).trans <|
    (keepsBlock_afterPpmOffset c ppm _).trans <|
    (keepsBlock_afterDemodWrite Config.namedPage Config.regBridge Config.demodResetSet Config.demodRegLen.bytes _).trans <|
    keepsBlock_afterDemodWrite Config.namedPage Config.regBridge Config.demodResetClear Config.demodRegLen.bytes _
  exact (hkeeps.setRated (actualRateOf (resamplingRatio rate))).trans (keepsBlock_atPos SeqPos.rest _)

theorem rateRatio_tooHigh (hr : 0 < rate) (h0 : resamplingRatio rate = 0) :
    rateRatio rate s = .error (.refused (.rateTooHigh rate)) s := by
  simp only [rateRatio, Ctl.run_bind, require_ok (decide_eq_true hr), h0, bne_self_eq_false, require_false]

/-- A ratio has 28 bits, of which the last two are 0 (R205). -/
theorem resamplingRatio_bounds : resamplingRatio rate < 2 ^ 28 ∧ resamplingRatio rate % 4 = 0 := by
  unfold resamplingRatio
  refine ⟨Nat.and_lt_two_pow _ (by decide), ?_⟩
  have hlow : Config.ratioMask % 2 ^ 2 = 0 := rfl
  rw [show (4 : Nat) = 2 ^ 2 from rfl, Nat.and_mod_two_pow, hlow, Nat.and_zero]

end Rate

/-- Settles O35: `rtlSetSampleRate_ok`, with what the writes leave by `afterSampleRate_mem` and `keepsBlock_afterSampleRate`; a
ratio of 0 is refused by `rateRatio`. -/
theorem setSampleRateRule : Obligations.SetSampleRateRule := by
  unfold Obligations.SetSampleRateRule
  refine fun rate ppm s hallowed ho ha hp hr => ⟨fun h0 => ?tooHigh, ?completes⟩
  case tooHigh =>
    exact runHostOp_refused hallowed
      (Ctl.run_bind_error ((Ctl.run_bind_ok (seqAt_run _ _ s)).trans (Ctl.run_bind_error (rateRatio_tooHigh hr h0))))
  case completes =>
    rintro _ rfl h0
    obtain ⟨hlt, hmod⟩ := resamplingRatio_bounds (rate := rate)
    obtain ⟨hhigh, hlow, hbridge⟩ := afterSampleRate_mem (c := Config.chip) (ppm := ppm) (rate := rate) (s := s)
    obtain ⟨-, hclaimed, hi2c, hready, hlock, hfault, -, -, -, -, -, -, hxtal, -, hrate, hshadow, -⟩ :=
      keepsBlock_afterSampleRate (c := Config.chip) (ppm := ppm) (rate := rate) (s := s)
    exact ⟨_, runHostOp_ok hallowed (Ctl.run_bind_ok (rtlSetSampleRate_ok ho ha hp hr h0)), rfl, hrate, hi2c,
      (complete_bridge _ _).trans afterSampleRate_bridge, rfl, hlt, hmod, hhigh.trans (congrArg some (ppmOffHi_byte ppm)),
      hlow.trans (congrArg some (ppmOffLo_byte ppm)), hbridge, hclaimed, hready, hlock, hfault, hshadow, hxtal⟩

end Sys2Proof.Machine
end

section
/-! PROOFS. O36: the bridge is closed after the tuning, whether or not the PLL has locked (43_rtl2832u_demod R209, 60_exceptions
R304). -/

namespace Sys2Proof.Machine

theorem tunerReady_of_allowed {s : State} (h : HostOp.rtlSetCenterFrequency.allowed s = true) : s.tunerReady = true := by
  simp only [HostOp.allowed, Bool.and_eq_true] at h
  obtain ⟨⟨hready, -⟩, -⟩ := h
  exact hready

/-- Settles O36: `setCenter_ok` by whether the tune has locked. -/
theorem setCenterFrequencyRule : Obligations.SetCenterFrequencyRule := by
  unfold Obligations.SetCenterFrequencyRule
  intro hz r s hallowed ho ha hs hx hz0 hr
  have hrun := setCenter_ok ho hs ha hx (tunerReady_of_allowed hallowed) hz0 hr
  refine ⟨rfl, afterCloseI2c_bridge _, fun hlock => ?locks, fun hlock => ?fails⟩
  case locks =>
    rw [if_pos hlock] at hrun
    exact runHostOp_ok hallowed (Ctl.run_bind_ok hrun)
  case fails =>
    rw [if_neg (Bool.eq_false_iff.mp hlock)] at hrun
    exact runHostOp_raised hallowed (Ctl.run_bind_error hrun)

end Sys2Proof.Machine
end

section
/-! PROOFS. O37: the two writes of EPA_CTL are the FIFO reset of R84, which begins a new epoch of the stream (20_memory R84, R90,
43_rtl2832u_demod R210). -/

namespace Sys2Proof.Machine

section Epa

variable (value : Nat) (s : State)

/-- A write of EPA_CTL, two bytes wide (R37). -/
def afterEpaCtl : State := afterRegWrite Config.blockUsb Config.regEpaCtl value Config.epaCtlLen.bytes s

theorem afterResetBuffer_eq : afterResetBuffer s = (afterEpaCtl Config.epaCtlRun (afterEpaCtl Config.epaCtlReset
    (s.atPos { op := .resetBuffer, step := 0 }))).atPos SeqPos.rest := rfl

/-- EPA_CTL has room for its two bytes in the window of block USB. -/
theorem epaCtl_window : blockWindow Config.blockUsb Config.regEpaCtl =
    .register epaCtlAddr (Config.blockSize - Config.regEpaCtl.toNat) := by decide

theorem epaCtl_bytes : (leBytes Config.epaCtlLen.bytes value).take (Config.blockSize - Config.regEpaCtl.toNat) =
    leBytes Config.epaCtlLen.bytes value :=
  List.take_of_length_le (by rw [leBytes_length]; decide)

theorem afterEpaCtl_mem : (afterEpaCtl value s).mem = s.mem.putBytes epaCtlAddr (leBytes Config.epaCtlLen.bytes value) := by
  rw [← epaCtl_bytes value]
  rfl

theorem afterEpaCtl_trace : (afterEpaCtl value s).trace =
    s.trace ++ [.control (setupPacket 0x40 0x2148 0x0110 2) (leBytes Config.epaCtlLen.bytes value)] := by
  rw [afterEpaCtl, afterRegWrite, afterWrite_trace]
  rfl

theorem afterEpaCtl_bridge : (afterEpaCtl value s).bridge = s.bridge := by
  rw [afterEpaCtl, afterRegWrite, epaCtl_window]
  refine afterWrite_bridge_kept _ _ ?_
  rw [leBytes_length]
  decide

theorem keepsBlock_afterEpaCtl : keepsBlock s (afterEpaCtl value s) := keepsBlock_afterRegWrite _ _ _ _ s

/-- The reset value lies in EPA_CTL, low byte first (R84). -/
theorem epaCtl_holdsReset : (afterEpaCtl Config.epaCtlReset s).mem.get epaCtlAddr = some 0x10 ∧
    (afterEpaCtl Config.epaCtlReset s).mem.get (epaCtlAddr + 1) = some 0x02 := by
  rw [afterEpaCtl_mem]
  exact ⟨Mem.get_putBytes_inside _ s.mem epaCtlAddr 0 (by decide), Mem.get_putBytes_inside _ s.mem epaCtlAddr 1 (by decide)⟩

theorem afterEpaCtl_stream_kept : (afterEpaCtl Config.epaCtlReset s).fifoEpoch = s.fifoEpoch := by
  rw [afterEpaCtl, afterRegWrite, epaCtl_window]
  refine (afterWrite_stream_kept _ _ (mt resetsFifo_iff.mp ?_)).1
  rw [epaCtl_bytes]
  exact fun ⟨_, hbytes, _⟩ => absurd hbytes (by decide)

/-- 0x0000 after the reset value ends the reset of the FIFO (R84). -/
theorem afterEpaCtl_stream_reset (hlow : s.mem.get epaCtlAddr = some 0x10) (hhigh : s.mem.get (epaCtlAddr + 1) = some 0x02) :
    (afterEpaCtl Config.epaCtlRun s).fifoEpoch = s.fifoEpoch + 1 ∧ (afterEpaCtl Config.epaCtlRun s).streamPos = 0 := by
  rw [afterEpaCtl, afterRegWrite, epaCtl_window]
  refine afterWrite_stream_reset _ _ (resetsFifo_iff.mpr ?_)
  rw [epaCtl_bytes]
  exact ⟨rfl, rfl, hlow, hhigh⟩

end Epa

/-- EPA_CTL holds 0x0000 after the reset, and every other byte is as before (R210). -/
theorem afterResetBuffer_mem (s : State) : (afterResetBuffer s).mem.get epaCtlAddr = some 0x00 ∧
    (afterResetBuffer s).mem.get (epaCtlAddr + 1) = some 0x00 ∧
    ∀ a, a ≠ epaCtlAddr → a ≠ epaCtlAddr + 1 → (afterResetBuffer s).mem.get a = s.mem.get a := by
  have hlen : ∀ value, (leBytes Config.epaCtlLen.bytes value).length = 2 := leBytes_length _
  rw [afterResetBuffer_eq, State.atPos_mem, afterEpaCtl_mem, afterEpaCtl_mem, State.atPos_mem]
  refine ⟨Mem.get_putBytes_inside _ _ epaCtlAddr 0 (by decide), Mem.get_putBytes_inside _ _ epaCtlAddr 1 (by decide),
    fun a h0 h1 => ?_⟩
  rw [Mem.get_putBytes_outside _ _ _ _ (by rw [hlen]; omega), Mem.get_putBytes_outside _ _ _ _ (by rw [hlen]; omega)]

theorem keepsBlock_afterResetBuffer (s : State) : keepsBlock s (afterResetBuffer s) := by
  rw [afterResetBuffer_eq]
  exact (keepsBlock_atPos _ s).trans <| (keepsBlock_afterEpaCtl _ _).trans <| (keepsBlock_afterEpaCtl _ _).trans <|
    keepsBlock_atPos _ _

/-- Settles O37: `rtlResetBuffer_ok`; the first write of EPA_CTL prepares the reset, the second one ends it. -/
theorem resetBufferRule : Obligations.ResetBufferRule := by
  unfold Obligations.ResetBufferRule
  intro s hallowed ho ha
  obtain ⟨hlow, hhigh⟩ := epaCtl_holdsReset (s.atPos { op := .resetBuffer, step := 0 })
  obtain ⟨hepoch, hpos⟩ := afterEpaCtl_stream_reset _ hlow hhigh
  obtain ⟨hlow', hhigh', hframe⟩ := afterResetBuffer_mem s
  refine ⟨_, runHostOp_ok hallowed (Ctl.run_bind_ok (rtlResetBuffer_ok ho ha)), rfl, ?trace, hlow', hhigh', hframe, ?epoch, ?pos,
    ?bridge, ?keeps, rfl⟩
  case trace =>
    rw [complete_trace, afterResetBuffer_eq, State.atPos_trace, afterEpaCtl_trace, afterEpaCtl_trace, State.atPos_trace,
      List.append_assoc]
    rfl
  case epoch =>
    rw [complete_fifoEpoch, afterResetBuffer_eq, State.atPos_fifoEpoch, hepoch, afterEpaCtl_stream_kept, State.atPos_fifoEpoch]
  case pos => rw [complete_streamPos, afterResetBuffer_eq, State.atPos_streamPos, hpos]
  case bridge =>
    rw [complete_bridge, afterResetBuffer_eq, State.atPos_bridge, afterEpaCtl_bridge, afterEpaCtl_bridge, State.atPos_bridge]
  case keeps => exact (keepsBlock_afterResetBuffer s).trans (keepsBlock_complete _ _)

end Sys2Proof.Machine
end

section
/-! PROOFS. O38: a read of samples is put in flight, and the step that waits for a completion completes the oldest one
(20_memory R88, 43_rtl2832u_demod R211, 60_exceptions R306, R313). -/

namespace Sys2Proof.Machine

/-- With two reads in flight no further one is allowed (R211). -/
theorem rtlReadSamples_notAllowed {s : State} (h : 2 ≤ s.reads.length) : HostOp.rtlReadSamples.allowed s = false := by
  have hmax : Config.maxReads = 2 := rfl
  simp only [HostOp.allowed, Bool.and_eq_false_iff, decide_eq_false_iff_not, hmax]
  omega

theorem rtlReadSamples_issued {n : Nat} {s : State} (ha : HostOp.rtlReadSamples.allowed s = true) (hn : 0 < n) :
    exec (.rtlReadSamples n) s = .next (readIssued n s) :=
  (if_pos ha).trans (if_neg hn.ne')

section Completion

variable {r : ReadInFlight} {later : List ReadInFlight} {rest : List Event} {s : State}

/-- The oldest read completes, whatever operation is in progress; one in progress keeps its position (R88, R313). -/
theorem proceed_read (hq : s.reads = r :: later) :
    ∃ p : SeqPos, proceed s = .next ((completeRead r later s).atPos p) := by
  have holdest : completeOldest s = completeRead r later s := by rw [completeOldest, hq]
  cases hrun : s.running with
  | none =>
    refine ⟨(completeRead r later s).seq, ?_⟩
    rw [proceed, hrun, ← holdest]
    rfl
  | some j =>
    refine ⟨s.seq, ?_⟩
    rw [proceed_running hrun, hq, ← holdest]
    rfl

theorem step_completion_read (he : s.ended = false) (hi : s.inbox = .completion :: rest) (hq : s.reads = r :: later) :
    ∃ p : SeqPos, step s = .next ((completeRead r later { s with inbox := rest }).atPos p) := by
  rw [step_completion he hi, awaitNext_reads (hq ▸ List.cons_ne_nil r later)]
  exact proceed_read (s := { s with inbox := rest }) hq

end Completion

/-- Settles O38: a read is issued or, behind two others, `InvalidState`; its completion is `completeRead` of the oldest one. -/
theorem readSamplesRule : Obligations.ReadSamplesRule := by
  unfold Obligations.ReadSamplesRule
  refine ⟨fun n s ha hn => rtlReadSamples_issued ha hn, fun n s h => ?third, fun r later rest s he hi hq => ?completion⟩
  case third =>
    exact ⟨_, if_neg (Bool.eq_false_iff.mp (rtlReadSamples_notAllowed h)), invalidState_onlyDelivered .rtlReadSamples s⟩
  case completion =>
    obtain ⟨p, hstep⟩ := step_completion_read he hi hq
    rw [completeRead_eq] at hstep
    refine ⟨fun ha => ?succeeds, fun ha => ?fails⟩
    case succeeds =>
      have hanswer : answerOf s.plan s.drawNo = Answer.success := ha
      rw [if_neg (by simp [hanswer, Answer.success])] at hstep
      exact ⟨_, hstep, rfl, rfl, rfl, rfl, rfl, rfl, rfl⟩
    case fails =>
      rw [if_pos (answer_fails ha)] at hstep
      refine ⟨_, hstep, takeError_reads _ _, takeError_setsFault rfl _, takeError_result _ _, ?_⟩
      exact takeError_recorded rfl _

end Sys2Proof.Machine
end

section
/-! PROOFS. O34: `rtl.open` up to its claim, from there to its probe, and after it; each ends as R202 says, in the probe with an
error and at an unreachable entry of the table with a refusal (30_encoding R106, R112, 42_r820t_tuner R174, 43_rtl2832u_demod
R202 to R204, 60_exceptions R303, R310, R347). -/

namespace Sys2Proof.Machine

/-! ## Up to the claim (R202 steps 1 to 3) -/

/-- `rtl.open` after its claim (R202 steps 4 to 11). -/
def openRest (c : Config.Params) : Ctl Unit := do
  initEntries c.rtlInit.entries
  computeXtal
  openI2c
  probe
  writeIfOffset c
  tunerInit c
  applyGain c
  closeI2c
  seqDone

section Open

variable {c : Config.Params} {ppm : Int} {gain : Gain} {s : State}

theorem opened_of_rtlOpen_allowed (h : HostOp.rtlOpen.allowed s = true) : s.opened = true ∧ s.claimed = false := by
  simp only [HostOp.allowed, Bool.and_eq_true, Bool.not_eq_true'] at h
  obtain ⟨⟨hopened, -⟩, -⟩ := h
  exact hopened

theorem rtlOpen_claims (ho : s.opened = true) (hc : s.claimed = false) (ha : allSucceed s) :
    rtlOpen c s = openRest c (openClaimed s) :=
  (Ctl.run_bind_ok (seqAt_run _ _ s)).trans (Ctl.run_bind_ok (openPrelude_ok ho hc ha))

theorem openClaimed_opened (ho : s.opened = true) : (openClaimed s).opened = true := (regKeeps_openPrepared s).opened.trans ho

theorem openClaimed_succeed (ha : allSucceed s) : allSucceed (openClaimed s) :=
  allSucceed_of_answers (regKeeps_openPrepared s).answers ha

/-- The first two transfers are the writes of SYSCTL and EPA_MAXPKT, the third is the claim (R202). -/
theorem openClaimed_trace (s : State) : (openClaimed s).trace = s.trace ++
    [.control (setupPacket 0x40 0x2000 0x0110 1) [0x09], .control (setupPacket 0x40 0x2158 0x0110 2) [0x00, 0x02], .claim 1] := by
  have hclaim : (openClaimed s).trace = (openPrepared s).trace ++ [.claim Config.usbInterface] := rfl
  rw [hclaim, openPrepared, afterRegWrite, afterRegWrite, afterWrite_trace, afterWrite_trace, State.atPos_trace, List.append_assoc,
    List.append_assoc]
  rfl

theorem keepsBlock_openPrepared (s : State) : keepsBlock s (openPrepared s) :=
  (keepsBlock_atPos _ s).trans <| (keepsBlock_afterRegWrite _ _ _ _ _).trans (keepsBlock_afterRegWrite _ _ _ _ _)

/-! ## Up to the probe (R202 steps 4 to 7, R203) -/

theorem keepsBlock_afterEntry (e : Config.InitEntry) (s : State) : keepsBlock s (afterEntry e s) := by
  cases e with
  | reg block reg value len => exact keepsBlock_afterRegWrite _ _ _ _ s
  | demod page1 addr value len => exact keepsBlock_afterDemodWrite _ _ _ _ s

theorem keepsBlock_afterEntries : ∀ (l : List Config.InitEntry) (s : State), keepsBlock s (afterEntries l s)
  | [], s => keepsBlock.refl s
  | e :: es, s => (keepsBlock_afterEntry e s).trans (keepsBlock_afterEntries es _)

/-- `open_i2c` records the open bridge and keeps the rest of the block (R156). -/
theorem keepsBlock_afterOpenI2c (s : State) : keepsBlock (s.setI2cOpen true) (afterOpenI2c s) := by
  obtain ⟨opened, claimed, -, others⟩ := keepsBlock_afterDemodWrite Config.namedPage Config.regBridge Config.bridgeOpenValue
    Config.demodRegLen.bytes s
  exact ⟨opened, claimed, rfl, others⟩

/-- `close_i2c` records the closed bridge and keeps the rest of the block (R157). -/
theorem keepsBlock_afterCloseI2c (s : State) : keepsBlock (s.setI2cOpen false) (afterCloseI2c s) := by
  obtain ⟨opened, claimed, -, others⟩ := keepsBlock_afterDemodWrite Config.namedPage Config.regBridge Config.bridgeCloseValue
    Config.demodRegLen.bytes s
  exact ⟨opened, claimed, rfl, others⟩

/-- What the probe finds of the block: claimed, the bridge open, and otherwise what `rtl.open` began with. -/
theorem openProbing_block (c : Config.Params) (ppm : Int) (s : State) :
    (openProbing c ppm s).claimed = true ∧ (openProbing c ppm s).i2cOpen = true ∧
      (openProbing c ppm s).tunerReady = s.tunerReady ∧ (openProbing c ppm s).errors = s.errors := by
  obtain ⟨-, -, -, hready0, -, -, -, -, -, -, -, -, -, -, -, -, -, herrors0, -⟩ := keepsBlock_openPrepared s
  obtain ⟨-, hclaimed1, -, hready1, -, -, -, -, -, -, -, -, -, -, -, -, -, herrors1, -⟩ :=
    keepsBlock_afterEntries c.rtlInit.entries (openClaimed s)
  obtain ⟨-, hclaimed2, hi2c, hready2, -, -, -, -, -, -, -, -, -, -, -, -, -, herrors2, -⟩ :=
    keepsBlock_afterOpenI2c ((afterEntries c.rtlInit.entries (openClaimed s)).setXtal (correctedXtal ppm))
  rw [openProbing, hclaimed2, hready2, herrors2, State.setI2cOpen_claimed, State.setI2cOpen_tunerReady, State.setI2cOpen_errors,
    State.setXtal_claimed, State.setXtal_tunerReady, State.setXtal_errors, hclaimed1, hready1, herrors1]
  exact ⟨rfl, hi2c, hready0, herrors0⟩

theorem openProbing_succeed (ha : allSucceed s) : allSucceed (openProbing c ppm s) :=
  allSucceed_of_answers (openProbing_answers c ppm s) ha

/-- With every entry reached, what follows the claim goes on with the probe, the bridge open. -/
theorem openRest_probes (ho : s.opened = true) (ha : allSucceed s) (hp : s.ppm = some ppm) (ht : tableReaches c s) :
    openRest c (openClaimed s) = (probe >>= fun _ => writeIfOffset c >>= fun _ => tunerInit c >>= fun _ =>
      applyGain c >>= fun _ => closeI2c >>= fun _ => seqDone) (openProbing c ppm s) := by
  have hkeeps := regKeeps_afterEntries c.rtlInit.entries (openClaimed s)
  have hentries := initEntries_ok (rtlInit_legal c.rtlInit) (openClaimed_opened ho) (openClaimed_succeed ha) ht
  have hppm : (afterEntries c.rtlInit.entries (openClaimed s)).ppm = some ppm :=
    hkeeps.ppm.trans ((regKeeps_openPrepared s).ppm.trans hp)
  have hxtal : computeXtal (afterEntries c.rtlInit.entries (openClaimed s)) =
      .ok () ((afterEntries c.rtlInit.entries (openClaimed s)).setXtal (correctedXtal ppm)) := by
    simp only [computeXtal, Ctl.run_bind, Ctl.run_get, hppm, word_some, Ctl.run_modify]
  have hbridge := openI2c_ok (s := (afterEntries c.rtlInit.entries (openClaimed s)).setXtal (correctedXtal ppm))
    (hkeeps.opened.trans (openClaimed_opened ho)) (hkeeps.succeed (openClaimed_succeed ha)).next
  exact (Ctl.run_bind_ok hentries).trans ((Ctl.run_bind_ok hxtal).trans (Ctl.run_bind_ok hbridge))

/-- A device that is no R820T (R203, R303). -/
theorem probe_unsupported (ho : s.opened = true) (ha : allSucceed s) (hid : probedId c ppm s ≠ 0x69) :
    probe (openProbing c ppm s) =
      .error (.raised { kind := .unsupportedTuner, info := .probe (probedId c ppm s) })
        (afterTunerRead 0x00 1 (openProbing c ppm s)) := by
  have hread : i2cRead tunerBus Config.regStatus Config.i2cRegLen (openProbing c ppm s) =
      .ok (tunerBytes Config.regStatus Config.i2cRegLen (openProbing c ppm s)) (afterTunerRead 0x00 1 (openProbing c ppm s)) :=
    i2cRead_ok (openProbing_reachable ho) Nat.one_pos (by decide) (openProbing_succeed ha)
  have hcheck : checkId (tunerBytes Config.regStatus Config.i2cRegLen (openProbing c ppm s)) =
      raise { kind := .unsupportedTuner, info := .probe (probedId c ppm s) } := if_neg hid
  rw [probe, Ctl.run_bind_ok hread, hcheck, raise_run]

/-- The probe's two transfers: the pointer, and the byte read (R203). -/
theorem probe_trace (c : Config.Params) (ppm : Int) (s : State) :
    (afterTunerRead 0x00 1 (openProbing c ppm s)).trace = (openProbing c ppm s).trace ++
      [.control (setupPacket 0x40 0x0034 0x0610 1) [0x00],
        .control (setupPacket 0xC0 0x0034 0x0600 1) [probedId c ppm s]] := by
  have hbyte : tunerBytes 0x00 1 (openProbing c ppm s) = [probedId c ppm s] := by
    obtain ⟨b, hb⟩ := List.length_eq_one_iff.mp (tunerBytes_length 0x00 1 (openProbing c ppm s))
    have hid : probedId c ppm s = b := congrArg (fun bs => bs.headD 0) hb
    rw [hb, hid]
  rw [afterTunerRead_trace 0x00 _ (by decide), hbyte]
  rfl

/-! ## After the claim, whatever is read -/

/-- After its claim `rtl.open` leaves `FAULT` and what is on the wire, and puts more on it. -/
def GoesOn (s t : State) : Prop := t.fault = s.fault ∧ s.trace <+: t.trace

theorem goesOn_stable (s : State) : Stable (GoesOn s) where
  issued _ _ h := ⟨h.1, h.2.trans (⟨_, rfl⟩)⟩
  advanced _ h := h
  stored t bytes u h := by rw [GoesOn, deviceStore_fault, deviceStore_trace]; exact h
  forgot t bytes draw u h := by rw [GoesOn, deviceForget_fault, deviceForget_trace]; exact h
  read t u h := by rw [GoesOn, deviceAfterRead_fault, deviceAfterRead_trace]; exact h
  even _ _ _ h := h
  claim _ _ h := h
  release _ h := h
  bridge _ _ h := h
  noBridge _ h := h
  shadow _ _ h := h
  lock _ _ h := h
  notReady _ h := h
  ready _ _ h := h
  filter _ _ h := h
  xtal _ _ h := h
  rate _ _ h := h

theorem openRest_goesOn (c : Config.Params) (s : State) : Ctl.Keeps (GoesOn s) (openRest c) := by
  have k := goesOn_stable s
  exact (k.initEntries _).bind fun _ => k.computeXtal.bind fun _ => k.openI2c.bind fun _ => k.probe.bind fun _ =>
    (k.writeIfOffset c).bind fun _ => (k.tunerInit c).bind fun _ => (k.applyGain c).bind fun _ => k.closeI2c.bind fun _ =>
    .modify fun _ h => h

/-! ## Completed (R202) -/

section Completes

variable (ho : s.opened = true) (hc : s.claimed = false) (ha : allSucceed s) (hp : s.ppm = some ppm)
  (hg : s.gain = some gain) (ht : tableReaches c s) (h : opens c ppm s)

include ho hc ha hp hg ht h

theorem afterRtlOpen_goesOn : GoesOn (openClaimed s) (afterRtlOpen c ppm gain s) := by
  have hrun := rtlOpen_ok ho hc ha hp hg ht h
  have hkeeps := openRest_goesOn c (openClaimed s) (openClaimed s) ⟨rfl, ⟨[], List.append_nil _⟩⟩
  rw [rtlOpen_claims ho hc ha] at hrun
  rw [hrun] at hkeeps
  exact hkeeps

theorem afterRtlOpen_fault : (afterRtlOpen c ppm gain s).fault = s.fault := by
  obtain ⟨hfault, -⟩ := afterRtlOpen_goesOn ho hc ha hp hg ht h
  obtain ⟨-, -, -, -, -, hfault0, -⟩ := keepsBlock_openPrepared s
  exact hfault.trans hfault0

theorem afterRtlOpen_trace : s.trace ++ [.control (setupPacket 0x40 0x2000 0x0110 1) [0x09],
    .control (setupPacket 0x40 0x2158 0x0110 2) [0x00, 0x02], .claim 1] <+: (afterRtlOpen c ppm gain s).trace := by
  obtain ⟨-, htrace⟩ := afterRtlOpen_goesOn ho hc ha hp hg ht h
  exact openClaimed_trace s ▸ htrace

end Completes

variable (c ppm gain s)

/-- The last transfer closes the bridge and keeps the rest of what the gain's writes leave (R157). -/
theorem keepsBlock_afterRtlOpen :
    keepsBlock ((afterMasks (gainTriples c gain) (afterInit c (correctedXtal ppm) (openTuning c ppm s))).setI2cOpen false)
      (afterRtlOpen c ppm gain s) :=
  (keepsBlock_afterCloseI2c _).trans (keepsBlock_atPos _ _)

/-- The tuner is ready, the claim and the reference stay, and the calibration has set the filter code (R174, R202). -/
theorem afterRtlOpen_block : (afterRtlOpen c ppm gain s).claimed = true ∧ (afterRtlOpen c ppm gain s).tunerReady = true ∧
    (afterRtlOpen c ppm gain s).xtalFreq = some (correctedXtal ppm) ∧
    (afterRtlOpen c ppm gain s).filterCap.isSome = true := by
  obtain ⟨-, hclaimed, -, hready, -, -, -, -, -, -, -, -, hxtal, hcap, -⟩ := keepsBlock_afterRtlOpen c ppm gain s
  obtain ⟨hprobing, -⟩ := openProbing_block c ppm s
  have hinit := (keeps_openTuning c ppm s).trans (keeps_afterInitBody c (correctedXtal ppm) (openTuning c ppm s))
  have hgain := keeps_afterMasks (gainTriples c gain) (afterInit c (correctedXtal ppm) (openTuning c ppm s))
  rw [hclaimed, hready, hxtal, hcap, State.setI2cOpen_claimed, State.setI2cOpen_tunerReady, State.setI2cOpen_xtalFreq,
    State.setI2cOpen_filterCap, hgain.claimed, hgain.tunerReady, hgain.xtalFreq, afterMasks_filterCap, afterInit,
    State.setReady_claimed, State.setReady_xtalFreq, State.setReady_filterCap, hinit.claimed, hinit.xtalFreq,
    afterMasks_filterCap]
  exact ⟨hprobing, rfl, openProbing_xtal c ppm s, afterCalibration_filterCap (initStart_shadowed c _)⟩

theorem afterRtlOpen_bridge : (afterRtlOpen c ppm gain s).bridge = .blocked := by
  rw [afterRtlOpen, State.atPos_bridge]
  exact afterCloseI2c_bridge _

end Open

/-- Without an entry to block I2C every entry reaches its register (R347). -/
theorem entriesReach_of_noI2c : ∀ {l : List Config.InitEntry} (s : State),
    (∀ block reg value len, Config.InitEntry.reg block reg value len ∈ l → block ≠ .i2c) → entriesReach l s
  | [], _, _ => trivial
  | e :: es, s, h => by
    refine ⟨?_, entriesReach_of_noI2c _ fun block reg value len hmem => h block reg value len (List.mem_cons_of_mem _ hmem)⟩
    cases e with
    | reg block reg value len =>
      have hblock := h block reg value len List.mem_cons_self
      cases block
      case i2c => exact absurd rfl hblock
      all_goals trivial
    | demod page1 addr value len => trivial

/-- Settles O34: `rtlOpen_ok` where the table is reached and the probe and the calibration end well; the probe's error and the
table's refusal where they do not. -/
theorem rtlOpenRule : Obligations.RtlOpenRule := by
  unfold Obligations.RtlOpenRule
  refine ⟨fun s => rfl, fun c ppm gain s hallowed ha hp hg ht h => ?completes,
    fun c ppm s hallowed ha hp ht hid => ?unsupported, fun c s hallowed ha => ⟨fun ht => ?refused, entriesReach_of_noI2c _⟩⟩
  all_goals obtain ⟨ho, hc⟩ := opened_of_rtlOpen_allowed hallowed
  case completes =>
    have hrun : openHost c s = .next (complete .nothing (afterRtlOpen c ppm gain s)) :=
      runHostOp_ok hallowed (Ctl.run_bind_ok (rtlOpen_ok ho hc ha hp hg ht h))
    obtain ⟨hclaimed, hready, hxtal, hcap⟩ := afterRtlOpen_block c ppm gain s
    exact ⟨hrun, fun hchip => hchip ▸ hrun, hclaimed, hready, rfl, afterRtlOpen_bridge c ppm gain s, rfl,
      afterRtlOpen_fault ho hc ha hp hg ht h, hxtal, hcap, afterRtlOpen_trace ho hc ha hp hg ht h⟩
  case unsupported =>
    have hstop : rtlOpen c s = .error (.raised { kind := .unsupportedTuner, info := .probe (probedId c ppm s) })
        (afterTunerRead 0x00 1 (openProbing c ppm s)) := by
      rw [rtlOpen_claims ho hc ha, openRest_probes ho ha hp ht]
      exact Ctl.run_bind_error (probe_unsupported ho ha hid)
    obtain ⟨hclaimed, hi2c, hready, herrors⟩ := openProbing_block c ppm s
    obtain ⟨-, hclaimed', hi2c', hready', -, -, -, -, -, -, -, -, -, -, -, -, -, herrors', -⟩ :=
      keepsBlock_afterTunerRead 0x00 1 (openProbing c ppm s)
    refine ⟨_, runHostOp_raised hallowed (Ctl.run_bind_error hstop), takeError_setsFault rfl _, takeError_rests rfl _, ?_, ?_, ?_,
      ?_, ?_⟩
    · rw [takeError_claimed, hclaimed', hclaimed]
    · rw [takeError_i2cOpen, hi2c', hi2c]
    · rw [takeError_tunerReady, hready', hready]
    · rw [takeError_recorded rfl, herrors', herrors]
    · rw [takeError_trace, probe_trace]
  case refused =>
    obtain ⟨u, hstop⟩ := initEntries_refused (rtlInit_legal c.rtlInit) (openClaimed_opened ho) (openClaimed_succeed ha) ht
    have hrun : rtlOpen c s = .error (.refused .bridgeClosed) u :=
      (rtlOpen_claims ho hc ha).trans (Ctl.run_bind_error hstop)
    exact runHostOp_refused hallowed (Ctl.run_bind_error hrun)

end Sys2Proof.Machine
end

section
/-! PROOFS. O39: each of the four steps of `rtl.close` ends well or with a `TransportError`, after which the close goes on unless
the error was fatal; where every transfer succeeds its transfers are those of R212 (43_rtl2832u_demod R212, 60_exceptions R311,
R316, R317). -/

namespace Sys2Proof.Machine

/-! ## Programs that can only report -/

/-- The program ends well, or raises a `TransportError`: it is never refused. -/
def Ctl.Reports (m : Ctl Unit) (s : State) : Prop :=
  (∃ u, m s = .ok () u) ∨ ∃ e u, m s = .error (.raised e) u ∧ e.kind = .transportError

namespace Ctl.Reports

variable {m : Ctl Unit} {f : Unit → Ctl Unit} {s : State}

theorem bind (hm : Ctl.Reports m s) (hf : ∀ u, Ctl.Reports (f ()) u) : Ctl.Reports (m >>= f) s := by
  rcases hm with ⟨u, hu⟩ | ⟨e, u, hu, hkind⟩
  · rw [Ctl.Reports, Ctl.run_bind_ok hu]
    exact hf u
  · exact .inr ⟨e, u, Ctl.run_bind_error hu, hkind⟩

theorem modify (g : State → State) : Ctl.Reports (modify g : Ctl PUnit) s := .inl ⟨g s, rfl⟩

theorem sendWrite (value index : Word16) (bytes : List Byte) (t : Target) (accept : Nat → State → State) :
    Ctl.Reports (Sys2Proof.Machine.sendWrite value index bytes t accept) s := by
  rw [Ctl.Reports]
  by_cases hc : (answerOf s.plan s.drawNo).code = 0
  · simp only [Sys2Proof.Machine.sendWrite, Ctl.run_bind, issue_run, if_neg (not_not.mpr hc), Ctl.run_modify, advance_run]
    exact .inl ⟨_, rfl⟩
  · simp only [Sys2Proof.Machine.sendWrite, Ctl.run_bind, issue_run, if_pos hc, Ctl.run_modify, raise_run]
    exact .inr ⟨_, _, rfl, rfl⟩

theorem bridgeWrite (v : Nat) (ho : s.opened = true) :
    Ctl.Reports (writeDemodReg true Config.regBridge v Config.demodRegLen.bytes) s := by
  by_cases hc : (answerOf s.plan s.drawNo).code = 0
  · have ht : targetOf (demodValue Config.regBridge) (pageIndex true &&& ~~~Config.writeFlag) =
        .ok (demodWindow true Config.regBridge) := (pageIndex_noFlag true).symm ▸ targetOf_demod true Config.regBridge
    rw [Ctl.Reports, writeDemodReg_eq_controlWrite (by decide) (by decide), beBytes_byte]
    exact .inl ⟨_, controlWrite_code ho (byte_stage_pos _) (byte_fitsStage _) ht trivial hc⟩
  · exact .inr ⟨_, _, bridgeWrite_fails v ho hc, rfl⟩

theorem openI2c (ho : s.opened = true) : Ctl.Reports Sys2Proof.Machine.openI2c s :=
  (bridgeWrite _ ho).bind fun _ => modify _

theorem closeI2c (ho : s.opened = true) : Ctl.Reports Sys2Proof.Machine.closeI2c s :=
  (bridgeWrite _ ho).bind fun _ => modify _

theorem closingMask (t : Config.TableTriple) : Ctl.Reports (Sys2Proof.Machine.closingMask t) s := by
  rw [Ctl.Reports, Sys2Proof.Machine.closingMask, Ctl.run_bind_ok (Ctl.run_get s)]
  refine (modify _).bind fun _ => ?_
  unfold i2cWriteClosing controlWriteClosing
  exact sendWrite _ _ _ _ _

theorem closingTable : ∀ (l : List Config.TableTriple) {s : State}, Ctl.Reports (Sys2Proof.Machine.closingTable l) s
  | [], s => .inl ⟨s, rfl⟩
  | t :: ts, _ => (closingMask t).bind fun _ => closingTable ts

theorem tunerClosing (c : Config.Params) : Ctl.Reports (Sys2Proof.Machine.tunerClosing c) s :=
  (closingTable _).bind fun _ => modify _

theorem releaseClaimed : Ctl.Reports Sys2Proof.Machine.releaseClaimed s := by
  rw [Ctl.Reports, Sys2Proof.Machine.releaseClaimed, Ctl.run_bind_ok (Ctl.run_get s)]
  cases hc : s.claimed with
  | false => exact .inl ⟨s, rfl⟩
  | true =>
    by_cases ha : (answerOf s.plan s.drawNo).code = 0
    · exact .inl ⟨_, releaseInterface_code hc ha⟩
    · exact .inr ⟨_, _, releaseInterface_fails hc ha, rfl⟩

end Ctl.Reports

/-! ## What a close keeps from step to step (R317) -/

/-- What holds of a close that began in `s` and goes on in `u`: the host program has not ended, no record is lost, and without a
handler there is no new one (R311). -/
structure Closing (s u : State) : Prop where
  opened           : u.opened = true
  ended            : u.ended = false
  handle           : u.handle = s.handle
  data             : sameData s u
  reads            : u.reads = s.reads
  handlerInstalled : u.handlerInstalled = s.handlerInstalled
  errors           : s.errors <+: u.errors
  fault            : s.fault = true → u.fault = true
  unhandled        : s.handlerInstalled = false → u.errors = s.errors

/-- How a close that began in `s` ends with a fatal error: one record more, and the data path as it was (R311;
notes/assumptions/46.md). -/
structure ClosingFatal (s u : State) : Prop where
  unhandled : s.handlerInstalled = false
  ended     : u.ended = true
  fault     : u.fault = true
  seq       : u.seq = SeqPos.rest
  data      : sameData s u
  reads     : u.reads = s.reads
  record    : ∃ r : ErrRecord, r.kind = .transportError ∧ u.errors = s.errors ++ [r]

section Close

variable {s u v : State} {e : Err}

theorem Closing.refl (ho : s.opened = true) (he : s.ended = false) : Closing s s :=
  ⟨ho, he, rfl, sameData_refl s, rfl, rfl, ⟨[], List.append_nil _⟩, id, fun _ => rfl⟩

theorem closing_stable (s : State) : Stable (Closing s) where
  issued _ _ h := { h with }
  advanced _ h := { h with }
  stored t bytes u h := by
    cases t with
    | register base room => exact { h with }
    | tuner => cases bytes <;> exact { h with }
    | absent => exact h
  forgot t bytes draw u h := by
    cases t with
    | register base room => exact { h with }
    | tuner => cases bytes <;> exact { h with }
    | absent => exact h
  read t u h := by cases t <;> exact { h with }
  even _ _ _ h := { h with }
  claim _ _ h := { h with }
  release _ h := { h with }
  bridge _ _ h := { h with }
  noBridge _ h := { h with }
  shadow _ _ h := { h with }
  lock _ _ h := { h with }
  notReady _ h := { h with }
  ready _ _ h := { h with }
  filter _ _ h := { h with }
  xtal _ _ h := { h with }
  rate _ _ h := { h with }

theorem Closing.atPos (h : Closing s u) (p : SeqPos) : Closing s (u.atPos p) := { h with }

theorem takeError_sameData (e : Err) (h : sameData s u) : sameData s (takeError e u) := by
  unfold takeError
  split <;> exact h

/-- A `TransportError` ends the host program where no handler is installed (R311). -/
theorem takeError_transport_ended (he : e.kind = .transportError) :
    (takeError e u).ended = (u.ended || !u.handlerInstalled) := by
  simp [takeError, deliver, he, ErrKind.setsFault, ErrKind.fatalUnhandled]

theorem Closing.afterError (h : Closing s u) (he : e.kind.setsFault = true) (hh : s.handlerInstalled = true)
    (hended : (takeError e u).ended = false) : Closing s (takeError e u) where
  opened := (takeError_opened e u).trans h.opened
  ended := hended
  handle := (takeError_handle e u).trans h.handle
  data := takeError_sameData e h.data
  reads := (takeError_reads e u).trans h.reads
  handlerInstalled := (takeError_handlerInstalled e u).trans h.handlerInstalled
  errors := h.errors.trans (takeError_recorded he u ▸ ⟨_, rfl⟩)
  fault _ := takeError_setsFault he u
  unhandled hn := absurd (hh.symm.trans hn) nofun

theorem Closing.fatal (h : Closing s u) (he : e.kind = .transportError) (hh : s.handlerInstalled = false)
    (hended : (takeError e u).ended = true) : ClosingFatal s (takeError e u) where
  unhandled := hh
  ended := hended
  fault := takeError_setsFault (he ▸ rfl) u
  seq := takeError_rests (he ▸ rfl) u
  data := takeError_sameData e h.data
  reads := (takeError_reads e u).trans h.reads
  record := ⟨_, he, (takeError_recorded (he ▸ rfl) u).trans (by rw [h.unhandled hh])⟩

/-! ## The steps (R317) -/

/-- In a close that began in `s` the program ends well and the close goes on, or it ends with a fatal error. -/
def Ctl.GoesOnClosing (s : State) (m : Ctl Unit) : Prop :=
  ∀ u, Closing s u → (∃ v, m u = .ok () v ∧ Closing s v) ∨ ∃ v, m u = .error .ended v ∧ ClosingFatal s v

theorem Ctl.GoesOnClosing.bind {m : Ctl Unit} {f : Unit → Ctl Unit} (hm : Ctl.GoesOnClosing s m)
    (hf : Ctl.GoesOnClosing s (f ())) : Ctl.GoesOnClosing s (m >>= f) := by
  intro u hu
  rcases hm u hu with ⟨v, hv, hclosing⟩ | ⟨v, hv, hfatal⟩
  · rw [Ctl.run_bind_ok hv]
    exact hf v hclosing
  · exact .inr ⟨v, Ctl.run_bind_error hv, hfatal⟩

theorem attempt_ok {m : Ctl Unit} (k : Nat) (h : m u = .ok () v) :
    attempt k m u = .ok () (v.atPos { op := .closing, step := k }) := by
  simp only [attempt, h]

theorem attempt_raised {m : Ctl Unit} (k : Nat) (h : m u = .error (.raised e) v) : attempt k m u = closingError k e v := by
  simp only [attempt, h]

/-- A step that can only report is attempted, and the close goes on after it unless its error was fatal (R311, R317). -/
theorem attempt_goesOn (k : Nat) {m : Ctl Unit} (hm : Ctl.Keeps (Closing s) m)
    (hr : ∀ u, u.opened = true → Ctl.Reports m u) : Ctl.GoesOnClosing s (attempt k m) := by
  intro u hu
  have hkeeps := hm u hu
  rcases hr u hu.opened with ⟨v, hv⟩ | ⟨e, v, hv, hkind⟩
  · rw [hv] at hkeeps
    exact .inl ⟨_, attempt_ok k hv, hkeeps.atPos _⟩
  · rw [hv] at hkeeps
    obtain ⟨hclosing, hsets⟩ := hkeeps
    have hended := takeError_transport_ended (u := v) hkind
    rw [hclosing.ended, hclosing.handlerInstalled, Bool.false_or] at hended
    rw [attempt_raised k hv]
    cases hh : s.handlerInstalled with
    | true =>
      rw [hh, Bool.not_true] at hended
      exact .inl ⟨_, if_neg (Bool.eq_false_iff.mp hended), (hclosing.afterError hsets hh hended).atPos _⟩
    | false =>
      rw [hh, Bool.not_false] at hended
      exact .inr ⟨_, if_pos hended, hclosing.fatal hkind hh hended⟩

theorem rtlCloseSteps_goesOn (c : Config.Params) (s : State) : Ctl.GoesOnClosing s (rtlCloseSteps c) := by
  have k := closing_stable s
  have hstart : Ctl.GoesOnClosing s (seqAt .closing 0) := fun u hu => .inl ⟨_, rfl, hu.atPos _⟩
  exact hstart.bind <| (attempt_goesOn _ k.openI2c fun _ => .openI2c).bind <|
    (attempt_goesOn _ (k.tunerClosing c) fun _ _ => .tunerClosing c).bind <|
    (attempt_goesOn _ k.closeI2c fun _ => .closeI2c).bind <| attempt_goesOn _ k.releaseClaimed fun _ _ => .releaseClaimed

/-- What `rtl.close` leaves after its steps: the words destroyed, the sequencer at rest (R212). -/
def closedAfter (u : State) : State := (rtlClosed u).atPos SeqPos.rest

theorem rtlClose_ok {c : Config.Params} (h : rtlCloseSteps c s = .ok () u) : rtlClose c s = .ok () (closedAfter u) :=
  Ctl.run_bind_ok h

theorem rtlClose_ended {c : Config.Params} (h : rtlCloseSteps c s = .error .ended u) : rtlClose c s = .error .ended u :=
  Ctl.run_bind_error h

theorem closeCompletes_of_closing (h : Closing s u) : closeCompletes s (complete .nothing (closedAfter u)) :=
  ⟨rfl, rfl, rfl, rfl, rfl, rfl, rfl, rfl, rfl, rfl, h.opened, h.handle, rfl, h.errors, h.fault, h.data, h.reads⟩

theorem opened_of_rtlClose_allowed (h : HostOp.rtlClose.allowed s = true) : s.opened = true := by
  simp only [HostOp.allowed, Bool.and_eq_true] at h
  obtain ⟨hopened, -⟩ := h
  exact hopened

/-! ## Every transfer succeeds: the masked writes (R171, R186, R212) -/

/-- The bytes that the masked writes of a table put into the registers of a shadow, one after another (R171). -/
def maskedBytes : List Config.TableTriple → Vector Byte Config.shadowLen → List Byte
  | [], _ => []
  | t :: ts, sh => maskByte sh[t.offset] t.value t.mask ::
    maskedBytes ts (sh.set t.offset (maskByte sh[t.offset] t.value t.mask))

theorem maskedBytes_length : ∀ (l : List Config.TableTriple) (sh : Vector Byte Config.shadowLen),
    (maskedBytes l sh).length = l.length
  | [], _ => rfl
  | _ :: ts, _ => congrArg (· + 1) (maskedBytes_length ts _)

/-- A write of one byte to the register of a table's entry, on the wire (R103, R158). -/
def entryTransfer (t : Config.TableTriple) (b : Byte) : Transfer :=
  .control (setupPacket 0x40 0x0034 0x0610 2) [BitVec.ofNat 8 (0x05 + t.offset.val), b]

/-- A table's entry has the shadow byte at its offset (R106). -/
theorem shadowIndex_tripleOf (t : Config.TableTriple) : shadowIndex (tripleOf t).reg = some t.offset := by
  have hlt : t.offset.val < 27 := t.offset.isLt
  refine shadowIndex_eq_some ?_
  rw [tripleOf, BitVec.toNat_ofNat]
  unfold Config.shadowBase
  omega

theorem afterMasks_trace : ∀ (l : List Config.TableTriple) {s : State} {sh : Vector Byte Config.shadowLen}, s.shadow = some sh →
    (afterMasks (triplesOf l) s).trace = s.trace ++ List.zipWith entryTransfer l (maskedBytes l sh)
  | [], _, _, _ => (List.append_nil _).symm
  | t :: ts, s, sh, hsh => by
    have hk := shadowIndex_tripleOf t
    have hmasked : afterMasks (triplesOf (t :: ts)) s = afterMasks (triplesOf ts) (afterMask (tripleOf t) s) := rfl
    rw [hmasked, afterMasks_trace ts (afterMask_shadow hk hsh), afterMask_trace hk hsh, List.append_assoc]
    rfl

/-- A masked write inside `rtl.close`, where the bridge forwards and there is a shadow, is a masked write like any other. -/
theorem closingMask_ok {t : Config.TableTriple} {sh : Vector Byte Config.shadowLen} (hb : s.bridge = .forwarding)
    (ha : allSucceed s) (hsh : s.shadow = some sh) : closingMask t s = .ok () (afterMask (tripleOf t) s) := by
  have hc : (answerOf s.plan s.drawNo).code = 0 := ha.next.code
  have hshadow : shadowOrFree s = sh := by rw [shadowOrFree, hsh, Option.getD_some]
  rw [afterMask_eq (shadowIndex_tripleOf t) hsh]
  simp only [closingMask, i2cWriteClosing, controlWriteClosing, sendWrite, Ctl.run_bind, Ctl.run_get, Ctl.run_modify, issue_run,
    advance_run, hshadow, State.setShadow_plan, State.setShadow_drawNo, hc, ne_eq, not_true_eq_false, if_false, State.issued_bridge,
    State.setShadow_bridge, hb, if_true, deviceStore_advanced]
  rfl

theorem closingTable_ok : ∀ {l : List Config.TableTriple} {s : State}, s.bridge = .forwarding → allSucceed s →
    s.shadow.isSome = true → closingTable l s = .ok () (afterMasks (triplesOf l) s)
  | [], _, _, _, _ => rfl
  | t :: ts, s, hb, ha, hs => by
    obtain ⟨sh, hsh⟩ := Option.isSome_iff_exists.mp hs
    have hkeeps := keeps_afterMask (tripleOf t) s
    exact (Ctl.run_bind_ok (closingMask_ok hb ha hsh)).trans
      (closingTable_ok (hkeeps.bridge.trans hb) (hkeeps.succeed ha) (hkeeps.shadowed hs))

/-- The state with the shadow that the power-down of a close masks with: its own, or free bytes (notes/assumptions/13.md). -/
def withClosingShadow (s : State) : State := s.setShadow (shadowOrFree s)

theorem closingMask_withClosingShadow (t : Config.TableTriple) (s : State) :
    closingMask t s = closingMask t (withClosingShadow s) := rfl

/-- The power-down of a close is that of a shadow, where there was none as well. -/
theorem tunerClosing_ok {c : Config.Params} (hb : s.bridge = .forwarding) (ha : allSucceed s) :
    tunerClosing c s =
      .ok () ((afterMasks (triplesOf c.r820tPowerdown.toList) (withClosingShadow s)).setReady false) := by
  have hne : c.r820tPowerdown.toList ≠ [] := fun h => by
    have hlen := congrArg List.length h
    rw [Vector.length_toList] at hlen
    cases hlen
  obtain ⟨t, ts, hts⟩ := List.exists_cons_of_ne_nil hne
  have htable : closingTable c.r820tPowerdown.toList s = closingTable c.r820tPowerdown.toList (withClosingShadow s) := by
    rw [hts]
    simp only [closingTable, Ctl.run_bind, closingMask_withClosingShadow t s]
  rw [tunerClosing, Ctl.run_bind, htable, closingTable_ok (s := withClosingShadow s) hb ha rfl]
  rfl

/-! ## Every transfer succeeds: the steps (R212) -/

/-- The state after the release of the interface, where it was claimed (R212). -/
def afterReleaseClaimed (s : State) : State :=
  if s.claimed then transferred (.release Config.usbInterface) (s.setClaimed false) else s

theorem releaseClaimed_ok (ha : nextSucceeds s) : releaseClaimed s = .ok () (afterReleaseClaimed s) := by
  rw [releaseClaimed, Ctl.run_bind_ok (Ctl.run_get s), afterReleaseClaimed]
  cases hc : s.claimed with
  | true => exact releaseInterface_succeeds hc ha
  | false => rfl

/-- `rtl.close` with the bridge open. -/
def closingOpened (s : State) : State :=
  (afterOpenI2c (s.atPos { op := .closing, step := 0 })).atPos { op := .closing, step := closingPowerDown }

/-- With the tuner powered down. -/
def closingPowered (c : Config.Params) (s : State) : State :=
  ((afterMasks (triplesOf c.r820tPowerdown.toList) (withClosingShadow (closingOpened s))).setReady false).atPos
    { op := .closing, step := closingBridge }

/-- With the bridge closed. -/
def closingBlocked (c : Config.Params) (s : State) : State :=
  (afterCloseI2c (closingPowered c s)).atPos { op := .closing, step := closingRelease }

/-- With the interface released, where it was claimed. -/
def closingReleased (c : Config.Params) (s : State) : State :=
  (afterReleaseClaimed (closingBlocked c s)).atPos { op := .closing, step := closingEnd }

theorem closingOpened_keeps (s : State) : RegKeeps (s.setI2cOpen true) (closingOpened s) := by
  have hkeeps := regKeeps_afterDemodWrite Config.namedPage Config.regBridge Config.bridgeOpenValue Config.demodRegLen.bytes
    (s.atPos { op := .closing, step := 0 })
  exact { hkeeps with i2cOpen := rfl }

theorem closingOpened_bridge (s : State) : (closingOpened s).bridge = .forwarding := by
  rw [closingOpened, State.atPos_bridge, afterOpenI2c_bridge]

theorem TunerKeeps.notReady {s t : State} (h : TunerKeeps s t) (p : SeqPos) :
    TunerKeeps (s.setReady false) ((t.setReady false).atPos p) :=
  ⟨h.opened, h.claimed, h.i2cOpen, h.bridge, h.answers, h.xtalFreq, rfl, h.shadowed⟩

theorem closingPowered_keeps (c : Config.Params) (s : State) :
    TunerKeeps ((withClosingShadow (closingOpened s)).setReady false) (closingPowered c s) :=
  (keeps_afterMasks (triplesOf c.r820tPowerdown.toList) (withClosingShadow (closingOpened s))).notReady _

theorem closingBlocked_claimed (c : Config.Params) (s : State) : (closingBlocked c s).claimed = s.claimed := by
  obtain ⟨-, hblocked, -⟩ := keepsBlock_afterCloseI2c (closingPowered c s)
  rw [closingBlocked, State.atPos_claimed, hblocked, State.setI2cOpen_claimed, (closingPowered_keeps c s).claimed]
  exact (closingOpened_keeps s).claimed

/-! ### They report nothing -/

/-- No error was reported between the two states. -/
def sameReports (s t : State) : Prop := t.errors = s.errors ∧ t.fault = s.fault

theorem sameReports.trans {s t u : State} (h : sameReports s t) (g : sameReports t u) : sameReports s u :=
  ⟨g.1.trans h.1, g.2.trans h.2⟩

theorem keepsBlock.sameReports {s t : State} (h : keepsBlock s t) : sameReports s t := by
  obtain ⟨-, -, -, -, -, hfault, -, -, -, -, -, -, -, -, -, -, -, herrors, -⟩ := h
  exact ⟨herrors, hfault⟩

theorem sameReports_afterMasks : ∀ (l : List Triple) (s : State), sameReports s (afterMasks l s)
  | [], _ => ⟨rfl, rfl⟩
  | t :: ts, s => (keepsBlock_afterMask t s).sameReports.trans (sameReports_afterMasks ts _)

theorem sameReports_atPos (p : SeqPos) (s : State) : sameReports s (s.atPos p) := (keepsBlock_atPos p s).sameReports

theorem sameReports_afterOpenI2c (s : State) : sameReports s (afterOpenI2c s) := (keepsBlock_afterOpenI2c s).sameReports

theorem sameReports_afterCloseI2c (s : State) : sameReports s (afterCloseI2c s) := (keepsBlock_afterCloseI2c s).sameReports

theorem closingOpened_reports (s : State) : sameReports s (closingOpened s) :=
  (sameReports_atPos _ s).trans <| (sameReports_afterOpenI2c _).trans (sameReports_atPos _ _)

theorem closingPowered_reports (c : Config.Params) (s : State) : sameReports (closingOpened s) (closingPowered c s) :=
  (sameReports_afterMasks (triplesOf c.r820tPowerdown.toList) (withClosingShadow (closingOpened s))).trans
    (sameReports_atPos _ _)

theorem closingBlocked_reports (c : Config.Params) (s : State) : sameReports (closingPowered c s) (closingBlocked c s) :=
  (sameReports_afterCloseI2c _).trans (sameReports_atPos _ _)

theorem sameReports_afterReleaseClaimed (s : State) : sameReports s (afterReleaseClaimed s) := by
  unfold afterReleaseClaimed
  split <;> exact ⟨rfl, rfl⟩

theorem closingReleased_reports (c : Config.Params) (s : State) : sameReports s (closingReleased c s) :=
  (closingOpened_reports s).trans <| (closingPowered_reports c s).trans <| (closingBlocked_reports c s).trans <|
    (sameReports_afterReleaseClaimed _).trans (sameReports_atPos _ _)

variable {c : Config.Params}

theorem rtlCloseSteps_ok (ho : s.opened = true) (ha : allSucceed s) :
    rtlCloseSteps c s = .ok () (closingReleased c s) := by
  have hkeeps := closingOpened_keeps s
  have hpowered := closingPowered_keeps c s
  have ha1 : allSucceed (closingOpened s) := allSucceed_of_answers hkeeps.answers ha
  have ha2 : allSucceed (closingPowered c s) := allSucceed_of_answers (hpowered.answers.trans hkeeps.answers) ha
  have ho2 : (closingPowered c s).opened = true := hpowered.opened.trans (hkeeps.opened.trans ho)
  have hopen := attempt_ok closingPowerDown (openI2c_ok (s := s.atPos { op := .closing, step := 0 }) ho ha.next)
  have hpower := attempt_ok closingBridge (tunerClosing_ok (c := c) (s := closingOpened s) (closingOpened_bridge s) ha1)
  have hclose := attempt_ok closingRelease (closeI2c_ok ho2 ha2.next)
  have hrelease := attempt_ok closingEnd (releaseClaimed_ok (s := closingBlocked c s) (ha2 _))
  exact (Ctl.run_bind_ok (seqAt_run _ _ s)).trans <| (Ctl.run_bind_ok hopen).trans <| (Ctl.run_bind_ok hpower).trans <|
    (Ctl.run_bind_ok hclose).trans hrelease

theorem eq_closingReleased (ho : s.opened = true) (ha : allSucceed s) (h : rtlCloseSteps c s = .ok () u) :
    u = closingReleased c s :=
  (EStateM.Result.ok.inj (h.symm.trans (rtlCloseSteps_ok ho ha))).2

theorem rtlCloseSteps_ne_error (ho : s.opened = true) (ha : allSucceed s) (e : Stop) : rtlCloseSteps c s ≠ .error e u :=
  fun h => nomatch h.symm.trans (rtlCloseSteps_ok ho ha)

/-- The transfers of a close with the interface claimed (R212). -/
theorem closingReleased_trace (hc : s.claimed = true) : (closingReleased c s).trace =
    s.trace ++ [.control (setupPacket 0x40 0x0120 0x0011 1) [0x18]] ++
      List.zipWith entryTransfer c.r820tPowerdown.toList
        (maskedBytes c.r820tPowerdown.toList (shadowOrFree (closingOpened s))) ++
      [.control (setupPacket 0x40 0x0120 0x0011 1) [0x10], .release 1] := by
  have hopened : (closingOpened s).trace = s.trace ++ [.control (setupPacket 0x40 0x0120 0x0011 1) [0x18]] :=
    trace_afterBridgeWrite Config.bridgeOpenValue _
  have hpowered : (closingPowered c s).trace = (closingOpened s).trace ++ List.zipWith entryTransfer c.r820tPowerdown.toList
      (maskedBytes c.r820tPowerdown.toList (shadowOrFree (closingOpened s))) :=
    afterMasks_trace _ (s := withClosingShadow (closingOpened s)) rfl
  have hblocked : (closingBlocked c s).trace =
      (closingPowered c s).trace ++ [.control (setupPacket 0x40 0x0120 0x0011 1) [0x10]] :=
    trace_afterBridgeWrite Config.bridgeCloseValue _
  have hreleased : (closingReleased c s).trace = (closingBlocked c s).trace ++ [.release 1] := by
    rw [closingReleased, afterReleaseClaimed, if_pos ((closingBlocked_claimed c s).trans hc)]
    rfl
  rw [hreleased, hblocked, hpowered, hopened, List.append_assoc _ _ [Transfer.release 1]]
  rfl

/-- With a shadow they are those of the bridge's opening, the masked writes and its closing, then the release (R186, R212). -/
theorem closingReleased_trace_shadowed (hc : s.claimed = true) (hs : s.shadow.isSome = true) : (closingReleased c s).trace =
    (afterCloseI2c (afterMasks (triplesOf c.r820tPowerdown.toList) (afterOpenI2c s))).trace ++ [.release 1] := by
  obtain ⟨sh, hsh⟩ := Option.isSome_iff_exists.mp hs
  have hshadow : shadowOrFree (closingOpened s) = sh := by
    rw [shadowOrFree, (closingOpened_keeps s).shadow, State.setI2cOpen_shadow, hsh, Option.getD_some]
  have hopened : (afterOpenI2c s).trace = s.trace ++ [.control (setupPacket 0x40 0x0120 0x0011 1) [0x18]] :=
    trace_afterBridgeWrite Config.bridgeOpenValue s
  have hmasks := afterMasks_trace c.r820tPowerdown.toList (s := afterOpenI2c s) hsh
  have hclosed : ∀ u : State, (afterCloseI2c u).trace = u.trace ++ [.control (setupPacket 0x40 0x0120 0x0011 1) [0x10]] :=
    trace_afterBridgeWrite Config.bridgeCloseValue
  rw [closingReleased_trace hc, hshadow, hclosed, hmasks, hopened, List.append_assoc _ _ [Transfer.release 1]]
  rfl

end Close

/-- Settles O39: the four steps by `rtlCloseSteps_goesOn`, whatever the device answers; where every transfer succeeds, the state
they lead to by `rtlCloseSteps_ok`. -/
theorem rtlCloseRule : Obligations.RtlCloseRule := by
  unfold Obligations.RtlCloseRule
  intro s hallowed he
  have ho := opened_of_rtlClose_allowed hallowed
  rcases rtlCloseSteps_goesOn Config.chip s s (.refl ho he) with ⟨u, hrun, hclosing⟩ | ⟨u, hrun, hfatal⟩
  case inl =>
    have hcompletes := closeCompletes_of_closing hclosing
    have hreleased : allSucceed s → u = closingReleased Config.chip s := fun ha => eq_closingReleased ho ha hrun
    have hreports : allSucceed s → sameReports s u := fun ha => (hreleased ha).symm ▸ closingReleased_reports Config.chip s
    refine ⟨_, runHostOp_ok hallowed (Ctl.run_bind_ok (rtlClose_ok hrun)), fun _ => hcompletes,
      fun _ => .inl ⟨hcompletes, hclosing.ended⟩, hreports, fun ha hc => ?_⟩
    have htrace := closingReleased_trace (c := Config.chip) hc
    have hshadowed := closingReleased_trace_shadowed (c := Config.chip) hc
    rw [← hreleased ha] at htrace hshadowed
    exact ⟨_, (maskedBytes_length _ _).trans Vector.length_toList, htrace, hshadowed⟩
  case inr =>
    have hfails : ¬ allSucceed s := fun ha => rtlCloseSteps_ne_error ho ha _ hrun
    have hexec : exec .rtlClose s = .next u :=
      (runHostOp_allowed hallowed).trans (by rw [runOp, Ctl.run_bind_error (rtlClose_ended hrun)])
    refine ⟨u, hexec, fun h => ?_, fun _ => .inr ⟨hfatal.ended, hfatal.fault, hfatal.seq, hfatal.data, hfatal.reads,
      hfatal.record⟩, fun ha => absurd ha hfails, fun ha => absurd ha hfails⟩
    rcases h with hh | ha
    · exact absurd (hh.symm.trans hfatal.unhandled) nofun
    · exact absurd ha hfails

end Sys2Proof.Machine
end

section
/-! PROOFS. O45: the designer's taps as R221 gives them, and its two outcomes (44_fir_filter R221). -/

namespace Sys2Proof.Machine

section Designer

variable {rate f : Rat} {n : Nat}

/-- The forced length is odd (R221). -/
theorem oddLength_odd (n : Nat) : oddLength n % 2 = 1 := by
  unfold oddLength
  omega

/-- Taps whose sum is not 0 are divided by it (R221). -/
theorem normalizeTaps_of_ne {c : Config.Params} {v : List Rat} {t : Rat} (h : t ≠ 0) :
    normalizeTaps c v t = v.map fun x => rndApprox c (x / t) := if_neg h

/-- A function of the index that is R221's centre tap at the centre and its windowed sinc elsewhere is the un-normalised tap. -/
theorem rawTap_eq {c : Config.Params} {fr : Rat} {N : Nat} {v : Nat → Rat}
    (hcentre : ∀ i, i = N / 2 → v i = 2 * piRat * fr)
    (hother : ∀ i, i ≠ N / 2 → v i = sinTurns c (fr * ((i : Rat) - (N / 2 : Nat))) / ((i : Rat) - (N / 2 : Nat)) *
      windowAt c N i) : rawTap c fr N = v := by
  funext i
  by_cases hi : i = N / 2
  · rw [hcentre i hi]
    exact if_pos hi
  · rw [hother i hi]
    exact if_neg hi

/-- The designer with a positive cutoff (R221). -/
theorem exec_getLowpassFirCoeffs {s : State} {coefs : List Rat} (hrate : 0 < rate) (hf : 0 < f) (hn : 0 < n)
    (h : lowpass Config.chip rate f n = some coefs) :
    exec (.getLowpassFirCoeffs rate f n) s = .next (complete (.reals coefs) s) := by
  simp only [exec, execGetLowpassFirCoeffs, if_pos (And.intro hrate (And.intro hf.le hn)), h, give]

/-- The designer with a cutoff of 0, for which every tap is 0 (R221, G10). -/
theorem exec_getLowpassFirCoeffs_zero {s : State} (hrate : 0 < rate) (hn : 0 < n) :
    exec (.getLowpassFirCoeffs rate 0 n) s = .refused .zeroSum :=
  if_pos ⟨hrate, le_rfl, hn⟩

end Designer

/-- Settles O45: the taps are `normalizeTaps` of the raw ones, which `rawTap_eq` gives as R221 does. -/
theorem lowpassRule : Obligations.LowpassRule := by
  unfold Obligations.LowpassRule
  refine ⟨?taps, fun rate n s hrate hn => exec_getLowpassFirCoeffs_zero hrate hn⟩
  intro rate f n N s hrate hf hn hN
  obtain rfl : N = oddLength n := hN
  have hsome := lowpass_some (c := Config.chip) (rate := rate) (n := n) hf.ne'
  refine ⟨_, exec_getLowpassFirCoeffs hrate hf hn hsome, lowpass_length hsome, oddLength_odd n, ?_⟩
  intro v t hcentre hother ht ht0 i hi
  have hraw : rawTaps Config.chip rate f n = (List.range (oddLength n)).map v :=
    congrArg (List.map · _) (rawTap_eq hcentre hother)
  have hsum : sumRat (rawTaps Config.chip rate f n) = t := by rw [sumRat_eq, hraw, ht]
  rw [hsum, normalizeTaps_of_ne ht0, hraw, List.map_map, List.getElem?_map, List.getElem?_range hi]
  rfl

end Sys2Proof.Machine
end

section
/-! PROOFS. The FIR filter by its operations: a block loaded follows the last `H` elements of the buffer, whatever was loaded
before, and `get` is a sum over the taps, which a tap added at the end extends by one term (44_fir_filter R223 to R225). -/

namespace Sys2Proof.Machine

section Filter

variable {f : Fir}

/-! ## Loading (R224) -/

/-- The last `H` elements of the buffer, which the next block follows (R224). -/
def Fir.past (f : Fir) : List Rat := f.buf.drop (f.buf.length - f.history)

/-- The buffer holds a whole history (R23). -/
def Fir.Filled (f : Fir) : Prop := f.history ≤ f.buf.length

@[simp] theorem Fir.load_buf (x : List Rat) : (f.load x).buf = f.past ++ x := rfl

@[simp] theorem Fir.load_n (x : List Rat) : (f.load x).n = x.length := rfl

@[simp] theorem Fir.load_c (x : List Rat) : (f.load x).c = f.c := rfl

@[simp] theorem Fir.load_step (x : List Rat) : (f.load x).step = f.step := rfl

@[simp] theorem Fir.load_history (x : List Rat) : (f.load x).history = f.history := rfl

theorem Fir.past_length (h : f.Filled) : f.past.length = f.history := by
  rw [Fir.past, List.length_drop]
  exact Nat.sub_sub_self h

theorem Fir.load_filled (h : f.Filled) (x : List Rat) : (f.load x).Filled := by
  rw [Fir.Filled, Fir.load_history, Fir.load_buf, List.length_append, Fir.past_length h]
  exact Nat.le_add_right _ _

/-- What the next block but one follows: the last elements of the history and the next block. -/
theorem Fir.past_load (h : f.Filled) (x : List Rat) : (f.load x).past = (f.past ++ x).drop x.length := by
  have hlength : (f.past ++ x).length - f.history = x.length := by
    rw [List.length_append, Fir.past_length h, Nat.add_sub_cancel_left]
  rw [Fir.past, Fir.load_buf, Fir.load_history, hlength]

/-! ## Loading blocks one after another -/

@[simp] theorem Fir.feed_nil : f.feed [] = f := rfl

@[simp] theorem Fir.feed_cons (b : List Rat) (bs : List (List Rat)) : f.feed (b :: bs) = (f.load b).feed bs := rfl

@[simp] theorem Fir.feed_c (blocks : List (List Rat)) : (f.feed blocks).c = f.c := by
  induction blocks generalizing f with
  | nil => rfl
  | cons b bs ih => rw [Fir.feed_cons, ih, Fir.load_c]

@[simp] theorem Fir.feed_step (blocks : List (List Rat)) : (f.feed blocks).step = f.step := by
  induction blocks generalizing f with
  | nil => rfl
  | cons b bs ih => rw [Fir.feed_cons, ih, Fir.load_step]

/-- After any blocks the history is the last elements of the first history and all of them. -/
theorem Fir.past_feed (h : f.Filled) (blocks : List (List Rat)) :
    (f.feed blocks).past = (f.past ++ blocks.flatten).drop blocks.flatten.length := by
  induction blocks generalizing f with
  | nil => simp
  | cons b bs ih =>
    have hle : b.length ≤ (f.past ++ b).length := by simp
    rw [Fir.feed_cons, ih (Fir.load_filled h b), Fir.past_load h, List.flatten_cons, List.length_append,
      ← List.append_assoc, ← List.drop_drop, List.drop_append_of_le_length hle]

/-- A block loaded after others: the last elements of the first history, the blocks and the block itself. -/
theorem Fir.load_feed_buf (h : f.Filled) (blocks : List (List Rat)) (x : List Rat) :
    ((f.feed blocks).load x).buf = (f.past ++ blocks.flatten ++ x).drop blocks.flatten.length := by
  have hle : blocks.flatten.length ≤ (f.past ++ blocks.flatten).length := by simp
  rw [Fir.load_buf, Fir.past_feed h, List.drop_append_of_le_length hle]

/-! ## A new filter (R223) -/

section New

variable {c : Config.Params} {coefs : List Rat} {step : Nat}

@[simp] theorem Fir.make_c : (Fir.make c coefs step).c = (coefs.map (rnd32 c)).reverse := rfl

@[simp] theorem Fir.make_step : (Fir.make c coefs step).step = step := rfl

/-- `H` of a new filter is `(L - 1) * step` (R23). -/
@[simp] theorem Fir.make_history : (Fir.make c coefs step).history = (coefs.length - 1) * step := by
  simp [Fir.history]

theorem Fir.make_filled : (Fir.make c coefs step).Filled := by
  rw [Fir.Filled, Fir.make_history]
  exact (List.length_replicate ..).ge

@[simp] theorem Fir.make_past : (Fir.make c coefs step).past = List.replicate ((coefs.length - 1) * step) 0 := by
  rw [Fir.past, Fir.make_history]
  simp [Fir.make]

/-- The buffer of a new filter after any loads: the last elements of the zeros and all that was loaded (R224). -/
theorem Fir.load_feed_make_buf (blocks : List (List Rat)) (last : List Rat) :
    (((Fir.make c coefs step).feed blocks).load last).buf =
      (List.replicate ((coefs.length - 1) * step) 0 ++ blocks.flatten ++ last).drop blocks.flatten.length := by
  rw [Fir.load_feed_buf Fir.make_filled, Fir.make_past]

end New

/-! ## The sum (R225) -/

/-- An element behind those dropped. -/
theorem getD_drop (l : List Rat) (m k : Nat) : (l.drop m).getD k 0 = l.getD (m + k) 0 := by
  rw [List.getD_eq_getElem?_getD, List.getD_eq_getElem?_getD, List.getElem?_drop]

/-- One step on, a position is one step less. -/
theorem getD_drop_step (l : List Rat) (step j : Nat) :
    (l.drop step).getD (j * step) 0 = l.getD ((j + 1) * step) 0 := by
  rw [getD_drop, Nat.succ_mul, Nat.add_comm]

theorem dot_cons (c : Rat) (cs buf : List Rat) (step : Nat) :
    dot (c :: cs) buf step = c * buf.getD 0 0 + dot cs (buf.drop step) step := by
  rw [dot, List.headD_eq_getD]

/-- The sum over the taps, tap `j` at `j` steps. -/
theorem dot_eq_sum (cs buf : List Rat) (step : Nat) :
    dot cs buf step = ((List.range cs.length).map fun j => cs.getD j 0 * buf.getD (j * step) 0).sum := by
  induction cs generalizing buf with
  | nil => rfl
  | cons c cs ih =>
    rw [dot_cons, ih, List.length_cons, List.range_succ_eq_map, List.map_cons, List.map_map, List.sum_cons]
    simp only [Function.comp_def, List.getD_cons_zero, List.getD_cons_succ, Nat.zero_mul, Nat.succ_eq_add_one,
      getD_drop_step]

/-- One tap more: its product stands at the end. -/
theorem dot_concat (cs buf : List Rat) (c : Rat) (step : Nat) :
    dot (cs ++ [c]) buf step = dot cs buf step + c * buf.getD (cs.length * step) 0 := by
  induction cs generalizing buf with
  | nil =>
    rw [List.nil_append, dot_cons, List.length_nil, Nat.zero_mul]
    exact add_comm ..
  | cons d cs ih => rw [List.cons_append, dot_cons, dot_cons, ih, getD_drop_step, List.length_cons, add_assoc]

/-- `get` as the sum of R225. -/
theorem Fir.get_eq_sum (i : Nat) :
    f.get i = ((List.range f.c.length).map fun j => f.c.getD j 0 * f.buf.getD (i + j * f.step) 0).sum := by
  simp only [Fir.get, dot_eq_sum, getD_drop]

end Filter

end Sys2Proof.Machine
end

section
/-! PROOFS. O46: the filter's three operations, each by its refusals and what it gives (44_fir_filter R223 to R225). -/

namespace Sys2Proof.Machine

variable {s : State}

/-- `fir.new` of at least one coefficient and a positive step (R223). -/
theorem exec_firNew {coefs : List Rat} {step : Nat} (hcoefs : coefs ≠ []) (hstep : 0 < step) :
    exec (.firNew coefs step) s =
      .next (complete (.handle s.firs.length) { s with firs := s.firs ++ [Fir.make Config.chip coefs step] }) :=
  if_pos ⟨hcoefs, hstep⟩

section Instance

variable {fir : Nat} {f : Fir}

/-- `fir.load` of an instance (R224). -/
theorem exec_firLoad (h : s.firs[fir]? = some f) (samples : List Rat) :
    exec (.firLoad fir samples) s = .next (complete .nothing { s with firs := s.firs.set fir (f.load samples) }) := by
  simp only [exec, execFirLoad, h]
  rfl

/-- `fir.get` of an instance, inside and outside its block (R225). -/
theorem exec_firGet (h : s.firs[fir]? = some f) (i : Int) :
    exec (.firGet fir i) s =
      if 0 ≤ i ∧ i < f.n then .next (complete (.real (f.get i.toNat)) s) else .refused (.getOutOfRange i) := by
  simp only [exec, execFirGet, h]
  rfl

end Instance

/-- Settles O46: `exec_firNew`, `exec_firLoad` and `Fir.load_feed_make_buf`, and `exec_firGet` with `Fir.get_eq_sum`. -/
theorem firRule : Obligations.FirRule := by
  unfold Obligations.FirRule
  refine ⟨⟨fun coefs step s hcoefs hstep => exec_firNew hcoefs hstep, fun fir samples f s h => exec_firLoad h samples,
    fun coefs step blocks last => ⟨Fir.load_feed_make_buf blocks last, Fir.load_n last⟩⟩,
    fun fir i f s h => ⟨?inside, ?outside⟩⟩
  case inside =>
    rintro k rfl hk
    rw [exec_firGet h, if_pos ⟨Int.natCast_nonneg k, Int.ofNat_lt.mpr hk⟩, Int.toNat_natCast, Fir.get_eq_sum]
  case outside =>
    intro hi
    have hout : ¬ (0 ≤ i ∧ i < f.n) := by omega
    rw [exec_firGet h, if_neg hout]

end Sys2Proof.Machine
end

section
/-! PROOFS. O47: with the history as zeros before the first sample, the reversed coefficients at rising positions are the
convolution's terms, the last one first (44_fir_filter R227). -/

namespace Sys2Proof.Machine

/-- Behind `p` zeros a position before the first sample reads 0. -/
theorem getD_zeros_append (p k : Nat) (x : List Rat) :
    (List.replicate p 0 ++ x).getD k 0 = if p ≤ k then x.getD (k - p) 0 else 0 := by
  by_cases h : p ≤ k
  case pos => rw [if_pos h, List.getD_append_right (h := by simpa using h), List.length_replicate]
  case neg =>
    have hk : k < p := Nat.lt_of_not_le h
    rw [if_neg h, List.getD_append (h := by simpa using hk), List.getD_replicate _ hk]

/-- The taps from number `m` on, reversed, over the samples behind their history: tap `m` comes last, `m` steps before `t`. -/
theorem dot_reverse_eq_convolve (step t : Nat) (x cs : List Rat) (m : Nat) :
    dot cs.reverse ((List.replicate ((m + cs.length - 1) * step) 0 ++ x).drop t) step = convolve step x cs m t := by
  induction cs generalizing m with
  | nil => rfl
  | cons c cs ih =>
    have hpad : m + (cs.length + 1) - 1 = m + 1 + cs.length - 1 := by omega
    have hlast : m + 1 + cs.length - 1 = m + cs.length := by omega
    have hsample : ((List.replicate ((m + cs.length) * step) 0 ++ x).drop t).getD (cs.length * step) 0 =
        if m * step ≤ t then x.getD (t - m * step) 0 else 0 := by
      rw [getD_drop, getD_zeros_append, Nat.add_mul]
      simp only [Nat.add_le_add_iff_right, Nat.add_sub_add_right]
    rw [List.reverse_cons, dot_concat, List.length_cons, hpad, ih, List.length_reverse, hlast, hsample, convolve,
      add_comm]

/-- Settles O47: `Fir.load_feed_make_buf` and `dot_reverse_eq_convolve`. -/
theorem firConvolution : Obligations.FirConvolution := by
  unfold Obligations.FirConvolution
  intro coefs step blocks last i _
  have hconvolve := dot_reverse_eq_convolve step (blocks.flatten.length + i) (blocks.flatten ++ last)
    (coefs.map (rnd32 Config.chip)) 0
  rw [List.length_map, Nat.zero_add] at hconvolve
  rw [Fir.get, Fir.load_feed_make_buf, List.drop_drop, List.append_assoc, Fir.load_c, Fir.feed_c, Fir.make_c, Fir.load_step,
    Fir.feed_step, Fir.make_step, hconvolve]

end Sys2Proof.Machine
end

section
/-! PROOFS. O48: the constructors of units U6 to U9 and U11, each with positive operands (45_downsamplers R236, R240;
46_fm_am_demodulators R251, R255; 47_stereo_deemphasis_averager R271, R272). -/

namespace Sys2Proof.Machine

variable {s : State} {inRate outRate : Rat}

/-- `ds.new` of at least one coefficient (R236). -/
theorem exec_dsNew {coefs : List Rat} (hin : 0 < inRate) (hout : 0 < outRate) (hcoefs : coefs ≠ []) :
    exec (.dsNew inRate outRate coefs) s = .next (complete (.handle s.dss.length)
      { s with dss := s.dss ++ [Downsampler.make Config.chip inRate outRate coefs] }) :=
  if_pos ⟨hin, hout, hcoefs⟩

/-- `iqds.new` of at least one coefficient (R240). -/
theorem exec_iqdsNew {coefs : List Rat} (hin : 0 < inRate) (hout : 0 < outRate) (hcoefs : coefs ≠ []) :
    exec (.iqdsNew inRate outRate coefs) s = .next (complete (.handle s.iqdss.length)
      { s with iqdss := s.iqdss ++ [IqDownsampler.make Config.chip inRate outRate coefs] }) :=
  if_pos ⟨hin, hout, hcoefs⟩

section Demodulators

variable {filterFreq : Rat} {kernelLen : Nat} {coefs : List Rat}

/-- `fm.new` where the designer gives the coefficients of the channel filter (R251). -/
theorem exec_fmNew {maxF : Rat} (hin : 0 < inRate) (hout : 0 < outRate) (hmax : 0 < maxF) (hfreq : 0 < filterFreq)
    (hlen : 0 < kernelLen) (h : lowpass Config.chip inRate filterFreq kernelLen = some coefs) :
    exec (.fmNew inRate outRate maxF filterFreq kernelLen) s = .next (complete (.handle s.fms.length)
      { s with fms := s.fms ++ [Fm.make Config.chip inRate outRate maxF coefs] }) := by
  have hoperands : 0 < inRate ∧ 0 < outRate ∧ 0 < maxF ∧ 0 < filterFreq ∧ 0 < kernelLen := ⟨hin, hout, hmax, hfreq, hlen⟩
  simp only [exec, execFmNew, if_pos hoperands, h, give]

/-- `am.new` where the designer gives the coefficients of the channel filter (R255). -/
theorem exec_amNew (hin : 0 < inRate) (hout : 0 < outRate) (hfreq : 0 < filterFreq) (hlen : 0 < kernelLen)
    (h : lowpass Config.chip inRate filterFreq kernelLen = some coefs) :
    exec (.amNew inRate outRate filterFreq kernelLen) s = .next (complete (.handle s.ams.length)
      { s with ams := s.ams ++ [Am.make Config.chip inRate outRate coefs] }) := by
  have hoperands : 0 < inRate ∧ 0 < outRate ∧ 0 < filterFreq ∧ 0 < kernelLen := ⟨hin, hout, hfreq, hlen⟩
  simp only [exec, execAmNew, if_pos hoperands, h, give]

end Demodulators

section Separator

variable {c : Config.Params} {sampleRate pilotFreq : Rat}

/-- `st.new` (R271). -/
theorem exec_stNew (hrate : 0 < sampleRate) (hpilot : 0 < pilotFreq) :
    exec (.stNew sampleRate pilotFreq) s = .next (complete (.handle s.sts.length)
      { s with sts := s.sts ++ [Stereo.make Config.chip sampleRate pilotFreq] }) :=
  if_pos ⟨hrate, hpilot⟩

/-- Entry `b` of the tables is 0.01 Hz per entry away from the pilot, entry 4000 (R272). -/
theorem binFreq_eq (pilotFreq : Rat) (b : Nat) : binFreq pilotFreq b = pilotFreq + ((b : Rat) - 4000) / 100 := by
  simp only [binFreq, Config.pilotCentre, Config.pilotStep, Nat.cast_ofNat, mul_one_div]

theorem Stereo.make_sinTab_length : (Stereo.make c sampleRate pilotFreq).sinTab.length = Config.pilotTableLen := by
  simp [Stereo.make]

theorem Stereo.make_cosTab_length : (Stereo.make c sampleRate pilotFreq).cosTab.length = Config.pilotTableLen := by
  simp [Stereo.make]

variable {b : Nat} (hb : b < Config.pilotTableLen)
include hb

/-- `SIN[b]` of a new separator (R272). -/
theorem Stereo.make_sinTab_getElem? : (Stereo.make c sampleRate pilotFreq).sinTab[b]? =
    some (rndApprox c (sinTurns c ((pilotFreq + ((b : Rat) - 4000) / 100) / sampleRate))) := by
  rw [Stereo.make, List.getElem?_map, List.getElem?_range hb, Option.map_some, sinEntry, binFreq_eq]

/-- `COS[b]` of a new separator (R272). -/
theorem Stereo.make_cosTab_getElem? : (Stereo.make c sampleRate pilotFreq).cosTab[b]? =
    some (rndApprox c (cosTurns c ((pilotFreq + ((b : Rat) - 4000) / 100) / sampleRate))) := by
  rw [Stereo.make, List.getElem?_map, List.getElem?_range hb, Option.map_some, cosEntry, binFreq_eq]

end Separator

/-- Settles O48: the constructors' equations, the designer's coefficients by `lowpass_some`, and the tables of
`Stereo.make`. -/
theorem constructionRule : Obligations.ConstructionRule := by
  unfold Obligations.ConstructionRule
  refine ⟨?downsamplers, ?demodulators, ?separator⟩
  case downsamplers =>
    intro inRate outRate coefs s hin hout hcoefs
    exact ⟨exec_dsNew hin hout hcoefs, exec_iqdsNew hin hout hcoefs⟩
  case demodulators =>
    intro inRate outRate maxF filterFreq kernelLen s hin hout hmax hfreq hlen
    have hdesigned := lowpass_some (c := Config.chip) (rate := inRate) (n := kernelLen) hfreq.ne'
    exact ⟨_, hdesigned, exec_fmNew hin hout hmax hfreq hlen hdesigned, exec_amNew hin hout hfreq hlen hdesigned⟩
  case separator =>
    intro sampleRate pilotFreq s hrate hpilot
    exact ⟨_, exec_stNew hrate hpilot, rfl, rfl, rfl, rfl, rfl, rfl, rfl, Stereo.make_sinTab_length,
      Stereo.make_cosTab_length, fun b hb => ⟨Stereo.make_sinTab_getElem? hb, Stereo.make_cosTab_getElem? hb⟩⟩

end Sys2Proof.Machine
end

section
/-! PROOFS. O49: `ds.downsample` is the run of its instance; the outputs of a run, and that its read positions lie inside the
block (45_downsamplers R237 to R239, R243). -/

namespace Sys2Proof.Machine

/-! ## The read positions (R238, R243) -/

/-- Every output kept is read inside the block (R238). -/
theorem readPos_lt {n j : Nat} {inRate outRate : Rat} (hin : 0 < inRate) (hout : 0 < outRate)
    (hj : j < outLen n inRate outRate) : readPos j inRate outRate < n := by
  have hcount : ((j : Int) + 1) ≤ ((n : Rat) * outRate / inRate).floor := by
    unfold outLen at hj
    omega
  have hspan : ((j : Rat) + 1) * inRate ≤ n * outRate := by
    have hle := Rat.le_floor_iff.mp hcount
    push_cast at hle
    exact (le_div_iff₀ hin).mp hle
  have hbefore : (j : Rat) * inRate / outRate < (n : Int) := by
    rw [div_lt_iff₀ hout, Int.cast_natCast]
    linarith
  have hfloor : ((j : Rat) * inRate / outRate).floor < (n : Int) := Rat.floor_lt_iff.mpr hbefore
  have hn : (0 : Rat) < (n : Int) := lt_of_le_of_lt (by positivity) hbefore
  have hn' : (0 : Int) < n := Int.cast_pos.mp hn
  unfold readPos
  omega

section Kept

variable {c : Config.Params} {f : Fir} {n j : Nat} {inRate outRate : Rat}

/-- Output `j` of a block (R237). -/
theorem decimate_getElem? (hj : j < outLen n inRate outRate) :
    (decimate c f n inRate outRate)[j]? = some (rnd32 c (f.get (readPos j inRate outRate))) := by
  rw [decimate, List.getElem?_map, List.getElem?_range hj, Option.map_some]

/-- Pair `j` of a block (R241). -/
theorem decimatePairs_getElem? (hj : j < outLen n inRate outRate) :
    (decimatePairs c f n inRate outRate)[j]? = some (rnd32 c (f.get (2 * readPos j inRate outRate)),
      rnd32 c (f.get (2 * readPos j inRate outRate + 1))) := by
  rw [decimatePairs, List.getElem?_map, List.getElem?_range hj, Option.map_some]

end Kept

/-! ## The operation (R237, R239) -/

/-- The run of a stream of another rate is `RateMismatch` (R239). -/
theorem Downsampler.run_mismatch {c : Config.Params} {d : Downsampler} {x : MonoFloat} (hrate : x.rate ≠ d.inRate) :
    d.run c x = .error (rateMismatch d.inRate x.rate) :=
  if_neg hrate

section Instance

variable {s : State} {ds : Nat} {d : Downsampler} {samples : List Rat} {rate : Rat} (h : s.dss[ds]? = some d)

include h

/-- `ds.downsample` where the instance's run answers. -/
theorem exec_dsDownsample {y : MonoFloat} {d' : Downsampler}
    (hrun : d.run Config.chip { samples := samples, rate := rate } = .ok (y, d')) :
    exec (.dsDownsample ds samples rate) s = .next (complete (.mono y) { s with dss := s.dss.set ds d' }) := by
  simp only [exec, execDsDownsample, h, hrun]
  rfl

/-- `ds.downsample` of a stream of another rate (R239). -/
theorem exec_dsDownsample_mismatch (hrate : rate ≠ d.inRate) :
    exec (.dsDownsample ds samples rate) s = .next (takeError (rateMismatch d.inRate rate) s) := by
  have hrun : d.run Config.chip { samples := samples, rate := rate } = .error (rateMismatch d.inRate rate) :=
    Downsampler.run_mismatch hrate
  simp only [exec, execDsDownsample, h, hrun]

end Instance

/-- A rate that is not the downsampler's delivers its record and nothing else (R239, R307). -/
theorem rateMismatch_onlyDelivered (expected got : Rat) (s : State) :
    onlyDelivered { kind := .rateMismatch, info := .rates expected got, pos := none } s
      (takeError (rateMismatch expected got) s) :=
  takeError_onlyDelivered (e := rateMismatch expected got) rfl s

/-- Settles O49: `Downsampler.run_ok` and `Downsampler.run_mismatch` through the operation, and `readPos_lt`. -/
theorem downsampleRule : Obligations.DownsampleRule := by
  unfold Obligations.DownsampleRule
  intro ds samples rate d s h
  refine ⟨?own, fun hrate => ⟨_, exec_dsDownsample_mismatch h hrate, rateMismatch_onlyDelivered _ _ s⟩⟩
  case own =>
    intro hrate
    have hrun := Downsampler.run_ok (c := Config.chip) (d := d) (x := { samples := samples, rate := rate }) hrate
    have hlength := decimate_length (c := Config.chip) (d.filter.load samples) samples.length d.inRate d.outRate
    exact ⟨_, exec_dsDownsample h hrun, hrun, hlength, fun j hj => decimate_getElem? (hlength ▸ hj),
      fun hin hout j hj => readPos_lt hin hout (hlength ▸ hj)⟩

end Sys2Proof.Machine
end

section
/-! PROOFS. O50: the interleaved stream by its even and odd positions, and `iqds.downsample` as the run of its instance
(45_downsamplers R239, R241). -/

namespace Sys2Proof.Machine

/-! ## The interleaved stream (R241) -/

theorem interleave_cons (p : Rat × Rat) (iq : List (Rat × Rat)) :
    interleave (p :: iq) = p.1 :: p.2 :: interleave iq := rfl

@[simp] theorem interleave_length (iq : List (Rat × Rat)) : (interleave iq).length = 2 * iq.length := by
  induction iq with
  | nil => rfl
  | cons p iq ih => rw [interleave_cons, List.length_cons, List.length_cons, ih, List.length_cons, Nat.mul_succ]

/-- `I` stands at the even and `Q` at the odd positions. -/
theorem interleave_getElem? (iq : List (Rat × Rat)) (k : Nat) :
    (interleave iq)[2 * k]? = iq[k]?.map Prod.fst ∧ (interleave iq)[2 * k + 1]? = iq[k]?.map Prod.snd := by
  induction iq generalizing k with
  | nil => exact ⟨rfl, rfl⟩
  | cons p iq ih =>
    cases k with
    | zero => exact ⟨rfl, rfl⟩
    | succ k => exact ih k

/-! ## The operation (R239, R241) -/

/-- The run of a stream of another rate is `RateMismatch` (R239). -/
theorem IqDownsampler.run_mismatch {c : Config.Params} {q : IqDownsampler} {x : IqFloat} (hrate : x.rate ≠ q.inRate) :
    q.run c x = .error (rateMismatch q.inRate x.rate) :=
  if_neg hrate

section Instance

variable {s : State} {h : Nat} {q : IqDownsampler} {iq : List (Rat × Rat)} {rate : Rat} (hq : s.iqdss[h]? = some q)
include hq

/-- `iqds.downsample` where the instance's run answers. -/
theorem exec_iqdsDownsample {y : IqFloat} {q' : IqDownsampler}
    (hrun : q.run Config.chip { samples := iq, rate := rate } = .ok (y, q')) :
    exec (.iqdsDownsample h iq rate) s = .next (complete (.iq y) { s with iqdss := s.iqdss.set h q' }) := by
  simp only [exec, execIqdsDownsample, hq, hrun]
  rfl

/-- `iqds.downsample` of a stream of another rate (R239). -/
theorem exec_iqdsDownsample_mismatch (hrate : rate ≠ q.inRate) :
    exec (.iqdsDownsample h iq rate) s = .next (takeError (rateMismatch q.inRate rate) s) := by
  have hrun : q.run Config.chip { samples := iq, rate := rate } = .error (rateMismatch q.inRate rate) :=
    IqDownsampler.run_mismatch hrate
  simp only [exec, execIqdsDownsample, hq, hrun]

end Instance

/-- Settles O50: `IqDownsampler.run_ok` and `IqDownsampler.run_mismatch` through the operation, the stream being
`interleave`. -/
theorem iqDownsampleRule : Obligations.IqDownsampleRule := by
  unfold Obligations.IqDownsampleRule
  intro h iq rate q s hq
  refine ⟨?own, fun hrate => ⟨_, exec_iqdsDownsample_mismatch hq hrate, rateMismatch_onlyDelivered _ _ s⟩⟩
  case own =>
    intro hrate
    have hrun := IqDownsampler.run_ok (c := Config.chip) (q := q) (x := { samples := iq, rate := rate }) hrate
    have hlength := decimatePairs_length (c := Config.chip) (q.filter.load (interleave iq)) iq.length q.inRate q.outRate
    refine ⟨interleave iq, _, exec_iqdsDownsample hq hrun, hrun, interleave_length iq,
      interleave_getElem? iq, hlength, ?_⟩
    rintro j r hj rfl
    exact decimatePairs_getElem? (hlength ▸ hj)

end Sys2Proof.Machine
end

section
/-! PROOFS. O51: over the interleaved stream a filter of step 2 at position `2 r + b` is the convolution of channel `b` at `r`,
that is the filter of step 1 over that channel (44_fir_filter R227, 45_downsamplers R242). -/

namespace Sys2Proof.Machine

/-! ## One channel of the interleaved stream -/

/-- `sel` chooses from each pair what the interleaved stream has at the positions `2 k + b` (R241). -/
structure InterleavedAt (b : Nat) (sel : Rat × Rat → Rat) : Prop where
  offset : b < 2
  channel : ∀ (iq : List (Rat × Rat)) (k : Nat), (interleave iq)[2 * k + b]? = iq[k]?.map sel

theorem interleavedAt_fst : InterleavedAt 0 Prod.fst := ⟨Nat.two_pos, fun iq k => (interleave_getElem? iq k).left⟩

theorem interleavedAt_snd : InterleavedAt 1 Prod.snd := ⟨Nat.one_lt_two, fun iq k => (interleave_getElem? iq k).right⟩

theorem interleave_append (x y : List (Rat × Rat)) : interleave (x ++ y) = interleave x ++ interleave y :=
  List.flatMap_append ..

/-- Blocks interleaved one by one are their concatenation interleaved. -/
theorem interleave_flatten (blocks : List (List (Rat × Rat))) :
    (blocks.map interleave).flatten = interleave blocks.flatten := by
  induction blocks with
  | nil => rfl
  | cons b bs ih => rw [List.map_cons, List.flatten_cons, ih, List.flatten_cons, interleave_append]

section Channel

variable {b : Nat} {sel : Rat × Rat → Rat} (h : InterleavedAt b sel)
include h

theorem InterleavedAt.getD (iq : List (Rat × Rat)) (k : Nat) :
    (interleave iq).getD (2 * k + b) 0 = (iq.map sel).getD k 0 := by
  rw [List.getD_eq_getElem?_getD, h.channel, List.getD_eq_getElem?_getD, List.getElem?_map]

/-- Two steps back in the interleaved stream are one step back in the channel: a filter never mixes I with Q. -/
theorem InterleavedAt.convolve_eq (iq : List (Rat × Rat)) (cs : List Rat) (m t : Nat) :
    convolve 2 (interleave iq) cs m (2 * t + b) = convolve 1 (iq.map sel) cs m t := by
  have hb := h.offset
  induction cs generalizing m with
  | nil => rfl
  | cons c cs ih =>
    rw [convolve, convolve, ih]
    by_cases hm : m ≤ t
    case pos =>
      have hpos : 2 * t + b - m * 2 = 2 * (t - m * 1) + b := by omega
      rw [if_pos (by omega), if_pos (by omega), hpos, h.getD]
    case neg => rw [if_neg (by omega), if_neg (by omega)]

/-- The step-2 filter over the interleaved blocks and the step-1 filter over the channel's blocks (R242). -/
theorem InterleavedAt.get_eq (coefs : List Rat) (blocks : List (List (Rat × Rat))) (iq : List (Rat × Rat)) {r : Nat}
    (hr : r < iq.length) :
    (((Fir.make Config.chip coefs 2).feed (blocks.map interleave)).load (interleave iq)).get (2 * r + b) =
      (((Fir.make Config.chip coefs 1).feed (blocks.map fun x => x.map sel)).load (iq.map sel)).get r := by
  have hb := h.offset
  have hinside : 2 * r + b < (interleave iq).length := by
    rw [interleave_length]
    omega
  have hinside' : r < (iq.map sel).length := by rwa [List.length_map]
  have hpos : 2 * blocks.flatten.length + (2 * r + b) = 2 * (blocks.flatten.length + r) + b := by omega
  rw [firConvolution coefs 2 _ _ _ hinside, firConvolution coefs 1 _ _ _ hinside', interleave_flatten, interleave_length,
    ← interleave_append, ← List.map_flatten, ← List.map_append, List.length_map, hpos, h.convolve_eq]

end Channel

/-! ## The two real downsamplers -/

/-- Where one filter reads `g` at the even and `g'` at the odd positions of the block, the pairs are the outputs of both. -/
theorem decimatePairs_eq_zip {c : Config.Params} {f g g' : Fir} {n : Nat} {inRate outRate : Rat} (hin : 0 < inRate)
    (hout : 0 < outRate) (hI : ∀ r, r < n → f.get (2 * r) = g.get r) (hQ : ∀ r, r < n → f.get (2 * r + 1) = g'.get r) :
    decimatePairs c f n inRate outRate = (decimate c g n inRate outRate).zip (decimate c g' n inRate outRate) := by
  rw [decimate, decimate, List.zip_map']
  refine List.map_congr_left fun j hj => ?_
  have hinside := readPos_lt hin hout (List.mem_range.mp hj)
  exact Prod.ext (congrArg (rnd32 c) (hI _ hinside)) (congrArg (rnd32 c) (hQ _ hinside))

/-- Settles O51: `InterleavedAt.get_eq` for both channels, and `decimatePairs_eq_zip`. -/
theorem iqEqualsTwoReal : Obligations.IqEqualsTwoReal := by
  unfold Obligations.IqEqualsTwoReal
  intro inRate outRate coefs blocks iq y yI yQ q dI dQ hin hout hy hyI hyQ
  rw [IqDownsampler.run_ok rfl] at hy
  rw [Downsampler.run_ok rfl] at hyI hyQ
  cases hy
  cases hyI
  cases hyQ
  have hpairs := decimatePairs_eq_zip (c := Config.chip) hin hout
    (fun r hr => interleavedAt_fst.get_eq coefs blocks iq hr) (fun r hr => interleavedAt_snd.get_eq coefs blocks iq hr)
  dsimp only [IqDownsampler.feed, IqDownsampler.make, Downsampler.feed, Downsampler.make, Config.realStep]
  rw [List.length_map, List.length_map, hpairs]
  refine ⟨List.map_fst_zip ?_, List.map_snd_zip ?_, rfl, rfl⟩
  all_goals rw [decimate_length, decimate_length]

end Sys2Proof.Machine
end

section
/-! PROOFS. O52: `fm.demodulate` is the run of its instance, which is the discriminator over the downsampled block, each
sample against the one before it (46_fm_am_demodulators R252, R253). -/

namespace Sys2Proof.Machine

variable {c : Config.Params}

/-! ## The carrier flag (R253, R258) -/

theorem carrierFlag_eq_true_iff (p : Rat) (len : Nat) : carrierFlag p len = true ↔ 2 / 1000 * (len : Rat) < p :=
  decide_eq_true_iff

theorem power_eq_sum (iq : List (Rat × Rat)) : power iq = (iq.map fun p => p.1 * p.1 + p.2 * p.2).sum := sumRat_eq _

/-! ## The discriminator (R252) -/

/-- Sample `k` of the block against entry `k` of the block with the previous sample put in front. -/
theorem discriminateAll_getElem? {gain pI pQ i q i' q' : Rat} {l : List (Rat × Rat)} {k : Nat}
    (hk : l[k]? = some (i, q)) (hbefore : ((pI, pQ) :: l)[k]? = some (i', q')) :
    (discriminateAll c gain pI pQ l)[k]? = some (discriminate c gain i' q' i q) := by
  induction l generalizing pI pQ k with
  | nil => cases hk
  | cons p l ih =>
    cases k with
    | zero =>
      cases hk
      cases hbefore
      rfl
    | succ k => exact ih hk hbefore

/-! ## The run (R252) -/

section Run

variable {m : Fm} {x : IqFloat}

/-- What the demodulator becomes over the downsampled block `y`, its downsampler becoming `q` (R252, R253). -/
def Fm.after (m : Fm) (y : IqFloat) (q : IqDownsampler) : Fm :=
  { m with
    iqds := q
    prevI := (y.samples.getLast?.getD (m.prevI, m.prevQ)).1
    prevQ := (y.samples.getLast?.getD (m.prevI, m.prevQ)).2
    carrier := carrierFlag (power y.samples) y.samples.length }

theorem Fm.run_of_downsampled {y : IqFloat} {q : IqDownsampler} (hrun : m.iqds.run c x = .ok (y, q)) :
    m.run c x = .ok ({ samples := discriminateAll c m.gain m.prevI m.prevQ y.samples, rate := y.rate }, m.after y q) := by
  rw [Fm.run, hrun]
  rfl

/-- The run of a stream of another rate is `RateMismatch` (R239). -/
theorem Fm.run_mismatch (hrate : x.rate ≠ m.iqds.inRate) : m.run c x = .error (rateMismatch m.iqds.inRate x.rate) := by
  rw [Fm.run, IqDownsampler.run_mismatch hrate]

end Run

/-! ## The operation (R252, R26) -/

section Instance

variable {s : State} {h : Nat} {m : Fm} {iq : List (Rat × Rat)} {rate : Rat} (hm : s.fms[h]? = some m)
include hm

/-- `fm.demodulate` where the instance's run answers. -/
theorem exec_fmDemodulate {y : MonoFloat} {m' : Fm}
    (hrun : m.run Config.chip { samples := iq, rate := rate } = .ok (y, m')) :
    exec (.fmDemodulate h iq rate) s =
      .next (complete (.demodulated y m'.carrier) { s with fms := s.fms.set h m' }) := by
  simp only [exec, execFmDemodulate, hm, hrun]
  rfl

/-- `fm.demodulate` of a stream of another rate (R239). -/
theorem exec_fmDemodulate_mismatch (hrate : rate ≠ m.iqds.inRate) :
    exec (.fmDemodulate h iq rate) s = .next (takeError (rateMismatch m.iqds.inRate rate) s) := by
  have hrun : m.run Config.chip { samples := iq, rate := rate } = .error (rateMismatch m.iqds.inRate rate) :=
    Fm.run_mismatch hrate
  simp only [exec, execFmDemodulate, hm, hrun]

end Instance

/-- Settles O52: `Fm.run_of_downsampled` and `Fm.run_mismatch` through the operation, and `discriminateAll_getElem?`. -/
theorem fmDemodulateRule : Obligations.FmDemodulateRule := by
  unfold Obligations.FmDemodulateRule
  intro h iq rate m s hm
  refine ⟨?own, fun hrate => ⟨_, exec_fmDemodulate_mismatch hm hrate, rateMismatch_onlyDelivered _ _ s⟩⟩
  case own =>
    intro hrate
    have hdown := IqDownsampler.run_ok (c := Config.chip) (q := m.iqds) (x := { samples := iq, rate := rate }) hrate
    have hrun := Fm.run_of_downsampled hdown
    refine ⟨_, _, _, _, hdown, exec_fmDemodulate hm hrun, hrun, discriminateAll_length .., ?samples, rfl, ?carrier,
      rfl, rfl⟩
    case samples =>
      intro k i i' q q' hk hbefore
      exact discriminateAll_getElem? hk (List.getElem?_cons.trans hbefore)
    case carrier =>
      rw [← power_eq_sum]
      exact carrierFlag_eq_true_iff _ _

end Sys2Proof.Machine
end

section
/-! PROOFS. O53: `am.demodulate` is the run of its instance; its envelope, powers and normalised samples, and that an
envelope of mean 0 has no power, its values being square roots (46_fm_am_demodulators R256 to R259). -/

namespace Sys2Proof.Machine

variable {c : Config.Params}

/-! ## The envelope (R256) -/

theorem envelope_eq_map (iq : List (Rat × Rat)) : envelope c iq = iq.map fun z =>
    sqrtRat c ((z.1 - (iq.map Prod.fst).sum / iq.length) ^ 2 + (z.2 - (iq.map Prod.snd).sum / iq.length) ^ 2) := by
  simp only [envelope, hypotRat, sumRat_eq, pow_two]

theorem envelope_nonneg {iq : List (Rat × Rat)} {v : Rat} (hv : v ∈ envelope Config.chip iq) : 0 ≤ v := by
  obtain ⟨z, -, rfl⟩ := List.mem_map.mp hv
  exact (sqrtRat_bounds _).left

/-- Values that are not negative and have sum 0 are all 0, so they have no power. -/
theorem sum_sq_eq_zero {y : List Rat} (hnonneg : ∀ v ∈ y, 0 ≤ v) (hsum : y.sum = 0) :
    (y.map fun v => v ^ 2).sum = 0 := by
  refine List.sum_eq_zero fun w hw => ?_
  obtain ⟨v, hv, rfl⟩ := List.mem_map.mp hw
  have hzero : v = 0 := List.all_zero_of_le_zero_le_of_sum_eq_zero hnonneg hsum hv
  rw [hzero, zero_pow two_ne_zero]

/-- An envelope of mean 0 is below the carrier threshold (R257, R258). -/
theorem carrierFlag_envelope_of_mean_zero {y : List Rat} {iq : List (Rat × Rat)} (hy : y = envelope Config.chip iq)
    (hmean : y.sum / y.length = 0) : carrierFlag (y.map fun v => v ^ 2).sum y.length = false := by
  have hsum : y.sum = 0 := by
    rcases div_eq_zero_iff.mp hmean with hsum | hlength
    · exact hsum
    · rw [List.eq_nil_of_length_eq_zero (Nat.cast_eq_zero.mp hlength), List.sum_nil]
  have hpower := sum_sq_eq_zero (fun v hv => envelope_nonneg (hy ▸ hv)) hsum
  have hthreshold : 0 ≤ 2 / 1000 * (y.length : Rat) := by positivity
  rw [Bool.eq_false_iff, Ne, carrierFlag_eq_true_iff, hpower]
  exact not_lt.mpr hthreshold

/-! ## The samples (R256) -/

theorem amSamples_of_mean_ne_zero {y : List Rat} (draw : Nat) (hmean : y.sum / y.length ≠ 0) :
    amSamples c y draw = y.map fun v => rndApprox c ((v - y.sum / y.length) / (y.sum / y.length)) := by
  rw [amSamples, sumRat_eq, if_neg hmean]

/-! ## The relative power (R259) -/

theorem inputPower_eq_sum (x : IqFloat) (len : Nat) (inRate outRate : Rat) : inputPower x len inRate outRate =
    ((List.range len).map fun i : Nat =>
      (x.samples.getD ((i : Rat) * inRate / outRate).floor.toNat (0, 0)).1 ^ 2 +
      (x.samples.getD ((i : Rat) * inRate / outRate).floor.toNat (0, 0)).2 ^ 2).sum := by
  rw [inputPower, power_eq_sum, List.map_map]
  simp only [pow_two]
  rfl

theorem snap_zero : snap 0 = 0 := by
  have hfloor : ((0 : Rat) * 2 ^ 200 + 1 / 2).floor = 0 := by
    refine le_antisymm (Int.lt_add_one_iff.mp (Rat.floor_lt_iff.mpr ?_)) (Rat.le_floor_iff.mpr ?_)
    all_goals norm_num
  rw [snap, hfloor, Rat.zero_mkRat]

theorem rnd32_zero : rnd32 Config.chip 0 = 0 := by
  show rnd32Ref 0 = 0
  exact if_pos rfl

theorem rndApprox_zero : rndApprox Config.chip 0 = 0 := by rw [rndApprox, snap_zero, rnd32_zero]

/-- The stored relative power where the input has none. -/
theorem rndApprox_relPowerAm_zero (p : Rat) : rndApprox Config.chip (Config.chip.relPowerAm p 0) = 0 :=
  rndApprox_zero

/-- The stored relative power elsewhere is the quotient of the powers. -/
theorem relPowerAm_of_ne_zero (p : Rat) {sum : Rat} (hsum : sum ≠ 0) : Config.chip.relPowerAm p sum = p / sum :=
  if_neg hsum

/-! ## The run (R256) -/

section Run

variable {a : Am} {x : IqFloat} {d : IqFloat} {q : IqDownsampler} {draw : Nat}

/-- What the demodulator becomes over a downsampled block of envelope `y`, its downsampler becoming `q` (R258, R259). -/
def Am.after (c : Config.Params) (a : Am) (x : IqFloat) (y : List Rat) (q : IqDownsampler) : Am :=
  { iqds := q
    carrier := carrierFlag (y.map fun v => v ^ 2).sum y.length
    relPower := rndApprox c (c.relPowerAm (y.map fun v => v ^ 2).sum
      (inputPower x y.length a.iqds.inRate a.iqds.outRate)) }

theorem Am.run_of_downsampled_empty (hrun : a.iqds.run c x = .ok (d, q)) (hempty : d.samples = []) :
    a.run c x draw = .ok ({ samples := [], rate := d.rate }, { a with iqds := q, carrier := false }) := by
  rw [Am.run, hrun]
  exact if_pos hempty

theorem Am.run_of_downsampled (hrun : a.iqds.run c x = .ok (d, q)) (hsome : d.samples ≠ []) :
    a.run c x draw = .ok ({ samples := amSamples c (envelope c d.samples) draw, rate := d.rate },
      a.after c x (envelope c d.samples) q) := by
  rw [Am.run, hrun]
  simp only [if_neg hsome, Am.after, sumRat_eq, pow_two]

/-- The run of a stream of another rate is `RateMismatch` (R239). -/
theorem Am.run_mismatch (hrate : x.rate ≠ a.iqds.inRate) :
    a.run c x draw = .error (rateMismatch a.iqds.inRate x.rate) := by
  rw [Am.run, IqDownsampler.run_mismatch hrate]

end Run

/-! ## The operation (R256, R26) -/

section Instance

variable {s : State} {h : Nat} {a : Am} {iq : List (Rat × Rat)} {rate : Rat} (ha : s.ams[h]? = some a)
include ha

/-- `am.demodulate` where the instance's run answers; it takes one number of the free values. -/
theorem exec_amDemodulate {y : MonoFloat} {a' : Am}
    (hrun : a.run Config.chip { samples := iq, rate := rate } s.drawNo = .ok (y, a')) :
    exec (.amDemodulate h iq rate) s =
      .next (complete (.demodulated y a'.carrier) { s with ams := s.ams.set h a', drawNo := s.drawNo + 1 }) := by
  simp only [exec, execAmDemodulate, ha, hrun]
  rfl

/-- `am.demodulate` of a stream of another rate (R239). -/
theorem exec_amDemodulate_mismatch (hrate : rate ≠ a.iqds.inRate) :
    exec (.amDemodulate h iq rate) s = .next (takeError (rateMismatch a.iqds.inRate rate) s) := by
  have hrun : a.run Config.chip { samples := iq, rate := rate } s.drawNo = .error (rateMismatch a.iqds.inRate rate) :=
    Am.run_mismatch hrate
  simp only [exec, execAmDemodulate, ha, hrun]

end Instance

/-- Settles O53: `Am.run_of_downsampled_empty`, `Am.run_of_downsampled` and `Am.run_mismatch` through the operation, and
`carrierFlag_envelope_of_mean_zero`. -/
theorem amDemodulateRule : Obligations.AmDemodulateRule := by
  unfold Obligations.AmDemodulateRule
  intro h iq rate a s ha
  refine ⟨?own, fun hrate => ⟨_, exec_amDemodulate_mismatch ha hrate, rateMismatch_onlyDelivered _ _ s⟩⟩
  case own =>
    intro hrate
    have hdown := IqDownsampler.run_ok (c := Config.chip) (q := a.iqds) (x := { samples := iq, rate := rate }) hrate
    by_cases hempty : decimatePairs Config.chip (a.iqds.filter.load (interleave iq)) iq.length a.iqds.inRate
        a.iqds.outRate = []
    case pos =>
      have hrun := Am.run_of_downsampled_empty (draw := s.drawNo) hdown hempty
      exact ⟨_, _, _, _, hdown, exec_amDemodulate ha hrun, hrun, rfl, (congrArg List.length hempty).symm,
        fun _ => ⟨rfl, rfl⟩, fun hsome => absurd hempty hsome⟩
    case neg =>
      have hrun := Am.run_of_downsampled (draw := s.drawNo) hdown hempty
      refine ⟨_, _, _, _, hdown, exec_amDemodulate ha hrun, hrun, rfl, (amSamples_length _ _).trans (envelope_length _),
        fun hnil => absurd hnil hempty, ?_⟩
      rintro - iBar qBar m p sum y rfl rfl hy rfl rfl hsum
      have henvelope := hy.trans (envelope_eq_map _).symm
      have hinput := hsum.trans (inputPower_eq_sum { samples := iq, rate := rate } _ _ _).symm
      rw [← henvelope]
      refine ⟨carrierFlag_eq_true_iff _ _, fun hzero => ?_, fun hne => ?_, amSamples_of_mean_ne_zero _,
        carrierFlag_envelope_of_mean_zero henvelope⟩
      · rw [Am.after, ← hinput, hzero, rndApprox_relPowerAm_zero]
      · rw [Am.after, ← hinput, relPowerAm_of_ne_zero _ hne]

end Sys2Proof.Machine
end

section
/-! PROOFS. O54: `avg.add` is the instance's own, which stores the updated average and, with the variance variant, the variance about it
(47_stereo_deemphasis_averager R266 to R268). -/

namespace Sys2Proof.Machine

/-! ## One value (R267, R268) -/

section Add

variable {c : Config.Params} {a : Averager} {x m : Rat}

/-- The averager with variance: the variance is taken about the updated average (R268). -/
theorem Averager.add_withVariance (hv : a.withVariance = true) (hm : m = rnd32 c ((a.w * a.avg + x) / (a.w + 1))) :
    a.add c x = { a with avg := m, vari := rnd32 c ((a.w * a.vari + (x - m) ^ 2) / (a.w + 1)) } := by
  simp only [Averager.add, hv, if_true, pow_two, hm]

/-- The averager without variance (R267). -/
theorem Averager.add_withoutVariance (hv : a.withVariance = false) (hm : m = rnd32 c ((a.w * a.avg + x) / (a.w + 1))) :
    a.add c x = { a with avg := m } := by
  simp only [Averager.add, hv, Bool.false_eq_true, if_false, hm]

/-- A variance that is not negative stays so (R268). -/
theorem variance_nonneg (hw : 0 ≤ a.w) (hv : 0 ≤ a.vari) :
    0 ≤ rnd32 Config.chip ((a.w * a.vari + (x - m) ^ 2) / (a.w + 1)) :=
  rnd32_nonneg (div_nonneg (add_nonneg (mul_nonneg hw hv) (sq_nonneg _)) (by linarith))

end Add

/-! ## The operations -/

/-- `avg.add` is the instance's own (R267). -/
theorem exec_avgAdd {s : State} {h : Nat} {a : Averager} (ha : s.avgs[h]? = some a) (x : Rat) :
    exec (.avgAdd h x) s = .next (complete (.real (a.add Config.chip x).avg)
      { s with avgs := s.avgs.set h (a.add Config.chip x) }) := by
  simp only [exec, execAvgAdd, ha]
  rfl

/-- Settles O54: `exec_avgAdd` with the two forms of `Averager.add`; storing keeps the sign of the variance. -/
theorem averagerRule : Obligations.AveragerRule := by
  unfold Obligations.AveragerRule
  refine ⟨fun w v s => ⟨fun hw => if_pos hw, fun hw => if_neg (not_le.mpr hw)⟩, ?add⟩
  intro h x m a s ha hm
  refine ⟨fun hv => ?withVariance, variance_nonneg, fun hv => ?withoutVariance⟩
  case withVariance => rw [exec_avgAdd ha, Averager.add_withVariance hv hm]
  case withoutVariance => rw [exec_avgAdd ha, Averager.add_withoutVariance hv hm]

end Sys2Proof.Machine
end

section
/-! PROOFS. O55: `st.separate` is the run of its instance; a block runs sample by sample, because no sample reads `found`
(47_stereo_deemphasis_averager R273 to R276, 10_state R27). -/

namespace Sys2Proof.Machine

variable {c : Config.Params}

/-! ## `found` is read by no sample (R273, R276) -/

/-- The separator with another `found`. -/
def Stereo.withFound (st : Stereo) (b : Bool) : Stereo := { st with found := b }

/-- A block gives the same samples whatever `found` was, and leaves it. -/
theorem Stereo.samples_withFound (b : Bool) (l : List Rat) (st : Stereo) :
    (st.withFound b).samples c l = ((st.samples c l).1, (st.samples c l).2.withFound b) := by
  induction l generalizing st with
  | nil => rfl
  | cons x l ih =>
    have hsample : (st.withFound b).sample c x = ((st.sample c x).1, (st.sample c x).2.withFound b) := rfl
    simp only [Stereo.samples, hsample, ih]

/-! ## The run (R273, R276) -/

section Run

variable {st : Stereo}

/-- The separator at the end of a block that is not empty: `found` as its lock average has it (R276). -/
def Stereo.settled (c : Config.Params) (st : Stereo) : Stereo := st.withFound (foundFlag c.lockThres st.cavg.avg)

@[simp] theorem Stereo.run_nil : st.run c [] = ({ samples := [], rate := st.sampleRate }, st) := if_pos rfl

/-- The run of a block that is not empty. -/
theorem Stereo.run_of_ne_nil {l : List Rat} (hl : l ≠ []) :
    st.run c l = ({ samples := (st.samples c l).1, rate := st.sampleRate }, (st.samples c l).2.settled c) := if_neg hl

theorem Stereo.run_singleton (x : Rat) :
    st.run c [x] = ({ samples := [(st.sample c x).1], rate := st.sampleRate }, (st.sample c x).2.settled c) :=
  Stereo.run_of_ne_nil (List.cons_ne_nil x [])

/-- A block is its first sample and then the rest of it, from the state the first leaves. -/
theorem Stereo.run_cons (x : Rat) (xs : List Rat) :
    st.run c (x :: xs) = ({ samples := (st.sample c x).1 :: ((st.run c [x]).2.run c xs).1.samples, rate := st.sampleRate },
      ((st.run c [x]).2.run c xs).2) := by
  rw [Stereo.run_singleton]
  cases xs with
  | nil => rw [Stereo.run_singleton, Stereo.run_nil]
  | cons y ys =>
    have hrest : ((st.sample c x).2.settled c).samples c (y :: ys) = _ := Stereo.samples_withFound _ _ _
    rw [Stereo.run_of_ne_nil (List.cons_ne_nil x _), Stereo.run_of_ne_nil (List.cons_ne_nil y ys), hrest]
    rfl

/-- `found` after a block that is not empty (R27, R276). -/
theorem Stereo.run_found {l : List Rat} (hl : l ≠ []) :
    (st.run c l).2.found = true ↔ (st.run c l).2.cavg.avg < c.lockThres := by
  rw [Stereo.run_of_ne_nil hl]
  exact decide_eq_true_iff

end Run

/-! ## The operation (R273) -/

/-- `st.separate` is the run of its instance. -/
theorem exec_stSeparate {s : State} {h : Nat} {st : Stereo} (hst : s.sts[h]? = some st) (samples : List Rat) :
    exec (.stSeparate h samples) s = .next (complete
      (.separated (st.run Config.chip samples).1 (st.run Config.chip samples).2.found)
      { s with sts := s.sts.set h (st.run Config.chip samples).2 }) := by
  simp only [exec, execStSeparate, hst]
  rfl

/-- Settles O55: `exec_stSeparate`, `Stereo.run_cons` for the composition of a block, `Stereo.run_singleton` for a sample. -/
theorem stereoSeparateRule : Obligations.StereoSeparateRule := by
  unfold Obligations.StereoSeparateRule
  refine ⟨?block, ?sample⟩
  case block =>
    intro h samples st s hst
    obtain ⟨hlength, hrate, -⟩ := st.run_shape Config.chip samples
    have hrun : st.run Config.chip samples =
        ({ samples := (st.run Config.chip samples).1.samples, rate := st.sampleRate }, (st.run Config.chip samples).2) := by
      rw [← hrate]
    refine ⟨_, _, (exec_stSeparate hst samples).trans ?_, hrun, hlength, ?empty, Stereo.run_found, ?compose⟩
    · rw [← hrate]
    case empty =>
      rintro rfl
      rw [Stereo.run_nil]
    case compose =>
      rintro x xs rfl
      refine ⟨_, rfl, ?_, ?_, ?_⟩
      · rw [Stereo.run_cons, Stereo.run_singleton]
        rfl
      · rw [Stereo.run_cons]
        rfl
      · rw [Stereo.run_cons]
  case sample =>
    intro x corr st st' out hrun hcorr
    rw [Stereo.run_singleton] at hrun
    cases hrun
    subst hcorr
    exact ⟨rfl, rfl, rfl, rfl, rfl, rfl, rfl, rfl⟩

end Sys2Proof.Machine
end

section
/-! PROOFS. O56: the phase error as a clamped quotient, and its place in the table (47_stereo_deemphasis_averager R274). -/

namespace Sys2Proof.Machine

/-! ## The clamp (R11, R274) -/

theorem clampRat_eq (x lo hi : Rat) : clampRat x lo hi = max lo (min hi x) := by
  have hmin : (if x < hi then x else hi) = min hi x := by
    rcases lt_or_ge x hi with h | h
    · rw [if_pos h, min_eq_right h.le]
    · rw [if_neg h.not_gt, min_eq_left h]
  rw [clampRat, hmin]
  rcases lt_or_ge lo (min hi x) with h | h
  · rw [if_pos h, max_eq_right h.le]
  · rw [if_neg h.not_gt, max_eq_left h]

section PhaseError

variable {hdev vdev : Rat}

/-- The phase error is the clamped quotient where `hdev` is not 0 (R274). -/
theorem phaseError_of_ne (h : hdev ≠ 0) : phaseError hdev vdev = max (-4) (min 4 (vdev / hdev)) :=
  (if_neg h).trans (clampRat_eq _ _ _)

/-- Where `hdev` is 0 the phase error goes by the sign of `vdev` (R274). -/
theorem phaseError_zero : phaseError 0 vdev = if vdev = 0 then 0 else if 0 < vdev then 4 else -4 := if_pos rfl

theorem phaseError_bounds (hdev vdev : Rat) : -4 ≤ phaseError hdev vdev ∧ phaseError hdev vdev ≤ 4 := by
  by_cases h : hdev = 0
  · rw [h, phaseError_zero]
    split_ifs <;> norm_num
  · rw [phaseError_of_ne h]
    exact ⟨le_max_left _ _, max_le (by norm_num) (min_le_left _ _)⟩

end PhaseError

/-! ## The table index (R274) -/

/-- A phase error of at least -4 has its rounded place as index. -/
theorem tableIndex_eq_floor {corr : Rat} (h : -4 ≤ corr) :
    (tableIndex corr : Int) = ((corr + 4) * 1000 + 1 / 2).floor := by
  have hplace : 0 ≤ (corr + 4) * 1000 + 1 / 2 := by linarith
  exact Int.toNat_of_nonneg (Rat.le_floor_iff.mpr hplace)

/-- A phase error in the clamped range has an index in the table. -/
theorem tableIndex_le {corr : Rat} (h0 : -4 ≤ corr) (h1 : corr ≤ 4) : tableIndex corr ≤ 8000 := by
  have hfloor : ((corr + 4) * 1000 + 1 / 2).floor < 8001 := Rat.floor_lt_iff.mpr (by push_cast; linarith)
  rw [← tableIndex_eq_floor h0] at hfloor
  omega

/-- A phase error that lies on an entry of the table has its index. -/
theorem tableIndex_of_entry {corr : Rat} {k : Nat} (h : (corr + 4) * 1000 = k) : tableIndex corr = k := by
  have hcorr : -4 ≤ corr := by
    have hk : (0 : Rat) ≤ k := Nat.cast_nonneg k
    linarith
  have hfloor : ((corr + 4) * 1000 + 1 / 2).floor = k := by
    rw [h]
    refine le_antisymm (Int.lt_add_one_iff.mp (Rat.floor_lt_iff.mpr ?_)) (Rat.le_floor_iff.mpr ?_)
    · push_cast; linarith
    · push_cast; linarith
  have hindex := tableIndex_eq_floor hcorr
  omega

/-- Settles O56: the phase error lies in [-4, 4], where the index is its rounded place. -/
theorem phaseErrorInTable : Obligations.PhaseErrorInTable := by
  unfold Obligations.PhaseErrorInTable
  refine ⟨fun hdev vdev => ?_, tableIndex_of_entry (by norm_num), tableIndex_of_entry (by norm_num),
    tableIndex_of_entry (by norm_num)⟩
  obtain ⟨hlow, hhigh⟩ := phaseError_bounds hdev vdev
  refine ⟨hlow, hhigh, tableIndex_le hlow hhigh, tableIndex_eq_floor hlow, phaseError_of_ne, ?zero, ?positive, ?negative⟩
  case zero =>
    rintro rfl hv
    rw [phaseError_zero, if_pos hv]
  case positive =>
    rintro rfl hv
    rw [phaseError_zero, if_neg hv.ne', if_pos hv]
  case negative =>
    rintro rfl hv
    rw [phaseError_zero, if_neg hv.ne, if_neg hv.not_gt]

end Sys2Proof.Machine
end

section
/-! PROOFS. O57: `de.run` is the run of its instance, each output made of its sample and the output before it
(47_stereo_deemphasis_averager R277, R278). -/

namespace Sys2Proof.Machine

variable {c : Config.Params}

/-! ## The samples of a block (R278) -/

theorem Deemphasis.samples_length (l : List Rat) (d : Deemphasis) : (d.samples c l).1.length = l.length := by
  induction l generalizing d with
  | nil => rfl
  | cons x l ih => rw [Deemphasis.samples, List.length_cons, List.length_cons, ih]

/-- A block leaves its last output in the instance. -/
theorem Deemphasis.samples_last (l : List Rat) (d : Deemphasis) :
    (d.samples c l).2 = { d with y := (d.samples c l).1.getLast?.getD d.y } := by
  induction l generalizing d with
  | nil => rfl
  | cons x l ih =>
    rw [Deemphasis.samples, List.getLast?_cons, Option.getD_some]
    exact ih (d.sample c x)

/-- Sample `k` of the block against entry `k` of the outputs with the one before the block put in front. -/
theorem Deemphasis.samples_getElem? {l : List Rat} {d : Deemphasis} {k : Nat} {x y : Rat} (hk : l[k]? = some x)
    (hbefore : (d.y :: (d.samples c l).1)[k]? = some y) :
    (d.samples c l).1[k]? = some (rndApprox c ((1 - d.alpha) * x + d.alpha * y)) := by
  induction l generalizing d k with
  | nil => cases hk
  | cons x' l ih =>
    cases k with
    | zero =>
      cases hk
      cases hbefore
      rfl
    | succ k => exact ih (d := d.sample c x') hk hbefore

/-! ## The operation (R278) -/

/-- `de.run` is the run of its instance. -/
theorem exec_deRun {s : State} {h : Nat} {d : Deemphasis} (hd : s.des[h]? = some d) (samples : List Rat) (rate : Rat) :
    exec (.deRun h samples rate) s = .next (complete (.mono { samples := (d.samples Config.chip samples).1, rate := rate })
      { s with des := s.des.set h (d.samples Config.chip samples).2 }) := by
  simp only [exec, execDeRun, hd]
  rfl

/-- Settles O57: alpha by `expNeg_bounds`, the outputs and the last of them by the lemmas on `Deemphasis.samples`. -/
theorem deemphasisRule : Obligations.DeemphasisRule := by
  unfold Obligations.DeemphasisRule
  refine ⟨?new, ?run⟩
  case new =>
    intro rate tau s hrate htau
    exact ⟨if_pos ⟨hrate, htau⟩, expNeg_bounds (by positivity)⟩
  case run =>
    intro h samples rate d s hd
    refine ⟨_, _, exec_deRun hd samples rate, rfl, Deemphasis.samples_length _ _, Deemphasis.samples_last _ _, ?_⟩
    intro k x y hk hbefore
    exact Deemphasis.samples_getElem? hk (List.getElem?_cons.trans hbefore)

end Sys2Proof.Machine
end

section
/-! PROOFS. O58: the pairs that a sequence of bytes is converted to (48_pipelines_and_input R286). -/

namespace Sys2Proof.Machine

variable {c : Config.Params}

/-- A byte as R286 has it. -/
theorem byteFloat_eq (b : Byte) : byteFloat c b = rnd32 c ((b.toNat : Rat) / 128 - 995 / 1000) := rfl

/-- Half as many pairs as bytes; a byte left over is dropped. -/
theorem bytePairs_length : ∀ bytes : List Byte, (bytePairs c bytes).length = bytes.length / 2
  | [] => rfl
  | [_] => by rw [List.length_singleton]; rfl
  | i :: q :: rest => by
    rw [bytePairs, List.length_cons, bytePairs_length rest, List.length_cons, List.length_cons, Nat.add_div_right _ Nat.two_pos]

/-- Pair `k` is made of bytes `2 k` and `2 k + 1`. -/
theorem bytePairs_getElem? {bytes : List Byte} {k : Nat} {b b' : Byte} (hi : bytes[2 * k]? = some b)
    (hq : bytes[2 * k + 1]? = some b') : (bytePairs c bytes)[k]? = some (byteFloat c b, byteFloat c b') := by
  induction k generalizing bytes with
  | zero =>
    match bytes, hi, hq with
    | _ :: _ :: _, rfl, rfl => rfl
  | succ k ih =>
    match bytes, hi, hq with
    | _ :: _ :: rest, hi, hq => exact ih (bytes := rest) hi hq

/-- Settles O58: the operation gives `iqStream`, whose pairs are `bytePairs`. -/
theorem iqConvertRule : Obligations.IqConvertRule := by
  unfold Obligations.IqConvertRule
  refine fun bytes s => ⟨fun hodd => ?odd, fun heven => ?even⟩
  case odd => exact if_neg (by rw [show Config.bytesPerSample = 2 from rfl]; omega)
  case even =>
    refine ⟨bytePairs Config.chip bytes, if_pos heven, rfl, ?_, fun k b b' hi hq => bytePairs_getElem? hi hq⟩
    rw [bytePairs_length]
    omega

end Sys2Proof.Machine
end

section
/-! PROOFS. O59: `set_mode` installs the chain that `makeChain` gives; what each chain's filters and registers are
(48_pipelines_and_input R289 to R293, 44_fir_filter R221). -/

namespace Sys2Proof.Machine

variable {mode : Mode} {ch : Chain} {s : State}

/-! ## The operation and the message (R292) -/

theorem exec_setMode {i : Instr} (hi : i = .setMode mode ∨ i = .msgSetMode mode) :
    exec i s = installMode Config.chip mode s := by
  rcases hi with rfl | rfl <;> rfl

/-- A legal descriptor installs its chain (R292). -/
theorem installMode_legal {c : Config.Params} (hm : mode.legal = true) (hc : makeChain c mode = some ch) :
    installMode c mode s = .next (complete .nothing { s with pipeline := some { mode := mode, chain := ch } }) := by
  simp only [installMode, hm, if_true, hc, give]

/-- Any other descriptor is refused (R123, R293). -/
theorem installMode_illegal {c : Config.Params} (hm : mode.legal = false) : installMode c mode s = .refused (.badMode mode) :=
  if_neg (Bool.eq_false_iff.mp hm)

/-- A tau has to be positive (R289, R123). -/
theorem Mode.legal_wbfm {tau : Rat} : (Mode.wbfm (some tau)).legal = true ↔ 0 < tau := decide_eq_true_iff

theorem Mode.legal_nbfm {maxF : Rat} : (Mode.nbfm maxF).legal = true ↔ 1 ≤ maxF := decide_eq_true_iff

theorem Mode.legal_am {bandwidth : Rat} : (Mode.am bandwidth).legal = true ↔ 0 < bandwidth := decide_eq_true_iff

/-! ## A fresh filter (R221, R223) -/

section Filter

variable {rate f : Rat} {n step : Nat} {coefs : List Rat}

/-- A filter made of designed coefficients is the one R221 and R223 give. -/
theorem freshFilter_make (hrate : 0 < rate) (hf : 0 < f) (hn : 0 < n) (h : lowpass Config.chip rate f n = some coefs) :
    freshFilter rate f n step (Fir.make Config.chip coefs step) :=
  ⟨coefs, fun _ => exec_getLowpassFirCoeffs hrate hf hn h, rfl⟩

/-- A new filter has a history of zeros (R223). -/
theorem Fir.make_buf_zero (c : Config.Params) (coefs : List Rat) (step : Nat) :
    ∀ x ∈ (Fir.make c coefs step).buf, x = 0 := fun _ hx => List.eq_of_mem_replicate hx

/-- As many coefficients as the length forced odd (R221). -/
theorem Fir.make_c_length (h : lowpass Config.chip rate f n = some coefs) :
    (Fir.make Config.chip coefs step).c.length = oddLength n := by
  rw [Fir.make_c, List.length_reverse, List.length_map, lowpass_length h]

end Filter

/-! ## The chains (R289 to R291) -/

section Chains

variable {c : Config.Params}

theorem makeWbfm_eq_some {tau : Rat} (h : makeWbfm c tau = some ch) : ∃ fc ac : List Rat,
    lowpass c 1024000 67500 101 = some fc ∧ lowpass c 336000 c.wbfmAudioCutoff c.wbfmAudioTaps = some ac ∧
    ch = .wbfm (Fm.make c 1024000 336000 75000 fc) (Downsampler.make c 336000 48000 ac) (Downsampler.make c 336000 48000 ac)
      (Stereo.make c 336000 Config.pilotFreq) (Deemphasis.make c 48000 tau) (Deemphasis.make c 48000 tau) := by
  have hcutoff : Config.wbfmFilterShare * Config.wbfmMaxF = 67500 := by norm_num [Config.wbfmFilterShare, Config.wbfmMaxF]
  simp only [makeWbfm, Option.bind_eq_bind, Option.bind_eq_some_iff, Option.pure_def, Option.some.injEq, hcutoff] at h
  obtain ⟨fc, hfc, ac, hac, rfl⟩ := h
  exact ⟨fc, ac, hfc, hac, rfl⟩

theorem makeNbfm_eq_some {maxF : Rat} (h : makeNbfm c maxF = some ch) : ∃ fc ac : List Rat,
    lowpass c 1024000 (8 / 10 * maxF) (c.nbfmKernelLen (nbfmMultiple maxF)) = some fc ∧
    lowpass c (nbfmInter maxF) 8000 41 = some ac ∧
    ch = .nbfm (Fm.make c 1024000 (nbfmInter maxF) maxF fc) (Downsampler.make c (nbfmInter maxF) 48000 ac) := by
  simp only [makeNbfm, Option.bind_eq_bind, Option.bind_eq_some_iff, Option.pure_def, Option.some.injEq] at h
  obtain ⟨fc, hfc, ac, hac, rfl⟩ := h
  exact ⟨fc, ac, hfc, hac, rfl⟩

theorem makeAm_eq_some {bandwidth : Rat} (h : makeAm c bandwidth = some ch) : ∃ fc : List Rat,
    lowpass c 1024000 (bandwidth / 2) 351 = some fc ∧ ch = .am (Am.make c 1024000 48000 fc) := by
  have hcutoff : Config.amFilterShare * bandwidth = bandwidth / 2 := one_div_mul_eq_div 2 bandwidth
  simp only [makeAm, Option.bind_eq_bind, Option.bind_eq_some_iff, Option.pure_def, Option.some.injEq, hcutoff] at h
  obtain ⟨fc, hfc, rfl⟩ := h
  exact ⟨fc, hfc, rfl⟩

/-- The inter rate of the NBFM chain (R290). -/
theorem nbfmInter_eq (maxF : Rat) : nbfmInter maxF = 48000 * (1 + ((maxF - 1) * 7 / 75000).floor).toNat :=
  Nat.cast_mul _ _

/-- The `multiple` of a legal deviation is at least 1, so the inter rate is positive (R290). -/
theorem nbfmInter_pos {maxF : Rat} (h : 1 ≤ maxF) : 0 < nbfmInter maxF := by
  have hratio : 0 ≤ (maxF - 1) * 7 / 75000 := by linarith
  have hfloor : 0 ≤ ((maxF - 1) * 7 / 75000).floor := Rat.le_floor_iff.mpr hratio
  have hmultiple : 0 < (1 + ((maxF - 1) * 7 / 75000).floor).toNat := by omega
  rw [nbfmInter_eq]
  positivity

end Chains

/-- Settles O59: the installation by `makeChain_some`, each chain by the equation for its mode with its filters by
`freshFilter_make`, and the legal descriptors by the lemmas on `Mode.legal`. -/
theorem setModeRule : Obligations.SetModeRule := by
  unfold Obligations.SetModeRule
  refine ⟨?install, ?chains, ?legal⟩
  case install =>
    intro mode i s hi
    rw [exec_setMode hi]
    refine ⟨fun hm => ?_, installMode_illegal⟩
    obtain ⟨ch, hc⟩ := makeChain_some Config.chip hm
    exact ⟨ch, hc, makeChain_fits hc, installMode_legal hm hc⟩
  case chains =>
    intro mode ch hm hc
    cases mode with
    | wbfm tau =>
      obtain ⟨fc, ac, hfc, hac, rfl⟩ := makeWbfm_eq_some hc
      exact ⟨rfl, rfl, rfl, rfl, freshFilter_make (by norm_num) (by norm_num) (by norm_num) hfc, rfl, rfl,
        freshFilter_make (by norm_num) (Config.wbfmAudioCutoff_pos _) (Nat.succ_pos _) hac, rfl, rfl, Fir.make_c_length hfc,
        rfl, Fir.make_buf_zero _ _ _, Fir.make_buf_zero _ _ _, rfl, rfl, rfl, rfl, rfl, rfl, Stereo.make_sinTab_length, rfl,
        rfl⟩
    | nbfm maxF =>
      obtain ⟨fc, ac, hfc, hac, rfl⟩ := makeNbfm_eq_some hc
      have hmaxF := Mode.legal_nbfm.mp hm
      exact ⟨rfl, rfl, rfl, rfl, nbfmInter_eq maxF, Fir.make_c_length hac,
        freshFilter_make (by norm_num) (by linarith) (Nat.succ_pos _) hfc, rfl,
        freshFilter_make (nbfmInter_pos hmaxF) (by norm_num) (by norm_num) hac, rfl, rfl, Fir.make_buf_zero _ _ _,
        Fir.make_buf_zero _ _ _⟩
    | am bandwidth =>
      obtain ⟨fc, hfc, rfl⟩ := makeAm_eq_some hc
      have hbandwidth := Mode.legal_am.mp hm
      exact ⟨freshFilter_make (by norm_num) (half_pos hbandwidth) (by norm_num) hfc, rfl, rfl, rfl, rfl,
        Fir.make_c_length hfc, Fir.make_buf_zero _ _ _⟩
    | ssb bandwidth upper => cases hm
  case legal =>
    intro mode
    match mode with
    | .wbfm none => exact iff_true_intro rfl
    | .wbfm (some tau) => exact Mode.legal_wbfm
    | .nbfm maxF => exact Mode.legal_nbfm
    | .am bandwidth => exact Mode.legal_am
    | .ssb _ _ => exact iff_false_intro nofun

end Sys2Proof.Machine
end

section
/-! PROOFS. O60: `process` runs the installed chain, each chain as its parts one after another (48_pipelines_and_input R286 to R291). -/

namespace Sys2Proof.Machine

variable {c : Config.Params} {x : IqFloat}

/-! ## The audio of a block (R288) -/

/-- Both sides are at 48,000 and of length `k`. -/
structure Audio.Shape (a : Audio) (k : Nat) : Prop where
  leftRate    : a.left.rate = 48000
  rightRate   : a.right.rate = 48000
  leftLength  : a.left.samples.length = k
  rightLength : a.right.samples.length = k

/-- A downsampler whose input fits and whose output is audio (R237, R289). -/
theorem Downsampler.run_audio {d : Downsampler} {y : MonoFloat} (hin : y.rate = d.inRate) (hout : d.outRate = 48000) :
    ∃ (z : MonoFloat) (d' : Downsampler), d.run c y = .ok (z, d') ∧ z.rate = 48000 ∧
      z.samples.length = outLen y.samples.length d.inRate 48000 :=
  ⟨_, _, Downsampler.run_ok hin, hout, hout ▸ decimate_length _ _ _ _⟩

/-! ## WBFM (R289) -/

section Wbfm

variable {fm fm' : Fm} {mono mono' diff diff' : Downsampler} {st : Stereo} {deL deR : Deemphasis} {inStereo : Bool}
  {comp sum d : MonoFloat}

theorem Chain.wbfm_fits_iff : (Chain.wbfm fm mono diff st deL deR).fits ↔
    fm.iqds.inRate = 1024000 ∧ fm.iqds.outRate = 336000 ∧ mono.inRate = 336000 ∧ mono.outRate = 48000 ∧
      diff.inRate = 336000 ∧ diff.outRate = 48000 ∧ st.sampleRate = 336000 := Iff.rfl

/-- What a block gives whose sides before the de-emphasis are `left` and `right`. -/
def wbfmOut (c : Config.Params) (fm' : Fm) (mono' diff' : Downsampler) (st' : Stereo) (deL deR : Deemphasis)
    (left right : MonoFloat) (stereo : Bool) : Audio × Chain :=
  ((deemphasize c deL deR left right stereo (c.signalLevelFm fm')).1,
    .wbfm fm' mono' diff' st' (deL.run c left).2 (deR.run c right).2)

theorem wbfmOut_shape {st' : Stereo} {left right : MonoFloat} {stereo : Bool} {k : Nat} (hl : left.rate = 48000)
    (hr : right.rate = 48000) (hk : left.samples.length = k) (hk' : right.samples.length = k) :
    (wbfmOut c fm' mono' diff' st' deL deR left right stereo).1.Shape k :=
  ⟨hl, hr, (Deemphasis.samples_length _ _).trans hk, (Deemphasis.samples_length _ _).trans hk'⟩

/-- The sum or difference of two streams, the first at 48,000. -/
def combined (c : Config.Params) (g : Rat → Rat → Rat) (sum d : MonoFloat) : MonoFloat :=
  { samples := List.zipWith (fun a b => rnd32 c (g a b)) sum.samples d.samples, rate := 48000 }

theorem combine_eq_combined (g : Rat → Rat → Rat) (h : sum.rate = 48000) : combine c g sum d = combined c g sum d := by
  rw [combine, h, combined]

theorem combined_length (g : Rat → Rat → Rat) (h : d.samples.length = sum.samples.length) :
    (combined c g sum d).samples.length = sum.samples.length := by
  rw [combined, List.length_zipWith, h, min_self]

section Run

variable (hfm : fm.run c x = .ok (comp, fm')) (hmono : mono.run c comp = .ok (sum, mono'))
include hfm hmono

/-- Stereo asked for, and the pilot found after the block. -/
theorem runWbfm_stereo (hrate : st.sampleRate = 336000) (hsum : sum.rate = 48000) (hs : inStereo = true)
    (hfound : (st.run c comp.samples).2.found = true)
    (hdiff : diff.run c { samples := (st.run c comp.samples).1.samples, rate := 336000 } = .ok (d, diff')) :
    runWbfm c fm mono diff st deL deR x inStereo = .ok (wbfmOut c fm' mono' diff' (st.run c comp.samples).2 deL deR
      (combined c (· + ·) sum d) (combined c (· - ·) sum d) true) := by
  simp only [runWbfm, hfm, hmono, hs, hfound, hrate, hdiff, if_true, combine_eq_combined _ hsum]
  rfl

/-- Stereo not asked for, or the pilot not found: the difference downsampler does not run. -/
theorem runWbfm_plain (hno : inStereo = false ∨ (st.run c comp.samples).2.found = false) :
    runWbfm c fm mono diff st deL deR x inStereo = .ok (wbfmOut c fm' mono' diff
      (if inStereo then (st.run c comp.samples).2 else st) deL deR sum sum false) := by
  cases hs : inStereo with
  | false =>
    simp only [runWbfm, hfm, hmono, Bool.false_eq_true, if_false]
    rfl
  | true =>
    have hfound : (st.run c comp.samples).2.found = false := hno.resolve_left (by rw [hs]; exact nofun)
    simp only [runWbfm, hfm, hmono, hfound, if_true, Bool.false_eq_true, if_false]
    rfl

end Run

/-- A block through a chain whose rates fit together: the parts that run on every block, and what they give with the pilot
found and without. -/
theorem runWbfm_parts (hfits : (Chain.wbfm fm mono diff st deL deR).fits) (hx : x.rate = 1024000) (inStereo : Bool) :
    ∃ (comp sum : MonoFloat) (fm' : Fm) (mono' : Downsampler) (out : Audio × Chain),
      fm.run c x = .ok (comp, fm') ∧ mono.run c comp = .ok (sum, mono') ∧
      runWbfm c fm mono diff st deL deR x inStereo = .ok out ∧
      out.1.Shape (outLen (outLen x.samples.length 1024000 336000) 336000 48000) ∧
      ((inStereo = true ∧ (st.run c comp.samples).2.found = true ∧ ∃ (d : MonoFloat) (diff' : Downsampler),
          diff.run c { samples := (st.run c comp.samples).1.samples, rate := 336000 } = .ok (d, diff') ∧
          d.samples.length = sum.samples.length ∧ out = wbfmOut c fm' mono' diff' (st.run c comp.samples).2 deL deR
            (combined c (· + ·) sum d) (combined c (· - ·) sum d) true) ∨
        ((inStereo = false ∨ (st.run c comp.samples).2.found = false) ∧
          out = wbfmOut c fm' mono' diff (if inStereo then (st.run c comp.samples).2 else st) deL deR sum sum false)) := by
  obtain ⟨fmIn, fmOut, monoIn, monoOut, diffIn, diffOut, stRate⟩ := Chain.wbfm_fits_iff.mp hfits
  obtain ⟨comp, fm', hfm, hcomp, -, -, hlength⟩ := Fm.run_ok (c := c) (hx.trans fmIn.symm)
  rw [fmIn, fmOut] at hlength
  obtain ⟨sum, mono', hmono, hsum, hsumLength⟩ := Downsampler.run_audio (c := c) ((hcomp.trans fmOut).trans monoIn.symm) monoOut
  rw [monoIn, hlength] at hsumLength
  by_cases hpilot : inStereo = true ∧ (st.run c comp.samples).2.found = true
  case pos =>
    obtain ⟨hs, hfound⟩ := hpilot
    obtain ⟨d, diff', hdiff, -, hd⟩ := Downsampler.run_audio (c := c) (d := diff)
      (y := { samples := (st.run c comp.samples).1.samples, rate := 336000 }) diffIn.symm diffOut
    rw [(st.run_shape c comp.samples).1, diffIn, hlength, ← hsumLength] at hd
    exact ⟨comp, sum, fm', mono', _, hfm, hmono, runWbfm_stereo hfm hmono stRate hsum hs hfound hdiff,
      wbfmOut_shape rfl rfl ((combined_length _ hd).trans hsumLength) ((combined_length _ hd).trans hsumLength),
      .inl ⟨hs, hfound, d, diff', hdiff, hd, rfl⟩⟩
  case neg =>
    have hno : inStereo = false ∨ (st.run c comp.samples).2.found = false := by
      rwa [Classical.not_and_iff_not_or_not, Bool.not_eq_true, Bool.not_eq_true] at hpilot
    exact ⟨comp, sum, fm', mono', _, hfm, hmono, runWbfm_plain hfm hmono hno,
      wbfmOut_shape hsum hsum hsumLength hsumLength, .inr ⟨hno, rfl⟩⟩

end Wbfm

/-! ## NBFM (R290) -/

theorem runNbfm_parts {fm : Fm} {mono : Downsampler} (hfits : (Chain.nbfm fm mono).fits) (hx : x.rate = 1024000) :
    ∃ (y z : MonoFloat) (fm' : Fm) (mono' : Downsampler), fm.run c x = .ok (y, fm') ∧ mono.run c y = .ok (z, mono') ∧
      runNbfm c fm mono x = .ok ({ left := z, right := z, stereo := false, signalLevel := c.signalLevelFm fm' }, .nbfm fm' mono') ∧
      z.rate = 48000 ∧
      z.samples.length = outLen (outLen x.samples.length 1024000 fm.iqds.outRate) fm.iqds.outRate 48000 := by
  obtain ⟨fmIn, monoIn, monoOut⟩ := hfits
  obtain ⟨y, fm', hfm, hy, -, -, hlength⟩ := Fm.run_ok (c := c) (hx.trans fmIn.symm)
  obtain ⟨z, mono', hmono, hz, hzLength⟩ := Downsampler.run_audio (c := c) (hy.trans monoIn.symm) monoOut
  rw [monoIn, hlength, fmIn] at hzLength
  exact ⟨y, z, fm', mono', hfm, hmono, by simp only [runNbfm, hfm, hmono], hz, hzLength⟩

/-! ## AM (R291) -/

theorem runAm_parts {am : Am} (hfits : (Chain.am am).fits) (hx : x.rate = 1024000) (draw : Nat) :
    ∃ (y : MonoFloat) (am' : Am), am.run c x draw = .ok (y, am') ∧
      runAm c am x draw = .ok ({ left := y, right := y, stereo := false, signalLevel := amLevel c am' }, .am am') ∧
      y.rate = 48000 ∧ y.samples.length = outLen x.samples.length 1024000 48000 := by
  obtain ⟨amIn, amOut⟩ := hfits
  obtain ⟨y, am', ham, hy, -, -, hlength⟩ := Am.run_ok (c := c) (draw := draw) (hx.trans amIn.symm)
  rw [amIn, amOut] at hlength
  exact ⟨y, am', ham, by simp only [runAm, ham], hy.trans amOut, hlength⟩

/-- The AM level is not negative (R291). -/
theorem amLevel_nonneg (a : Am) : 0 ≤ amLevel Config.chip a :=
  rndApprox_nonneg (mul_nonneg (by norm_num [Config.amLevelFactor]) (sqrtRat_bounds _).1)

/-! ## The operation and the message (R288) -/

section Process

variable {bytes echo : List Byte} {inStereo : Bool} {p : Pipeline} {i : Instr} {s : State}
  {freqOffset : Rat}

theorem exec_process
    (hi : i = .process bytes inStereo freqOffset echo ∨ i = .msgProcess bytes inStereo freqOffset echo) :
    exec i s = processBlock Config.chip bytes inStereo freqOffset echo s := by
  rcases hi with rfl | rfl <;> rfl

variable (hp : s.pipeline = some p)
include hp

/-- Another offset than 0 is refused (R287, G22). -/
theorem processBlock_offset (hf : freqOffset ≠ 0) :
    processBlock c bytes inStereo freqOffset echo s = .refused (.freqOffset freqOffset) := by
  simp only [processBlock, hp]
  exact if_pos hf

/-- An odd number of bytes is refused (R286, G21). -/
theorem processBlock_odd (hodd : bytes.length % 2 = 1) :
    processBlock c bytes inStereo 0 echo s = .refused (.oddLength bytes.length) := by
  have hne : bytes.length % Config.bytesPerSample ≠ 0 := fun h => by
    have : bytes.length % 2 = 0 := h
    omega
  simp only [processBlock, hp, ne_eq, not_true_eq_false, if_false]
  exact if_pos hne

/-- A block through the installed chain. -/
theorem processBlock_ok {a : Audio} {ch : Chain} (heven : bytes.length % 2 = 0)
    (hrun : p.chain.run c (iqStream c bytes) inStereo s.drawNo = .ok (a, ch)) :
    processBlock c bytes inStereo 0 echo s = .next (complete (.audio a.left a.right echo a.stereo a.signalLevel)
      { s with pipeline := some { mode := p.mode, chain := ch }, drawNo := s.drawNo + 1 }) := by
  have heven' : bytes.length % Config.bytesPerSample = 0 := heven
  simp only [processBlock, hp, heven', ne_eq, not_true_eq_false, if_false, hrun, give]

end Process

/-- A chain that has run on a block fits together as before (R288). -/
theorem Chain.fits_of_run {ch ch' : Chain} {a : Audio} {inStereo : Bool} {draw : Nat} (hfits : ch.fits)
    (hrun : ch.run c x inStereo draw = .ok (a, ch')) : ch'.fits := by
  have h := ch.run_fits c x inStereo draw
  rw [hrun] at h
  exact h hfits

/-- Settles O60: each chain as its parts by `runWbfm_parts`, `runNbfm_parts` and `runAm_parts`, installed again by
`processBlock_ok`. -/
theorem processRule : Obligations.ProcessRule := by
  unfold Obligations.ProcessRule
  intro bytes echo inStereo p n i s hp hfits hn hi
  rw [exec_process hi]
  refine ⟨processBlock_odd hp, fun f hf => ⟨processBlock_offset hp hf, processBlock_offset hp hf⟩, fun heven => ?even⟩
  case even =>
    have hx : (iqStream Config.chip bytes).rate = 1024000 := rfl
    have hlength : (iqStream Config.chip bytes).samples.length = n := (bytePairs_length bytes).trans hn.symm
    obtain ⟨mode, chain⟩ := p
    cases chain with
    | wbfm fm mono diff st deL deR =>
      obtain ⟨comp, sum, fm', mono', ⟨a, ch⟩, hfm, hmono, hrun, hshape, hout⟩ :=
        runWbfm_parts (c := Config.chip) hfits hx inStereo
      have hrun : (Chain.wbfm fm mono diff st deL deR).run Config.chip _ inStereo s.drawNo = .ok (a, ch) := hrun
      rw [hlength] at hshape
      obtain ⟨hleft, hright, hleftLength, hrightLength⟩ := hshape
      obtain ⟨hlevel, hvalid⟩ := Config.signalLevelFm_bounds Config.chip.toTables fm'
      refine ⟨a, ch, hrun, processBlock_ok hp heven hrun, hleft, hright, hleftLength.trans hrightLength.symm,
        Chain.fits_of_run hfits hrun, ?_, nofun, nofun⟩
      rintro _ _ _ _ _ _ ⟨⟩
      refine ⟨hleftLength, ?_⟩
      rcases hout with ⟨hs, hfound, d, diff', hdiff, hd, hout⟩ | ⟨hno, hout⟩
      · cases hout
        have hfound' : ¬ (inStereo = false ∨ (st.run Config.chip comp.samples).2.found = false) := by
          rw [hs, hfound]
          decide
        exact ⟨fun _ => hs, nofun, comp, sum, _, fm', mono', diff', _, _, _, rfl, hfm, hmono, rfl,
          fun _ _ => ⟨d, hdiff, rfl, rfl, hd, rfl, rfl⟩, fun h => absurd h hfound', rfl, hlevel, hvalid, fun _ => hfound⟩
      · cases hout
        refine ⟨nofun, fun hde _ => ?equal, comp, sum, _, fm', mono', diff, _, _, _, rfl, hfm, hmono, rfl,
          fun hs hfound => ?found, fun _ => ⟨rfl, rfl, rfl, rfl, rfl⟩, rfl, hlevel, hvalid, nofun⟩
        case equal => rw [hde]; rfl
        case found =>
          rw [hs, hfound] at hno
          exact absurd hno (by decide)
    | nbfm fm mono =>
      obtain ⟨y, z, fm', mono', hfm, hmono, hrun, hrate, hz⟩ := runNbfm_parts (c := Config.chip) hfits hx
      have hrun : (Chain.nbfm fm mono).run Config.chip _ inStereo s.drawNo = .ok _ := hrun
      rw [hlength] at hz
      obtain ⟨hlevel, hvalid⟩ := Config.signalLevelFm_bounds Config.chip.toTables fm'
      refine ⟨_, _, hrun, processBlock_ok hp heven hrun, hrate, hrate, rfl, Chain.fits_of_run hfits hrun,
        fun _ _ _ _ _ _ h => absurd h nofun, ?_, nofun⟩
      rintro _ _ ⟨⟩
      exact ⟨hz, rfl, rfl, y, fm', mono', rfl, hfm, hmono, rfl, hlevel, hvalid⟩
    | am am =>
      obtain ⟨y, am', ham, hrun, hrate, hy⟩ := runAm_parts (c := Config.chip) hfits hx s.drawNo
      have hrun : (Chain.am am).run Config.chip _ inStereo s.drawNo = .ok _ := hrun
      rw [hlength] at hy
      refine ⟨_, _, hrun, processBlock_ok hp heven hrun, hrate, hrate, rfl, Chain.fits_of_run hfits hrun,
        fun _ _ _ _ _ _ h => absurd h nofun, nofun, ?_⟩
      rintro _ ⟨⟩
      exact ⟨hy, rfl, rfl, am', rfl, ham, rfl, fun _ => amLevel_nonneg am'⟩

end Sys2Proof.Machine
end

section
/-! PROOFS. O40: the table of R306 row by row, and that an operation it does not allow is ignored (60_exceptions R306). -/

namespace Sys2Proof.Machine

section Allowed

variable {s : State}

/-! ## The table of R306 -/

theorem seqIdle_iff : s.seqIdle = true ↔ s.seq.op = .idle ∧ s.reads = [] := by
  rw [State.seqIdle, Bool.and_eq_true, beq_iff_eq, List.isEmpty_iff]

/-- What a sequence asks for that begins at rest and without a fault (R306). -/
theorem faultless_and_idle_iff {b : Bool} :
    (b && !s.fault && s.seqIdle) = true ↔ b = true ∧ s.fault = false ∧ s.seq.op = .idle ∧ s.reads = [] := by
  rw [Bool.and_eq_true, Bool.and_eq_true, Bool.not_eq_true', seqIdle_iff, and_assoc]

theorem rtlNew_allowed_iff : HostOp.rtlNew.allowed s = true ↔ s.opened = false := by
  rw [HostOp.allowed, Bool.not_eq_true']

theorem rtlOpen_allowed_iff : HostOp.rtlOpen.allowed s = true ↔
    s.opened = true ∧ s.claimed = false ∧ s.fault = false ∧ s.seq.op = .idle ∧ s.reads = [] := by
  rw [HostOp.allowed, faultless_and_idle_iff, Bool.and_eq_true, Bool.not_eq_true', and_assoc]

theorem rtlReadSamples_allowed_iff : HostOp.rtlReadSamples.allowed s = true ↔
    s.claimed = true ∧ s.fault = false ∧ s.seq.op = .idle ∧ s.reads.length ≤ 1 := by
  simp only [HostOp.allowed, Bool.and_eq_true, Bool.not_eq_true', beq_iff_eq, decide_eq_true_eq, and_assoc]
  exact and_congr_right' (and_congr_right' (and_congr_right' Nat.lt_succ_iff))

theorem rtlClose_allowed_iff : HostOp.rtlClose.allowed s = true ↔
    s.opened = true ∧ ((s.seq.op = .idle ∧ s.reads = []) ∨ s.fault = true) := by
  rw [HostOp.allowed, Bool.and_eq_true, Bool.or_eq_true, seqIdle_iff]

theorem closeDevice_allowed_iff : HostOp.closeDevice.allowed s = true ↔ s.opened = true ∧ s.claimed = false := by
  rw [HostOp.allowed, Bool.and_eq_true, Bool.not_eq_true']

theorem process_allowed_iff : HostOp.process.allowed s = true ↔ s.pipeline ≠ none := Option.isSome_iff_ne_none

/-! ## An operation that is not allowed -/

/-- `process` that is not allowed finds no pipeline (R48, R306). -/
theorem processBlock_invalid {c : Config.Params} {bytes echo : List Byte} {inStereo : Bool} {freqOffset : Rat}
    (ha : HostOp.process.allowed s = false) :
    processBlock c bytes inStereo freqOffset echo s = .next (takeError (invalidState .process) s) :=
  processBlock_noPipeline (Option.isSome_eq_false_iff.mp ha |> Option.isNone_iff_eq_none.mp)

/-- An operation of the host that is not allowed takes its `InvalidState` and does nothing else (R306). -/
theorem exec_invalid {i : Instr} {op : HostOp} (ho : hostOpOf i = some op) (ha : op.allowed s = false) :
    exec i s = .next (takeError (invalidState op) s) := by
  cases i
  case rtlNew => cases ho; exact runHostOp_invalid ha
  case rtlOpen => cases ho; exact runHostOp_invalid ha
  case rtlSetSampleRate => cases ho; exact runHostOp_invalid ha
  case rtlSetCenterFrequency => cases ho; exact runHostOp_invalid ha
  case rtlResetBuffer => cases ho; exact runHostOp_invalid ha
  case rtlReadSamples => cases ho; exact if_neg (Bool.eq_false_iff.mp ha)
  case rtlClose => cases ho; exact runHostOp_invalid ha
  case closeDevice => cases ho; exact runHostOp_invalid ha
  case process => cases ho; exact processBlock_invalid ha
  case msgProcess => cases ho; exact processBlock_invalid ha
  all_goals cases ho

end Allowed

/-- `set_mode` delivers no error (R306). -/
theorem installMode_errors {c : Config.Params} {mode : Mode} {s t : State} (ht : installMode c mode s = .next t) :
    t.errors = s.errors := by
  unfold installMode at ht
  split at ht
  · split at ht
    · cases ht; rfl
    · cases ht
  · cases ht

/-- Settles O40: the table by the `allowed_iff` lemmas, the operations by `exec_invalid`. -/
theorem invalidStateRule : Obligations.InvalidStateRule := by
  unfold Obligations.InvalidStateRule
  refine ⟨fun s => ?table, fun i op s ho ha => ⟨_, exec_invalid ho ha, invalidState_onlyDelivered op s⟩,
    fun mode s t ht => installMode_errors ht⟩
  case table =>
    exact ⟨rtlNew_allowed_iff, rtlOpen_allowed_iff, faultless_and_idle_iff, faultless_and_idle_iff, faultless_and_idle_iff,
      rtlReadSamples_allowed_iff, rtlClose_allowed_iff, closeDevice_allowed_iff, process_allowed_iff⟩

end Sys2Proof.Machine
end

section
/-! PROOFS. O41: what `takeError` leaves, by kind, and that an error ends the program it is raised in (60_exceptions R308 to R311, R315). -/

namespace Sys2Proof.Machine

/-! ## The kinds (R308, R311) -/

theorem setsFault_iff_code (k : ErrKind) : k.setsFault = true ↔ k.code = 3 ∨ k.code = 4 ∨ k.code = 5 := by
  cases k <;> decide

/-- Every kind but `InvalidState` is fatal where no handler is installed (R306, R311). -/
theorem fatalUnhandled_eq (k : ErrKind) : k.fatalUnhandled = decide (k ≠ .invalidState) := by
  cases k <;> rfl

theorem ne_invalidState_of_setsFault {k : ErrKind} (h : k.setsFault = true) : k ≠ .invalidState := by
  rintro rfl
  cases h

/-! ## Taking an error (R310, R311) -/

section Taken

variable (e : Err) (s : State)

/-- Whether the program has ended after an error. -/
theorem takeError_ended_eq : (takeError e s).ended =
    if e.kind = .invalidState then s.ended else s.ended || !s.handlerInstalled := by
  have hended : (takeError e s).ended = (s.ended || (!s.handlerInstalled && e.kind.fatalUnhandled)) := by
    unfold takeError
    split <;> rfl
  rw [hended, fatalUnhandled_eq]
  by_cases hk : e.kind = .invalidState
  · rw [if_pos hk, decide_eq_false (not_not_intro hk), Bool.and_false, Bool.or_false]
  · rw [if_neg hk, decide_eq_true hk, Bool.and_true]

variable {e}

/-- An error of a kind that sets `FAULT` (R310). -/
theorem takeError_eq_of_setsFault (he : e.kind.setsFault = true) : takeError e s = { s with
    fault := true
    seq := SeqPos.rest
    errors := s.errors ++ [{ kind := e.kind, info := e.info, pos := some s.seq }]
    ended := s.ended || !s.handlerInstalled } := by
  rw [takeError, if_pos he, deliver, fatalUnhandled_eq, decide_eq_true (ne_invalidState_of_setsFault he), Bool.and_true]

end Taken

/-- Settles O41: the error taken by its kind, and `runOp_raised` for the program that raises it. -/
theorem errorEntry : Obligations.ErrorEntry := by
  unfold Obligations.ErrorEntry
  refine ⟨setsFault_iff_code, fun e s he => takeError_eq_of_setsFault s he, fun e s he => takeError_onlyDelivered he s,
    takeError_ended_eq, fun m rest e s s1 hm => runOp_raised (Ctl.run_bind_error hm), fun s hh he e => ?handled,
    fun s he => if_pos he⟩
  case handled =>
    rw [takeError_ended_eq, hh, he]
    exact ite_self _

end Sys2Proof.Machine
end

section
/-! PROOFS. O20: a program that begins with `require i2cOpen` is refused while the bridge is closed (41_register_i2c_layer R158 to R161,
42_r820t_tuner R170, 70_reset_and_hazards R347). -/

namespace Sys2Proof.Machine

/-! ## Programs that need the bridge -/

/-- With the bridge closed the program is refused before it does anything (R347). -/
def Ctl.NeedsBridge {α : Type} (m : Ctl α) : Prop :=
  ∀ s : State, s.i2cOpen = false → m s = .error (.refused .bridgeClosed) s

/-- What follows is not reached. -/
theorem Ctl.NeedsBridge.bind {α β : Type} {m : Ctl α} {f : α → Ctl β} (h : Ctl.NeedsBridge m) : Ctl.NeedsBridge (m >>= f) :=
  fun s hs => Ctl.run_bind_error (h s hs)

theorem Ctl.NeedsBridge.runOp {m : Ctl Result} (h : Ctl.NeedsBridge m) {s : State} (hs : s.i2cOpen = false) :
    Sys2Proof.Machine.runOp m s = .refused .bridgeClosed := runOp_refused (h s hs)

theorem requireI2c_needsBridge : Ctl.NeedsBridge requireI2c := fun _ hs => requireI2c_closed hs

theorem i2cWrite_needsBridge (addr : Word16) (reg : Byte) (bytes : List Byte) : Ctl.NeedsBridge (i2cWrite addr reg bytes) :=
  requireI2c_needsBridge.bind

theorem i2cRead_needsBridge (addr : Word16) (reg : Byte) (n : Nat) : Ctl.NeedsBridge (i2cRead addr reg n) :=
  Ctl.NeedsBridge.bind (Ctl.NeedsBridge.bind requireI2c_needsBridge)

theorem writeMask_needsBridge (t : Triple) : Ctl.NeedsBridge (writeMask t) := requireI2c_needsBridge.bind

theorem writeEach_needsBridge : ∀ l : List Triple, Ctl.NeedsBridge (writeEach l)
  | [] => requireI2c_needsBridge
  | t :: _ => (writeMask_needsBridge t).bind

theorem writeTable_needsBridge (l : List Config.TableTriple) : Ctl.NeedsBridge (writeTable l) := writeEach_needsBridge _

theorem tunerRead_needsBridge (n : Nat) : Ctl.NeedsBridge (tunerRead n) := requireI2c_needsBridge.bind

section Parts

variable (c : Config.Params)

theorem tunerInit_needsBridge : Ctl.NeedsBridge (tunerInit c) := Ctl.NeedsBridge.bind requireI2c_needsBridge.bind

theorem calibrateFilter_needsBridge (firstAttempt : Bool) : Ctl.NeedsBridge (calibrateFilter c firstAttempt) :=
  requireI2c_needsBridge.bind

theorem setMux_needsBridge (freq : Nat) : Ctl.NeedsBridge (setMux c freq) := requireI2c_needsBridge.bind

theorem setFrequency_needsBridge (freq : Nat) : Ctl.NeedsBridge (setFrequency c freq) :=
  Ctl.NeedsBridge.bind requireI2c_needsBridge.bind

theorem setPll_needsBridge (freq : Nat) : Ctl.NeedsBridge (setPll c freq) :=
  Ctl.NeedsBridge.bind requireI2c_needsBridge.bind

theorem getPllLock_needsBridge (firstTry : Bool) : Ctl.NeedsBridge (getPllLock c firstTry) :=
  (tunerRead_needsBridge _).bind

theorem tunerClose_needsBridge : Ctl.NeedsBridge (tunerClose c) := (writeTable_needsBridge _).bind

end Parts

/-! ## The operations -/

section Operations

variable {i : Instr} {s : State} (hs : s.i2cOpen = false)

include hs

/-- The I2C operations of U2; a buffer write with no bytes is refused for its length (R158 to R161, R347). -/
theorem exec_i2cOp_closed (hi : isI2cOp i = true) (hne : ∀ addr reg, i ≠ .i2cWriteBuf addr reg []) :
    exec i s = .refused .bridgeClosed := by
  cases i
  case i2cWriteReg => exact (i2cWrite_needsBridge _ _ _).bind.runOp hs
  case i2cReadReg => exact (i2cRead_needsBridge _ _ _).bind.runOp hs
  case i2cReadBuf => exact (i2cRead_needsBridge _ _ _).bind.runOp hs
  case i2cWriteBuf addr reg bytes =>
    have hbytes : bytes ≠ [] := fun h => hne addr reg (h ▸ rfl)
    exact runOp_refused ((Ctl.run_bind_ok (require_ok (not_isEmpty_of_ne_nil hbytes) _ s)).trans
      ((i2cWrite_needsBridge addr reg bytes).bind s hs))
  all_goals cases hi

/-- The operations of U3 (R170). -/
theorem exec_tunerOp_closed (hi : isTunerOp i = true) : exec i s = .refused .bridgeClosed := by
  cases i
  case r820tWriteMask => exact (writeMask_needsBridge _).bind.runOp hs
  case r820tRead => exact (tunerRead_needsBridge _).bind.runOp hs
  case r820tWriteEach => exact (writeEach_needsBridge _).bind.runOp hs
  case r820tInit => exact (tunerInit_needsBridge _).bind.runOp hs
  case r820tCalibrateFilter => exact (calibrateFilter_needsBridge _ _).bind.runOp hs
  case r820tSetMux => exact (setMux_needsBridge _ _).bind.runOp hs
  case r820tSetFrequency => exact (setFrequency_needsBridge _ _).bind.runOp hs
  case r820tSetPll => exact (setPll_needsBridge _ _).bind.runOp hs
  case r820tGetPllLock => exact (getPllLock_needsBridge _ _).bind.runOp hs
  case r820tSetManualGain => exact (writeTable_needsBridge _).bind.runOp hs
  case r820tSetAutoGain => exact (writeTable_needsBridge _).bind.runOp hs
  case r820tClose => exact (tunerClose_needsBridge _).bind.runOp hs
  all_goals cases hi

end Operations

/-- Settles O20: each operation begins with a program that needs the bridge; what `rtl.set_sample_rate` leaves is
`afterSampleRate`, whose last write is the demodulator reset. -/
theorem bridgeClosedRefused : Obligations.BridgeClosedRefused := by
  unfold Obligations.BridgeClosedRefused
  refine ⟨fun i s hi hne hs => exec_i2cOp_closed hs hi hne, fun i s hi hs => exec_tunerOp_closed hs hi, fun ppm rate s => ?_⟩
  obtain ⟨-, -, hbyte⟩ := afterSampleRate_mem (c := Config.chip) (ppm := ppm) (rate := rate) (s := s)
  exact ⟨rfl, afterSampleRate_bridge, hbyte⟩

end Sys2Proof.Machine
end

section
/-! PROOFS. O43: all that is elementary on the control path keeps the data path; that the data path keeps the control path is
`exec_dataOutcome` (70_reset_and_hazards R331, R323). -/

namespace Sys2Proof.Machine

/-! ## The control path keeps the data path -/

section Data

variable {s u : State}

theorem sameData.stored (t : Target) (bytes : List Byte) (h : sameData s u) : sameData s (deviceStore t bytes u) := by
  cases t with
  | register base room => exact h
  | tuner => cases bytes <;> exact h
  | absent => exact h

theorem sameData.forgot (t : Target) (bytes : List Byte) (draw : Nat) (h : sameData s u) :
    sameData s (deviceForget t bytes draw u) := by
  cases t with
  | register base room => exact h
  | tuner => cases bytes <;> exact h
  | absent => exact h

theorem sameData.completeRead (r : ReadInFlight) (rest : List ReadInFlight) (h : sameData s u) :
    sameData s (Sys2Proof.Machine.completeRead r rest u) := by
  rw [completeRead_eq]
  split
  · exact takeError_sameData _ h
  · exact h

theorem sameData.completeOldest (h : sameData s u) : sameData s (Sys2Proof.Machine.completeOldest u) := by
  unfold Sys2Proof.Machine.completeOldest
  split
  · exact h
  · exact h.completeRead _ _

theorem sameData.carry (op : Instr) (ts : List Task) (h : sameData s u) : sameData s (u.carry op ts) := by
  unfold State.carry
  split <;> exact h

theorem sameData.recover (op : Instr) (e : Err) (rest : List Task) (h : sameData s u) :
    sameData s (Sys2Proof.Machine.recover op e rest u) := by
  have htaken := takeError_sameData e h
  unfold Sys2Proof.Machine.recover
  split
  · exact htaken
  · split
    · exact sameData.carry (u := (takeError e u).atPos _) op _ htaken
    · exact htaken

variable (s)

/-- All that is elementary on the control path keeps the data path as it was in `s`. -/
theorem sameData_stableHost : StableHost (sameData s) where
  issued _ _ h := h
  advanced _ h := h
  stored t bytes _ h := h.stored t bytes
  forgot t bytes draw _ h := h.forgot t bytes draw
  read t _ h := by cases t <;> exact h
  even _ _ _ h := h
  claim _ _ h := h
  release _ h := h
  bridge _ _ h := h
  noBridge _ h := h
  shadow _ _ h := h
  lock _ _ h := h
  notReady _ h := h
  ready _ _ h := h
  filter _ _ h := h
  xtal _ _ h := h
  rate _ _ h := h
  goto _ _ h := h
  closed _ h := h
  device _ h := h
  result _ _ h := h
  taken e _ _ h := takeError_sameData e h
  oldest r rest _ _ h := h.completeRead r rest
  at' _ _ h := h
  invalid op _ h := takeError_sameData (invalidState op) h
  issue _ _ _ _ h := h

variable {s} {t : State}

theorem exec_sameData {i : Instr} (hi : isDataPath i = false) (ht : exec i s = .next t) : sameData s t :=
  (sameData_stableHost s).control hi (fun _ _ _ _ _ h => h) (sameData_refl s) ht

theorem move_sameData (he : s.ended = false) (ht : move Config.chip s = .next t) : sameData s t := by
  have hbare : sameData s s.bare := sameData_refl s
  obtain ⟨rfl, -⟩ | ⟨op, x, rest, -, -, ⟨ts, u, rfl, hu⟩ | ⟨e, u, rfl, -, hu⟩⟩ :=
    move_cases (sameData_stableHost s).toStableTasks hbare he ht
  · exact sameData_refl _
  · exact hu.carry op _
  · exact hu.recover op e rest

/-! ## The data path keeps the control path -/

/-- The handling of a message takes it away, and leaves the control path as it was (R16 (b), R331). -/
theorem handleOldest_sameControl (hw : ∀ m ∈ s.messages, isMessage m = true) (ht : handleOldest s = .next t) :
    sameControl s t ∧ t.messages = s.messages.tail := by
  cases hm : s.messages with
  | nil =>
    rw [handleOldest_nil hm] at ht
    cases ht
    exact ⟨sameControl_refl s, hm⟩
  | cons m later =>
    rw [handleOldest_cons hm] at ht
    have hdata : isDataPath m = true := isDataPath_of_isMessage (hw m (hm ▸ List.mem_cons_self))
    obtain ⟨hcontrol, hmessages, -⟩ := exec_dataOutcome hdata _ t ht
    exact ⟨hcontrol, hmessages⟩

end Data

/-- Settles O43: `exec_dataOutcome` for the data path, `sameData_stableHost` for the control path. -/
theorem pathsAreIndependent : Obligations.PathsAreIndependent := by
  unfold Obligations.PathsAreIndependent
  refine ⟨fun i s t hi ht => ?data, fun s t hw ht => handleOldest_sameControl hw ht, fun i s t hi ht => exec_sameData hi ht,
    fun s => (sameData_refl s).completeOldest, fun s t he ht => move_sameData he ht⟩
  case data =>
    obtain ⟨hcontrol, hmessages, -⟩ := exec_dataOutcome hi s t ht
    exact ⟨hcontrol, hmessages⟩

end Sys2Proof.Machine
end
